-- ==== Sys2Proof/Word.lean ====
section
/-! DEFINITION. The word types: 32-bit words, bytes, register numbers (spec/00_scope.md R2, R12). -/

namespace Sys2Proof

/-- A register value, an address or an instruction word: 32 bits (R2, R6 `XLEN`). -/
abbrev Word := BitVec 32

/-- One byte of memory (R60). -/
abbrev Byte := BitVec 8

/-- A register number 0 to 31 (R20). -/
abbrev Reg := BitVec 5

end Sys2Proof
end

