-- ==== Sys2Proof/Syntax.lean ====
section
/-! DEFINITION. The instructions: one constructor per row of spec/opcode_table.json, with the operands of the assembler
form of that row (spec/30_encoding.md R126, R130). -/

namespace Sys2Proof

/-- The 37 instructions of the subset (R2), operands in assembler order.
Immediates are the encoded fields: 12 bits for I and S formats, 5 bits for a shift amount, the 20 upper bits for the
U format, and the signed byte offset `target - pc` for B (13 bits) and J (21 bits), whose bit 0 is not encoded and must
be 0 (`Instr.wellFormed`). -/
inductive Instr where
  -- U and J formats, and JALR
  | lui (rd : Reg) (imm20 : BitVec 20)
  | auipc (rd : Reg) (imm20 : BitVec 20)
  | jal (rd : Reg) (offset : BitVec 21)
  | jalr (rd rs1 : Reg) (imm : BitVec 12)
  -- branches
  | beq (rs1 rs2 : Reg) (offset : BitVec 13)
  | bne (rs1 rs2 : Reg) (offset : BitVec 13)
  | blt (rs1 rs2 : Reg) (offset : BitVec 13)
  | bge (rs1 rs2 : Reg) (offset : BitVec 13)
  | bltu (rs1 rs2 : Reg) (offset : BitVec 13)
  | bgeu (rs1 rs2 : Reg) (offset : BitVec 13)
  -- loads: op rd, imm(rs1)
  | lb (rd rs1 : Reg) (imm : BitVec 12)
  | lh (rd rs1 : Reg) (imm : BitVec 12)
  | lw (rd rs1 : Reg) (imm : BitVec 12)
  | lbu (rd rs1 : Reg) (imm : BitVec 12)
  | lhu (rd rs1 : Reg) (imm : BitVec 12)
  -- stores: op rs2, imm(rs1)
  | sb (rs2 rs1 : Reg) (imm : BitVec 12)
  | sh (rs2 rs1 : Reg) (imm : BitVec 12)
  | sw (rs2 rs1 : Reg) (imm : BitVec 12)
  -- register-immediate
  | addi (rd rs1 : Reg) (imm : BitVec 12)
  | slti (rd rs1 : Reg) (imm : BitVec 12)
  | sltiu (rd rs1 : Reg) (imm : BitVec 12)
  | xori (rd rs1 : Reg) (imm : BitVec 12)
  | ori (rd rs1 : Reg) (imm : BitVec 12)
  | andi (rd rs1 : Reg) (imm : BitVec 12)
  | slli (rd rs1 : Reg) (shamt : BitVec 5)
  | srli (rd rs1 : Reg) (shamt : BitVec 5)
  | srai (rd rs1 : Reg) (shamt : BitVec 5)
  -- register-register
  | add (rd rs1 rs2 : Reg)
  | sub (rd rs1 rs2 : Reg)
  | sll (rd rs1 rs2 : Reg)
  | slt (rd rs1 rs2 : Reg)
  | sltu (rd rs1 rs2 : Reg)
  | xor (rd rs1 rs2 : Reg)
  | srl (rd rs1 rs2 : Reg)
  | sra (rd rs1 rs2 : Reg)
  | or (rd rs1 rs2 : Reg)
  | and (rd rs1 rs2 : Reg)
  deriving DecidableEq, Repr

end Sys2Proof
end

