-- ==== Sys2Proof/WellFormed.lean ====
section
/-! DEFINITION. Which terms of Instr are instructions the hardware can encode. -/

namespace Sys2Proof

/-- Only the control transfers with an encoded offset can be ill-formed: bit 0 of a B or J offset has no place in the
word, so the offset must be even (spec/30_encoding.md R123, R130). -/
def Instr.wellFormed : Instr → Bool
  | .jal _ offset => !offset.getLsbD 0
  | .beq _ _ offset => !offset.getLsbD 0
  | .bne _ _ offset => !offset.getLsbD 0
  | .blt _ _ offset => !offset.getLsbD 0
  | .bge _ _ offset => !offset.getLsbD 0
  | .bltu _ _ offset => !offset.getLsbD 0
  | .bgeu _ _ offset => !offset.getLsbD 0
  | .lui _ _ => true
  | .auipc _ _ => true
  | .jalr _ _ _ => true
  | .lb _ _ _ => true
  | .lh _ _ _ => true
  | .lw _ _ _ => true
  | .lbu _ _ _ => true
  | .lhu _ _ _ => true
  | .sb _ _ _ => true
  | .sh _ _ _ => true
  | .sw _ _ _ => true
  | .addi _ _ _ => true
  | .slti _ _ _ => true
  | .sltiu _ _ _ => true
  | .xori _ _ _ => true
  | .ori _ _ _ => true
  | .andi _ _ _ => true
  | .slli _ _ _ => true
  | .srli _ _ _ => true
  | .srai _ _ _ => true
  | .add _ _ _ => true
  | .sub _ _ _ => true
  | .sll _ _ _ => true
  | .slt _ _ _ => true
  | .sltu _ _ _ => true
  | .xor _ _ _ => true
  | .srl _ _ _ => true
  | .sra _ _ _ => true
  | .or _ _ _ => true
  | .and _ _ _ => true

end Sys2Proof
end

