-- ==== Sys2Proof/Decode.lean ====
section
/-! DEFINITION. The decode function and the encoder (spec/30_encoding.md R120 to R127), and the reading of one
opcode-table word the host asks for. Every bit position is the spec's. -/

namespace Sys2Proof

/-! Byte order (spec/20_memory.md R62, R120): the byte at the lowest address holds bits 7:0. -/

/-- `bytesLE(v, n)` of R14: the low `n` bytes of `v`, least significant first. -/
def bytesLE (v : Word) : Nat → List Byte
  | 0 => []
  | n + 1 => v.setWidth 8 :: bytesLE (v >>> 8) n

/-- `LE(bytes)` of R14: the unsigned little-endian value of a byte sequence (of at most four bytes). -/
def wordLE : List Byte → Word
  | [] => 0
  | b :: bs => b.setWidth 32 ||| (wordLE bs <<< 8)

/-! The fields of R122. -/

def opcodeField (w : Word) : BitVec 7 := w.extractLsb' 0 7

def rdField (w : Word) : Reg := w.extractLsb' 7 5

def funct3Field (w : Word) : BitVec 3 := w.extractLsb' 12 3

def rs1Field (w : Word) : Reg := w.extractLsb' 15 5

def rs2Field (w : Word) : Reg := w.extractLsb' 20 5

def funct7Field (w : Word) : BitVec 7 := w.extractLsb' 25 7

/-! The immediate fields of R123, before extension. -/

/-- `word[31:20]` -/
def immIField (w : Word) : BitVec 12 := w.extractLsb' 20 12

/-- `word[31:25] ++ word[11:7]` -/
def immSField (w : Word) : BitVec 12 := (w.extractLsb' 25 7 ++ w.extractLsb' 7 5 : BitVec (7 + 5))

/-- `word[31] ++ word[7] ++ word[30:25] ++ word[11:8] ++ 0` -/
def immBField (w : Word) : BitVec 13 :=
  (w.extractLsb' 31 1 ++ w.extractLsb' 7 1 ++ w.extractLsb' 25 6 ++ w.extractLsb' 8 4 ++ 0#1 : BitVec (1 + 1 + 6 + 4 + 1))

/-- `word[31:12]` -/
def immUField (w : Word) : BitVec 20 := w.extractLsb' 12 20

/-- `word[31] ++ word[19:12] ++ word[20] ++ word[30:21] ++ 0` -/
def immJField (w : Word) : BitVec 21 :=
  (w.extractLsb' 31 1 ++ w.extractLsb' 12 8 ++ w.extractLsb' 20 1 ++ w.extractLsb' 21 10 ++ 0#1 :
    BitVec (1 + 8 + 1 + 10 + 1))

/-! The table of R126. -/

/-- One row of R126: a word is this row's instruction exactly when `word & mask = pattern` (the spec's `match`). `build`
pulls the operands out of the word (R123, R124). -/
structure OpcodeRow where
  mask : Word
  pattern : Word
  build : Word → Instr

/-- Does the row select the word (R126)? -/
def rowSelects (w : Word) (row : OpcodeRow) : Bool := w &&& row.mask == row.pattern

/-- The rows of R126 for LUI, AUIPC, JAL, JALR. -/
def rowsUpperJump : List OpcodeRow :=
  [ { mask := 0x0000007F#32, pattern := 0x00000037#32, build := fun w => .lui (rdField w) (immUField w) },
    { mask := 0x0000007F#32, pattern := 0x00000017#32, build := fun w => .auipc (rdField w) (immUField w) },
    { mask := 0x0000007F#32, pattern := 0x0000006F#32, build := fun w => .jal (rdField w) (immJField w) },
    { mask := 0x0000707F#32, pattern := 0x00000067#32, build := fun w => .jalr (rdField w) (rs1Field w) (immIField w) } ]

/-- The rows of R126 for the branches. -/
def rowsBranch : List OpcodeRow :=
  [ { mask := 0x0000707F#32, pattern := 0x00000063#32, build := fun w => .beq (rs1Field w) (rs2Field w) (immBField w) },
    { mask := 0x0000707F#32, pattern := 0x00001063#32, build := fun w => .bne (rs1Field w) (rs2Field w) (immBField w) },
    { mask := 0x0000707F#32, pattern := 0x00004063#32, build := fun w => .blt (rs1Field w) (rs2Field w) (immBField w) },
    { mask := 0x0000707F#32, pattern := 0x00005063#32, build := fun w => .bge (rs1Field w) (rs2Field w) (immBField w) },
    { mask := 0x0000707F#32, pattern := 0x00006063#32, build := fun w => .bltu (rs1Field w) (rs2Field w) (immBField w) },
    { mask := 0x0000707F#32, pattern := 0x00007063#32, build := fun w => .bgeu (rs1Field w) (rs2Field w) (immBField w) } ]

/-- The rows of R126 for the loads. -/
def rowsLoad : List OpcodeRow :=
  [ { mask := 0x0000707F#32, pattern := 0x00000003#32, build := fun w => .lb (rdField w) (rs1Field w) (immIField w) },
    { mask := 0x0000707F#32, pattern := 0x00001003#32, build := fun w => .lh (rdField w) (rs1Field w) (immIField w) },
    { mask := 0x0000707F#32, pattern := 0x00002003#32, build := fun w => .lw (rdField w) (rs1Field w) (immIField w) },
    { mask := 0x0000707F#32, pattern := 0x00004003#32, build := fun w => .lbu (rdField w) (rs1Field w) (immIField w) },
    { mask := 0x0000707F#32, pattern := 0x00005003#32, build := fun w => .lhu (rdField w) (rs1Field w) (immIField w) } ]

/-- The rows of R126 for the stores. -/
def rowsStore : List OpcodeRow :=
  [ { mask := 0x0000707F#32, pattern := 0x00000023#32, build := fun w => .sb (rs2Field w) (rs1Field w) (immSField w) },
    { mask := 0x0000707F#32, pattern := 0x00001023#32, build := fun w => .sh (rs2Field w) (rs1Field w) (immSField w) },
    { mask := 0x0000707F#32, pattern := 0x00002023#32, build := fun w => .sw (rs2Field w) (rs1Field w) (immSField w) } ]

/-- The rows of R126 for the register-immediate instructions. -/
def rowsImmediate : List OpcodeRow :=
  [ { mask := 0x0000707F#32, pattern := 0x00000013#32, build := fun w => .addi (rdField w) (rs1Field w) (immIField w) },
    { mask := 0x0000707F#32, pattern := 0x00002013#32, build := fun w => .slti (rdField w) (rs1Field w) (immIField w) },
    { mask := 0x0000707F#32, pattern := 0x00003013#32, build := fun w => .sltiu (rdField w) (rs1Field w) (immIField w) },
    { mask := 0x0000707F#32, pattern := 0x00004013#32, build := fun w => .xori (rdField w) (rs1Field w) (immIField w) },
    { mask := 0x0000707F#32, pattern := 0x00006013#32, build := fun w => .ori (rdField w) (rs1Field w) (immIField w) },
    { mask := 0x0000707F#32, pattern := 0x00007013#32, build := fun w => .andi (rdField w) (rs1Field w) (immIField w) },
    { mask := 0xFE00707F#32, pattern := 0x00001013#32, build := fun w => .slli (rdField w) (rs1Field w) (rs2Field w) },
    { mask := 0xFE00707F#32, pattern := 0x00005013#32, build := fun w => .srli (rdField w) (rs1Field w) (rs2Field w) },
    { mask := 0xFE00707F#32, pattern := 0x40005013#32, build := fun w => .srai (rdField w) (rs1Field w) (rs2Field w) } ]

/-- The rows of R126 for the register-register instructions. -/
def rowsRegister : List OpcodeRow :=
  [ { mask := 0xFE00707F#32, pattern := 0x00000033#32, build := fun w => .add (rdField w) (rs1Field w) (rs2Field w) },
    { mask := 0xFE00707F#32, pattern := 0x40000033#32, build := fun w => .sub (rdField w) (rs1Field w) (rs2Field w) },
    { mask := 0xFE00707F#32, pattern := 0x00001033#32, build := fun w => .sll (rdField w) (rs1Field w) (rs2Field w) },
    { mask := 0xFE00707F#32, pattern := 0x00002033#32, build := fun w => .slt (rdField w) (rs1Field w) (rs2Field w) },
    { mask := 0xFE00707F#32, pattern := 0x00003033#32, build := fun w => .sltu (rdField w) (rs1Field w) (rs2Field w) },
    { mask := 0xFE00707F#32, pattern := 0x00004033#32, build := fun w => .xor (rdField w) (rs1Field w) (rs2Field w) },
    { mask := 0xFE00707F#32, pattern := 0x00005033#32, build := fun w => .srl (rdField w) (rs1Field w) (rs2Field w) },
    { mask := 0xFE00707F#32, pattern := 0x40005033#32, build := fun w => .sra (rdField w) (rs1Field w) (rs2Field w) },
    { mask := 0xFE00707F#32, pattern := 0x00006033#32, build := fun w => .or (rdField w) (rs1Field w) (rs2Field w) },
    { mask := 0xFE00707F#32, pattern := 0x00007033#32, build := fun w => .and (rdField w) (rs1Field w) (rs2Field w) } ]

/-- The complete table of R126, in its order. -/
def opcodeTable : List OpcodeRow :=
  rowsUpperJump ++ rowsBranch ++ rowsLoad ++ rowsStore ++ rowsImmediate ++ rowsRegister

/-- The selection of `Decode` (R121): the row whose mask and match fit, `none` where no row fits (R127). -/
def decodeWord (w : Word) : Option Instr := (opcodeTable.find? (rowSelects w)).map fun row => row.build w

/-- Why bytes do not decode. -/
inductive DecodeError where
  /-- No row of R126 selects the word (R127): the fetch stage turns it into a `DecodeFault` (R271). -/
  | noRow (word : Word)
  /-- Fewer than the four bytes of an instruction (R120). -/
  | truncated
  deriving DecidableEq, Repr

/-- Decoding any bytes: four of them are one little-endian word (R120); the rest is returned. -/
def decodeBytes : List Byte → Except DecodeError (Instr × List Byte)
  | b0 :: b1 :: b2 :: b3 :: rest =>
    match decodeWord (wordLE [b0, b1, b2, b3]) with
    | some i => .ok (i, rest)
    | none => .error (.noRow (wordLE [b0, b1, b2, b3]))
  | _ => .error .truncated

/-! The encoder, written from the formats of R122. -/

def encodeR (funct7 : BitVec 7) (rs2 rs1 : Reg) (funct3 : BitVec 3) (rd : Reg) (opcode : BitVec 7) : Word :=
  (funct7 ++ rs2 ++ rs1 ++ funct3 ++ rd ++ opcode : BitVec (7 + 5 + 5 + 3 + 5 + 7))

def encodeI (imm : BitVec 12) (rs1 : Reg) (funct3 : BitVec 3) (rd : Reg) (opcode : BitVec 7) : Word :=
  (imm ++ rs1 ++ funct3 ++ rd ++ opcode : BitVec (12 + 5 + 3 + 5 + 7))

def encodeS (imm : BitVec 12) (rs2 rs1 : Reg) (funct3 : BitVec 3) (opcode : BitVec 7) : Word :=
  (imm.extractLsb' 5 7 ++ rs2 ++ rs1 ++ funct3 ++ imm.extractLsb' 0 5 ++ opcode : BitVec (7 + 5 + 5 + 3 + 5 + 7))

def encodeB (offset : BitVec 13) (rs2 rs1 : Reg) (funct3 : BitVec 3) (opcode : BitVec 7) : Word :=
  (offset.extractLsb' 12 1 ++ offset.extractLsb' 5 6 ++ rs2 ++ rs1 ++ funct3 ++ offset.extractLsb' 1 4 ++
    offset.extractLsb' 11 1 ++ opcode : BitVec (1 + 6 + 5 + 5 + 3 + 4 + 1 + 7))

def encodeU (imm20 : BitVec 20) (rd : Reg) (opcode : BitVec 7) : Word :=
  (imm20 ++ rd ++ opcode : BitVec (20 + 5 + 7))

def encodeJ (offset : BitVec 21) (rd : Reg) (opcode : BitVec 7) : Word :=
  (offset.extractLsb' 20 1 ++ offset.extractLsb' 1 10 ++ offset.extractLsb' 11 1 ++ offset.extractLsb' 12 8 ++ rd ++
    opcode : BitVec (1 + 10 + 1 + 8 + 5 + 7))

/-- The word of an instruction (R122, R126). Bit 0 of a branch or JAL offset is not encoded. -/
def encode : Instr → Word
  | .lui rd imm20 => encodeU imm20 rd 0x37#7
  | .auipc rd imm20 => encodeU imm20 rd 0x17#7
  | .jal rd offset => encodeJ offset rd 0x6F#7
  | .jalr rd rs1 imm => encodeI imm rs1 0b000#3 rd 0x67#7
  | .beq rs1 rs2 offset => encodeB offset rs2 rs1 0b000#3 0x63#7
  | .bne rs1 rs2 offset => encodeB offset rs2 rs1 0b001#3 0x63#7
  | .blt rs1 rs2 offset => encodeB offset rs2 rs1 0b100#3 0x63#7
  | .bge rs1 rs2 offset => encodeB offset rs2 rs1 0b101#3 0x63#7
  | .bltu rs1 rs2 offset => encodeB offset rs2 rs1 0b110#3 0x63#7
  | .bgeu rs1 rs2 offset => encodeB offset rs2 rs1 0b111#3 0x63#7
  | .lb rd rs1 imm => encodeI imm rs1 0b000#3 rd 0x03#7
  | .lh rd rs1 imm => encodeI imm rs1 0b001#3 rd 0x03#7
  | .lw rd rs1 imm => encodeI imm rs1 0b010#3 rd 0x03#7
  | .lbu rd rs1 imm => encodeI imm rs1 0b100#3 rd 0x03#7
  | .lhu rd rs1 imm => encodeI imm rs1 0b101#3 rd 0x03#7
  | .sb rs2 rs1 imm => encodeS imm rs2 rs1 0b000#3 0x23#7
  | .sh rs2 rs1 imm => encodeS imm rs2 rs1 0b001#3 0x23#7
  | .sw rs2 rs1 imm => encodeS imm rs2 rs1 0b010#3 0x23#7
  | .addi rd rs1 imm => encodeI imm rs1 0b000#3 rd 0x13#7
  | .slti rd rs1 imm => encodeI imm rs1 0b010#3 rd 0x13#7
  | .sltiu rd rs1 imm => encodeI imm rs1 0b011#3 rd 0x13#7
  | .xori rd rs1 imm => encodeI imm rs1 0b100#3 rd 0x13#7
  | .ori rd rs1 imm => encodeI imm rs1 0b110#3 rd 0x13#7
  | .andi rd rs1 imm => encodeI imm rs1 0b111#3 rd 0x13#7
  | .slli rd rs1 shamt => encodeR 0b0000000#7 shamt rs1 0b001#3 rd 0x13#7
  | .srli rd rs1 shamt => encodeR 0b0000000#7 shamt rs1 0b101#3 rd 0x13#7
  | .srai rd rs1 shamt => encodeR 0b0100000#7 shamt rs1 0b101#3 rd 0x13#7
  | .add rd rs1 rs2 => encodeR 0b0000000#7 rs2 rs1 0b000#3 rd 0x33#7
  | .sub rd rs1 rs2 => encodeR 0b0100000#7 rs2 rs1 0b000#3 rd 0x33#7
  | .sll rd rs1 rs2 => encodeR 0b0000000#7 rs2 rs1 0b001#3 rd 0x33#7
  | .slt rd rs1 rs2 => encodeR 0b0000000#7 rs2 rs1 0b010#3 rd 0x33#7
  | .sltu rd rs1 rs2 => encodeR 0b0000000#7 rs2 rs1 0b011#3 rd 0x33#7
  | .xor rd rs1 rs2 => encodeR 0b0000000#7 rs2 rs1 0b100#3 rd 0x33#7
  | .srl rd rs1 rs2 => encodeR 0b0000000#7 rs2 rs1 0b101#3 rd 0x33#7
  | .sra rd rs1 rs2 => encodeR 0b0100000#7 rs2 rs1 0b101#3 rd 0x33#7
  | .or rd rs1 rs2 => encodeR 0b0000000#7 rs2 rs1 0b110#3 rd 0x33#7
  | .and rd rs1 rs2 => encodeR 0b0000000#7 rs2 rs1 0b111#3 rd 0x33#7

/-- The host's question: the instruction this decoder reads from an instruction whose bits are `w` (bit 0 the least
significant bit of the word; bits from `nbits` up are 0), stored as the hardware stores it, little-endian. -/
def decodeTableWord (nbits w : Nat) : Option Instr :=
  match decodeBytes (bytesLE (BitVec.ofNat 32 (w % 2 ^ nbits)) 4) with
  | .ok (i, _) => some i
  | .error _ => none

end Sys2Proof
end

