-- ==== Sys2Proof/Config.lean ====
section
/-! DEFINITION. The implementation parameters (spec/00_scope.md R6) and the constraints on them (R7). The spec names no
value that an instruction leaves undefined (spec/93_implementation_defined.md, part 1), so there is no free value here. -/

namespace Sys2Proof

/-- The geometry of one cache: way count `W`, set count `S`, line size `B` in bytes (R6, spec/21_cache.md R90). -/
structure Geometry where
  ways : Nat
  sets : Nat
  lineSize : Nat
  deriving DecidableEq, Repr

/-- The parameters that stay fixed during a run (R6). `XLEN = 32`, `NREG = 32` and the FIFO eviction policy are fixed by
the spec and so are no parameters. -/
structure Config where
  /-- `MEM_SIZE`, the size of the backing store in bytes -/
  memSize : Nat
  /-- `L`, the access latency of the backing store in cycles -/
  latency : Nat
  /-- `W_I, S_I, B_I` -/
  icache : Geometry
  /-- `W_D, S_D, B_D` -/
  dcache : Geometry
  /-- `FB`, bytes per beat between a cache and the store -/
  fillBeat : Nat
  /-- `PB`, bytes per beat between the memory stage and the data cache -/
  portBeat : Nat
  deriving DecidableEq, Repr

/-- A beat width is one of 1, 2, 4 bytes (R7). -/
def isBeatWidth (n : Nat) : Bool := n == 1 || n == 2 || n == 4

/-- The constraints of R7 on one cache's geometry: at least one way, a power of two of sets, a line that is a multiple
of 4 and of the fill beat (and not empty), and a store that is a whole number of lines. -/
def Geometry.legal (g : Geometry) (fillBeat memSize : Nat) : Bool :=
  decide (1 ≤ g.ways) && decide (1 ≤ g.sets) && g.sets == 2 ^ g.sets.log2 &&
    decide (1 ≤ g.lineSize) && g.lineSize % 4 == 0 && g.lineSize % fillBeat == 0 && memSize % g.lineSize == 0

/-- The constraints of R7; a configuration that violates one is refused. -/
def Config.legal (c : Config) : Bool :=
  decide (1 ≤ c.latency) && isBeatWidth c.fillBeat && isBeatWidth c.portBeat && decide (c.memSize ≤ 2 ^ 32) &&
    c.icache.legal c.fillBeat c.memSize && c.dcache.legal c.fillBeat c.memSize

/-- The configuration of `State.reset`. DESIGN CHOICE, unsafe (notes/assumptions/2.md): the spec leaves every parameter
open. The latency, the geometries and the two beat widths are those of the spec's own test configuration T0
(spec/95_test_vectors.md, section 0); the store covers the whole 32-bit address space. -/
def Config.standard : Config where
  memSize := 2 ^ 32
  latency := 2
  icache := { ways := 2, sets := 2, lineSize := 8 }
  dcache := { ways := 2, sets := 2, lineSize := 8 }
  fillBeat := 2
  portBeat := 2

end Sys2Proof
end

