-- ==== Sys2Proof/Machine/State.lean ====
section
/-! DEFINITION. The state of the machine as plain data: every element of spec/10_state.md R45, the fault and refusal
reasons, and the state after reset. -/

namespace Sys2Proof.Machine

/-! ## Registers -/

/-- One register-file entry: a value and a validity bit (R20). The value of an invalid entry is never read (R23, R258):
DESIGN CHOICE 0 at reset, notes/assumptions/5.md. -/
structure RegEntry where
  value : Word
  valid : Bool
  deriving DecidableEq, Repr

/-! ## The in-flight instruction record (R30) -/

/-- The `op` field of R30: one of the 37 mnemonics; it selects the execute rule (R121, R140). -/
inductive Op where
  | lui | auipc | jal | jalr | beq | bne | blt | bge | bltu | bgeu
  | lb | lh | lw | lbu | lhu | sb | sh | sw | addi | slti
  | sltiu | xori | ori | andi | slli | srli | srai | add | sub | sll
  | slt | sltu | xor | srl | sra | or | and
  deriving DecidableEq, Repr

/-- The `fmt` field of R30: the encoding format (R122). -/
inductive Format where
  | R | I | S | B | U | J
  deriving DecidableEq, Repr

/-- The instruction record, field by field as the table of R30. `none` is the absent register. -/
structure Record where
  pc : Word
  word : Word
  op : Op
  fmt : Format
  rd : Option Reg
  rs1 : Option Reg
  rs2 : Option Reg
  imm : Word
  isLoad : Bool
  isStore : Bool
  size : Nat
  loadSigned : Bool
  v1 : Word
  v2 : Word
  res : Word
  nextPc : Word
  addr : Word
  deriving DecidableEq, Repr

/-- A pipeline latch: two slots, each a record or `empty` (R32). -/
structure Latch where
  pending : Option Record
  cur : Option Record
  deriving DecidableEq, Repr

/-! ## Hazard and forwarding wires (R35) -/

/-- A bypass record: a destination tag (or none) and a value (R254, R255). -/
structure Bypass where
  tag : Option Reg
  value : Word
  deriving DecidableEq, Repr

/-- The classification of R257. -/
inductive BypassClass where
  | none | mem | exe | both
  deriving DecidableEq, Repr

/-- The wires of R35. They are computed in a cycle and cleared at its end (R230), so at every cycle boundary they equal
`Wires.cleared`. A mask is a set of register numbers, held as a list of at most one (notes/assumptions/12.md). -/
structure Wires where
  stallEM : Bool
  stallDE : Bool
  stallFD : Bool
  dataHazard : Bool
  flush : Bool
  flushTarget : Word
  maskE : List Reg
  maskM : List Reg
  bypE : Bypass
  bypM : Bypass
  bypClass : BypassClass
  deriving DecidableEq, Repr

/-- The cleared value of every wire (R35, R230). -/
def Wires.cleared : Wires where
  stallEM := false
  stallDE := false
  stallFD := false
  dataHazard := false
  flush := false
  flushTarget := 0
  maskE := []
  maskM := []
  bypE := { tag := .none, value := 0 }
  bypM := { tag := .none, value := 0 }
  bypClass := .none

/-! ## Backing store (R36) and caches (R37) -/

/-- A client of the backing store: the instruction cache or the data cache (R36 `owner`, R68). -/
inductive Client where
  | I | D
  deriving DecidableEq, Repr

/-- The kind of a request: read or write (R36, R37). -/
inductive Access where
  | R | W
  deriving DecidableEq, Repr

/-- The backing store: the bytes and the one request slot (R36). `mem` is in canonical form: addresses strictly rising,
no entry that equals what an unlisted address reads as (0, notes/assumptions/4.md). -/
structure Store where
  mem : List Host.Cell
  pending : Bool
  complete : Bool
  owner : Option Client
  kind : Access
  addr : Word
  n : Nat
  value : Word
  result : Word
  countdown : Nat
  deriving DecidableEq, Repr

/-- A cache line (R37 (a)). -/
structure Line where
  data : List Byte
  addr : Word
  valid : Bool
  dirty : Bool
  deriving DecidableEq, Repr

/-- The top-level request slot of a cache (R37 (c)). -/
structure Request where
  active : Bool
  complete : Bool
  kind : Access
  addr : Word
  n : Nat
  value : Word
  result : Word
  deriving DecidableEq, Repr

/-- The kind of a line transaction: write-back or fill (R37 (d)). -/
inductive TransactionKind where
  | WB | FILL
  deriving DecidableEq, Repr

/-- A line transaction (R37 (d)). -/
structure Transaction where
  kind : TransactionKind
  set : Nat
  way : Nat
  addr : Word
  done : Nat
  outstanding : Bool
  deriving DecidableEq, Repr

/-- One cache: `lines[s][w]`, `fifo[s]`, the top-level request and the line transaction queue (R37). -/
structure Cache where
  lines : List (List Line)
  fifo : List Nat
  req : Request
  queue : List Transaction
  deriving DecidableEq, Repr

/-! ## Counters (R29) -/

/-- The eight counters, unbounded naturals (R29, U22). -/
structure Counters where
  cycles : Nat
  retired : Nat
  dataStalls : Nat
  memStalls : Nat
  mispredicts : Nat
  multi : Nat
  created : Nat
  flushed : Nat
  deriving DecidableEq, Repr

/-! ## Faults and refusals -/

/-- The unit a `ContentionFault` names (R277). -/
inductive MemUnit where
  | store | icache | dcache
  deriving DecidableEq, Repr

/-- The fault record of R39 and R270: the kind is the constructor, `cycle` the zero-based index of the cycle, then the
recorded `pc` and `info`. A fault ends the run (R276): it is the spec's own outcome, so stopping here is safe. -/
inductive Fault where
  /-- code 1: raised by the fetch stage when a delivered word matches no row of R126 (R271); at the instruction level by
  the fetch of such a word. Safe: the spec gives exactly this outcome. -/
  | decode (cycle : Nat) (pc word : Word)
  /-- code 2: raised by the store when it performs an access beyond `MEM_SIZE` (R272); at the instruction level by a
  fetch, load or store beyond `MEM_SIZE`. Safe: the spec gives exactly this outcome. -/
  | outOfRange (cycle : Nat) (pc addr : Word) (n : Nat) (owner : Option Client)
  /-- code 3: raised by the decode stage when it takes an operand from an invalid register (R23, R258, R273), after which
  the machine is halted (R276); at the instruction level by the instruction that names it. Safe: the spec gives exactly this
  outcome. -/
  | invalidRegister (cycle : Nat) (pc : Word) (reg : Reg)
  /-- code 4: raised by the memory stage before the first beat of a misaligned load or store (R274). Safe: the spec gives
  exactly this outcome. -/
  | misalignedAccess (cycle : Nat) (pc addr : Word) (size : Nat)
  /-- code 5: raised by the fetch stage when it would request a `pc` that is no multiple of 4 (R275). Safe: the spec
  gives exactly this outcome. -/
  | misalignedFetch (cycle : Nat) (pc : Word)
  /-- code 6: raised by a send to a busy unit or a request across a line end (R277, R93); the spec calls it unreachable.
  Safe: the spec gives exactly this outcome. -/
  | contention (cycle : Nat) (busyUnit : MemUnit)
  deriving DecidableEq, Repr

/-- Why the model gives no outcome. -/
inductive Refusal where
  /-- Raised by exec's arm of an instruction that has no meaning yet (none in this model). Safe: nothing is claimed. -/
  | notModelled (mnemonic : String)
  /-- Raised by step and by the reset operation on a configuration that violates R7: the spec refuses it and gives it no
  meaning. Safe: nothing is claimed. -/
  | illegalConfiguration
  /-- Raised by the reset operation on an image whose length is not `MEM_SIZE` (R296). Safe: nothing is claimed. -/
  | imageLength
  deriving DecidableEq, Repr

/-! ## The state -/

/-- Which of the two levels of meaning of spec/00_scope.md R11 one step is. DESIGN CHOICE, safe
(notes/assumptions/7.md): the model's own selector, no part of the hardware; no step changes it and it is `cycle` at
reset. -/
inductive Level where
  /-- one clock edge of the hardware (R8, R220) -/
  | cycle
  /-- one instruction, fetched, decoded, executed and committed alone in program order (R11) -/
  | instruction
  deriving DecidableEq, Repr

/-- The complete state: the table of R45, and the two fields of the model's own, `cfg` (notes/assumptions/1.md) and
`level` (notes/assumptions/7.md). -/
structure State where
  cfg : Config
  level : Level
  regs : Vector RegEntry 32
  pc : Word
  fetchPending : Bool
  fd : Latch
  de : Latch
  em : Latch
  mw : Latch
  mBeat : Nat
  mWaiting : Bool
  mAcc : Word
  wires : Wires
  store : Store
  icache : Cache
  dcache : Cache
  counters : Counters
  fault : Option Fault
  deriving DecidableEq, Repr

/-! ## Reset (R45, spec/70_reset_and_hazards.md R295) -/

/-- Both slots `empty` (R33). -/
def Latch.empty : Latch := { pending := none, cur := none }

/-- A line after reset: invalid and clean; `data` and `addr` are don't-care (R37), DESIGN CHOICE zeros,
notes/assumptions/6.md. -/
def Line.reset (lineSize : Nat) : Line :=
  { data := List.replicate lineSize 0, addr := 0, valid := false, dirty := false }

/-- A request slot after reset: inactive; the payload is don't-care (R37), DESIGN CHOICE zeros, notes/assumptions/6.md. -/
def Request.reset : Request :=
  { active := false, complete := false, kind := .R, addr := 0, n := 0, value := 0, result := 0 }

/-- A cache after reset (R37). -/
def Cache.reset (g : Geometry) : Cache where
  lines := List.replicate g.sets (List.replicate g.ways (Line.reset g.lineSize))
  fifo := List.replicate g.sets 0
  req := Request.reset
  queue := []

/-- The store after reset with the given bytes (R36); the payload is don't-care, DESIGN CHOICE zeros,
notes/assumptions/6.md. -/
def Store.reset (mem : List Host.Cell) : Store where
  mem := mem
  pending := false
  complete := false
  owner := none
  kind := .R
  addr := 0
  n := 0
  value := 0
  result := 0
  countdown := 0

/-- All counters 0 (R29). -/
def Counters.reset : Counters :=
  { cycles := 0, retired := 0, dataStalls := 0, memStalls := 0, mispredicts := 0, multi := 0, created := 0, flushed := 0 }

/-- The register file after reset (R23): x0 is 0 and valid, x1, x2, x8 hold their seeds, every other entry is invalid. -/
def resetRegs (ra sp fp : Word) : Vector RegEntry 32 :=
  ((((Vector.replicate 32 { value := 0, valid := false : RegEntry }).set 0 { value := 0, valid := true }).set 1
    { value := ra, valid := true }).set 2 { value := sp, valid := true }).set 8 { value := fp, valid := true }

/-- The state the reset operation leaves (R45, R295) for legal arguments; `mem` are the image's bytes in canonical form. -/
def State.resetWith (cfg : Config) (mem : List Host.Cell) (entry ra sp fp : Word) : State where
  cfg := cfg
  level := .cycle
  regs := resetRegs ra sp fp
  pc := entry
  fetchPending := false
  fd := Latch.empty
  de := Latch.empty
  em := Latch.empty
  mw := Latch.empty
  mBeat := 0
  mWaiting := false
  mAcc := 0
  wires := Wires.cleared
  store := Store.reset mem
  icache := Cache.reset cfg.icache
  dcache := Cache.reset cfg.dcache
  counters := Counters.reset
  fault := none

/-- The machine right after reset. The configuration (notes/assumptions/2.md) and the reset arguments, an all-zero image,
`ENTRY = RA_INIT = SP_INIT = FP_INIT = 0` (notes/assumptions/3.md), are DESIGN CHOICE, unsafe: the spec leaves them open. -/
def State.reset : State := State.resetWith Config.standard [] 0 0 0 0

end Sys2Proof.Machine
end

