-- ==== Sys2Proof/Machine/Ops.lean ====
section
/-! DEFINITION. The named operations over memory, registers, the fault record and the backing store. -/

namespace Sys2Proof.Machine

/-! ## Memory bytes

`store.mem` of R36 as a canonical list; every wider access is built from `readCell` and `writeCell`. -/

/-- The byte at an address. An unlisted address reads as 0 (the all-zero image of `State.reset`): DESIGN CHOICE, unsafe,
notes/assumptions/4.md. -/
def readCell : List Host.Cell → Nat → Byte
  | [], _ => 0
  | (k, b) :: rest, a => if k = a then b else readCell rest a

/-- Write one byte, keeping the canonical form: writing 0 removes the entry. -/
def writeCell : List Host.Cell → Nat → Byte → List Host.Cell
  | [], a, v => if v = 0 then [] else [(a, v)]
  | (k, b) :: rest, a, v =>
    if a < k then (if v = 0 then (k, b) :: rest else (a, v) :: (k, b) :: rest)
    else if a = k then (if v = 0 then rest else (a, v) :: rest)
    else (k, b) :: writeCell rest a v

/-- The canonical form: addresses strictly rising, no entry equal to what an unlisted address reads as. -/
def Memory.wf : List Host.Cell → Bool
  | [] => true
  | [(_, b)] => b != 0
  | (a, b) :: (a', b') :: rest => b != 0 && decide (a < a') && Memory.wf ((a', b') :: rest)

/-- The bytes `mem[a] .. mem[a+n-1]`. -/
def readBytes (mem : List Host.Cell) (a : Nat) : Nat → List Byte
  | 0 => []
  | n + 1 => readCell mem a :: readBytes mem (a + 1) n

/-- Write bytes at `a, a+1, ...`. -/
def writeBytes (mem : List Host.Cell) (a : Nat) : List Byte → List Host.Cell
  | [] => mem
  | b :: bs => writeBytes (writeCell mem a b) (a + 1) bs

/-- The canonical memory of an image's bytes from address `a` on (R36, `mem = IMAGE`). -/
def imageCells : List Byte → Nat → List Host.Cell
  | [], _ => []
  | b :: bs, a => if b = 0 then imageCells bs (a + 1) else (a, b) :: imageCells bs (a + 1)

/-! ## Bytes of a line (R93) -/

/-- The bytes `data[off] .. data[off+n-1]` of a line. -/
def lineBytes (data : List Byte) (off : Nat) : Nat → List Byte
  | 0 => []
  | n + 1 => data.getD off 0 :: lineBytes data (off + 1) n

/-- Write bytes into a line's data array at `off, off+1, ...`. -/
def setLineBytes (data : List Byte) (off : Nat) : List Byte → List Byte
  | [] => data
  | b :: bs => setLineBytes (data.set off b) (off + 1) bs

/-! ## Registers (R20, R21, R24) -/

/-- The entry of a register; x0 is always valid and zero (R21). -/
def State.regEntry (s : State) (r : Reg) : RegEntry :=
  if r = 0 then { value := 0, valid := true } else s.regs[r.toNat]'r.isLt

/-- A register write sets the value and the validity bit; a write to x0 is a no-op (R21, R24). -/
def State.writeReg (s : State) (r : Reg) (v : Word) : State :=
  if r = 0 then s else { s with regs := s.regs.set r.toNat { value := v, valid := true } r.isLt }

/-- A write to a destination field: `none` writes nothing. -/
def State.writeDest (s : State) (rd : Option Reg) (v : Word) : State :=
  match rd with
  | none => s
  | some r => s.writeReg r v

/-- A destination that names a register other than x0 (R222, R224, R225: `rd != none and rd != 0`). -/
def liveReg (r : Option Reg) : Option Reg :=
  match r with
  | none => none
  | some r => if r = 0 then none else some r

/-! ## Raising a fault (R270, R276)

A fault is not a trap: it writes the fault record, abandons the rest of the cycle and halts the machine. It is the only
exceptional event of this hardware; there is no return from it. -/

/-- `raise K(info)`: the first fault is recorded, a later one changes nothing (R39, R270). -/
def State.raise (s : State) (f : Fault) : State :=
  match s.fault with
  | none => { s with fault := some f }
  | some _ => s

/-- The next piece of work of a cycle, abandoned once a fault is recorded (R220, R270). -/
def State.andThen (s : State) (next : State → State) : State :=
  match s.fault with
  | none => next s
  | some _ => s

/-- The numeric code of a fault's kind (R270). -/
def Fault.code : Fault → Nat
  | .decode _ _ _ => 1
  | .outOfRange _ _ _ _ _ => 2
  | .invalidRegister _ _ _ => 3
  | .misalignedAccess _ _ _ _ => 4
  | .misalignedFetch _ _ => 5
  | .contention _ _ => 6

/-- The recorded cycle (R270). -/
def Fault.cycle : Fault → Nat
  | .decode c _ _ => c
  | .outOfRange c _ _ _ _ => c
  | .invalidRegister c _ _ => c
  | .misalignedAccess c _ _ _ => c
  | .misalignedFetch c _ => c
  | .contention c _ => c

/-- The recorded `pc`; a `ContentionFault` records none (R270). -/
def Fault.recordedPc : Fault → Option Word
  | .decode _ pc _ => some pc
  | .outOfRange _ pc _ _ _ => some pc
  | .invalidRegister _ pc _ => some pc
  | .misalignedAccess _ pc _ _ => some pc
  | .misalignedFetch _ pc => some pc
  | .contention _ _ => none

/-! ## The caches by client -/

/-- The unit a client is, for a `ContentionFault` (R98). -/
def Client.memUnit : Client → MemUnit
  | .I => .icache
  | .D => .dcache

def State.geometry (s : State) : Client → Geometry
  | .I => s.cfg.icache
  | .D => s.cfg.dcache

def State.cache (s : State) : Client → Cache
  | .I => s.icache
  | .D => s.dcache

def State.withCache (s : State) (c : Client) (k : Cache) : State :=
  match c with
  | .I => { s with icache := k }
  | .D => { s with dcache := k }

/-! ## The backing store (R68 to R71) -/

/-- `store.send(kind, addr, n, value, client)` (R69): a send to an owned slot is a `ContentionFault`. -/
def storeSend (kind : Access) (addr : Word) (n : Nat) (value : Word) (client : Client) (s : State) : State :=
  match s.store.owner with
  | some _ => s.raise (.contention s.counters.cycles .store)
  | none =>
    { s with store := { s.store with kind := kind, addr := addr, n := n, value := value, owner := some client,
                                     pending := true, complete := false, countdown := s.cfg.latency } }

/-- The recorded `pc` of an `OutOfRangeFault` (R272): the fetch request's address for the instruction cache, the `pc` of
the instruction in the memory stage for the data cache. The two other cases (no owner, empty `EM.cur`) are unreachable;
they record 0, DESIGN CHOICE, notes/assumptions/11.md. -/
def storeFaultPc (s : State) : Word :=
  match s.store.owner with
  | some .I => s.icache.req.addr
  | some .D =>
    match s.em.cur with
    | some r => r.pc
    | none => 0
  | none => 0

/-- The access the store performs when the countdown ends (R70): a read assembles `n` little-endian bytes, a write stores
the low `n` bytes of `value` (R62). -/
def storePerform (s : State) : State :=
  match s.store.kind with
  | .R =>
    { s with store := { s.store with result := wordLE (readBytes s.store.mem s.store.addr.toNat s.store.n),
                                     pending := false, complete := true } }
  | .W =>
    { s with store := { s.store with
        mem := writeBytes s.store.mem s.store.addr.toNat (bytesLE s.store.value s.store.n),
        pending := false, complete := true } }

/-- `store.clock()` (R70): count down; at zero check the range (R71) and perform the access. -/
def storeClock (s : State) : State :=
  if s.store.pending then
    let s := { s with store := { s.store with countdown := s.store.countdown - 1 } }
    if s.store.countdown = 0 then
      if s.cfg.memSize < s.store.addr.toNat + s.store.n then
        s.raise (.outOfRange s.counters.cycles (storeFaultPc s) s.store.addr s.store.n s.store.owner)
      else storePerform s
    else s
  else s

end Sys2Proof.Machine
end

