-- ==== Sys2Proof/Machine/Cache.lean ====
section
/-! DEFINITION. The set-associative cache and its line transaction queue (spec/21_cache.md R90 to R108), and the
architectural memory seen through the data cache (spec/20_memory.md R80). One description serves both caches. -/

namespace Sys2Proof.Machine

/-! ## Geometry and lookup (R91, R92) -/

/-- Set index `(a / B) mod S` (R91). -/
def setIndex (g : Geometry) (a : Nat) : Nat := a / g.lineSize % g.sets

/-- Tag `a / B`: the whole line number (R91). -/
def tagOf (g : Geometry) (a : Nat) : Nat := a / g.lineSize

/-- Line offset `a mod B` (R91). -/
def lineOffset (g : Geometry) (a : Nat) : Nat := a % g.lineSize

/-- Line address `a - (a mod B)` (R91). -/
def lineBase (g : Geometry) (a : Word) : Word := a - BitVec.ofNat 32 (lineOffset g a.toNat)

/-- What stands at a set and way that the geometry does not have; no rule reads it. -/
def Line.absent : Line := { data := [], addr := 0, valid := false, dirty := false }

def Cache.line (c : Cache) (set way : Nat) : Line := (c.lines.getD set []).getD way Line.absent

def Cache.setLine (c : Cache) (set way : Nat) (ln : Line) : Cache :=
  { c with lines := c.lines.set set ((c.lines.getD set []).set way ln) }

/-- Does a line hold the tag of `a` (R92)? -/
def lineHits (g : Geometry) (a : Nat) (ln : Line) : Bool := ln.valid && tagOf g ln.addr.toNat == tagOf g a

/-- `lookup(a)` (R92): the way of the target set that holds a valid line with the tag of `a`. -/
def Cache.lookup (g : Geometry) (c : Cache) (a : Nat) : Option Nat :=
  (c.lines.getD (setIndex g a) []).findIdx? (lineHits g a)

/-- `is_busy()` (R94). -/
def Cache.busy (c : Cache) : Bool := c.req.active && !c.req.complete

/-! ## Performing the top-level request (R93) -/

/-- Perform `req` on the line at a set and way (R93): a read takes its result from the line, a write changes the line and
sets its dirty bit; either completes the request. A request across the line end is a `ContentionFault`. -/
def performRequest (c : Client) (set way : Nat) (s : State) : State :=
  let k := s.cache c
  let off := lineOffset (s.geometry c) k.req.addr.toNat
  if (s.geometry c).lineSize < off + k.req.n then s.raise (.contention s.counters.cycles c.memUnit)
  else
    let ln := k.line set way
    match k.req.kind with
    | .R => s.withCache c { k with req := { k.req with result := wordLE (lineBytes ln.data off k.req.n), complete := true } }
    | .W =>
      s.withCache c
        { k.setLine set way { ln with data := setLineBytes ln.data off (bytesLE k.req.value k.req.n), dirty := true }
          with req := { k.req with complete := true } }

/-! ## Moving lines (R100 to R102) -/

def State.withQueue (s : State) (c : Client) (q : List Transaction) : State :=
  s.withCache c { s.cache c with queue := q }

/-- Issue the next beat of the head transaction `t` if the store slot is free (R100, second half); `rest` is the queue
behind it. -/
def issueBeat (c : Client) (t : Transaction) (rest : List Transaction) (s : State) : State :=
  match s.store.owner with
  | some _ => s.withQueue c (t :: rest)
  | none =>
    let fb := s.cfg.fillBeat
    let addr := t.addr + BitVec.ofNat 32 t.done
    let sent :=
      match t.kind with
      | .FILL => storeSend .R addr fb 0 c s
      | .WB => storeSend .W addr fb (wordLE (lineBytes ((s.cache c).line t.set t.way).data t.done fb)) c s
    sent.andThen fun s => s.withQueue c ({ t with outstanding := true } :: rest)

/-- Collect the completed beat of `t` (R101): a fill takes the result bytes into the line at offset `t.done`, and the
store slot is freed. -/
def collectBeat (c : Client) (t : Transaction) (s : State) : State :=
  let k := s.cache c
  let ln := k.line t.set t.way
  let k' :=
    match t.kind with
    | .FILL =>
      k.setLine t.set t.way { ln with data := setLineBytes ln.data t.done (bytesLE s.store.result s.cfg.fillBeat) }
    | .WB => k
  { s.withCache c k' with store := { s.store with owner := none, complete := false } }

/-- A transaction that has moved its whole line (R102): a fill makes the line valid and clean under its new address and
performs the waiting request on it; a write-back simply retires. -/
def completeTransaction (c : Client) (t : Transaction) (s : State) : State :=
  match t.kind with
  | .WB => s
  | .FILL =>
    let k := s.cache c
    let ln := { k.line t.set t.way with addr := t.addr, valid := true, dirty := false }
    performRequest c t.set t.way (s.withCache c (k.setLine t.set t.way ln))

/-- The loop of `c.process()` (R100) over the queue: collect the outstanding beat if the store has completed it, go on to
the next transaction when a line has been moved, and issue one beat. -/
def processQueue (c : Client) : List Transaction → State → State
  | [], s => s.withQueue c []
  | t :: rest, s =>
    if t.outstanding then
      if s.store.complete then
        let t' := { t with done := t.done + s.cfg.fillBeat, outstanding := false }
        let s' := collectBeat c t s
        if t'.done = (s.geometry c).lineSize then
          (completeTransaction c t' (s'.withQueue c rest)).andThen (processQueue c rest)
        else issueBeat c t' rest s'
      else s.withQueue c (t :: rest)
    else issueBeat c t rest s

/-- `c.process()` (R100); `c.clock()` is the same (R104). -/
def processCache (c : Client) (s : State) : State := processQueue c (s.cache c).queue s

/-! ## Accepting a request (R97 to R99) -/

/-- `miss(addr, s)` (R99): choose the victim by FIFO rotation (R96), enqueue its write-back if it is valid and dirty, make
it invalid, and enqueue the fill. The victim's dirty bit is cleared with its valid bit, so that every dirty line is valid
(R107), DEDUCED, notes/assumptions/13.md. -/
def cacheMiss (c : Client) (addr : Word) (s : State) : State :=
  let g := s.geometry c
  let k := s.cache c
  let set := setIndex g addr.toNat
  let way := k.fifo.getD set 0
  let ln := k.line set way
  let wb : List Transaction :=
    if ln.valid && ln.dirty then
      [{ kind := .WB, set := set, way := way, addr := ln.addr, done := 0, outstanding := false }]
    else []
  let fill : Transaction :=
    { kind := .FILL, set := set, way := way, addr := lineBase g addr, done := 0, outstanding := false }
  s.withCache c
    { k.setLine set way { ln with valid := false, dirty := false } with
      fifo := k.fifo.set set ((way + 1) % g.ways), queue := k.queue ++ wb ++ [fill] }

/-- `c.send(kind, addr, n, value)` (R97): a busy cache is a `ContentionFault` (R98); a hit completes at once; a miss
enqueues its transactions and does the first unit of queue work. -/
def cacheSend (c : Client) (kind : Access) (addr : Word) (n : Nat) (value : Word) (s : State) : State :=
  let k := s.cache c
  if k.busy then s.raise (.contention s.counters.cycles c.memUnit)
  else
    let req : Request :=
      { active := true, complete := false, kind := kind, addr := addr, n := n, value := value, result := 0 }
    let s := s.withCache c { k with req := req }
    let g := s.geometry c
    match k.lookup g addr.toNat with
    | some way => performRequest c (setIndex g addr.toNat) way s
    | none => processCache c (cacheMiss c addr s)

/-! ## Architectural memory (R80) -/

/-- `Mem[a]` (R80): the data cache's copy where it holds a valid line of `a`, else the store's byte. -/
def archByte (s : State) (a : Nat) : Byte :=
  match s.dcache.lookup s.cfg.dcache a with
  | some way => (s.dcache.line (setIndex s.cfg.dcache a) way).data.getD (lineOffset s.cfg.dcache a) 0
  | none => readCell s.store.mem a

/-- The bytes `Mem[a] .. Mem[a+n-1]`. -/
def archBytes (s : State) (a : Nat) : Nat → List Byte
  | 0 => []
  | n + 1 => archByte s a :: archBytes s (a + 1) n

/-- `MemRead(addr, n)` (R13): the little-endian value of `Mem[a] .. Mem[a+n-1]`. -/
def memRead (s : State) (a n : Nat) : Word := wordLE (archBytes s a n)

/-- Change `Mem[a]`: in the data cache's copy, which becomes dirty, where there is one (R95), else in the store. -/
def writeArchByte (s : State) (a : Nat) (b : Byte) : State :=
  let g := s.cfg.dcache
  match s.dcache.lookup g a with
  | some way =>
    let ln := s.dcache.line (setIndex g a) way
    let ln' := { ln with data := ln.data.set (lineOffset g a) b, dirty := true }
    { s with dcache := s.dcache.setLine (setIndex g a) way ln' }
  | none => { s with store := { s.store with mem := writeCell s.store.mem a b } }

/-- Write bytes at `a, a+1, ...` of the architectural memory. -/
def writeArchBytes (s : State) (a : Nat) : List Byte → State
  | [] => s
  | b :: bs => writeArchBytes (writeArchByte s a b) (a + 1) bs

/-- `MemWrite(addr, n, v)` (R13): the low `n` bytes of `v`, little-endian. -/
def memWrite (s : State) (a n : Nat) (v : Word) : State := writeArchBytes s a (bytesLE v n)

end Sys2Proof.Machine
end

