-- ==== Sys2Proof/Machine/Operands.lean ====
section
/-! DEFINITION. Operands: the instruction record the decode function makes (spec/30_encoding.md R121, R123, R124,
spec/42_load_store.md R186), the results the execute functions write into it (spec/40_integer_computational.md R140), and
the writeback value (R187). -/

namespace Sys2Proof.Machine

/-! ## The record by format (R121 to R124, R186)

Immediates: I and S sign-extend 12 bits, B 13 bits, J 21 bits; a shift amount is zero-extended; U appends twelve zero
bits; R has 0 (R123). `none` registers take no part in anything (R124). -/

/-- The fields every record starts with: `v1 = v2 = res = addr = 0`, `next_pc = pc + 4`, no memory class (R121, R186). -/
def recordBase (op : Op) (fmt : Format) (rd rs1 rs2 : Option Reg) (imm word pc : Word) : Record where
  pc := pc
  word := word
  op := op
  fmt := fmt
  rd := rd
  rs1 := rs1
  rs2 := rs2
  imm := imm
  isLoad := false
  isStore := false
  size := 0
  loadSigned := false
  v1 := 0
  v2 := 0
  res := 0
  nextPc := pc + 4
  addr := 0

def recordR (op : Op) (rd rs1 rs2 : Reg) (word pc : Word) : Record :=
  recordBase op .R (some rd) (some rs1) (some rs2) 0 word pc

/-- The I format; `imm` is the extended immediate (sign-extended, or the zero-extended shift amount). -/
def recordI (op : Op) (rd rs1 : Reg) (imm word pc : Word) : Record :=
  recordBase op .I (some rd) (some rs1) none imm word pc

def recordB (op : Op) (rs1 rs2 : Reg) (offset : BitVec 13) (word pc : Word) : Record :=
  recordBase op .B none (some rs1) (some rs2) (offset.signExtend 32) word pc

def recordU (op : Op) (rd : Reg) (imm20 : BitVec 20) (word pc : Word) : Record :=
  recordBase op .U (some rd) none none (imm20 ++ 0#12 : BitVec (20 + 12)) word pc

def recordJ (op : Op) (rd : Reg) (offset : BitVec 21) (word pc : Word) : Record :=
  recordBase op .J (some rd) none none (offset.signExtend 32) word pc

/-- A load: I format with its width and signedness (R186). -/
def recordLoad (op : Op) (size : Nat) (signed : Bool) (rd rs1 : Reg) (imm : BitVec 12) (word pc : Word) : Record :=
  { recordBase op .I (some rd) (some rs1) none (imm.signExtend 32) word pc with
    isLoad := true, size := size, loadSigned := signed }

/-- A store: S format with its width (R186). -/
def recordStore (op : Op) (size : Nat) (rs2 rs1 : Reg) (imm : BitVec 12) (word pc : Word) : Record :=
  { recordBase op .S none (some rs1) (some rs2) (imm.signExtend 32) word pc with isStore := true, size := size }

/-- The record of an instruction found as `word` at `pc` (R121). -/
def recordOf (i : Instr) (word pc : Word) : Record :=
  match i with
  | .lui rd imm20 => recordU .lui rd imm20 word pc
  | .auipc rd imm20 => recordU .auipc rd imm20 word pc
  | .jal rd offset => recordJ .jal rd offset word pc
  | .jalr rd rs1 imm => recordI .jalr rd rs1 (imm.signExtend 32) word pc
  | .beq rs1 rs2 offset => recordB .beq rs1 rs2 offset word pc
  | .bne rs1 rs2 offset => recordB .bne rs1 rs2 offset word pc
  | .blt rs1 rs2 offset => recordB .blt rs1 rs2 offset word pc
  | .bge rs1 rs2 offset => recordB .bge rs1 rs2 offset word pc
  | .bltu rs1 rs2 offset => recordB .bltu rs1 rs2 offset word pc
  | .bgeu rs1 rs2 offset => recordB .bgeu rs1 rs2 offset word pc
  | .lb rd rs1 imm => recordLoad .lb 1 true rd rs1 imm word pc
  | .lh rd rs1 imm => recordLoad .lh 2 true rd rs1 imm word pc
  | .lw rd rs1 imm => recordLoad .lw 4 true rd rs1 imm word pc
  | .lbu rd rs1 imm => recordLoad .lbu 1 false rd rs1 imm word pc
  | .lhu rd rs1 imm => recordLoad .lhu 2 false rd rs1 imm word pc
  | .sb rs2 rs1 imm => recordStore .sb 1 rs2 rs1 imm word pc
  | .sh rs2 rs1 imm => recordStore .sh 2 rs2 rs1 imm word pc
  | .sw rs2 rs1 imm => recordStore .sw 4 rs2 rs1 imm word pc
  | .addi rd rs1 imm => recordI .addi rd rs1 (imm.signExtend 32) word pc
  | .slti rd rs1 imm => recordI .slti rd rs1 (imm.signExtend 32) word pc
  | .sltiu rd rs1 imm => recordI .sltiu rd rs1 (imm.signExtend 32) word pc
  | .xori rd rs1 imm => recordI .xori rd rs1 (imm.signExtend 32) word pc
  | .ori rd rs1 imm => recordI .ori rd rs1 (imm.signExtend 32) word pc
  | .andi rd rs1 imm => recordI .andi rd rs1 (imm.signExtend 32) word pc
  | .slli rd rs1 shamt => recordI .slli rd rs1 (shamt.setWidth 32) word pc
  | .srli rd rs1 shamt => recordI .srli rd rs1 (shamt.setWidth 32) word pc
  | .srai rd rs1 shamt => recordI .srai rd rs1 (shamt.setWidth 32) word pc
  | .add rd rs1 rs2 => recordR .add rd rs1 rs2 word pc
  | .sub rd rs1 rs2 => recordR .sub rd rs1 rs2 word pc
  | .sll rd rs1 rs2 => recordR .sll rd rs1 rs2 word pc
  | .slt rd rs1 rs2 => recordR .slt rd rs1 rs2 word pc
  | .sltu rd rs1 rs2 => recordR .sltu rd rs1 rs2 word pc
  | .xor rd rs1 rs2 => recordR .xor rd rs1 rs2 word pc
  | .srl rd rs1 rs2 => recordR .srl rd rs1 rs2 word pc
  | .sra rd rs1 rs2 => recordR .sra rd rs1 rs2 word pc
  | .or rd rs1 rs2 => recordR .or rd rs1 rs2 word pc
  | .and rd rs1 rs2 => recordR .and rd rs1 rs2 word pc

/-- `Decode(word, pc)` (R121): the record, or `none` where no row matches. -/
def decodeRecord (word pc : Word) : Option Record := (decodeWord word).map fun i => recordOf i word pc

/-! ## What an execute function writes (R140) -/

/-- A result for `rd`; the next instruction is the following one. -/
def Record.withResult (r : Record) (v : Word) : Record := { r with res := v, nextPc := r.pc + 4 }

/-- The effective address of a load or store, base plus displacement modulo 2^32 (R185). -/
def Record.withAddress (r : Record) : Record := { r with addr := r.v1 + r.imm, nextPc := r.pc + 4 }

/-- A jump: the link `pc + 4` for `rd`, and the target (R173, R174). -/
def Record.withJump (r : Record) (target : Word) : Record := { r with res := r.pc + 4, nextPc := target }

/-- A branch: `pc + imm` when taken, else `pc + 4`; `res` is unused (R182). -/
def Record.withBranch (r : Record) (taken : Bool) : Record :=
  { r with nextPc := if taken then r.pc + r.imm else r.pc + 4 }

/-- A shift amount in a register: the low 5 bits (R141). -/
def shiftAmount (v : Word) : Nat := (v.extractLsb' 0 5).toNat

/-! ## The writeback value (R187) -/

/-- `wbval(i)` (R187): a narrow signed load is sign-extended, everything else is `res`. -/
def wbval (r : Record) : Word :=
  if r.isLoad && r.loadSigned && r.size == 1 then (r.res.setWidth 8).signExtend 32
  else if r.isLoad && r.loadSigned && r.size == 2 then (r.res.setWidth 16).signExtend 32
  else r.res

end Sys2Proof.Machine
end

