-- ==== Sys2Proof/Machine/Alone.lean ====
section
/-! DEFINITION. The instruction level of meaning (spec/00_scope.md R11): one instruction executed alone and in program
order, over registers, `pc` and architectural memory. Every instruction's meaning is its execute function (R140) run by
`runAlone`. -/

namespace Sys2Proof.Machine

/-- What exec and step answer. -/
abbrev Result := Host.Outcome State Fault Refusal

/-- `x[r]` (R13): `none` and x0 read 0; an invalid register has no value and reading it is a fault (R23, R273). -/
def sourceValue (s : State) (r : Option Reg) : Except Reg Word :=
  match r with
  | none => .ok 0
  | some r => if (s.regEntry r).valid then .ok (s.regEntry r).value else .error r

/-- `raise` at the instruction level ends the run (R13, R276). -/
def raiseAlone (f : Fault) : Result := .fault f

/-- The end of an instruction: `x[rd] <- wbval` and `pc <- next_pc` (R140, R187). -/
def commit (r : Record) (s : State) : State := { s.writeDest r.rd (wbval r) with pc := r.nextPc }

/-- The memory part of a load or store, in the order of R198 and R199: alignment (R196 a), range (R196 b, reporting the
base of the line), then the access. Every other instruction commits at once. -/
def access (r : Record) (s : State) : Result :=
  if r.isLoad || r.isStore then
    if r.addr.toNat % r.size ≠ 0 then raiseAlone (.misalignedAccess s.counters.cycles r.pc r.addr r.size)
    else if s.cfg.memSize < r.addr.toNat + r.size then
      raiseAlone (.outOfRange s.counters.cycles r.pc (lineBase s.cfg.dcache r.addr) s.cfg.fillBeat (some .D))
    else if r.isLoad then .next (commit { r with res := memRead s r.addr.toNat r.size } s)
    else .next (commit r (memWrite s r.addr.toNat r.size r.v2))
  else .next (commit r s)

/-- One instruction executed alone at the current `pc`: its record is made (R121), its sources are read (rs1 first), its
execute function runs on the record (R140), and its access and writes follow. -/
def runAlone (execute : Record → Record) (i : Instr) (s : State) : Result :=
  let r := recordOf i (encode i) s.pc
  match sourceValue s r.rs1, sourceValue s r.rs2 with
  | .error x, _ => raiseAlone (.invalidRegister s.counters.cycles s.pc x)
  | .ok _, .error x => raiseAlone (.invalidRegister s.counters.cycles s.pc x)
  | .ok a, .ok b => access (execute { r with v1 := a, v2 := b }) s

end Sys2Proof.Machine
end

