-- ==== Sys2Proof/Machine/Flags.lean ====
section
/-! DEFINITION. There are no flags, condition codes or predicates (spec/10_state.md R27): no instruction writes any. What
other machines read from flags, this one computes where it is needed: the comparisons of R141, used by the set-if-less
instructions (R143, R144, R154, R155) and the branches (R175 to R180). -/

namespace Sys2Proof.Machine

/-- `signed(a) < signed(b)`: both read as two's complement (R12, R141). -/
def signedLess (a b : Word) : Bool := decide (a.toInt < b.toInt)

/-- `unsigned(a) < unsigned(b)`: both read as natural numbers (R12, R141). -/
def unsignedLess (a b : Word) : Bool := decide (a.toNat < b.toNat)

/-- A comparison's result in a register: exactly 0 or 1 (R143). -/
def truthWord (b : Bool) : Word := if b then 1 else 0

end Sys2Proof.Machine
end

