-- ==== Sys2Proof/Machine/Branch.lean ====
section
/-! DEFINITION. The conditional branches (spec/41_control_transfer.md R175 to R180, R182).

Each instruction has its execute function, the record transform of R140 that the execute stage applies, and its
instruction-level meaning `exec...`, the same function run alone. -/

namespace Sys2Proof.Machine

/-- BEQ (R175): taken if equal. -/
def executeBeq (r : Record) : Record := r.withBranch (r.v1 == r.v2)

/-- BEQ, executed alone (R11). -/
def execBeq (rs1 rs2 : Reg) (offset : BitVec 13) (s : State) : Result :=
  runAlone executeBeq (.beq rs1 rs2 offset) s

/-- BNE (R176): taken if not equal. -/
def executeBne (r : Record) : Record := r.withBranch (r.v1 != r.v2)

/-- BNE, executed alone (R11). -/
def execBne (rs1 rs2 : Reg) (offset : BitVec 13) (s : State) : Result :=
  runAlone executeBne (.bne rs1 rs2 offset) s

/-- BLT (R177): taken if less than, signed. -/
def executeBlt (r : Record) : Record := r.withBranch (signedLess r.v1 r.v2)

/-- BLT, executed alone (R11). -/
def execBlt (rs1 rs2 : Reg) (offset : BitVec 13) (s : State) : Result :=
  runAlone executeBlt (.blt rs1 rs2 offset) s

/-- BGE (R178): taken if greater or equal, signed. -/
def executeBge (r : Record) : Record := r.withBranch (!signedLess r.v1 r.v2)

/-- BGE, executed alone (R11). -/
def execBge (rs1 rs2 : Reg) (offset : BitVec 13) (s : State) : Result :=
  runAlone executeBge (.bge rs1 rs2 offset) s

/-- BLTU (R179): taken if less than, unsigned. -/
def executeBltu (r : Record) : Record := r.withBranch (unsignedLess r.v1 r.v2)

/-- BLTU, executed alone (R11). -/
def execBltu (rs1 rs2 : Reg) (offset : BitVec 13) (s : State) : Result :=
  runAlone executeBltu (.bltu rs1 rs2 offset) s

/-- BGEU (R180): taken if greater or equal, unsigned. -/
def executeBgeu (r : Record) : Record := r.withBranch (!unsignedLess r.v1 r.v2)

/-- BGEU, executed alone (R11). -/
def execBgeu (rs1 rs2 : Reg) (offset : BitVec 13) (s : State) : Result :=
  runAlone executeBgeu (.bgeu rs1 rs2 offset) s

end Sys2Proof.Machine
end

