-- ==== Sys2Proof/Machine/Immediate.lean ====
section
/-! DEFINITION. The register-immediate instructions (spec/40_integer_computational.md R142 to R150).

Each instruction has its execute function, the record transform of R140 that the execute stage applies, and its
instruction-level meaning `exec...`, the same function run alone. -/

namespace Sys2Proof.Machine

/-- ADDI (R142): `x[rd] <- x[rs1] + imm`, modulo 2^32. -/
def executeAddi (r : Record) : Record := r.withResult (r.v1 + r.imm)

/-- ADDI, executed alone (R11). -/
def execAddi (rd rs1 : Reg) (imm : BitVec 12) (s : State) : Result :=
  runAlone executeAddi (.addi rd rs1 imm) s

/-- SLTI (R143): 1 if `signed(x[rs1]) < signed(imm)`, else 0. -/
def executeSlti (r : Record) : Record := r.withResult (truthWord (signedLess r.v1 r.imm))

/-- SLTI, executed alone (R11). -/
def execSlti (rd rs1 : Reg) (imm : BitVec 12) (s : State) : Result :=
  runAlone executeSlti (.slti rd rs1 imm) s

/-- SLTIU (R144): 1 if `unsigned(x[rs1]) < unsigned(imm)`, the immediate sign-extended first, else 0. -/
def executeSltiu (r : Record) : Record := r.withResult (truthWord (unsignedLess r.v1 r.imm))

/-- SLTIU, executed alone (R11). -/
def execSltiu (rd rs1 : Reg) (imm : BitVec 12) (s : State) : Result :=
  runAlone executeSltiu (.sltiu rd rs1 imm) s

/-- XORI (R145): bitwise exclusive-or with the sign-extended immediate. -/
def executeXori (r : Record) : Record := r.withResult (r.v1 ^^^ r.imm)

/-- XORI, executed alone (R11). -/
def execXori (rd rs1 : Reg) (imm : BitVec 12) (s : State) : Result :=
  runAlone executeXori (.xori rd rs1 imm) s

/-- ORI (R146): bitwise or with the sign-extended immediate. -/
def executeOri (r : Record) : Record := r.withResult (r.v1 ||| r.imm)

/-- ORI, executed alone (R11). -/
def execOri (rd rs1 : Reg) (imm : BitVec 12) (s : State) : Result :=
  runAlone executeOri (.ori rd rs1 imm) s

/-- ANDI (R147): bitwise and with the sign-extended immediate. -/
def executeAndi (r : Record) : Record := r.withResult (r.v1 &&& r.imm)

/-- ANDI, executed alone (R11). -/
def execAndi (rd rs1 : Reg) (imm : BitVec 12) (s : State) : Result :=
  runAlone executeAndi (.andi rd rs1 imm) s

/-- SLLI (R148): shift left by 0 to 31, zeros in, bits past 31 lost. -/
def executeSlli (r : Record) : Record := r.withResult (r.v1 <<< r.imm.toNat)

/-- SLLI, executed alone (R11). -/
def execSlli (rd rs1 : Reg) (shamt : BitVec 5) (s : State) : Result :=
  runAlone executeSlli (.slli rd rs1 shamt) s

/-- SRLI (R149): shift right by 0 to 31, zeros in. -/
def executeSrli (r : Record) : Record := r.withResult (r.v1 >>> r.imm.toNat)

/-- SRLI, executed alone (R11). -/
def execSrli (rd rs1 : Reg) (shamt : BitVec 5) (s : State) : Result :=
  runAlone executeSrli (.srli rd rs1 shamt) s

/-- SRAI (R150): shift right by 0 to 31, copies of bit 31 in. -/
def executeSrai (r : Record) : Record := r.withResult (r.v1.sshiftRight r.imm.toNat)

/-- SRAI, executed alone (R11). -/
def execSrai (rd rs1 : Reg) (shamt : BitVec 5) (s : State) : Result :=
  runAlone executeSrai (.srai rd rs1 shamt) s

end Sys2Proof.Machine
end

