-- ==== Sys2Proof/Machine/Jump.lean ====
section
/-! DEFINITION. The unconditional jumps (spec/41_control_transfer.md R173, R174).

Each instruction has its execute function, the record transform of R140 that the execute stage applies, and its
instruction-level meaning `exec...`, the same function run alone. -/

namespace Sys2Proof.Machine

/-- JAL (R173): link `pc + 4`, go to `pc + imm`. -/
def executeJal (r : Record) : Record := r.withJump (r.pc + r.imm)

/-- JAL, executed alone (R11). -/
def execJal (rd : Reg) (offset : BitVec 21) (s : State) : Result :=
  runAlone executeJal (.jal rd offset) s

/-- JALR (R174): link `pc + 4`, go to `x[rs1] + imm` with bit 0 cleared; the old `rs1` is used. -/
def executeJalr (r : Record) : Record := r.withJump ((r.v1 + r.imm) &&& 0xFFFFFFFE#32)

/-- JALR, executed alone (R11). -/
def execJalr (rd rs1 : Reg) (imm : BitVec 12) (s : State) : Result :=
  runAlone executeJalr (.jalr rd rs1 imm) s

end Sys2Proof.Machine
end

