-- ==== Sys2Proof/Machine/Load.lean ====
section
/-! DEFINITION. The loads (spec/42_load_store.md R188 to R192, R198). The width and signedness are the record's (R186).

Each instruction has its execute function, the record transform of R140 that the execute stage applies, and its
instruction-level meaning `exec...`, the same function run alone. -/

namespace Sys2Proof.Machine

/-- LB (R188): the address of a signed byte. -/
def executeLb (r : Record) : Record := r.withAddress

/-- LB, executed alone (R11). -/
def execLb (rd rs1 : Reg) (imm : BitVec 12) (s : State) : Result :=
  runAlone executeLb (.lb rd rs1 imm) s

/-- LH (R189): the address of a signed half-word. -/
def executeLh (r : Record) : Record := r.withAddress

/-- LH, executed alone (R11). -/
def execLh (rd rs1 : Reg) (imm : BitVec 12) (s : State) : Result :=
  runAlone executeLh (.lh rd rs1 imm) s

/-- LW (R190): the address of a word. -/
def executeLw (r : Record) : Record := r.withAddress

/-- LW, executed alone (R11). -/
def execLw (rd rs1 : Reg) (imm : BitVec 12) (s : State) : Result :=
  runAlone executeLw (.lw rd rs1 imm) s

/-- LBU (R191): the address of an unsigned byte. -/
def executeLbu (r : Record) : Record := r.withAddress

/-- LBU, executed alone (R11). -/
def execLbu (rd rs1 : Reg) (imm : BitVec 12) (s : State) : Result :=
  runAlone executeLbu (.lbu rd rs1 imm) s

/-- LHU (R192): the address of an unsigned half-word. -/
def executeLhu (r : Record) : Record := r.withAddress

/-- LHU, executed alone (R11). -/
def execLhu (rd rs1 : Reg) (imm : BitVec 12) (s : State) : Result :=
  runAlone executeLhu (.lhu rd rs1 imm) s

end Sys2Proof.Machine
end

