-- ==== Sys2Proof/Machine/Register.lean ====
section
/-! DEFINITION. The register-register instructions (spec/40_integer_computational.md R151 to R160).

Each instruction has its execute function, the record transform of R140 that the execute stage applies, and its
instruction-level meaning `exec...`, the same function run alone. -/

namespace Sys2Proof.Machine

/-- ADD (R151): modulo 2^32. -/
def executeAdd (r : Record) : Record := r.withResult (r.v1 + r.v2)

/-- ADD, executed alone (R11). -/
def execAdd (rd rs1 rs2 : Reg) (s : State) : Result :=
  runAlone executeAdd (.add rd rs1 rs2) s

/-- SUB (R152): modulo 2^32. -/
def executeSub (r : Record) : Record := r.withResult (r.v1 - r.v2)

/-- SUB, executed alone (R11). -/
def execSub (rd rs1 rs2 : Reg) (s : State) : Result :=
  runAlone executeSub (.sub rd rs1 rs2) s

/-- SLL (R153): shift left by the low 5 bits of `x[rs2]`. -/
def executeSll (r : Record) : Record := r.withResult (r.v1 <<< shiftAmount r.v2)

/-- SLL, executed alone (R11). -/
def execSll (rd rs1 rs2 : Reg) (s : State) : Result :=
  runAlone executeSll (.sll rd rs1 rs2) s

/-- SLT (R154): 1 if less than, signed, else 0. -/
def executeSlt (r : Record) : Record := r.withResult (truthWord (signedLess r.v1 r.v2))

/-- SLT, executed alone (R11). -/
def execSlt (rd rs1 rs2 : Reg) (s : State) : Result :=
  runAlone executeSlt (.slt rd rs1 rs2) s

/-- SLTU (R155): 1 if less than, unsigned, else 0. -/
def executeSltu (r : Record) : Record := r.withResult (truthWord (unsignedLess r.v1 r.v2))

/-- SLTU, executed alone (R11). -/
def execSltu (rd rs1 rs2 : Reg) (s : State) : Result :=
  runAlone executeSltu (.sltu rd rs1 rs2) s

/-- XOR (R156): bitwise. -/
def executeXor (r : Record) : Record := r.withResult (r.v1 ^^^ r.v2)

/-- XOR, executed alone (R11). -/
def execXor (rd rs1 rs2 : Reg) (s : State) : Result :=
  runAlone executeXor (.xor rd rs1 rs2) s

/-- SRL (R157): logical shift right by the low 5 bits of `x[rs2]`. -/
def executeSrl (r : Record) : Record := r.withResult (r.v1 >>> shiftAmount r.v2)

/-- SRL, executed alone (R11). -/
def execSrl (rd rs1 rs2 : Reg) (s : State) : Result :=
  runAlone executeSrl (.srl rd rs1 rs2) s

/-- SRA (R158): arithmetic shift right by the low 5 bits of `x[rs2]`. -/
def executeSra (r : Record) : Record := r.withResult (r.v1.sshiftRight (shiftAmount r.v2))

/-- SRA, executed alone (R11). -/
def execSra (rd rs1 rs2 : Reg) (s : State) : Result :=
  runAlone executeSra (.sra rd rs1 rs2) s

/-- OR (R159): bitwise. -/
def executeOr (r : Record) : Record := r.withResult (r.v1 ||| r.v2)

/-- OR, executed alone (R11). -/
def execOr (rd rs1 rs2 : Reg) (s : State) : Result :=
  runAlone executeOr (.or rd rs1 rs2) s

/-- AND (R160): bitwise. -/
def executeAnd (r : Record) : Record := r.withResult (r.v1 &&& r.v2)

/-- AND, executed alone (R11). -/
def execAnd (rd rs1 rs2 : Reg) (s : State) : Result :=
  runAlone executeAnd (.and rd rs1 rs2) s

end Sys2Proof.Machine
end

