-- ==== Sys2Proof/Machine/Store.lean ====
section
/-! DEFINITION. The stores (spec/42_load_store.md R193 to R195, R199). The width is the record's (R186).

Each instruction has its execute function, the record transform of R140 that the execute stage applies, and its
instruction-level meaning `exec...`, the same function run alone. -/

namespace Sys2Proof.Machine

/-- SB (R193): the address of the low byte of `x[rs2]`. -/
def executeSb (r : Record) : Record := r.withAddress

/-- SB, executed alone (R11). -/
def execSb (rs2 rs1 : Reg) (imm : BitVec 12) (s : State) : Result :=
  runAlone executeSb (.sb rs2 rs1 imm) s

/-- SH (R194): the address of the low half-word of `x[rs2]`. -/
def executeSh (r : Record) : Record := r.withAddress

/-- SH, executed alone (R11). -/
def execSh (rs2 rs1 : Reg) (imm : BitVec 12) (s : State) : Result :=
  runAlone executeSh (.sh rs2 rs1 imm) s

/-- SW (R195): the address of the word `x[rs2]`. -/
def executeSw (r : Record) : Record := r.withAddress

/-- SW, executed alone (R11). -/
def execSw (rs2 rs1 : Reg) (imm : BitVec 12) (s : State) : Result :=
  runAlone executeSw (.sw rs2 rs1 imm) s

end Sys2Proof.Machine
end

