-- ==== Sys2Proof/Machine/Upper.lean ====
section
/-! DEFINITION. The upper-immediate instructions (spec/40_integer_computational.md R162, R163).

Each instruction has its execute function, the record transform of R140 that the execute stage applies, and its
instruction-level meaning `exec...`, the same function run alone. -/

namespace Sys2Proof.Machine

/-- LUI (R162): the immediate in bits 31:12, zeros below. -/
def executeLui (r : Record) : Record := r.withResult r.imm

/-- LUI, executed alone (R11). -/
def execLui (rd : Reg) (imm20 : BitVec 20) (s : State) : Result :=
  runAlone executeLui (.lui rd imm20) s

/-- AUIPC (R163): the record's own `pc` plus the immediate, modulo 2^32. -/
def executeAuipc (r : Record) : Record := r.withResult (r.pc + r.imm)

/-- AUIPC, executed alone (R11). -/
def execAuipc (rd : Reg) (imm20 : BitVec 20) (s : State) : Result :=
  runAlone executeAuipc (.auipc rd imm20) s

end Sys2Proof.Machine
end

