-- ==== Sys2Proof/Machine/Fetch.lean ====
section
/-! DEFINITION. The fetch and decode of one instruction at the instruction level (spec/00_scope.md R11), with the faults
an instruction taken alone can raise before it executes, in the order of spec/60_exceptions.md R278. -/

namespace Sys2Proof.Machine

/-- Fetch and decode at `pc`: alignment (R64, R275), range (R71, reporting the first fill beat of the instruction cache's
line), then the word of architectural memory, decoded (R120, R121, R271). Reading the architectural memory is the model's
choice, notes/assumptions/8.md. -/
def fetchAlone (s : State) : Except Fault Instr :=
  if s.pc.toNat % 4 ≠ 0 then .error (.misalignedFetch s.counters.cycles s.pc)
  else if s.cfg.memSize < s.pc.toNat + 4 then
    .error (.outOfRange s.counters.cycles s.pc (lineBase s.cfg.icache s.pc) s.cfg.fillBeat (some .I))
  else
    match decodeBytes (archBytes s s.pc.toNat 4) with
    | .ok (i, _) => .ok i
    | .error _ => .error (.decode s.counters.cycles s.pc (memRead s s.pc.toNat 4))

end Sys2Proof.Machine
end

