-- ==== Sys2Proof/Machine/Execute.lean ====
section
/-! DEFINITION. `Execute(i)` of spec/40_integer_computational.md R140: the record transform selected by `op`, which the
execute stage applies (spec/50_pipeline.md R225). -/

namespace Sys2Proof.Machine

/-- `Execute(i)` (R140, R225): reads nothing but the record and writes nothing but the record. -/
def execute (r : Record) : Record :=
  match r.op with
  | .lui => executeLui r
  | .auipc => executeAuipc r
  | .jal => executeJal r
  | .jalr => executeJalr r
  | .beq => executeBeq r
  | .bne => executeBne r
  | .blt => executeBlt r
  | .bge => executeBge r
  | .bltu => executeBltu r
  | .bgeu => executeBgeu r
  | .lb => executeLb r
  | .lh => executeLh r
  | .lw => executeLw r
  | .lbu => executeLbu r
  | .lhu => executeLhu r
  | .sb => executeSb r
  | .sh => executeSh r
  | .sw => executeSw r
  | .addi => executeAddi r
  | .slti => executeSlti r
  | .sltiu => executeSltiu r
  | .xori => executeXori r
  | .ori => executeOri r
  | .andi => executeAndi r
  | .slli => executeSlli r
  | .srli => executeSrli r
  | .srai => executeSrai r
  | .add => executeAdd r
  | .sub => executeSub r
  | .sll => executeSll r
  | .slt => executeSlt r
  | .sltu => executeSltu r
  | .xor => executeXor r
  | .srl => executeSrl r
  | .sra => executeSra r
  | .or => executeOr r
  | .and => executeAnd r

end Sys2Proof.Machine
end

