-- ==== Sys2Proof/Machine/Hazard.lean ====
section
/-! DEFINITION. The hazard unit and the forwarding unit (spec/51_hazard_forwarding.md): the conditions on the wires of
spec/10_state.md R35. -/

namespace Sys2Proof.Machine

/-! ## Hazards -/

/-- The source registers of an instruction: the fields that are not `none` and not x0 (R226 `srcs`, R251). -/
def sourceRegs (i : Record) : List Reg := (liveReg i.rs1).toList ++ (liveReg i.rs2).toList

/-- The data hazard of R251: a source is in `mask_E union mask_M`. -/
def hasDataHazard (w : Wires) (i : Record) : Bool :=
  (sourceRegs i).any fun r => w.maskE.contains r || w.maskM.contains r

/-- The control hazard of R253: the instruction leaving M does not go on at `pc + 4`. -/
def needsFlush (i : Record) : Bool := i.nextPc != i.pc + 4

/-- The structural stall of R252: all three stall flags, and the destination of a waiting load in `mask_M`. -/
def structuralStall (i : Record) (w : Wires) : Wires :=
  { w with stallEM := true, stallDE := true, stallFD := true,
           maskM := if i.isLoad then (liveReg i.rd).toList else w.maskM }

/-! ## Forwarding -/

/-- Where an operand comes from (R256). -/
inductive OperandSource where
  | zero | bypE | bypM | registerFile
  deriving DecidableEq, Repr

/-- The selection of R256: `none` and x0 are 0; then the execute-stage bypass (the newer producer), then the memory-stage
bypass, then the register file. -/
def operandSource (w : Wires) (r : Option Reg) : OperandSource :=
  match liveReg r with
  | none => .zero
  | some r =>
    if w.bypE.tag = some r then .bypE
    else if w.bypM.tag = some r then .bypM
    else .registerFile

/-- `ReadOperand(i, r)` (R256): the value, or the number of the invalid register it would have to read (R258). -/
def readOperand (s : State) (r : Option Reg) : Except Reg Word :=
  match operandSource s.wires r with
  | .zero => .ok 0
  | .bypE => .ok s.wires.bypE.value
  | .bypM => .ok s.wires.bypM.value
  | .registerFile =>
    match r with
    | none => .ok 0
    | some x => if (s.regEntry x).valid then .ok (s.regEntry x).value else .error x

/-- The classification of R257, by which bypass records supplied the two operands. -/
def classify (a b : OperandSource) : BypassClass :=
  let exe := a == .bypE || b == .bypE
  let mem := a == .bypM || b == .bypM
  match exe, mem with
  | true, true => .both
  | true, false => .exe
  | false, true => .mem
  | false, false => .none

end Sys2Proof.Machine
end

