-- ==== Sys2Proof/Machine/Pipeline.lean ====
section
/-! DEFINITION. The cycle level: the stage procedures, the counters, the latch advance and one clock of the machine
(spec/50_pipeline.md). -/

namespace Sys2Proof.Machine

/-! ## Writeback stage (R222) -/

/-- `W()` (R222): write the register file and retire; a bubble does nothing. -/
def stageW (s : State) : State :=
  match s.mw.cur with
  | none => s
  | some i =>
    let s := s.writeDest i.rd (wbval i)
    { s with counters := { s.counters with retired := s.counters.retired + 1 } }

/-! ## Memory stage (R224) -/

/-- The number of beats of an access, `max(1, size / PB)`. -/
def beatCount (cfg : Config) (i : Record) : Nat := max 1 (i.size / cfg.portBeat)

/-- The bytes per beat, `min(PB, size)`. -/
def beatSize (cfg : Config) (i : Record) : Nat := min cfg.portBeat i.size

/-- The address of beat `k`: `addr + k * PB`. -/
def beatAddr (cfg : Config) (i : Record) (k : Nat) : Word := i.addr + BitVec.ofNat 32 (k * cfg.portBeat)

/-- The data of beat `k` of a store: `(v2 >> (8 * k * PB)) & (2^(8*bsz) - 1)`. -/
def beatData (cfg : Config) (i : Record) (k : Nat) : Word :=
  (i.v2 >>> (8 * k * cfg.portBeat)) &&& BitVec.ofNat 32 (2 ^ (8 * beatSize cfg i) - 1)

/-- An instruction leaves M (R224, last lines): resolve the control hazard (R253), re-arm the memory bypass (R255), hand
the record to `MW`. -/
def leaveMemory (i : Record) (s : State) : State :=
  let w := s.wires
  let w := if needsFlush i then { w with flush := true, flushTarget := i.nextPc } else w
  let w :=
    match liveReg i.rd with
    | some r => { w with bypM := { tag := some r, value := wbval i } }
    | none => w
  { s with wires := w, mw := { s.mw with pending := some i } }

/-- A load or store that has not completed all its beats: the structural stall (R252), a bubble to W. -/
def waitMemory (i : Record) (s : State) : State :=
  { s with wires := structuralStall i s.wires, mw := { s.mw with pending := none } }

/-- Send the next beat to the data cache unless one is outstanding (R224). -/
def sendBeat (i : Record) (s : State) : State :=
  if s.mWaiting then s
  else
    let a := beatAddr s.cfg i s.mBeat
    let bsz := beatSize s.cfg i
    let sent :=
      if i.isLoad then cacheSend .D .R a bsz 0 s else cacheSend .D .W a bsz (beatData s.cfg i s.mBeat) s
    sent.andThen fun s => { s with mWaiting := true }

/-- Consume a completed beat (R224): assemble a load's bytes low beat first; after the last beat the instruction leaves
M, otherwise it waits. -/
def consumeBeat (i : Record) (s : State) : State :=
  if s.dcache.req.complete then
    let acc := if i.isLoad then s.mAcc ||| (s.dcache.req.result <<< (8 * s.mBeat * s.cfg.portBeat)) else s.mAcc
    if s.mBeat + 1 = beatCount s.cfg i then
      let i := if i.isLoad then { i with res := acc } else i
      leaveMemory i { s with mWaiting := false, mBeat := 0, mAcc := 0 }
    else waitMemory i { s with mWaiting := false, mBeat := s.mBeat + 1, mAcc := acc }
  else waitMemory i s

/-- The beat protocol of a load or store in M (R224): the alignment test once, before the first beat (R63, R274), then at
most one beat sent and one consumed. -/
def accessMemory (i : Record) (s : State) : State :=
  if s.mBeat = 0 ∧ s.mWaiting = false ∧ i.addr.toNat % i.size ≠ 0 then
    s.raise (.misalignedAccess s.counters.cycles i.pc i.addr i.size)
  else (sendBeat i s).andThen (consumeBeat i)

/-- `M()` (R224). -/
def stageM (s : State) : State :=
  match s.em.cur with
  | none => { s with mw := { s.mw with pending := none } }
  | some i => if i.isLoad || i.isStore then accessMemory i s else leaveMemory i s

/-! ## Execute stage (R225) -/

/-- `E()` (R225): idle under a structural stall; otherwise execute the record, put a load's destination in `mask_E` or
offer the result on `byp_E`. -/
def stageE (s : State) : State :=
  if s.wires.stallEM then s
  else
    match s.de.cur with
    | none => { s with em := { s.em with pending := none } }
    | some i =>
      let i := execute i
      let w :=
        match liveReg i.rd with
        | some r =>
          if i.isLoad then { s.wires with maskE := [r] }
          else { s.wires with bypE := { tag := some r, value := i.res } }
        | none => s.wires
      { s with wires := w, em := { s.em with pending := some i } }

/-! ## Decode stage (R226) -/

/-- The operand read of D for an instruction without a data hazard: `v1` first, then `v2`; an invalid register is an
`InvalidRegisterFault` (R258, R273). -/
def readOperands (i : Record) (s : State) : State :=
  match readOperand s i.rs1, readOperand s i.rs2 with
  | .error r, _ => s.raise (.invalidRegister s.counters.cycles i.pc r)
  | .ok _, .error r => s.raise (.invalidRegister s.counters.cycles i.pc r)
  | .ok a, .ok b =>
    let cls := classify (operandSource s.wires i.rs1) (operandSource s.wires i.rs2)
    { s with wires := { s.wires with bypClass := cls },
             de := { s.de with pending := some { i with v1 := a, v2 := b } } }

/-- `D()` (R226): idle under a structural stall; on a data hazard keep the instruction and send a bubble (R251). -/
def stageD (s : State) : State :=
  if s.wires.stallEM then s
  else
    match s.fd.cur with
    | none => { s with de := { s.de with pending := none } }
    | some i =>
      if hasDataHazard s.wires i then
        { s with wires := { s.wires with dataHazard := true, stallFD := true }, de := { s.de with pending := none } }
      else readOperands i s

/-! ## Fetch stage (R228) -/

/-- The first half of `F()`: issue the fetch at `pc` unless one is pending; a misaligned `pc` faults (R64, R275). -/
def requestFetch (s : State) : State :=
  if s.fetchPending then s
  else if s.pc.toNat % 4 ≠ 0 then s.raise (.misalignedFetch s.counters.cycles s.pc)
  else (cacheSend .I .R s.pc 4 0 s).andThen fun s => { s with fetchPending := true }

/-- The second half of `F()`: deliver a completed word as a record and predict `pc + 4`, drop it if its address is no
longer `pc` (R239), or write a bubble. A word that matches no row is a `DecodeFault` (R271). -/
def deliverFetch (s : State) : State :=
  if s.icache.req.complete then
    let s := { s with fetchPending := false }
    if s.icache.req.addr = s.pc then
      match decodeRecord s.icache.req.result s.pc with
      | none => s.raise (.decode s.counters.cycles s.pc s.icache.req.result)
      | some i =>
        { s with fd := { s.fd with pending := some i },
                 counters := { s.counters with created := s.counters.created + 1 },
                 pc := s.pc + 4 }
    else { s with fd := { s.fd with pending := none } }
  else { s with fd := { s.fd with pending := none } }

/-- `F()` (R228): idle under `stall_FD`. -/
def stageF (s : State) : State :=
  if s.wires.stallFD then s else (requestFetch s).andThen deliverFetch

/-! ## Counters (R285) -/

/-- 1 for a set wire. -/
def bitNat (b : Bool) : Nat := if b then 1 else 0

/-- `count()` (R285). -/
def count (s : State) : State :=
  let w := s.wires
  let c := s.counters
  { s with counters := { c with
      dataStalls := c.dataStalls + bitNat w.dataHazard
      memStalls := c.memStalls + bitNat w.stallEM
      mispredicts := c.mispredicts + bitNat w.flush
      multi := c.multi + bitNat (decide (2 ≤ bitNat w.dataHazard + bitNat w.stallEM + bitNat w.flush)) } }

/-! ## Advance phase (R231) -/

/-- `clock()` of a latch (R32): `cur <- pending; pending <- empty`. -/
def Latch.clock (l : Latch) : Latch := { pending := none, cur := l.pending }

/-- 1 for a slot that holds a record. -/
def slotCount (r : Option Record) : Nat := bitNat r.isSome

/-- The records a flush discards (R231). -/
def flushedRecords (s : State) : Nat :=
  slotCount s.fd.pending + slotCount s.de.pending + slotCount s.em.pending +
    (if s.wires.dataHazard then slotCount s.fd.cur else 0)

/-- `advance()` (R231): a flush empties `FD`, `DE`, `EM` and redirects `pc`; otherwise every latch that is not stalled is
clocked. `MW` is always clocked. -/
def advance (s : State) : State :=
  if s.wires.flush then
    { s with counters := { s.counters with flushed := s.counters.flushed + flushedRecords s },
             fd := Latch.empty, de := Latch.empty, em := Latch.empty, mw := s.mw.clock, pc := s.wires.flushTarget }
  else
    { s with mw := s.mw.clock,
             em := if s.wires.stallEM then s.em else s.em.clock,
             de := if s.wires.stallDE then s.de else s.de.clock,
             fd := if s.wires.stallFD then s.fd else s.fd.clock }

/-! ## One clock (R220) -/

/-- Phase 1 (R221): the Memory Unit's clock, in the order of R72. -/
def phaseMemory (s : State) : State :=
  ((storeClock s).andThen (processCache .I)).andThen (processCache .D)

/-- Phase 2 (R220): the stage procedures in reverse pipeline order. -/
def phaseStages (s : State) : State :=
  ((((stageW s).andThen stageM).andThen stageE).andThen stageD).andThen stageF

/-- Phase 4 (R230): the wires are cleared and the cycle is counted. -/
def endCycle (s : State) : State :=
  { s with wires := Wires.cleared, counters := { s.counters with cycles := s.counters.cycles + 1 } }

/-- Phases 1 and 2: the state with the wires of the cycle, before the latches advance. -/
def beforeAdvance (s : State) : State := (phaseMemory s).andThen phaseStages

/-- The spec's `step()` (R220): one clock edge. A fault raised anywhere ends the cycle at that point and stays recorded in
the state; a machine with a recorded fault does nothing (R276). -/
def clock (s : State) : State :=
  s.andThen fun s => (beforeAdvance s).andThen fun s => endCycle (advance (count s))

end Sys2Proof.Machine
end

