-- ==== Sys2Proof/Machine/Step.lean ====
section
/-! DEFINITION. step: one clock edge of the hardware (spec/00_scope.md R8, spec/50_pipeline.md R220), or, at the
instruction level, one instruction (R11). -/

namespace Sys2Proof.Machine

/-- The outcome of a cycle (R9): the recorded fault, or the next state. -/
def outcomeOf (s : State) : Host.Outcome State Fault Refusal :=
  match s.fault with
  | some f => .fault f
  | none => .next s

/-- One instruction at the instruction level (R11): fetched, decoded, executed and committed. -/
def stepAlone (s : State) : Host.Outcome State Fault Refusal :=
  match fetchAlone s with
  | .error f => .fault f
  | .ok i => exec i s

/-- One step. An illegal configuration is refused (R7); a halted machine has no next state (R276, U9). -/
def step (s : State) : Host.Outcome State Fault Refusal :=
  if s.cfg.legal then
    match s.fault with
    | some f => .fault f
    | none =>
      match s.level with
      | .cycle => outcomeOf (clock s)
      | .instruction => stepAlone s
  else .refused .illegalConfiguration

/-- The host's placing of one instruction: its word stands in the architectural memory at `pc`, and the level is the one
at which a step runs a whole instruction (notes/assumptions/10.md). -/
def State.withFetchWord (s : State) (nbits w : Nat) : State :=
  { memWrite s s.pc.toNat 4 (BitVec.ofNat 32 (w % 2 ^ nbits)) with level := .instruction }

end Sys2Proof.Machine
end

