-- ==== Sys2Proof/Machine/Reset.lean ====
section
/-! DEFINITION. The reset operation (spec/70_reset_and_hazards.md R295, R296). -/

namespace Sys2Proof.Machine

/-- `reset(IMAGE, ENTRY, RA_INIT, SP_INIT, FP_INIT)` under a configuration (R295): an illegal configuration (R7) and an
image that is not exactly `MEM_SIZE` bytes (R296) are refused; nothing else is checked. -/
def resetMachine (cfg : Config) (image : List Byte) (entry ra sp fp : Word) : Host.Outcome State Fault Refusal :=
  if cfg.legal then
    if image.length = cfg.memSize then .next (State.resetWith cfg (imageCells image 0) entry ra sp fp)
    else .refused .imageLength
  else .refused .illegalConfiguration

end Sys2Proof.Machine
end

