-- ==== Sys2Proof/Safety.lean ====
section
/-! DEFINITION. What a safe run is, the words the statements are made of, and the invariants of the machine. -/

namespace Sys2Proof

/-! ## What an instruction names (spec/30_encoding.md R124) -/

/-- The destination register an instruction names (R124): branches and stores have none. -/
def Instr.dest : Instr → Option Reg
  | .lui rd _ | .auipc rd _ | .jal rd _ | .jalr rd _ _ => some rd
  | .lb rd _ _ | .lh rd _ _ | .lw rd _ _ | .lbu rd _ _ | .lhu rd _ _ => some rd
  | .addi rd _ _ | .slti rd _ _ | .sltiu rd _ _ | .xori rd _ _ | .ori rd _ _ | .andi rd _ _ => some rd
  | .slli rd _ _ | .srli rd _ _ | .srai rd _ _ => some rd
  | .add rd _ _ | .sub rd _ _ | .sll rd _ _ | .slt rd _ _ | .sltu rd _ _ => some rd
  | .xor rd _ _ | .srl rd _ _ | .sra rd _ _ | .or rd _ _ | .and rd _ _ => some rd
  | .beq _ _ _ | .bne _ _ _ | .blt _ _ _ | .bge _ _ _ | .bltu _ _ _ | .bgeu _ _ _ => none
  | .sb _ _ _ | .sh _ _ _ | .sw _ _ _ => none

/-- The source registers an instruction names, `rs1` before `rs2` (R124): LUI, AUIPC and JAL have none. -/
def Instr.sources : Instr → List Reg
  | .lui _ _ | .auipc _ _ | .jal _ _ => []
  | .jalr _ rs1 _ => [rs1]
  | .lb _ rs1 _ | .lh _ rs1 _ | .lw _ rs1 _ | .lbu _ rs1 _ | .lhu _ rs1 _ => [rs1]
  | .addi _ rs1 _ | .slti _ rs1 _ | .sltiu _ rs1 _ | .xori _ rs1 _ | .ori _ rs1 _ | .andi _ rs1 _ => [rs1]
  | .slli _ rs1 _ | .srli _ rs1 _ | .srai _ rs1 _ => [rs1]
  | .add _ rs1 rs2 | .sub _ rs1 rs2 | .sll _ rs1 rs2 | .slt _ rs1 rs2 | .sltu _ rs1 rs2 => [rs1, rs2]
  | .xor _ rs1 rs2 | .srl _ rs1 rs2 | .sra _ rs1 rs2 | .or _ rs1 rs2 | .and _ rs1 rs2 => [rs1, rs2]
  | .beq rs1 rs2 _ | .bne rs1 rs2 _ | .blt rs1 rs2 _ | .bge rs1 rs2 _ | .bltu rs1 rs2 _ | .bgeu rs1 rs2 _ => [rs1, rs2]
  | .sb rs2 rs1 _ | .sh rs2 rs1 _ | .sw rs2 rs1 _ => [rs1, rs2]

/-- The base register, the displacement and the width in bytes of a load or store
(spec/42_load_store.md R185, R186). -/
def Instr.access? : Instr → Option (Reg × BitVec 12 × Nat)
  | .lb _ rs1 imm | .lbu _ rs1 imm | .sb _ rs1 imm => some (rs1, imm, 1)
  | .lh _ rs1 imm | .lhu _ rs1 imm | .sh _ rs1 imm => some (rs1, imm, 2)
  | .lw _ rs1 imm | .sw _ rs1 imm => some (rs1, imm, 4)
  | .lui _ _ | .auipc _ _ | .jal _ _ | .jalr _ _ _ => none
  | .addi _ _ _ | .slti _ _ _ | .sltiu _ _ _ | .xori _ _ _ | .ori _ _ _ | .andi _ _ _ => none
  | .slli _ _ _ | .srli _ _ _ | .srai _ _ _ => none
  | .add _ _ _ | .sub _ _ _ | .sll _ _ _ | .slt _ _ _ | .sltu _ _ _ => none
  | .xor _ _ _ | .srl _ _ _ | .sra _ _ _ | .or _ _ _ | .and _ _ _ => none
  | .beq _ _ _ | .bne _ _ _ | .blt _ _ _ | .bge _ _ _ | .bltu _ _ _ | .bgeu _ _ _ => none

/-- The three instructions that store. -/
def Instr.stores : Instr → Bool
  | .sb _ _ _ | .sh _ _ _ | .sw _ _ _ => true
  | .lb _ _ _ | .lh _ _ _ | .lw _ _ _ | .lbu _ _ _ | .lhu _ _ _ => false
  | .lui _ _ | .auipc _ _ | .jal _ _ | .jalr _ _ _ => false
  | .addi _ _ _ | .slti _ _ _ | .sltiu _ _ _ | .xori _ _ _ | .ori _ _ _ | .andi _ _ _ => false
  | .slli _ _ _ | .srli _ _ _ | .srai _ _ _ => false
  | .add _ _ _ | .sub _ _ _ | .sll _ _ _ | .slt _ _ _ | .sltu _ _ _ => false
  | .xor _ _ _ | .srl _ _ _ | .sra _ _ _ | .or _ _ _ | .and _ _ _ => false
  | .beq _ _ _ | .bne _ _ _ | .blt _ _ _ | .bge _ _ _ | .bltu _ _ _ | .bgeu _ _ _ => false

/-- The eight instructions that can go elsewhere than to `pc + 4` (spec/41_control_transfer.md R170). -/
def Instr.transfers : Instr → Bool
  | .jal _ _ | .jalr _ _ _ => true
  | .beq _ _ _ | .bne _ _ _ | .blt _ _ _ | .bge _ _ _ | .bltu _ _ _ | .bgeu _ _ _ => true
  | .lui _ _ | .auipc _ _ => false
  | .sb _ _ _ | .sh _ _ _ | .sw _ _ _ => false
  | .lb _ _ _ | .lh _ _ _ | .lw _ _ _ | .lbu _ _ _ | .lhu _ _ _ => false
  | .addi _ _ _ | .slti _ _ _ | .sltiu _ _ _ | .xori _ _ _ | .ori _ _ _ | .andi _ _ _ => false
  | .slli _ _ _ | .srli _ _ _ | .srai _ _ _ => false
  | .add _ _ _ | .sub _ _ _ | .sll _ _ _ | .slt _ _ _ | .sltu _ _ _ => false
  | .xor _ _ _ | .srl _ _ _ | .sra _ _ _ | .or _ _ _ | .and _ _ _ => false

namespace Machine

/-! ## Safe runs (spec/00_scope.md R9) -/

/-- A step is safe when it answers a next state: no fault, no refusal. -/
def Safe (s : State) : Prop := ∃ t, step s = .next t

/-- `n` safe steps one after the other lead from `s` to `t`. -/
def RunsTo (s : State) : Nat → State → Prop
  | 0, t => t = s
  | n + 1, t => ∃ m, RunsTo s n m ∧ step m = .next t

/-! ## Words for the statements about one instruction -/

/-- `x[r]` of R13. -/
def State.x (s : State) (r : Reg) : Word := (s.regEntry r).value

/-- The register may be read: it is valid (R20, R23), as x0 always is (R21). -/
def State.readable (s : State) (r : Reg) : Prop := (s.regEntry r).valid = true

/-- The state in which `x[rd]` is `v` and valid, or nothing is written where `rd` is x0 (R21, R24), the next instruction
is at `next`, and everything else is as in `s`. -/
def State.wrote (s : State) (rd : Reg) (v next : Word) : State :=
  { s with regs := if rd = 0 then s.regs else s.regs.set rd.toNat { value := v, valid := true } rd.isLt, pc := next }

/-- The effective address `x[rs1] + imm` modulo 2^32 (spec/42_load_store.md R185). -/
def State.effective (s : State) (rs1 : Reg) (imm : BitVec 12) : Word := s.x rs1 + imm.signExtend 32

/-- An address at which an access of `size` bytes is made: aligned (R196 a) and inside the store (R196 b). -/
def State.accessible (s : State) (a : Word) (size : Nat) : Prop :=
  a.toNat % size = 0 ∧ a.toNat + size ≤ s.cfg.memSize

/-! ## Invariants of every cycle boundary -/

/-- The arrays of a cache have the sizes of its geometry (spec/10_state.md R37). -/
def Cache.shaped (g : Geometry) (c : Cache) : Prop :=
  c.lines.length = g.sets ∧ (∀ row ∈ c.lines, row.length = g.ways ∧ ∀ ln ∈ row, ln.data.length = g.lineSize) ∧
    c.fifo.length = g.sets ∧ ∀ way ∈ c.fifo, way < g.ways

/-- What holds of the plain data at a cycle boundary: memory is in canonical form, x0 is zero and valid (R21), the wires
are cleared (R35, R230), every `pending` slot is empty (R32, R233), no fault is recorded (R39), and both caches have the
shape of their geometry (R37). -/
structure State.Boundary (s : State) : Prop where
  memory : Memory.wf s.store.mem = true
  zero : s.regs[0] = { value := 0, valid := true }
  wires : s.wires = Wires.cleared
  fd : s.fd.pending = none
  de : s.de.pending = none
  em : s.em.pending = none
  mw : s.mw.pending = none
  fault : s.fault = none
  icache : s.icache.shaped s.cfg.icache
  dcache : s.dcache.shaped s.cfg.dcache

/-- The number of records in the four latches at a cycle boundary (R31). -/
def State.inFlight (s : State) : Nat :=
  slotCount s.fd.cur + slotCount s.de.cur + slotCount s.em.cur + slotCount s.mw.cur

/-- The relations between the counters at a cycle boundary (spec/60_exceptions.md R286). The bound on `mispredicts` is
the one a step keeps: the transfer that flushed last may still be on its way to W. -/
structure State.Counted (s : State) : Prop where
  owned : s.counters.created = s.counters.retired + s.counters.flushed + s.inFlight
  created : s.counters.created ≤ s.counters.cycles
  mispredicts : s.counters.mispredicts ≤ s.counters.retired + slotCount s.mw.cur
  multiData : s.counters.multi ≤ s.counters.dataStalls
  multiFlush : s.counters.multi ≤ s.counters.mispredicts
  flushed : s.counters.flushed ≤ 3 * s.counters.mispredicts

/-- The instruction cache is never written (spec/21_cache.md R95): its lines are clean, it moves lines in only, and the
request it is busy with is a read. -/
structure State.FetchClean (s : State) : Prop where
  lines : ∀ row ∈ s.icache.lines, ∀ ln ∈ row, ln.dirty = false
  queue : ∀ t ∈ s.icache.queue, t.kind = .FILL
  request : s.icache.queue ≠ [] → s.icache.req.kind = .R

/-! ## The invariant of the memory system (spec/21_cache.md R107) -/

/-- No two valid lines of one set hold the same tag (R107). -/
def Cache.uniqueTags (g : Geometry) (k : Cache) : Prop :=
  ∀ set, set < g.sets → ∀ i j, i < g.ways → j < g.ways → (k.line set i).valid = true → (k.line set j).valid = true →
    tagOf g (k.line set i).addr.toNat = tagOf g (k.line set j).addr.toNat → i = j

/-- Every dirty line is valid (R107). -/
def Cache.dirtyValid (k : Cache) : Prop :=
  ∀ set way, (k.line set way).dirty = true → (k.line set way).valid = true

/-- The fill a busy cache has queued serves its request: it brings the line of the request's address into a way of that
address's set, and no valid line of the set has that tag (R99). -/
structure FillServes (g : Geometry) (k : Cache) (t : Transaction) : Prop where
  kind : t.kind = .FILL
  set : t.set = setIndex g k.req.addr.toNat
  way : t.way < g.ways
  addr : t.addr = lineBase g k.req.addr
  absent : ∀ i, i < g.ways → lineHits g k.req.addr.toNat (k.line t.set i) = false
  inLine : lineOffset g k.req.addr.toNat + k.req.n ≤ g.lineSize

/-- A transaction has moved a whole number of beats and has at least one to go (R102). -/
def Transaction.underWay (g : Geometry) (fillBeat : Nat) (t : Transaction) : Prop :=
  fillBeat ∣ t.done ∧ t.done < g.lineSize

/-- The queue of a cache (R107): empty when the cache is not busy; else the fill that serves the request, alone or behind
the write-back of the same set and way, which alone has been started. -/
def Cache.queueOk (g : Geometry) (fillBeat : Nat) (k : Cache) : Prop :=
  match k.queue with
  | [] => k.busy = false
  | [f] => k.busy = true ∧ FillServes g k f ∧ f.underWay g fillBeat
  | [w, f] =>
    k.busy = true ∧ FillServes g k f ∧ w.kind = .WB ∧ w.set = f.set ∧ w.way = f.way ∧ w.underWay g fillBeat ∧
      f.done = 0 ∧ f.outstanding = false
  | _ => False

/-- Has the cache a beat in the store's slot? -/
def Cache.beatOut (k : Cache) : Bool := k.queue.any fun t => t.outstanding

/-- The store's slot and the two caches agree (R68, R101, R107): the slot is owned exactly by the cache that has a beat in
it, and an owned slot holds a request that is still counting down or is complete. -/
structure State.SlotOk (s : State) : Prop where
  fetch : s.icache.beatOut = (s.store.owner == some .I)
  data : s.dcache.beatOut = (s.store.owner == some .D)
  free : s.store.owner = none → s.store.pending = false ∧ s.store.complete = false
  taken : s.store.owner ≠ none → s.store.pending = !s.store.complete
  counting : s.store.pending = true → 1 ≤ s.store.countdown

/-- A record's access width is one of the memory stage's (R186). -/
def Record.sized (r : Record) : Prop :=
  (r.isLoad || r.isStore) = true → r.size = 1 ∨ r.size = 2 ∨ r.size = 4

/-- The memory stage's registers have their reset values (spec/10_state.md R34). -/
def State.beatIdle (s : State) : Prop := s.mBeat = 0 ∧ s.mWaiting = false ∧ s.mAcc = 0

/-- The memory stage's registers fit the record it holds (spec/10_state.md R34): 0 unless an access is in progress, and
then the access is aligned, the beat is one of its beats, and nothing is assembled before its first beat. -/
def State.beatOk (s : State) : Prop :=
  match s.em.cur with
  | none => s.beatIdle
  | some i =>
    if i.isLoad || i.isStore then
      ((s.mBeat ≠ 0 ∨ s.mWaiting = true) → i.addr.toNat % i.size = 0) ∧ s.mBeat < beatCount s.cfg i ∧
        (s.mBeat = 0 → s.mAcc = 0)
    else s.beatIdle

/-- The invariant of the memory system: both queues and the slot are in order (R107), a client that has no request
outstanding finds its cache not busy (R98, R277), the tags of a set differ and every dirty line is valid (R107), the
memory stage's registers fit its record (R34), and the records in flight have the widths of R186. -/
structure State.MemoryOk (s : State) : Prop where
  icache : s.icache.queueOk s.cfg.icache s.cfg.fillBeat
  dcache : s.dcache.queueOk s.cfg.dcache s.cfg.fillBeat
  itags : s.icache.uniqueTags s.cfg.icache
  dtags : s.dcache.uniqueTags s.cfg.dcache
  idirty : s.icache.dirtyValid
  ddirty : s.dcache.dirtyValid
  slot : s.SlotOk
  fetchIdle : s.fetchPending = false → s.icache.busy = false
  memoryIdle : s.mWaiting = false → s.dcache.busy = false
  beat : s.beatOk
  fdSized : ∀ r, s.fd.cur = some r → r.sized
  deSized : ∀ r, s.de.cur = some r → r.sized
  emSized : ∀ r, s.em.cur = some r → r.sized

/-! ## A beat of a load or store, and a beat of a line transaction -/

/-- The memory stage goes from `s` to `t` with a beat of the load or store `i` completed (spec/50_pipeline.md R224): after
the last beat it hands on the record `out` and offers its value on `byp_M` (R255), before it the pipeline stalls with `acc`
assembled so far (R252). M touches nothing but its own registers, its wires, the slot it writes and the data cache (R229). -/
structure State.BeatDone (s t : State) (i out : Record) (acc : Word) : Prop where
  fault : t.fault = none
  frame : t = { s with wires := t.wires, mw := { s.mw with pending := t.mw.pending }, mBeat := t.mBeat,
                       mWaiting := t.mWaiting, mAcc := t.mAcc, dcache := t.dcache }
  leaves : s.mBeat + 1 = max 1 (i.size / s.cfg.portBeat) →
    t.mw.pending = some out ∧ t.beatIdle ∧
      t.wires = { s.wires with flush := t.wires.flush, flushTarget := t.wires.flushTarget, bypM := t.wires.bypM } ∧
      (t.wires.flush = true ↔ s.wires.flush = true ∨ out.nextPc ≠ out.pc + 4) ∧
      t.wires.flushTarget = (if out.nextPc ≠ out.pc + 4 then out.nextPc else s.wires.flushTarget) ∧
      (∀ r, out.rd = some r → r ≠ 0 → t.wires.bypM = { tag := some r, value := wbval out }) ∧
      ((out.rd = none ∨ out.rd = some 0) → t.wires.bypM = s.wires.bypM)
  waits : s.mBeat + 1 ≠ max 1 (i.size / s.cfg.portBeat) →
    t.mw.pending = none ∧ t.mBeat = s.mBeat + 1 ∧ t.mWaiting = false ∧ t.mAcc = acc ∧
      t.wires = { s.wires with stallEM := true, stallDE := true, stallFD := true, maskM := t.wires.maskM } ∧
      (i.isLoad = true → ∀ r, i.rd = some r → r ≠ 0 → t.wires.maskM = [r]) ∧
      (i.isLoad = true → (i.rd = none ∨ i.rd = some 0) → t.wires.maskM = []) ∧
      (i.isLoad = false → t.wires.maskM = s.wires.maskM)

/-- The memory stage goes from `s` to `t` with a beat of the load or store `i` sent in this cycle and under way
(spec/50_pipeline.md R224): `m_waiting` is set, the beat index and the assembled value stay, a bubble goes to W, all three
stall wires are set and a load's destination is in `mask_M` (R252). Besides, only the data cache and the store's slot can
change. -/
structure State.BeatSent (s t : State) (i : Record) : Prop where
  state : t = { s with mWaiting := true, wires := t.wires, mw := { s.mw with pending := none },
                       store := t.store, dcache := t.dcache }
  wires : t.wires = { s.wires with stallEM := true, stallDE := true, stallFD := true, maskM := t.wires.maskM }
  mask : i.isLoad = true → ∀ r, i.rd = some r → r ≠ 0 → t.wires.maskM = [r]
  noMask : i.isLoad = true → (i.rd = none ∨ i.rd = some 0) → t.wires.maskM = []
  storeMask : i.isLoad = false → t.wires.maskM = s.wires.maskM
  underWay : t.dcache.req.complete = false
  memory : t.store.mem = s.store.mem

/-- The store's slot holds the next beat of the line transaction `t` of cache `c` (spec/21_cache.md R100): a fill reads
`FB` bytes at the line's address plus the bytes moved so far, a write-back writes there the bytes of the line's `data`. -/
structure State.CarriesBeat (s : State) (c : Client) (t : Transaction) (data : List Byte) : Prop where
  owner : s.store.owner = some c
  pending : s.store.pending = true ∧ s.store.complete = false ∧ s.store.countdown = s.cfg.latency
  addr : s.store.addr = t.addr + BitVec.ofNat 32 t.done
  width : s.store.n = s.cfg.fillBeat
  fill : t.kind = .FILL → s.store.kind = .R
  writeBack : t.kind = .WB → s.store.kind = .W ∧ s.store.value = wordLE (lineBytes data t.done s.cfg.fillBeat)

/-! ## What a value must not influence -/

/-- Two states that differ at most in the values of invalid registers, which hold no value at all (spec/10_state.md R23):
every valid bit agrees, every valid value agrees, and so does the rest of the state. -/
def State.SameValid (s t : State) : Prop :=
  t = { s with regs := t.regs } ∧
    ∀ r : Fin 32, s.regs[r].valid = t.regs[r].valid ∧ (s.regs[r].valid = true → s.regs[r].value = t.regs[r].value)

end Machine

end Sys2Proof
end

