-- ==== Sys2Proof/Certificates/Slice0/Obligations.lean ====
section
/-! DEFINITION. The statements for the provers. Each is about every state unless it says otherwise; nothing here rests on a
value the model chose, except where the docstring names the log entry. -/

open Sys2Proof Sys2Proof.Machine

/-! ## Encoding (spec/30_encoding.md) -/

/-- R121 to R126: decoding the word of a well-formed instruction gives the instruction back, for every operand value. -/
def Obligations.DecodeEncode : Prop :=
  ∀ i : Instr, i.wellFormed = true → decodeWord (encode i) = some i

/-- R121 to R126: a word that decodes is the encoding of what it decodes to, and that is well-formed: no bit is dropped. -/
def Obligations.EncodeDecode : Prop :=
  ∀ (w : Word) (i : Instr), decodeWord w = some i → encode i = w ∧ i.wellFormed = true

/-- R121: no two rows of the table match the same word. -/
def Obligations.RowsDisjoint : Prop :=
  ∀ (w : Word) (j k : Nat) (hj : j < opcodeTable.length) (hk : k < opcodeTable.length),
    rowSelects w opcodeTable[j] = true → rowSelects w opcodeTable[k] = true → j = k

/-- R127: exactly the words of its list are illegal. -/
def Obligations.IllegalWords : Prop :=
  ∀ w : Word,
    decodeWord w = none ↔
      w.extractLsb' 0 2 ≠ 0b11#2 ∨
      opcodeField w ∉ [0x37#7, 0x17#7, 0x6F#7, 0x67#7, 0x63#7, 0x03#7, 0x23#7, 0x13#7, 0x33#7] ∨
      (opcodeField w = 0x67#7 ∧ funct3Field w ≠ 0b000#3) ∨
      (opcodeField w = 0x63#7 ∧ funct3Field w ∈ [0b010#3, 0b011#3]) ∨
      (opcodeField w = 0x03#7 ∧ funct3Field w ∈ [0b011#3, 0b110#3, 0b111#3]) ∨
      (opcodeField w = 0x23#7 ∧ funct3Field w ∈ [0b011#3, 0b100#3, 0b101#3, 0b110#3, 0b111#3]) ∨
      (opcodeField w = 0x13#7 ∧ funct3Field w = 0b001#3 ∧ funct7Field w ≠ 0b0000000#7) ∨
      (opcodeField w = 0x13#7 ∧ funct3Field w = 0b101#3 ∧ funct7Field w ∉ [0b0000000#7, 0b0100000#7]) ∨
      (opcodeField w = 0x33#7 ∧ funct7Field w ≠ 0b0000000#7 ∧
        ¬(funct7Field w = 0b0100000#7 ∧ funct3Field w ∈ [0b000#3, 0b101#3]))

/-- Worked examples of R142, R150, R152, R162, R173, R174, R175, R189, R195, and the illegal words R127 names. -/
def Obligations.SampleWords : Prop :=
  decodeWord 0xFFF30293#32 = some (.addi 5 6 (-1)) ∧
  decodeWord 0x40435293#32 = some (.srai 5 6 4) ∧
  decodeWord 0x407302B3#32 = some (.sub 5 6 7) ∧
  decodeWord 0x123452B7#32 = some (.lui 5 0x12345) ∧
  decodeWord 0x00C000EF#32 = some (.jal 1 12) ∧
  decodeWord 0xFFC300E7#32 = some (.jalr 1 6 (-4)) ∧
  decodeWord 0xFE730CE3#32 = some (.beq 6 7 (-8)) ∧
  decodeWord 0xFFC31283#32 = some (.lh 5 6 (-4)) ∧
  decodeWord 0xFE732E23#32 = some (.sw 7 6 (-4)) ∧
  decodeWord 0x00000000#32 = none ∧ decodeWord 0xFFFFFFFF#32 = none ∧ decodeWord 0x00000073#32 = none ∧
  decodeWord 0x00100073#32 = none ∧ decodeWord 0x0FF0000F#32 = none ∧ decodeWord 0x40101093#32 = none

/-- R121, R123, R124, R186: the record of a decoded word, field by field. -/
def Obligations.RecordFields : Prop :=
  ∀ (w pc : Word) (r : Record), decodeRecord w pc = some r →
    (r.pc = pc ∧ r.word = w ∧ r.v1 = 0 ∧ r.v2 = 0 ∧ r.res = 0 ∧ r.addr = 0 ∧ r.nextPc = pc + 4) ∧
    r.fmt = (if opcodeField w = 0x37#7 ∨ opcodeField w = 0x17#7 then .U
      else if opcodeField w = 0x6F#7 then .J
      else if opcodeField w = 0x63#7 then .B
      else if opcodeField w = 0x23#7 then .S
      else if opcodeField w = 0x33#7 then .R
      else .I) ∧
    (match r.fmt with
      | .R => r.rd = some (w.extractLsb' 7 5) ∧ r.rs1 = some (w.extractLsb' 15 5) ∧ r.rs2 = some (w.extractLsb' 20 5) ∧
          r.imm = 0
      | .I => r.rd = some (w.extractLsb' 7 5) ∧ r.rs1 = some (w.extractLsb' 15 5) ∧ r.rs2 = none ∧
          r.imm = (if r.op ∈ [.slli, .srli, .srai] then (w.extractLsb' 20 5).setWidth 32
            else (w.extractLsb' 20 12).signExtend 32)
      | .S => r.rd = none ∧ r.rs1 = some (w.extractLsb' 15 5) ∧ r.rs2 = some (w.extractLsb' 20 5) ∧
          r.imm = (w.extractLsb' 25 7 ++ w.extractLsb' 7 5).signExtend 32
      | .B => r.rd = none ∧ r.rs1 = some (w.extractLsb' 15 5) ∧ r.rs2 = some (w.extractLsb' 20 5) ∧
          r.imm = (w.extractLsb' 31 1 ++ w.extractLsb' 7 1 ++ w.extractLsb' 25 6 ++ w.extractLsb' 8 4 ++ 0#1).signExtend 32
      | .U => r.rd = some (w.extractLsb' 7 5) ∧ r.rs1 = none ∧ r.rs2 = none ∧ r.imm = w.extractLsb' 12 20 ++ 0#12
      | .J => r.rd = some (w.extractLsb' 7 5) ∧ r.rs1 = none ∧ r.rs2 = none ∧
          r.imm = (w.extractLsb' 31 1 ++ w.extractLsb' 12 8 ++ w.extractLsb' 20 1 ++ w.extractLsb' 21 10 ++ 0#1).signExtend 32) ∧
    (r.isLoad = decide (r.op ∈ [.lb, .lh, .lw, .lbu, .lhu]) ∧ r.isStore = decide (r.op ∈ [.sb, .sh, .sw]) ∧
      r.loadSigned = decide (r.op ∈ [.lb, .lh, .lw]) ∧
      r.size = (if r.op ∈ [.lb, .lbu, .sb] then 1 else if r.op ∈ [.lh, .lhu, .sh] then 2
        else if r.op ∈ [.lw, .sw] then 4 else 0))

/-! ## What each instruction does (files 40 to 42)

Each statement says for an instruction: the word with the fields of its row decodes to it, and executed alone in any state
whose sources are valid it answers exactly this next state. `State.wrote` leaves all else alone, and writes no register
where `rd` is x0. -/

/-- ADDI (R142), XORI (R145), ORI (R146), ANDI (R147). -/
def Obligations.ImmediateArithmetic : Prop :=
  ∀ (rd rs1 : Reg) (imm : BitVec 12) (s : State), s.readable rs1 →
    (decodeWord (encodeI imm rs1 0b000#3 rd 0x13#7) = some (.addi rd rs1 imm) ∧
      exec (.addi rd rs1 imm) s = .next (s.wrote rd (s.x rs1 + imm.signExtend 32) (s.pc + 4))) ∧
    (decodeWord (encodeI imm rs1 0b100#3 rd 0x13#7) = some (.xori rd rs1 imm) ∧
      exec (.xori rd rs1 imm) s = .next (s.wrote rd (s.x rs1 ^^^ imm.signExtend 32) (s.pc + 4))) ∧
    (decodeWord (encodeI imm rs1 0b110#3 rd 0x13#7) = some (.ori rd rs1 imm) ∧
      exec (.ori rd rs1 imm) s = .next (s.wrote rd (s.x rs1 ||| imm.signExtend 32) (s.pc + 4))) ∧
    (decodeWord (encodeI imm rs1 0b111#3 rd 0x13#7) = some (.andi rd rs1 imm) ∧
      exec (.andi rd rs1 imm) s = .next (s.wrote rd (s.x rs1 &&& imm.signExtend 32) (s.pc + 4)))

/-- SLTI (R143) compares as two's complement, SLTIU (R144) as natural numbers after sign extension. -/
def Obligations.ImmediateCompare : Prop :=
  ∀ (rd rs1 : Reg) (imm : BitVec 12) (s : State), s.readable rs1 →
    (decodeWord (encodeI imm rs1 0b010#3 rd 0x13#7) = some (.slti rd rs1 imm) ∧
      exec (.slti rd rs1 imm) s = .next (s.wrote rd (if (s.x rs1).toInt < imm.toInt then 1 else 0) (s.pc + 4))) ∧
    (decodeWord (encodeI imm rs1 0b011#3 rd 0x13#7) = some (.sltiu rd rs1 imm) ∧
      exec (.sltiu rd rs1 imm) s =
        .next (s.wrote rd (if (s.x rs1).toNat < (imm.signExtend 32).toNat then 1 else 0) (s.pc + 4)))

/-- SLLI (R148): times `2^shamt` modulo 2^32; SRLI (R149): the unsigned value divided by `2^shamt`; SRAI (R150): floor
division of the signed value by `2^shamt`. -/
def Obligations.ImmediateShift : Prop :=
  ∀ (rd rs1 : Reg) (shamt : BitVec 5) (s : State), s.readable rs1 →
    (decodeWord (encodeR 0b0000000#7 shamt rs1 0b001#3 rd 0x13#7) = some (.slli rd rs1 shamt) ∧
      exec (.slli rd rs1 shamt) s =
        .next (s.wrote rd (BitVec.ofNat 32 ((s.x rs1).toNat * 2 ^ shamt.toNat)) (s.pc + 4))) ∧
    (decodeWord (encodeR 0b0000000#7 shamt rs1 0b101#3 rd 0x13#7) = some (.srli rd rs1 shamt) ∧
      exec (.srli rd rs1 shamt) s =
        .next (s.wrote rd (BitVec.ofNat 32 ((s.x rs1).toNat / 2 ^ shamt.toNat)) (s.pc + 4))) ∧
    (decodeWord (encodeR 0b0100000#7 shamt rs1 0b101#3 rd 0x13#7) = some (.srai rd rs1 shamt) ∧
      exec (.srai rd rs1 shamt) s =
        .next (s.wrote rd (BitVec.ofInt 32 (Int.fdiv (s.x rs1).toInt (2 ^ shamt.toNat))) (s.pc + 4)))

/-- ADD (R151), SUB (R152), XOR (R156), OR (R159), AND (R160). -/
def Obligations.RegisterArithmetic : Prop :=
  ∀ (rd rs1 rs2 : Reg) (s : State), s.readable rs1 → s.readable rs2 →
    (decodeWord (encodeR 0b0000000#7 rs2 rs1 0b000#3 rd 0x33#7) = some (.add rd rs1 rs2) ∧
      exec (.add rd rs1 rs2) s = .next (s.wrote rd (s.x rs1 + s.x rs2) (s.pc + 4))) ∧
    (decodeWord (encodeR 0b0100000#7 rs2 rs1 0b000#3 rd 0x33#7) = some (.sub rd rs1 rs2) ∧
      exec (.sub rd rs1 rs2) s = .next (s.wrote rd (s.x rs1 - s.x rs2) (s.pc + 4))) ∧
    (decodeWord (encodeR 0b0000000#7 rs2 rs1 0b100#3 rd 0x33#7) = some (.xor rd rs1 rs2) ∧
      exec (.xor rd rs1 rs2) s = .next (s.wrote rd (s.x rs1 ^^^ s.x rs2) (s.pc + 4))) ∧
    (decodeWord (encodeR 0b0000000#7 rs2 rs1 0b110#3 rd 0x33#7) = some (.or rd rs1 rs2) ∧
      exec (.or rd rs1 rs2) s = .next (s.wrote rd (s.x rs1 ||| s.x rs2) (s.pc + 4))) ∧
    (decodeWord (encodeR 0b0000000#7 rs2 rs1 0b111#3 rd 0x33#7) = some (.and rd rs1 rs2) ∧
      exec (.and rd rs1 rs2) s = .next (s.wrote rd (s.x rs1 &&& s.x rs2) (s.pc + 4)))

/-- SLT (R154) and SLTU (R155). -/
def Obligations.RegisterCompare : Prop :=
  ∀ (rd rs1 rs2 : Reg) (s : State), s.readable rs1 → s.readable rs2 →
    (decodeWord (encodeR 0b0000000#7 rs2 rs1 0b010#3 rd 0x33#7) = some (.slt rd rs1 rs2) ∧
      exec (.slt rd rs1 rs2) s = .next (s.wrote rd (if (s.x rs1).toInt < (s.x rs2).toInt then 1 else 0) (s.pc + 4))) ∧
    (decodeWord (encodeR 0b0000000#7 rs2 rs1 0b011#3 rd 0x33#7) = some (.sltu rd rs1 rs2) ∧
      exec (.sltu rd rs1 rs2) s = .next (s.wrote rd (if (s.x rs1).toNat < (s.x rs2).toNat then 1 else 0) (s.pc + 4)))

/-- SLL (R153), SRL (R157), SRA (R158): the amount is the low 5 bits of `x[rs2]`. -/
def Obligations.RegisterShift : Prop :=
  ∀ (rd rs1 rs2 : Reg) (s : State), s.readable rs1 → s.readable rs2 →
    (decodeWord (encodeR 0b0000000#7 rs2 rs1 0b001#3 rd 0x33#7) = some (.sll rd rs1 rs2) ∧
      exec (.sll rd rs1 rs2) s =
        .next (s.wrote rd (BitVec.ofNat 32 ((s.x rs1).toNat * 2 ^ ((s.x rs2).toNat % 32))) (s.pc + 4))) ∧
    (decodeWord (encodeR 0b0000000#7 rs2 rs1 0b101#3 rd 0x33#7) = some (.srl rd rs1 rs2) ∧
      exec (.srl rd rs1 rs2) s =
        .next (s.wrote rd (BitVec.ofNat 32 ((s.x rs1).toNat / 2 ^ ((s.x rs2).toNat % 32))) (s.pc + 4))) ∧
    (decodeWord (encodeR 0b0100000#7 rs2 rs1 0b101#3 rd 0x33#7) = some (.sra rd rs1 rs2) ∧
      exec (.sra rd rs1 rs2) s =
        .next (s.wrote rd (BitVec.ofInt 32 (Int.fdiv (s.x rs1).toInt (2 ^ ((s.x rs2).toNat % 32)))) (s.pc + 4)))

/-- LUI (R162) and AUIPC (R163): no source, so they complete in every state. -/
def Obligations.UpperImmediate : Prop :=
  ∀ (rd : Reg) (imm20 : BitVec 20) (s : State),
    (decodeWord (encodeU imm20 rd 0x37#7) = some (.lui rd imm20) ∧
      exec (.lui rd imm20) s = .next (s.wrote rd (BitVec.ofNat 32 (imm20.toNat * 4096)) (s.pc + 4))) ∧
    (decodeWord (encodeU imm20 rd 0x17#7) = some (.auipc rd imm20) ∧
      exec (.auipc rd imm20) s = .next (s.wrote rd (s.pc + BitVec.ofNat 32 (imm20.toNat * 4096)) (s.pc + 4)))

/-- JAL (R173): link `pc + 4`, go to `pc + imm`. JALR (R174): the target is the old `x[rs1] + imm` with bit 0 cleared. No
target makes them fault (R172). -/
def Obligations.Jumps : Prop :=
  (∀ (rd : Reg) (offset : BitVec 21) (s : State),
    (offset.getLsbD 0 = false → decodeWord (encodeJ offset rd 0x6F#7) = some (.jal rd offset)) ∧
    exec (.jal rd offset) s = .next (s.wrote rd (s.pc + 4) (s.pc + offset.signExtend 32))) ∧
  (∀ (rd rs1 : Reg) (imm : BitVec 12) (s : State), s.readable rs1 →
    decodeWord (encodeI imm rs1 0b000#3 rd 0x67#7) = some (.jalr rd rs1 imm) ∧
    exec (.jalr rd rs1 imm) s =
      .next (s.wrote rd (s.pc + 4) (BitVec.ofNat 32 ((s.x rs1 + imm.signExtend 32).toNat / 2 * 2))))

/-- BEQ (R175) and BNE (R176). No register is written and no target makes them fault (R172, R182). -/
def Obligations.BranchesEqual : Prop :=
  ∀ (rs1 rs2 : Reg) (offset : BitVec 13) (s : State), s.readable rs1 → s.readable rs2 →
    ((offset.getLsbD 0 = false → decodeWord (encodeB offset rs2 rs1 0b000#3 0x63#7) = some (.beq rs1 rs2 offset)) ∧
      exec (.beq rs1 rs2 offset) s =
        .next { s with pc := if s.x rs1 = s.x rs2 then s.pc + offset.signExtend 32 else s.pc + 4 }) ∧
    ((offset.getLsbD 0 = false → decodeWord (encodeB offset rs2 rs1 0b001#3 0x63#7) = some (.bne rs1 rs2 offset)) ∧
      exec (.bne rs1 rs2 offset) s =
        .next { s with pc := if s.x rs1 ≠ s.x rs2 then s.pc + offset.signExtend 32 else s.pc + 4 })

/-- BLT (R177), BGE (R178), BLTU (R179), BGEU (R180). -/
def Obligations.BranchesOrdered : Prop :=
  ∀ (rs1 rs2 : Reg) (offset : BitVec 13) (s : State), s.readable rs1 → s.readable rs2 →
    ((offset.getLsbD 0 = false → decodeWord (encodeB offset rs2 rs1 0b100#3 0x63#7) = some (.blt rs1 rs2 offset)) ∧
      exec (.blt rs1 rs2 offset) s =
        .next { s with pc := if (s.x rs1).toInt < (s.x rs2).toInt then s.pc + offset.signExtend 32 else s.pc + 4 }) ∧
    ((offset.getLsbD 0 = false → decodeWord (encodeB offset rs2 rs1 0b101#3 0x63#7) = some (.bge rs1 rs2 offset)) ∧
      exec (.bge rs1 rs2 offset) s =
        .next { s with pc := if (s.x rs1).toInt ≥ (s.x rs2).toInt then s.pc + offset.signExtend 32 else s.pc + 4 }) ∧
    ((offset.getLsbD 0 = false → decodeWord (encodeB offset rs2 rs1 0b110#3 0x63#7) = some (.bltu rs1 rs2 offset)) ∧
      exec (.bltu rs1 rs2 offset) s =
        .next { s with pc := if (s.x rs1).toNat < (s.x rs2).toNat then s.pc + offset.signExtend 32 else s.pc + 4 }) ∧
    ((offset.getLsbD 0 = false → decodeWord (encodeB offset rs2 rs1 0b111#3 0x63#7) = some (.bgeu rs1 rs2 offset)) ∧
      exec (.bgeu rs1 rs2 offset) s =
        .next { s with pc := if (s.x rs1).toNat ≥ (s.x rs2).toNat then s.pc + offset.signExtend 32 else s.pc + 4 })

/-- LB (R188), LBU (R191): the byte of `Mem` at `x[rs1] + imm`; LH (R189), LHU (R192): two bytes, the lower address in the
low half; sign- or zero-extended. -/
def Obligations.LoadNarrow : Prop :=
  ∀ (rd rs1 : Reg) (imm : BitVec 12) (s : State), s.readable rs1 →
    (s.accessible (s.effective rs1 imm) 1 →
      (decodeWord (encodeI imm rs1 0b000#3 rd 0x03#7) = some (.lb rd rs1 imm) ∧
        exec (.lb rd rs1 imm) s =
          .next (s.wrote rd ((archByte s (s.effective rs1 imm).toNat).signExtend 32) (s.pc + 4))) ∧
      (decodeWord (encodeI imm rs1 0b100#3 rd 0x03#7) = some (.lbu rd rs1 imm) ∧
        exec (.lbu rd rs1 imm) s =
          .next (s.wrote rd ((archByte s (s.effective rs1 imm).toNat).setWidth 32) (s.pc + 4)))) ∧
    (s.accessible (s.effective rs1 imm) 2 →
      (decodeWord (encodeI imm rs1 0b001#3 rd 0x03#7) = some (.lh rd rs1 imm) ∧
        exec (.lh rd rs1 imm) s =
          .next (s.wrote rd ((archByte s ((s.effective rs1 imm).toNat + 1) ++
            archByte s (s.effective rs1 imm).toNat).signExtend 32) (s.pc + 4))) ∧
      (decodeWord (encodeI imm rs1 0b101#3 rd 0x03#7) = some (.lhu rd rs1 imm) ∧
        exec (.lhu rd rs1 imm) s =
          .next (s.wrote rd ((archByte s ((s.effective rs1 imm).toNat + 1) ++
            archByte s (s.effective rs1 imm).toNat).setWidth 32) (s.pc + 4))))

/-- LW (R190): four bytes, little-endian. -/
def Obligations.LoadWord : Prop :=
  ∀ (rd rs1 : Reg) (imm : BitVec 12) (s : State), s.readable rs1 → s.accessible (s.effective rs1 imm) 4 →
    decodeWord (encodeI imm rs1 0b010#3 rd 0x03#7) = some (.lw rd rs1 imm) ∧
    exec (.lw rd rs1 imm) s =
      .next (s.wrote rd (archByte s ((s.effective rs1 imm).toNat + 3) ++ archByte s ((s.effective rs1 imm).toNat + 2) ++
        archByte s ((s.effective rs1 imm).toNat + 1) ++ archByte s (s.effective rs1 imm).toNat) (s.pc + 4))

/-- SB (R193), SH (R194), SW (R195): the low bytes of `x[rs2]` stand in `Mem` at `x[rs1] + imm`, the least significant
first; no register is written and the next instruction is the following one. In states that keep the machine's own
invariant, `State.Boundary`, which is a statement of its own. In the pipeline (R65, R74, R197, R224) beat `k` of a store goes
to the data cache as a write of the next `min(PB, size)` bytes of `v2` at `addr + k * PB`; a beat that hits changes those
bytes of its line and makes it dirty (R95); a beat that misses, and one still in progress, holds the store in M (R252). -/
def Obligations.Stores : Prop :=
  (∀ (rs2 rs1 : Reg) (imm : BitVec 12) (s : State), s.cfg.legal = true → s.Boundary → s.readable rs1 → s.readable rs2 →
    (s.accessible (s.effective rs1 imm) 1 →
      decodeWord (encodeS imm rs2 rs1 0b000#3 0x23#7) = some (.sb rs2 rs1 imm) ∧
      ∃ t, exec (.sb rs2 rs1 imm) s = .next t ∧ t.regs = s.regs ∧ t.pc = s.pc + 4 ∧
        archByte t (s.effective rs1 imm).toNat = (s.x rs2).extractLsb' 0 8) ∧
    (s.accessible (s.effective rs1 imm) 2 →
      decodeWord (encodeS imm rs2 rs1 0b001#3 0x23#7) = some (.sh rs2 rs1 imm) ∧
      ∃ t, exec (.sh rs2 rs1 imm) s = .next t ∧ t.regs = s.regs ∧ t.pc = s.pc + 4 ∧
        archByte t (s.effective rs1 imm).toNat = (s.x rs2).extractLsb' 0 8 ∧
        archByte t ((s.effective rs1 imm).toNat + 1) = (s.x rs2).extractLsb' 8 8) ∧
    (s.accessible (s.effective rs1 imm) 4 →
      decodeWord (encodeS imm rs2 rs1 0b010#3 0x23#7) = some (.sw rs2 rs1 imm) ∧
      ∃ t, exec (.sw rs2 rs1 imm) s = .next t ∧ t.regs = s.regs ∧ t.pc = s.pc + 4 ∧
        archByte t (s.effective rs1 imm).toNat = (s.x rs2).extractLsb' 0 8 ∧
        archByte t ((s.effective rs1 imm).toNat + 1) = (s.x rs2).extractLsb' 8 8 ∧
        archByte t ((s.effective rs1 imm).toNat + 2) = (s.x rs2).extractLsb' 16 8 ∧
        archByte t ((s.effective rs1 imm).toNat + 3) = (s.x rs2).extractLsb' 24 8)) ∧
  (∀ (s : State) (i : Record), s.fault = none → s.em.cur = some i → i.isLoad = false → i.isStore = true →
    s.mWaiting = false → s.dcache.busy = false → (s.mBeat = 0 → i.addr.toNat % i.size = 0) →
    let a := i.addr + BitVec.ofNat 32 (s.mBeat * s.cfg.portBeat)
    let n := min s.cfg.portBeat i.size
    let bytes := bytesLE (i.v2 >>> (8 * (s.mBeat * s.cfg.portBeat))) n
    ((stageM s).dcache.req.active = true ∧ (stageM s).dcache.req.kind = .W ∧ (stageM s).dcache.req.addr = a ∧
      (stageM s).dcache.req.n = n ∧ bytesLE (stageM s).dcache.req.value n = bytes) ∧
    (∀ way, s.dcache.lookup s.cfg.dcache a.toNat = some way →
      lineOffset s.cfg.dcache a.toNat + n ≤ s.cfg.dcache.lineSize →
      let set := setIndex s.cfg.dcache a.toNat
      let ln := s.dcache.line set way
      (stageM s).store = s.store ∧
      (stageM s).dcache.line set way =
        { ln with data := setLineBytes ln.data (lineOffset s.cfg.dcache a.toNat) bytes, dirty := true } ∧
      (∀ set' way', (set', way') ≠ (set, way) → (stageM s).dcache.line set' way' = s.dcache.line set' way') ∧
      (stageM s).dcache.queue = s.dcache.queue ∧ (stageM s).dcache.fifo = s.dcache.fifo ∧
      s.BeatDone (stageM s) i i s.mAcc) ∧
    (s.dcache.lookup s.cfg.dcache a.toNat = none → s.dcache.queue = [] →
      s.BeatSent (stageM s) i ∧
      ∃ v, bytesLE v n = bytes ∧ (stageM s).dcache = (cacheSend .D .W a n v s).dcache ∧
        (stageM s).store = (cacheSend .D .W a n v s).store)) ∧
  (∀ (s : State) (i : Record), s.fault = none → s.em.cur = some i → i.isLoad = false → i.isStore = true →
    s.mWaiting = true →
    (s.dcache.req.complete = true → s.BeatDone (stageM s) i i s.mAcc ∧ (stageM s).dcache = s.dcache) ∧
    (s.dcache.req.complete = false →
      stageM s = { s with wires := { s.wires with stallEM := true, stallDE := true, stallFD := true },
                          mw := { s.mw with pending := none } }))

/-! ## Frames -/

/-- The frame of every instruction that does not store (all but SB, SH, SW): only the destination register and `pc` change,
x0 stays, and every byte of memory stays (R27, R161, R182). -/
def Obligations.FrameWithoutStore : Prop :=
  ∀ (i : Instr) (s t : State), i.stores = false → exec i s = .next t →
    t = { s with regs := t.regs, pc := t.pc } ∧
    (∀ r : Reg, i.dest ≠ some r → t.regs[r.toNat]'r.isLt = s.regs[r.toNat]'r.isLt) ∧
    t.regs[0] = s.regs[0] ∧
    (∀ a : Nat, archByte t a = archByte s a)

/-- The frame of SB, SH and SW: no register changes, and every byte of `Mem` outside the `n` bytes at the effective address
stays; in the machine only the store's bytes, the data and dirty bits of data-cache lines, and `pc` can change (R196, R199). -/
def Obligations.FrameOfStore : Prop :=
  ∀ (i : Instr) (rs1 : Reg) (imm : BitVec 12) (n : Nat) (s t : State),
    i.stores = true → i.access? = some (rs1, imm, n) → exec i s = .next t →
    t = { s with pc := s.pc + 4, store := { s.store with mem := t.store.mem },
                 dcache := { s.dcache with lines := t.dcache.lines } } ∧
    (∀ set way, (t.dcache.line set way).addr = (s.dcache.line set way).addr ∧
      (t.dcache.line set way).valid = (s.dcache.line set way).valid) ∧
    (∀ a : Nat, a < (s.effective rs1 imm).toNat ∨ (s.effective rs1 imm).toNat + n ≤ a → archByte t a = archByte s a)

/-! ## Where an instruction faults (spec/60_exceptions.md) -/

/-- R63, R274: a misaligned load or store raises `MisalignedAccessFault` with its `pc`, address and size: executed alone,
and in the memory stage before its first beat, where nothing but the fault record changes. -/
def Obligations.MisalignedAccess : Prop :=
  (∀ (i : Instr) (rs1 : Reg) (imm : BitVec 12) (n : Nat) (s : State), i.access? = some (rs1, imm, n) →
    (∀ r ∈ i.sources, s.readable r) → (s.effective rs1 imm).toNat % n ≠ 0 →
    exec i s = .fault (.misalignedAccess s.counters.cycles s.pc (s.effective rs1 imm) n)) ∧
  (∀ (r : Record) (s : State), s.fault = none → s.em.cur = some r → (r.isLoad || r.isStore) = true → s.mBeat = 0 →
    s.mWaiting = false → r.addr.toNat % r.size ≠ 0 →
    stageM s = { s with fault := some (.misalignedAccess s.counters.cycles r.pc r.addr r.size) })

/-- R196 (b), R198, R199: an aligned load or store that leaves the store raises `OutOfRangeFault` with the base of its line.
The other fields of the record at the instruction level are the model's choice, notes/assumptions/8.md. -/
def Obligations.OutOfRangeAccess : Prop :=
  ∀ (i : Instr) (rs1 : Reg) (imm : BitVec 12) (n : Nat) (s : State), i.access? = some (rs1, imm, n) →
    (∀ r ∈ i.sources, s.readable r) → (s.effective rs1 imm).toNat % n = 0 →
    s.cfg.memSize < (s.effective rs1 imm).toNat + n →
    exec i s =
      .fault (.outOfRange s.counters.cycles s.pc
        (s.effective rs1 imm - BitVec.ofNat 32 ((s.effective rs1 imm).toNat % s.cfg.dcache.lineSize)) s.cfg.fillBeat
        (some .D))

/-- R273: an instruction that names an invalid source raises `InvalidRegisterFault` with its `pc` and the number of the
first invalid source, `rs1` before `rs2` (R226); and no instruction raises it otherwise. -/
def Obligations.InvalidSource : Prop :=
  ∀ (i : Instr) (s : State) (r : Reg),
    exec i s = .fault (.invalidRegister s.counters.cycles s.pc r) ↔
      ∃ before after, i.sources = before ++ r :: after ∧ (∀ q ∈ before, s.readable q) ∧ ¬ s.readable r

/-- R70, R71, R272: the store's access beyond `MEM_SIZE` faults when the countdown ends, with the requesting client's `pc`,
and changes no memory byte. -/
def Obligations.StoreOutOfRange : Prop :=
  ∀ s : State, s.fault = none → s.store.pending = true → s.store.countdown = 1 →
    s.cfg.memSize < s.store.addr.toNat + s.store.n →
    (storeClock s).store.mem = s.store.mem ∧
    (s.store.owner = some .I →
      (storeClock s).fault =
        some (.outOfRange s.counters.cycles s.icache.req.addr s.store.addr s.store.n (some .I))) ∧
    (∀ r, s.store.owner = some .D → s.em.cur = some r →
      (storeClock s).fault = some (.outOfRange s.counters.cycles r.pc s.store.addr s.store.n (some .D)))

/-! ## Steps -/

/-- A step at the instruction level runs the decoded instruction: when the four bytes of `Mem` at an aligned `pc` inside
the store decode to `i`, the step is `exec i` (R11, R120, R121). -/
def Obligations.StepRunsDecoded : Prop :=
  ∀ (s : State) (i : Instr), s.cfg.legal = true → s.fault = none → s.level = .instruction → s.pc.toNat % 4 = 0 →
    s.pc.toNat + 4 ≤ s.cfg.memSize →
    decodeBytes [archByte s s.pc.toNat, archByte s (s.pc.toNat + 1), archByte s (s.pc.toNat + 2),
      archByte s (s.pc.toNat + 3)] = .ok (i, []) →
    step s = exec i s

/-- The faults of a fetch at the instruction level, in the order of R278: misaligned (R275), out of range, undecodable
(R271). The recorded address and width of the second are the model's choice, notes/assumptions/8.md. -/
def Obligations.StepFetchFaults : Prop :=
  ∀ s : State, s.cfg.legal = true → s.fault = none → s.level = .instruction →
    (s.pc.toNat % 4 ≠ 0 → step s = .fault (.misalignedFetch s.counters.cycles s.pc)) ∧
    (s.pc.toNat % 4 = 0 → s.cfg.memSize < s.pc.toNat + 4 →
      step s = .fault (.outOfRange s.counters.cycles s.pc (lineBase s.cfg.icache s.pc) s.cfg.fillBeat (some .I))) ∧
    (s.pc.toNat % 4 = 0 → s.pc.toNat + 4 ≤ s.cfg.memSize →
      decodeWord (archByte s (s.pc.toNat + 3) ++ archByte s (s.pc.toNat + 2) ++ archByte s (s.pc.toNat + 1) ++
        archByte s s.pc.toNat) = none →
      step s = .fault (.decode s.counters.cycles s.pc (archByte s (s.pc.toNat + 3) ++ archByte s (s.pc.toNat + 2) ++
        archByte s (s.pc.toNat + 1) ++ archByte s s.pc.toNat)))

/-- A step at the cycle level is R220's: the Memory Unit's clock in the order of R72 (store, instruction cache, data cache),
then the stages W, M, E, D, F, each of which runs only while no fault is recorded; then, unless one was, the counters, the
latch advance and the clearing of the wires. A recorded fault is the outcome (R9). -/
def Obligations.StepRunsCycle : Prop :=
  (∀ (s : State) (next : State → State),
    (s.fault = none → s.andThen next = next s) ∧ (s.fault ≠ none → s.andThen next = s)) ∧
  (∀ s : State, s.cfg.legal = true → s.fault = none → s.level = .cycle →
    let memory := ((storeClock s).andThen (processCache .I)).andThen (processCache .D)
    let stages := ((((memory.andThen stageW).andThen stageM).andThen stageE).andThen stageD).andThen stageF
    (stages.fault = none → step s = .next (endCycle (advance (count stages)))) ∧
    (∀ f, stages.fault = some f → step s = .fault f))

/-- R276: a halted machine does nothing and never steps again; R7: an illegal configuration has no meaning. -/
def Obligations.HaltedAndRefused : Prop :=
  (∀ (s : State) (f : Fault), s.fault = some f → clock s = s) ∧
  (∀ (s : State) (f : Fault) (t : State), s.fault = some f → step s ≠ .next t) ∧
  (∀ s : State, s.cfg.legal = false → step s = .refused .illegalConfiguration) ∧
  (∀ (s : State) (e : Refusal), step s = .refused e → s.cfg.legal = false)

/-- R270: the recorded cycle is the zero-based index of the cycle in which the fault occurred. -/
def Obligations.FaultCycle : Prop :=
  ∀ (s : State) (f : Fault), s.fault = none → step s = .fault f → f.cycle = s.counters.cycles

/-- R40: the parameters do not change during a run; nor does the model's own level. -/
def Obligations.ParametersFixed : Prop :=
  ∀ s t : State, step s = .next t → t.cfg = s.cfg ∧ t.level = s.level

/-! ## Registers at the cycle level -/

/-- R21: x0 always reads as zero and valid, a write to it is a no-op; R24: a write to another register sets its value and
its validity and nothing else. -/
def Obligations.RegisterFile : Prop :=
  ∀ (s : State) (r q : Reg) (v : Word),
    s.regEntry 0 = { value := 0, valid := true } ∧ s.writeReg 0 v = s ∧
    (r ≠ 0 → (s.writeReg r v).regEntry r = { value := v, valid := true }) ∧
    (q ≠ r → (s.writeReg r v).regEntry q = s.regEntry q) ∧
    s.writeReg r v = { s with regs := (s.writeReg r v).regs }

/-- R222: writeback retires the instruction in `MW.cur`, writing `wbval` to its destination, or does nothing. -/
def Obligations.Writeback : Prop :=
  (∀ s : State, s.mw.cur = none → stageW s = s) ∧
  (∀ (s : State) (i : Record), s.mw.cur = some i →
    (stageW s).counters = { s.counters with retired := s.counters.retired + 1 } ∧
    stageW s = { s with regs := (stageW s).regs, counters := (stageW s).counters } ∧
    (∀ r, i.rd = some r → r ≠ 0 → (stageW s).regs = s.regs.set r.toNat { value := wbval i, valid := true } r.isLt) ∧
    ((i.rd = none ∨ i.rd = some 0) → (stageW s).regs = s.regs))

/-- R187: the writeback value of a load's raw value, by width and signedness; of everything else, `res`. -/
def Obligations.WritebackValue : Prop :=
  ∀ r : Record,
    ((r.isLoad = true ∧ r.loadSigned = true ∧ r.size = 1) → wbval r = BitVec.ofInt 32 (r.res.extractLsb' 0 8).toInt) ∧
    ((r.isLoad = true ∧ r.loadSigned = true ∧ r.size = 2) → wbval r = BitVec.ofInt 32 (r.res.extractLsb' 0 16).toInt) ∧
    (¬(r.isLoad = true ∧ r.loadSigned = true ∧ (r.size = 1 ∨ r.size = 2)) → wbval r = r.res)

/-- R223, R229: in a cycle a register changes only by the writeback of the instruction in W, and only its destination. -/
def Obligations.RegistersChangeInW : Prop :=
  ∀ (s : State) (r : Reg), (clock s).regs[r.toNat]'r.isLt ≠ s.regs[r.toNat]'r.isLt →
    ∃ i, s.mw.cur = some i ∧ i.rd = some r ∧ r ≠ 0 ∧
      (clock s).regs[r.toNat]'r.isLt = { value := wbval i, valid := true }

/-! ## Hazards and forwarding (spec/51_hazard_forwarding.md) -/

/-- R256: where an operand comes from, and when it has no value. -/
def Obligations.OperandSelection : Prop :=
  ∀ (s : State) (r : Option Reg),
    readOperand s r =
      match r with
      | none => .ok 0
      | some x =>
        if x = 0 then .ok 0
        else if s.wires.bypE.tag = some x then .ok s.wires.bypE.value
        else if s.wires.bypM.tag = some x then .ok s.wires.bypM.value
        else if (s.regs[x.toNat]'x.isLt).valid then .ok (s.regs[x.toNat]'x.isLt).value
        else .error x

/-- R226, R229, R257, R258: an instruction in D without a data hazard gets its operands and the classification of where they came
from, or raises `InvalidRegisterFault` for the first operand it would have to take from an invalid register. D changes
nothing but its wire and the slot it writes. -/
def Obligations.DecodeReadsOperands : Prop :=
  ∀ (s : State) (i : Record), s.fault = none → s.wires.stallEM = false → s.fd.cur = some i →
    hasDataHazard s.wires i = false →
    (∀ x, readOperand s i.rs1 = .error x →
      stageD s = { s with fault := some (.invalidRegister s.counters.cycles i.pc x) }) ∧
    (∀ a x, readOperand s i.rs1 = .ok a → readOperand s i.rs2 = .error x →
      stageD s = { s with fault := some (.invalidRegister s.counters.cycles i.pc x) }) ∧
    (∀ a b, readOperand s i.rs1 = .ok a → readOperand s i.rs2 = .ok b →
      (stageD s).de.pending = some { i with v1 := a, v2 := b } ∧ (stageD s).fault = none ∧
      stageD s = { s with wires := { s.wires with bypClass := (stageD s).wires.bypClass },
                          de := { s.de with pending := (stageD s).de.pending } } ∧
      ((stageD s).wires.bypClass = .both ↔
        (operandSource s.wires i.rs1 = .bypE ∧ operandSource s.wires i.rs2 = .bypM) ∨
        (operandSource s.wires i.rs1 = .bypM ∧ operandSource s.wires i.rs2 = .bypE)) ∧
      ((stageD s).wires.bypClass = .none ↔
        operandSource s.wires i.rs1 ∉ [.bypE, .bypM] ∧ operandSource s.wires i.rs2 ∉ [.bypE, .bypM]) ∧
      ((stageD s).wires.bypClass = .exe ↔
        (operandSource s.wires i.rs1 = .bypE ∨ operandSource s.wires i.rs2 = .bypE) ∧
        operandSource s.wires i.rs1 ≠ .bypM ∧ operandSource s.wires i.rs2 ≠ .bypM) ∧
      ((stageD s).wires.bypClass = .mem ↔
        (operandSource s.wires i.rs1 = .bypM ∨ operandSource s.wires i.rs2 = .bypM) ∧
        operandSource s.wires i.rs1 ≠ .bypE ∧ operandSource s.wires i.rs2 ≠ .bypE))

/-- R251: a data hazard holds exactly when a source other than x0 is in a mask; D then keeps its instruction, stops F, and
sends a bubble, reading no operand. -/
def Obligations.DataHazard : Prop :=
  ∀ (s : State) (i : Record), s.wires.stallEM = false → s.fd.cur = some i →
    ((∃ r, r ≠ 0 ∧ (i.rs1 = some r ∨ i.rs2 = some r) ∧ (r ∈ s.wires.maskE ∨ r ∈ s.wires.maskM)) →
      stageD s = { s with wires := { s.wires with dataHazard := true, stallFD := true },
                          de := { s.de with pending := none } }) ∧
    ((∀ r, r ≠ 0 → (i.rs1 = some r ∨ i.rs2 = some r) → r ∉ s.wires.maskE ∧ r ∉ s.wires.maskM) →
      (stageD s).wires.dataHazard = s.wires.dataHazard ∧ (stageD s).wires.stallFD = s.wires.stallFD)

/-- R225, R229, R254, R259: E executes the record, and puts a load's destination in `mask_E` or any other result on `byp_E`;
it changes nothing but these wires and the slot it writes, and under a structural stall nothing at all. -/
def Obligations.ExecuteStage : Prop :=
  (∀ s : State, s.wires.stallEM = true → stageE s = s) ∧
  (∀ s : State, s.wires.stallEM = false → s.de.cur = none → stageE s = { s with em := { s.em with pending := none } }) ∧
  (∀ (s : State) (i : Record), s.wires.stallEM = false → s.de.cur = some i →
    (stageE s).em.pending = some (execute i) ∧ (stageE s).em.cur = s.em.cur ∧
    stageE s = { s with wires := (stageE s).wires, em := (stageE s).em } ∧
    (∀ r, i.rd = some r → r ≠ 0 → i.isLoad = true → (stageE s).wires = { s.wires with maskE := [r] }) ∧
    (∀ r, i.rd = some r → r ≠ 0 → i.isLoad = false →
      (stageE s).wires = { s.wires with bypE := { tag := some r, value := (execute i).res } }) ∧
    ((i.rd = none ∨ i.rd = some 0) → (stageE s).wires = s.wires))

/-- R224, R253, R255: an instruction that is neither load nor store leaves M at once: it flushes exactly when it does not
go on at `pc + 4`, offers its result on `byp_M`, and sets no stall wire. -/
def Obligations.MemoryStagePasses : Prop :=
  (∀ s : State, s.em.cur = none → stageM s = { s with mw := { s.mw with pending := none } }) ∧
  (∀ (s : State) (i : Record), s.em.cur = some i → i.isLoad = false → i.isStore = false → s.wires = Wires.cleared →
    stageM s = { s with wires := (stageM s).wires, mw := { s.mw with pending := some i } } ∧
    ((stageM s).wires.flush = true ↔ i.nextPc ≠ i.pc + 4) ∧
    (i.nextPc ≠ i.pc + 4 → (stageM s).wires.flushTarget = i.nextPc) ∧
    (∀ r, i.rd = some r → r ≠ 0 → (stageM s).wires.bypM = { tag := some r, value := i.res }) ∧
    ((i.rd = none ∨ i.rd = some 0) → (stageM s).wires.bypM.tag = none) ∧
    (stageM s).wires.stallEM = false ∧ (stageM s).wires.stallDE = false ∧ (stageM s).wires.stallFD = false ∧
    (stageM s).wires.maskM = [])

/-- R65, R74, R197, R224, R252, R255: the beats of a load. A beat that is not yet sent goes to the data cache as a read of
`min(PB, size)` bytes at `addr + k * PB`. A beat that hits, or that was sent before and is now complete, puts its bytes in
their place in the value; a beat that misses, and one still in progress, holds the load in M, with its destination in
`mask_M`. -/
def Obligations.LoadBeatHit : Prop :=
  (∀ (s : State) (i : Record), s.fault = none → s.em.cur = some i → i.isLoad = true → s.mWaiting = false →
    s.dcache.busy = false → (s.mBeat = 0 → i.addr.toNat % i.size = 0) →
    let a := i.addr + BitVec.ofNat 32 (s.mBeat * s.cfg.portBeat)
    let n := min s.cfg.portBeat i.size
    ((stageM s).dcache.req.active = true ∧ (stageM s).dcache.req.kind = .R ∧ (stageM s).dcache.req.addr = a ∧
      (stageM s).dcache.req.n = n) ∧
    (∀ way, s.dcache.lookup s.cfg.dcache a.toNat = some way →
      lineOffset s.cfg.dcache a.toNat + n ≤ s.cfg.dcache.lineSize →
      let bytes := lineBytes (s.dcache.line (setIndex s.cfg.dcache a.toNat) way).data (lineOffset s.cfg.dcache a.toNat) n
      let acc := s.mAcc ||| (wordLE bytes <<< (8 * s.mBeat * s.cfg.portBeat))
      s.BeatDone (stageM s) i { i with res := acc } acc ∧
      (stageM s).dcache = { s.dcache with req := (stageM s).dcache.req }) ∧
    (s.dcache.lookup s.cfg.dcache a.toNat = none → s.dcache.queue = [] →
      s.BeatSent (stageM s) i ∧
      ∃ v, (stageM s).dcache = (cacheSend .D .R a n v s).dcache ∧ (stageM s).store = (cacheSend .D .R a n v s).store)) ∧
  (∀ (s : State) (i : Record), s.fault = none → s.em.cur = some i → i.isLoad = true → s.mWaiting = true →
    (s.dcache.req.complete = true →
      let acc := s.mAcc ||| (s.dcache.req.result <<< (8 * s.mBeat * s.cfg.portBeat))
      s.BeatDone (stageM s) i { i with res := acc } acc ∧ (stageM s).dcache = s.dcache) ∧
    (s.dcache.req.complete = false →
      stageM s = { s with wires := (stageM s).wires, mw := { s.mw with pending := none } } ∧
      (stageM s).wires = { s.wires with stallEM := true, stallDE := true, stallFD := true,
                                        maskM := (stageM s).wires.maskM } ∧
      (∀ r, i.rd = some r → r ≠ 0 → (stageM s).wires.maskM = [r]) ∧
      ((i.rd = none ∨ i.rd = some 0) → (stageM s).wires.maskM = [])))

/-- R73, R228, R239, R271, R275: the fetch stage: stalled, a misaligned `pc`, a fetch that is pending, and a new fetch, which
is a 4-byte read at `pc` and is delivered in the same cycle where it hits. -/
def Obligations.FetchStage : Prop :=
  (∀ s : State, s.wires.stallFD = true → stageF s = s) ∧
  (∀ s : State, s.fault = none → s.wires.stallFD = false → s.fetchPending = false → s.pc.toNat % 4 ≠ 0 →
    stageF s = { s with fault := some (.misalignedFetch s.counters.cycles s.pc) }) ∧
  (∀ s : State, s.fault = none → s.wires.stallFD = false → s.fetchPending = true → s.icache.req.complete = false →
    stageF s = { s with fd := { s.fd with pending := none } }) ∧
  (∀ s : State, s.fault = none → s.wires.stallFD = false → s.fetchPending = true → s.icache.req.complete = true →
    (s.icache.req.addr ≠ s.pc →
      stageF s = { s with fetchPending := false, fd := { s.fd with pending := none } }) ∧
    (∀ r, s.icache.req.addr = s.pc → decodeRecord s.icache.req.result s.pc = some r →
      stageF s = { s with fetchPending := false, fd := { s.fd with pending := some r }, pc := s.pc + 4,
                          counters := { s.counters with created := s.counters.created + 1 } }) ∧
    (s.icache.req.addr = s.pc → decodeRecord s.icache.req.result s.pc = none →
      (stageF s).fault = some (.decode s.counters.cycles s.pc s.icache.req.result) ∧
      (stageF s).fd = s.fd ∧ (stageF s).pc = s.pc ∧ (stageF s).counters = s.counters)) ∧
  (∀ s : State, s.fault = none → s.wires.stallFD = false → s.fetchPending = false → s.pc.toNat % 4 = 0 →
    s.icache.busy = false →
    ((stageF s).icache.req.active = true ∧ (stageF s).icache.req.kind = .R ∧ (stageF s).icache.req.addr = s.pc ∧
      (stageF s).icache.req.n = 4) ∧
    (∀ way, s.icache.lookup s.cfg.icache s.pc.toNat = some way →
      lineOffset s.cfg.icache s.pc.toNat + 4 ≤ s.cfg.icache.lineSize →
      let w := wordLE (lineBytes (s.icache.line (setIndex s.cfg.icache s.pc.toNat) way).data
        (lineOffset s.cfg.icache s.pc.toNat) 4)
      (∀ r, decodeRecord w s.pc = some r →
        stageF s = { s with icache := { s.icache with req := (stageF s).icache.req }, fetchPending := false,
                            fd := { s.fd with pending := some r }, pc := s.pc + 4,
                            counters := { s.counters with created := s.counters.created + 1 } } ∧
        (stageF s).icache.req.complete = true) ∧
      (decodeRecord w s.pc = none →
        (stageF s).fault = some (.decode s.counters.cycles s.pc w) ∧
        (stageF s).fd = s.fd ∧ (stageF s).pc = s.pc ∧ (stageF s).counters = s.counters)) ∧
    (s.icache.lookup s.cfg.icache s.pc.toNat = none → s.icache.queue = [] →
      stageF s = { s with icache := (stageF s).icache, store := (stageF s).store, fetchPending := true,
                          fd := { s.fd with pending := none } } ∧
      (stageF s).icache.req.complete = false ∧ (stageF s).icache.queue ≠ [] ∧
      ∃ v, (stageF s).icache = (cacheSend .I .R s.pc 4 v s).icache ∧ (stageF s).store = (cacheSend .I .R s.pc 4 v s).store))

/-- R235: which stall combinations occur in a cycle, which starts with cleared wires (R35) and is not cut short: no stall,
a data-hazard stall, a structural stall, or a flush without stall. -/
def Obligations.StallCombinations : Prop :=
  ∀ s : State, s.wires = Wires.cleared → (beforeAdvance s).fault = none →
    ((beforeAdvance s).wires.stallEM = true →
      (beforeAdvance s).wires.stallDE = true ∧ (beforeAdvance s).wires.stallFD = true) ∧
    ((beforeAdvance s).wires.dataHazard = true →
      (beforeAdvance s).wires.stallFD = true ∧ (beforeAdvance s).wires.stallEM = false ∧
        (beforeAdvance s).wires.stallDE = false) ∧
    ((beforeAdvance s).wires.flush = true → (beforeAdvance s).wires.stallEM = false) ∧
    (beforeAdvance s).wires.stallDE = (beforeAdvance s).wires.stallEM ∧
    ((beforeAdvance s).wires.stallFD = true →
      (beforeAdvance s).wires.dataHazard = true ∨ (beforeAdvance s).wires.stallEM = true)

/-- R234, R32: no stage changes what a latch shows, and in a cycle without a flush a stalled latch shows the same record
after the clock as before; a latch that is not stalled shows what its stage wrote (R231). -/
def Obligations.LatchDiscipline : Prop :=
  ∀ s : State,
    ((beforeAdvance s).fd.cur = s.fd.cur ∧ (beforeAdvance s).de.cur = s.de.cur ∧ (beforeAdvance s).em.cur = s.em.cur ∧
      (beforeAdvance s).mw.cur = s.mw.cur) ∧
    ((beforeAdvance s).wires.flush = false →
      ((beforeAdvance s).wires.stallEM = true → (clock s).em.cur = s.em.cur) ∧
      ((beforeAdvance s).wires.stallDE = true → (clock s).de.cur = s.de.cur) ∧
      ((beforeAdvance s).wires.stallFD = true → (clock s).fd.cur = s.fd.cur)) ∧
    (s.fault = none → (beforeAdvance s).fault = none →
      (clock s).mw.cur = (beforeAdvance s).mw.pending ∧
      ((beforeAdvance s).wires.flush = false →
        ((beforeAdvance s).wires.stallEM = false → (clock s).em.cur = (beforeAdvance s).em.pending) ∧
        ((beforeAdvance s).wires.stallDE = false → (clock s).de.cur = (beforeAdvance s).de.pending) ∧
        ((beforeAdvance s).wires.stallFD = false → (clock s).fd.cur = (beforeAdvance s).fd.pending)))

/-- R231, R232, R253: a flush happens exactly when the instruction leaving M does not go on at `pc + 4`; it empties `FD`,
`DE` and `EM`, sends the fetch to that instruction's next-PC, and the instruction itself goes on to W. -/
def Obligations.Flush : Prop :=
  ∀ s : State, s.fault = none → (beforeAdvance s).fault = none → s.wires = Wires.cleared →
    ((beforeAdvance s).wires.flush = true ↔
      ∃ i, (beforeAdvance s).mw.pending = some i ∧ i.nextPc ≠ i.pc + 4) ∧
    ((beforeAdvance s).wires.flush = true →
      ∃ i j, s.em.cur = some j ∧ i.pc = j.pc ∧ i.nextPc = j.nextPc ∧ i.rd = j.rd ∧
        (clock s).mw.cur = some i ∧ (clock s).pc = i.nextPc ∧
        (clock s).fd = Latch.empty ∧ (clock s).de = Latch.empty ∧ (clock s).em = Latch.empty)

/-- R285: what one cycle adds to each of the eight counters. A flush discards what F, D and E wrote in the cycle, and the
record a data hazard held in D (R231). -/
def Obligations.CounterIncrements : Prop :=
  ∀ s : State, s.fault = none → (beforeAdvance s).fault = none → s.wires = Wires.cleared →
    let b := beforeAdvance s
    let one := fun (r : Option Record) => if r = none then 0 else 1
    (clock s).counters.cycles = s.counters.cycles + 1 ∧
    (clock s).counters.retired = s.counters.retired + one s.mw.cur ∧
    (clock s).counters.dataStalls = s.counters.dataStalls + (if b.wires.dataHazard then 1 else 0) ∧
    (clock s).counters.memStalls = s.counters.memStalls + (if b.wires.stallEM then 1 else 0) ∧
    (clock s).counters.mispredicts = s.counters.mispredicts + (if b.wires.flush then 1 else 0) ∧
    (clock s).counters.multi = s.counters.multi + (if b.wires.dataHazard ∧ b.wires.flush then 1 else 0) ∧
    (clock s).counters.created = s.counters.created + (if b.wires.stallFD then 0 else one b.fd.pending) ∧
    (clock s).counters.flushed = s.counters.flushed +
      (if b.wires.flush then
        one b.fd.pending + one b.de.pending + one b.em.pending + (if b.wires.dataHazard then one s.fd.cur else 0)
      else 0)

/-- R11, R140: for an instruction that accesses no memory, the execute stage's function on its record and the writeback
stage write what the instruction executed alone writes, and the record's next-PC is where it goes. For a load or store the
execute stage's function computes the effective address and the next-PC and nothing else (R185, R197). -/
def Obligations.PipelineAgreesAlone : Prop :=
  (∀ (i : Instr) (s t : State) (a b : Word), i.access? = none →
    readOperand { s with wires := Wires.cleared } (recordOf i (encode i) s.pc).rs1 = .ok a →
    readOperand { s with wires := Wires.cleared } (recordOf i (encode i) s.pc).rs2 = .ok b →
    exec i s = .next t →
    let r := execute { recordOf i (encode i) s.pc with v1 := a, v2 := b }
    (stageW { s with mw := { pending := none, cur := some r } }).regs = t.regs ∧ r.nextPc = t.pc) ∧
  (∀ (i : Instr) (rs1 : Reg) (imm : BitVec 12) (n : Nat) (pc a b : Word), i.access? = some (rs1, imm, n) →
    let r := { recordOf i (encode i) pc with v1 := a, v2 := b }
    r.rs1 = some rs1 ∧ r.size = n ∧ r.isLoad = !i.stores ∧ r.isStore = i.stores ∧
    execute r = { r with addr := a + imm.signExtend 32, nextPc := pc + 4 })

/-! ## Memory system (spec/20_memory.md, spec/21_cache.md) -/

/-- R62, R93: bytes are stored and assembled little-endian, in the store and in a line. -/
def Obligations.ByteOrder : Prop :=
  (∀ (mem : List Host.Cell) (a k n : Nat) (v : Word), Memory.wf mem = true → k < n →
    readCell (writeBytes mem a (bytesLE v n)) (a + k) = (v >>> (8 * k)).setWidth 8) ∧
  (∀ (mem : List Host.Cell) (a b n : Nat) (v : Word), b < a ∨ a + n ≤ b →
    readCell (writeBytes mem a (bytesLE v n)) b = readCell mem b) ∧
  (∀ (mem : List Host.Cell) (a : Nat),
    (wordLE (readBytes mem a 1)).toNat = (readCell mem a).toNat ∧
    (wordLE (readBytes mem a 2)).toNat = (readCell mem a).toNat + (readCell mem (a + 1)).toNat * 2 ^ 8 ∧
    (wordLE (readBytes mem a 4)).toNat = (readCell mem a).toNat + (readCell mem (a + 1)).toNat * 2 ^ 8 +
      (readCell mem (a + 2)).toNat * 2 ^ 16 + (readCell mem (a + 3)).toNat * 2 ^ 24) ∧
  (∀ (data : List Byte) (off n k : Nat) (v : Word), off + n ≤ data.length →
    (setLineBytes data off (bytesLE v n)).getD k 0 =
      (if off ≤ k ∧ k < off + n then (v >>> (8 * (k - off))).setWidth 8 else data.getD k 0)) ∧
  (∀ (data : List Byte) (off n k : Nat), k < n → (lineBytes data off n).getD k 0 = data.getD (off + k) 0)

/-- R69, R70: a request sent to the free store is pending for `L` clocks and performed by the `L`th: a read assembles its
bytes and leaves memory, a write stores them; a send to an owned slot is a `ContentionFault`. -/
def Obligations.StoreLatency : Prop :=
  (∀ (kind : Access) (addr : Word) (n : Nat) (v : Word) (c : Client) (s : State), s.fault = none →
    s.store.owner ≠ none → storeSend kind addr n v c s = { s with fault := some (.contention s.counters.cycles .store) }) ∧
  (∀ (kind : Access) (addr : Word) (n : Nat) (v : Word) (c : Client) (s : State), s.fault = none →
    s.store.owner = none → 1 ≤ s.cfg.latency → addr.toNat + n ≤ s.cfg.memSize →
    (∀ k, k < s.cfg.latency →
      (storeClock^[k] (storeSend kind addr n v c s)).store.pending = true ∧
      (storeClock^[k] (storeSend kind addr n v c s)).store.complete = false ∧
      (storeClock^[k] (storeSend kind addr n v c s)).store.mem = s.store.mem ∧
      storeClock^[k] (storeSend kind addr n v c s) =
        { s with store := (storeClock^[k] (storeSend kind addr n v c s)).store }) ∧
    (let d := storeClock^[s.cfg.latency] (storeSend kind addr n v c s)
     d = { s with store := d.store } ∧
     d.fault = none ∧ d.store.pending = false ∧ d.store.complete = true ∧ d.store.owner = some c ∧
     (kind = .R → d.store.result = wordLE (readBytes s.store.mem addr.toNat n) ∧ d.store.mem = s.store.mem) ∧
     (kind = .W → d.store.mem = writeBytes s.store.mem addr.toNat (bytesLE v n))))

/-- R93, R97: a request that hits completes at once and touches nothing but its cache: a read takes its bytes from the line, a
write changes that line only and makes it dirty. -/
def Obligations.CacheHit : Prop :=
  ∀ (c : Client) (kind : Access) (addr : Word) (n : Nat) (v : Word) (s : State) (way : Nat), s.fault = none →
    (s.cache c).busy = false → (s.cache c).lookup (s.geometry c) addr.toNat = some way →
    lineOffset (s.geometry c) addr.toNat + n ≤ (s.geometry c).lineSize →
    let set := setIndex (s.geometry c) addr.toNat
    let off := lineOffset (s.geometry c) addr.toNat
    let ln := (s.cache c).line set way
    let t := cacheSend c kind addr n v s
    t = s.withCache c (t.cache c) ∧
    (t.cache c).req = { active := true, complete := true, kind := kind, addr := addr, n := n, value := v,
                        result := (t.cache c).req.result } ∧
    t.fault = none ∧ t.store = s.store ∧ (t.cache c).req.complete = true ∧ (t.cache c).req.active = true ∧
    (t.cache c).queue = (s.cache c).queue ∧ (t.cache c).fifo = (s.cache c).fifo ∧
    (kind = .R → (t.cache c).req.result = wordLE (lineBytes ln.data off n) ∧ (t.cache c).lines = (s.cache c).lines) ∧
    (kind = .W →
      (t.cache c).line set way = { ln with data := setLineBytes ln.data off (bytesLE v n), dirty := true } ∧
      ∀ set' way', (set', way') ≠ (set, way) → (t.cache c).line set' way' = (s.cache c).line set' way')

/-- R80, R97: a data-cache read that hits returns what `Mem` holds. -/
def Obligations.HitReadsMem : Prop :=
  ∀ (addr : Word) (n : Nat) (s : State) (way : Nat), s.fault = none → s.dcache.busy = false →
    s.dcache.lookup s.cfg.dcache addr.toNat = some way →
    lineOffset s.cfg.dcache addr.toNat + n ≤ s.cfg.dcache.lineSize →
    (cacheSend .D .R addr n 0 s).dcache.req.result = memRead s addr.toNat n

/-- R96, R97, R99 to R102: a miss and the line transactions it queues. A request that misses is recorded as incomplete, the
miss queues its transactions, and one unit of queue work is done at once: the first beat goes into the slot in the cycle of
the miss if the slot is free (R97). The miss takes the way the set's FIFO names, rotates the
FIFO, queues the victim's write-back if it is valid and dirty, then the fill of the missing line, and makes the victim
invalid. The head transaction `t` then moves one beat at a time: it sends the beat at `t.done` if the slot is free, waits
while the beat counts down, and collects it: a fill's bytes go into the line at `t.done`. When the line has been moved, a
fill gives it its address, makes it valid and clean and performs the waiting request on it, and a write-back retires and
the fill behind it starts. -/
def Obligations.CacheMiss : Prop :=
  (∀ (c : Client) (addr : Word) (s : State), s.cfg.legal = true → (s.cache c).shaped (s.geometry c) →
    let g := s.geometry c
    let k := s.cache c
    let set := setIndex g addr.toNat
    let way := k.fifo.getD set 0
    let ln := k.line set way
    let t := (cacheMiss c addr s).cache c
    cacheMiss c addr s = s.withCache c t ∧
    t.fifo.getD set 0 = (way + 1) % g.ways ∧ (∀ set', set' ≠ set → t.fifo.getD set' 0 = k.fifo.getD set' 0) ∧
    (t.line set way).valid = false ∧ (t.line set way).data = ln.data ∧ (t.line set way).addr = ln.addr ∧
    (∀ set' way', (set', way') ≠ (set, way) → t.line set' way' = k.line set' way') ∧
    t.req = k.req ∧
    t.queue = k.queue ++
      (if ln.valid = true ∧ ln.dirty = true then
        [{ kind := .WB, set := set, way := way, addr := ln.addr, done := 0, outstanding := false }] else []) ++
      [{ kind := .FILL, set := set, way := way,
         addr := addr - BitVec.ofNat 32 (addr.toNat % g.lineSize), done := 0, outstanding := false }]) ∧
  (∀ (c : Client) (kind : Access) (addr : Word) (n : Nat) (v : Word) (s : State), s.fault = none →
    (s.cache c).busy = false → (s.cache c).lookup (s.geometry c) addr.toNat = none →
    let g := s.geometry c
    let k := s.cache c
    let set := setIndex g addr.toNat
    let way := k.fifo.getD set 0
    let ln := k.line set way
    let wb : Transaction := { kind := .WB, set := set, way := way, addr := ln.addr, done := 0, outstanding := false }
    let fill : Transaction :=
      { kind := .FILL, set := set, way := way,
        addr := addr - BitVec.ofNat 32 (addr.toNat % g.lineSize), done := 0, outstanding := false }
    let u := cacheSend c kind addr n v s
    (∃ r, u = processCache c (cacheMiss c addr (s.withCache c { k with
      req := { active := true, complete := false, kind := kind, addr := addr, n := n, value := v, result := r } }))) ∧
    (k.queue = [] →
      u = { s.withCache c (u.cache c) with store := u.store } ∧ u.store.mem = s.store.mem ∧
      (u.cache c).req = { active := true, complete := false, kind := kind, addr := addr, n := n, value := v,
                          result := (u.cache c).req.result } ∧
      (s.store.owner ≠ none → u.store = s.store ∧
        (u.cache c).queue = if ln.valid = true ∧ ln.dirty = true then [wb, fill] else [fill]) ∧
      (s.store.owner = none →
        if ln.valid = true ∧ ln.dirty = true then
          u.CarriesBeat c wb ln.data ∧ (u.cache c).queue = [{ wb with outstanding := true }, fill]
        else u.CarriesBeat c fill ln.data ∧ (u.cache c).queue = [{ fill with outstanding := true }]))) ∧
  (∀ (c : Client) (s : State) (t : Transaction) (rest : List Transaction), s.fault = none →
    (s.cache c).shaped (s.geometry c) → t.set < (s.geometry c).sets → t.way < (s.geometry c).ways →
    (s.cache c).queue = t :: rest →
    let k := s.cache c
    let ln := k.line t.set t.way
    let u := processCache c s
    let next := t.done + s.cfg.fillBeat
    let moved := setLineBytes ln.data t.done (bytesLE s.store.result s.cfg.fillBeat)
    (u.fault = none → u = { s.withCache c (u.cache c) with store := u.store }) ∧
    (t.outstanding = false → s.store.owner ≠ none → u = s) ∧
    (t.outstanding = false → s.store.owner = none →
      u.fault = none ∧ u.store.mem = s.store.mem ∧ u.CarriesBeat c t ln.data ∧
      u.cache c = { k with queue := { t with outstanding := true } :: rest }) ∧
    (t.outstanding = true → s.store.complete = false → u = s) ∧
    (t.outstanding = true → s.store.complete = true → next ≠ (s.geometry c).lineSize →
      u.fault = none ∧ u.store.mem = s.store.mem ∧ u.CarriesBeat c { t with done := next } ln.data ∧
      (u.cache c).queue = { t with done := next, outstanding := true } :: rest ∧ (u.cache c).req = k.req ∧
      (u.cache c).fifo = k.fifo ∧
      (u.cache c).line t.set t.way = (match t.kind with | .FILL => { ln with data := moved } | .WB => ln) ∧
      (∀ set way, (set, way) ≠ (t.set, t.way) → (u.cache c).line set way = k.line set way)) ∧
    (t.outstanding = true → s.store.complete = true → next = (s.geometry c).lineSize → t.kind = .FILL → rest = [] →
      lineOffset (s.geometry c) k.req.addr.toNat + k.req.n ≤ (s.geometry c).lineSize →
      let off := lineOffset (s.geometry c) k.req.addr.toNat
      u.fault = none ∧ u.store = { s.store with owner := none, complete := false } ∧ (u.cache c).queue = [] ∧
      (u.cache c).fifo = k.fifo ∧ (u.cache c).req = { k.req with complete := true, result := (u.cache c).req.result } ∧
      (k.req.kind = .R → (u.cache c).req.result = wordLE (lineBytes moved off k.req.n) ∧
        (u.cache c).line t.set t.way = { data := moved, addr := t.addr, valid := true, dirty := false }) ∧
      (k.req.kind = .W → (u.cache c).line t.set t.way =
        { data := setLineBytes moved off (bytesLE k.req.value k.req.n), addr := t.addr, valid := true, dirty := true }) ∧
      (∀ set way, (set, way) ≠ (t.set, t.way) → (u.cache c).line set way = k.line set way)) ∧
    (∀ f, t.outstanding = true → s.store.complete = true → next = (s.geometry c).lineSize → t.kind = .WB → rest = [f] →
      f.outstanding = false →
      u.fault = none ∧ u.store.mem = s.store.mem ∧ u.CarriesBeat c f (k.line f.set f.way).data ∧
      u.cache c = { k with queue := [{ f with outstanding := true }] }))

/-! ## Reset (spec/70_reset_and_hazards.md) -/

/-- R23, R45, R295: what a reset that is accepted leaves; R7, R296: what it refuses. The values of don't-care elements and
of invalid registers are not stated. -/
def Obligations.Reset : Prop :=
  ∀ (cfg : Config) (image : List Byte) (entry ra sp fp : Word),
    (cfg.legal = false → resetMachine cfg image entry ra sp fp = .refused .illegalConfiguration) ∧
    (cfg.legal = true → image.length ≠ cfg.memSize → resetMachine cfg image entry ra sp fp = .refused .imageLength) ∧
    (cfg.legal = true → image.length = cfg.memSize →
      ∃ s : State, resetMachine cfg image entry ra sp fp = .next s ∧
        s.cfg = cfg ∧ s.pc = entry ∧ s.fetchPending = false ∧
        s.fd = Latch.empty ∧ s.de = Latch.empty ∧ s.em = Latch.empty ∧ s.mw = Latch.empty ∧
        s.mBeat = 0 ∧ s.mWaiting = false ∧ s.mAcc = 0 ∧ s.wires = Wires.cleared ∧
        (∀ a, a < image.length → readCell s.store.mem a = image.getD a 0) ∧
        s.store.pending = false ∧ s.store.complete = false ∧ s.store.owner = none ∧ s.store.countdown = 0 ∧
        (∀ c : Client, (s.cache c).shaped (s.geometry c) ∧
          (∀ row ∈ (s.cache c).lines, ∀ ln ∈ row, ln.valid = false ∧ ln.dirty = false) ∧
          (∀ w ∈ (s.cache c).fifo, w = 0) ∧ (s.cache c).req.active = false ∧ (s.cache c).req.complete = false ∧
          (s.cache c).queue = []) ∧
        s.counters = { cycles := 0, retired := 0, dataStalls := 0, memStalls := 0, mispredicts := 0, multi := 0,
                       created := 0, flushed := 0 } ∧
        s.fault = none ∧
        s.regs[0] = { value := 0, valid := true } ∧ s.regs[1] = { value := ra, valid := true } ∧
        s.regs[2] = { value := sp, valid := true } ∧ s.regs[8] = { value := fp, valid := true } ∧
        (∀ r : Fin 32, r ∉ [(0 : Fin 32), 1, 2, 8] → s.regs[r].valid = false))

/-! ## Invariants of every step -/

/-- Every step keeps the invariant of a cycle boundary: memory in canonical form, x0 zero and valid (R21), wires cleared
(R35), pending slots empty (R32), no fault recorded, caches in shape (R37). -/
def Obligations.StepKeepsBoundary : Prop :=
  ∀ s t : State, s.Boundary → step s = .next t → t.Boundary

/-- R31, R286: every step keeps the relations between the counters; no record is lost or counted twice. -/
def Obligations.StepKeepsCounts : Prop :=
  ∀ s t : State, s.Boundary → s.Counted → step s = .next t → t.Counted

/-- R95: the instruction cache is never written and never enqueues a write-back. -/
def Obligations.StepKeepsFetchClean : Prop :=
  ∀ s t : State, s.FetchClean → step s = .next t → t.FetchClean

/-- R107, R98, R34: every step keeps the invariant of the memory system. That a victim's dirty bit goes with its valid bit is
notes/assumptions/13.md. -/
def Obligations.StepKeepsMemoryOk : Prop :=
  ∀ s t : State, s.Boundary → s.MemoryOk → step s = .next t → t.MemoryOk

/-- R277: no send to a busy unit and no request across a line end: `ContentionFault` is unreachable. -/
def Obligations.NoContention : Prop :=
  ∀ (s : State) (cycle : Nat) (busyUnit : MemUnit), s.Boundary → s.MemoryOk → step s ≠ .fault (.contention cycle busyUnit)

/-- The invariants hold after every accepted reset. -/
def Obligations.InvariantsAtReset : Prop :=
  (State.reset.Boundary ∧ State.reset.Counted ∧ State.reset.FetchClean ∧ State.reset.MemoryOk) ∧
  ∀ (cfg : Config) (image : List Byte) (entry ra sp fp : Word) (s : State),
    resetMachine cfg image entry ra sp fp = .next s → s.Boundary ∧ s.Counted ∧ s.FetchClean ∧ s.MemoryOk

/-- R23: an invalid register holds no value at all: two machines that differ only in the values of invalid registers step
alike, and still differ only there. So the number the model holds in an invalid register (notes/assumptions/5.md) is never
observed. -/
def Obligations.InvalidValuesUnseen : Prop :=
  ∀ s t : State, s.SameValid t →
    (∀ s', step s = .next s' → ∃ t', step t = .next t' ∧ s'.SameValid t') ∧
    (∀ f, step s = .fault f → step t = .fault f) ∧
    (∀ e, step s = .refused e → step t = .refused e)
end

