-- ==== Sys2Proof/Laws/Memory.lean ====
section
/-! SUPPORT. Laws of the byte memory: read after write, and the canonical form kept by every memory operation. -/

namespace Sys2Proof.Machine

/-! ## The canonical form -/

/-- The canonical form said with pairwise order. -/
theorem memory_wf_iff (m : List Host.Cell) :
    Memory.wf m = true ↔ m.Pairwise (fun c d => c.1 < d.1) ∧ ∀ c ∈ m, c.2 ≠ 0 := by
  induction m with
  | nil => simp [Memory.wf]
  | cons c m ih =>
    obtain ⟨a, b⟩ := c
    cases m with
    | nil => simp [Memory.wf]
    | cons d m =>
      obtain ⟨a', b'⟩ := d
      have h : Memory.wf ((a, b) :: (a', b') :: m) = (b != 0 && decide (a < a') && Memory.wf ((a', b') :: m)) := rfl
      rw [h]
      simp only [Bool.and_eq_true, bne_iff_ne, decide_eq_true_eq, ih]
      constructor
      · rintro ⟨⟨hb, ha⟩, hp, hz⟩
        refine ⟨List.pairwise_cons.2 ⟨?_, hp⟩, ?_⟩
        · intro x hx
          rcases List.mem_cons.1 hx with rfl | hx
          · exact ha
          · exact lt_trans ha ((List.pairwise_cons.1 hp).1 x hx)
        · intro x hx
          rcases List.mem_cons.1 hx with rfl | hx
          · exact hb
          · exact hz x hx
      · rintro ⟨hp, hz⟩
        obtain ⟨h1, h2⟩ := List.pairwise_cons.1 hp
        exact ⟨⟨hz (a, b) (by simp), h1 (a', b') (by simp)⟩, h2, fun x hx => hz x (List.mem_cons_of_mem _ hx)⟩

/-- The addresses a write can list. -/
theorem mem_writeCell {m : List Host.Cell} {a : Nat} {v : Byte} {c : Host.Cell} (h : c ∈ writeCell m a v) :
    c ∈ m ∨ c = (a, v) ∧ v ≠ 0 := by
  induction m with
  | nil =>
    simp only [writeCell] at h
    split at h
    · cases h
    · exact .inr ⟨List.mem_singleton.1 h, by assumption⟩
  | cons d m ih =>
    obtain ⟨k, b⟩ := d
    simp only [writeCell] at h
    split at h
    · split at h
      · exact .inl h
      · exact (List.mem_cons.1 h).elim (fun h => .inr ⟨h, by assumption⟩) .inl
    · split at h
      · split at h
        · exact .inl (List.mem_cons_of_mem _ h)
        · exact (List.mem_cons.1 h).elim (fun h => .inr ⟨h, by assumption⟩) fun h => .inl (List.mem_cons_of_mem _ h)
      · rcases List.mem_cons.1 h with rfl | h
        · exact .inl List.mem_cons_self
        · exact (ih h).imp (List.mem_cons_of_mem _) id

/-- A write keeps the canonical form. -/
theorem writeCell_wf {m : List Host.Cell} (h : Memory.wf m = true) (a : Nat) (v : Byte) :
    Memory.wf (writeCell m a v) = true := by
  rw [memory_wf_iff] at h ⊢
  refine ⟨?_, ?_⟩
  · obtain ⟨hp, -⟩ := h
    induction m with
    | nil => simp only [writeCell]; split <;> simp
    | cons d m ih =>
      obtain ⟨k, b⟩ := d
      obtain ⟨h1, h2⟩ := List.pairwise_cons.1 hp
      simp only [writeCell]
      split
      · split
        · exact hp
        · refine List.pairwise_cons.2 ⟨?_, hp⟩
          intro x hx
          rcases List.mem_cons.1 hx with rfl | hx
          · assumption
          · exact lt_trans (by assumption) (h1 x hx)
      · split
        · split
          · exact h2
          · subst_vars; exact List.pairwise_cons.2 ⟨h1, h2⟩
        · refine List.pairwise_cons.2 ⟨?_, ih h2⟩
          intro x hx
          rcases mem_writeCell hx with hx | ⟨rfl, -⟩
          · exact h1 x hx
          · show k < a; omega
  · intro c hc
    rcases mem_writeCell hc with hc | ⟨rfl, hv⟩
    · exact h.2 c hc
    · exact hv

theorem writeBytes_wf {m : List Host.Cell} (h : Memory.wf m = true) (a : Nat) (bs : List Byte) :
    Memory.wf (writeBytes m a bs) = true := by
  induction bs generalizing m a with
  | nil => exact h
  | cons b bs ih => exact ih (writeCell_wf h a b) (a + 1)

/-- The image's cells stand at or above its first address. -/
theorem le_of_mem_imageCells {bs : List Byte} {a : Nat} {c : Host.Cell} (h : c ∈ imageCells bs a) : a ≤ c.1 := by
  induction bs generalizing a with
  | nil => simp [imageCells] at h
  | cons b bs ih =>
    simp only [imageCells] at h
    split at h
    · exact le_trans (Nat.le_succ a) (ih h)
    · rcases List.mem_cons.1 h with rfl | h
      · exact le_refl _
      · exact le_trans (Nat.le_succ a) (ih h)

/-- The memory reset loads is in canonical form. -/
theorem imageCells_wf (bs : List Byte) (a : Nat) : Memory.wf (imageCells bs a) = true := by
  rw [memory_wf_iff]
  induction bs generalizing a with
  | nil => simp [imageCells]
  | cons b bs ih =>
    simp only [imageCells]
    split
    · exact ih (a + 1)
    · refine ⟨List.pairwise_cons.2 ⟨fun c hc => ?_, (ih (a + 1)).1⟩, ?_⟩
      · exact le_of_mem_imageCells hc
      · intro c hc
        rcases List.mem_cons.1 hc with rfl | hc
        · assumption
        · exact (ih (a + 1)).2 c hc

/-- The memory of `State.reset` is in canonical form. -/
theorem reset_memory_wf : Memory.wf State.reset.store.mem = true := rfl

/-! ## Read after write -/

/-- A listed address above every address below it: an address under all listed ones reads as an unlisted one. -/
theorem readCell_of_lt {m : List Host.Cell} {a : Nat} (h : ∀ c ∈ m, a < c.1) : readCell m a = 0 := by
  induction m with
  | nil => rfl
  | cons d m ih =>
    obtain ⟨k, b⟩ := d
    have hk : a < k := h (k, b) (by simp)
    simp only [readCell, if_neg (show ¬ k = a by omega)]
    exact ih fun c hc => h c (List.mem_cons_of_mem _ hc)

/-- A read at another address does not see a write. -/
theorem readCell_writeCell_ne (m : List Host.Cell) {a b : Nat} (v : Byte) (h : b ≠ a) :
    readCell (writeCell m a v) b = readCell m b := by
  induction m with
  | nil => simp only [writeCell]; split <;> simp [readCell, Ne.symm h]
  | cons d m ih =>
    obtain ⟨k, c⟩ := d
    simp only [writeCell]
    split
    · split <;> simp [readCell, Ne.symm h]
    · split
      · subst_vars
        split <;> simp [readCell, Ne.symm h]
      · simp only [readCell, ih]

/-- A read at the written address sees the byte written. -/
theorem readCell_writeCell_same {m : List Host.Cell} (hm : Memory.wf m = true) (a : Nat) (v : Byte) :
    readCell (writeCell m a v) a = v := by
  rw [memory_wf_iff] at hm
  obtain ⟨hp, -⟩ := hm
  induction m with
  | nil => simp only [writeCell]; split <;> simp_all [readCell]
  | cons d m ih =>
    obtain ⟨k, c⟩ := d
    obtain ⟨h1, h2⟩ := List.pairwise_cons.1 hp
    simp only [writeCell]
    split
    · rename_i hlt
      split
      · rename_i hv
        have := readCell_of_lt (m := (k, c) :: m) (a := a) (fun x hx => by
          rcases List.mem_cons.1 hx with rfl | hx
          · exact hlt
          · exact lt_trans hlt (h1 x hx))
        rw [this, hv]
      · simp [readCell]
    · split
      · subst_vars
        split
        · rename_i hv
          rw [readCell_of_lt h1, hv]
        · simp [readCell]
      · rename_i hne
        simp only [readCell, if_neg (show ¬ k = a by omega)]
        exact ih h2

/-- A read outside the bytes written does not see them. -/
theorem readCell_writeBytes_ne (m : List Host.Cell) (a b : Nat) (bs : List Byte) (h : b < a ∨ a + bs.length ≤ b) :
    readCell (writeBytes m a bs) b = readCell m b := by
  induction bs generalizing m a with
  | nil => rfl
  | cons v bs ih =>
    simp only [List.length_cons] at h
    simp only [writeBytes]
    rw [ih _ _ (by omega), readCell_writeCell_ne _ _ (by omega)]

/-- Reading back the bytes written. -/
theorem readBytes_writeBytes {m : List Host.Cell} (hm : Memory.wf m = true) (a : Nat) (bs : List Byte) :
    readBytes (writeBytes m a bs) a bs.length = bs := by
  induction bs generalizing m a with
  | nil => rfl
  | cons v bs ih =>
    simp only [writeBytes, List.length_cons, readBytes]
    rw [ih (writeCell_wf hm a v), readCell_writeBytes_ne _ _ _ _ (by omega), readCell_writeCell_same hm]

/-- The image byte at an address. -/
theorem readCell_imageCells (bs : List Byte) (a k : Nat) : readCell (imageCells bs a) (a + k) = bs.getD k 0 := by
  induction bs generalizing a k with
  | nil => simp [imageCells, readCell]
  | cons b bs ih =>
    cases k with
    | zero =>
      simp only [imageCells]
      split
      · rename_i hb
        have h0 : readCell (imageCells bs (a + 1)) a = 0 :=
          readCell_of_lt fun c hc => lt_of_lt_of_le (Nat.lt_succ_self a) (le_of_mem_imageCells hc)
        simpa [hb] using h0
      · simp [readCell]
    | succ k =>
      have := ih (a + 1) k
      rw [show a + 1 + k = a + (k + 1) by omega] at this
      simp only [imageCells]
      split
      · simpa using this
      · simp only [readCell, if_neg (show ¬ a = a + (k + 1) by omega)]
        simpa using this

/-! ## Bytes of a word -/

@[simp] theorem bytesLE_length (v : Word) (n : Nat) : (bytesLE v n).length = n := by
  induction n generalizing v with
  | zero => rfl
  | succ n ih => simp [bytesLE, ih]

/-- Two bytes, the lower address in the low half. -/
theorem wordLE_two (b0 b1 : Byte) : wordLE [b0, b1] = (b1 ++ b0 : BitVec (8 + 8)).setWidth 32 := by
  apply BitVec.eq_of_getLsbD_eq
  intro i hi
  simp only [wordLE, BitVec.getLsbD_or, BitVec.getLsbD_shiftLeft, BitVec.getLsbD_setWidth, BitVec.getLsbD_append]
  interval_cases i <;> simp

/-- Four bytes, the lowest address in bits 7:0 (R62). -/
theorem wordLE_four (b0 b1 b2 b3 : Byte) : wordLE [b0, b1, b2, b3] = (b3 ++ b2 ++ b1 ++ b0 : BitVec (8 + 8 + 8 + 8)) := by
  apply BitVec.eq_of_getLsbD_eq
  intro i hi
  simp only [wordLE, BitVec.getLsbD_or, BitVec.getLsbD_shiftLeft, BitVec.getLsbD_setWidth, BitVec.getLsbD_append]
  interval_cases i <;> simp

/-- One byte. -/
theorem wordLE_one (b0 : Byte) : wordLE [b0] = b0.setWidth 32 := by simp [wordLE]

@[simp] theorem readBytes_length (m : List Host.Cell) (a n : Nat) : (readBytes m a n).length = n := by
  induction n generalizing a with
  | zero => rfl
  | succ n ih => simp [readBytes, ih]

@[simp] theorem lineBytes_length (d : List Byte) (off n : Nat) : (lineBytes d off n).length = n := by
  induction n generalizing off with
  | zero => rfl
  | succ n ih => simp [lineBytes, ih]

@[simp] theorem setLineBytes_length (d : List Byte) (off : Nat) (bs : List Byte) :
    (setLineBytes d off bs).length = d.length := by
  induction bs generalizing d off with
  | nil => rfl
  | cons b bs ih => simp [setLineBytes, ih]

end Sys2Proof.Machine
end

