-- ==== Sys2Proof/Laws/State.lean ====
section
/-! SUPPORT. Laws of the state record: which field each named operation on it leaves alone, and the inversion laws of
`raise` and `andThen`. -/

namespace Sys2Proof.Machine

/-! ### writeReg -/

@[simp] theorem writeReg_cfg (s : State) (r : Reg) (v : Word) : (s.writeReg r v).cfg = s.cfg := by unfold State.writeReg; split <;> rfl
@[simp] theorem writeReg_level (s : State) (r : Reg) (v : Word) : (s.writeReg r v).level = s.level := by unfold State.writeReg; split <;> rfl
@[simp] theorem writeReg_pc (s : State) (r : Reg) (v : Word) : (s.writeReg r v).pc = s.pc := by unfold State.writeReg; split <;> rfl
@[simp] theorem writeReg_fetchPending (s : State) (r : Reg) (v : Word) : (s.writeReg r v).fetchPending = s.fetchPending := by unfold State.writeReg; split <;> rfl
@[simp] theorem writeReg_fd (s : State) (r : Reg) (v : Word) : (s.writeReg r v).fd = s.fd := by unfold State.writeReg; split <;> rfl
@[simp] theorem writeReg_de (s : State) (r : Reg) (v : Word) : (s.writeReg r v).de = s.de := by unfold State.writeReg; split <;> rfl
@[simp] theorem writeReg_em (s : State) (r : Reg) (v : Word) : (s.writeReg r v).em = s.em := by unfold State.writeReg; split <;> rfl
@[simp] theorem writeReg_mw (s : State) (r : Reg) (v : Word) : (s.writeReg r v).mw = s.mw := by unfold State.writeReg; split <;> rfl
@[simp] theorem writeReg_mBeat (s : State) (r : Reg) (v : Word) : (s.writeReg r v).mBeat = s.mBeat := by unfold State.writeReg; split <;> rfl
@[simp] theorem writeReg_mWaiting (s : State) (r : Reg) (v : Word) : (s.writeReg r v).mWaiting = s.mWaiting := by unfold State.writeReg; split <;> rfl
@[simp] theorem writeReg_mAcc (s : State) (r : Reg) (v : Word) : (s.writeReg r v).mAcc = s.mAcc := by unfold State.writeReg; split <;> rfl
@[simp] theorem writeReg_wires (s : State) (r : Reg) (v : Word) : (s.writeReg r v).wires = s.wires := by unfold State.writeReg; split <;> rfl
@[simp] theorem writeReg_store (s : State) (r : Reg) (v : Word) : (s.writeReg r v).store = s.store := by unfold State.writeReg; split <;> rfl
@[simp] theorem writeReg_icache (s : State) (r : Reg) (v : Word) : (s.writeReg r v).icache = s.icache := by unfold State.writeReg; split <;> rfl
@[simp] theorem writeReg_dcache (s : State) (r : Reg) (v : Word) : (s.writeReg r v).dcache = s.dcache := by unfold State.writeReg; split <;> rfl
@[simp] theorem writeReg_counters (s : State) (r : Reg) (v : Word) : (s.writeReg r v).counters = s.counters := by unfold State.writeReg; split <;> rfl
@[simp] theorem writeReg_fault (s : State) (r : Reg) (v : Word) : (s.writeReg r v).fault = s.fault := by unfold State.writeReg; split <;> rfl

/-! ### writeDest -/

@[simp] theorem writeDest_cfg (s : State) (rd : Option Reg) (v : Word) : (s.writeDest rd v).cfg = s.cfg := by cases rd <;> simp [State.writeDest]
@[simp] theorem writeDest_level (s : State) (rd : Option Reg) (v : Word) : (s.writeDest rd v).level = s.level := by cases rd <;> simp [State.writeDest]
@[simp] theorem writeDest_pc (s : State) (rd : Option Reg) (v : Word) : (s.writeDest rd v).pc = s.pc := by cases rd <;> simp [State.writeDest]
@[simp] theorem writeDest_fetchPending (s : State) (rd : Option Reg) (v : Word) : (s.writeDest rd v).fetchPending = s.fetchPending := by cases rd <;> simp [State.writeDest]
@[simp] theorem writeDest_fd (s : State) (rd : Option Reg) (v : Word) : (s.writeDest rd v).fd = s.fd := by cases rd <;> simp [State.writeDest]
@[simp] theorem writeDest_de (s : State) (rd : Option Reg) (v : Word) : (s.writeDest rd v).de = s.de := by cases rd <;> simp [State.writeDest]
@[simp] theorem writeDest_em (s : State) (rd : Option Reg) (v : Word) : (s.writeDest rd v).em = s.em := by cases rd <;> simp [State.writeDest]
@[simp] theorem writeDest_mw (s : State) (rd : Option Reg) (v : Word) : (s.writeDest rd v).mw = s.mw := by cases rd <;> simp [State.writeDest]
@[simp] theorem writeDest_mBeat (s : State) (rd : Option Reg) (v : Word) : (s.writeDest rd v).mBeat = s.mBeat := by cases rd <;> simp [State.writeDest]
@[simp] theorem writeDest_mWaiting (s : State) (rd : Option Reg) (v : Word) : (s.writeDest rd v).mWaiting = s.mWaiting := by cases rd <;> simp [State.writeDest]
@[simp] theorem writeDest_mAcc (s : State) (rd : Option Reg) (v : Word) : (s.writeDest rd v).mAcc = s.mAcc := by cases rd <;> simp [State.writeDest]
@[simp] theorem writeDest_wires (s : State) (rd : Option Reg) (v : Word) : (s.writeDest rd v).wires = s.wires := by cases rd <;> simp [State.writeDest]
@[simp] theorem writeDest_store (s : State) (rd : Option Reg) (v : Word) : (s.writeDest rd v).store = s.store := by cases rd <;> simp [State.writeDest]
@[simp] theorem writeDest_icache (s : State) (rd : Option Reg) (v : Word) : (s.writeDest rd v).icache = s.icache := by cases rd <;> simp [State.writeDest]
@[simp] theorem writeDest_dcache (s : State) (rd : Option Reg) (v : Word) : (s.writeDest rd v).dcache = s.dcache := by cases rd <;> simp [State.writeDest]
@[simp] theorem writeDest_counters (s : State) (rd : Option Reg) (v : Word) : (s.writeDest rd v).counters = s.counters := by cases rd <;> simp [State.writeDest]
@[simp] theorem writeDest_fault (s : State) (rd : Option Reg) (v : Word) : (s.writeDest rd v).fault = s.fault := by cases rd <;> simp [State.writeDest]

/-! ### raise -/

@[simp] theorem raise_cfg (s : State) (f : Fault) : (s.raise f).cfg = s.cfg := by unfold State.raise; split <;> rfl
@[simp] theorem raise_level (s : State) (f : Fault) : (s.raise f).level = s.level := by unfold State.raise; split <;> rfl
@[simp] theorem raise_regs (s : State) (f : Fault) : (s.raise f).regs = s.regs := by unfold State.raise; split <;> rfl
@[simp] theorem raise_pc (s : State) (f : Fault) : (s.raise f).pc = s.pc := by unfold State.raise; split <;> rfl
@[simp] theorem raise_fetchPending (s : State) (f : Fault) : (s.raise f).fetchPending = s.fetchPending := by unfold State.raise; split <;> rfl
@[simp] theorem raise_fd (s : State) (f : Fault) : (s.raise f).fd = s.fd := by unfold State.raise; split <;> rfl
@[simp] theorem raise_de (s : State) (f : Fault) : (s.raise f).de = s.de := by unfold State.raise; split <;> rfl
@[simp] theorem raise_em (s : State) (f : Fault) : (s.raise f).em = s.em := by unfold State.raise; split <;> rfl
@[simp] theorem raise_mw (s : State) (f : Fault) : (s.raise f).mw = s.mw := by unfold State.raise; split <;> rfl
@[simp] theorem raise_mBeat (s : State) (f : Fault) : (s.raise f).mBeat = s.mBeat := by unfold State.raise; split <;> rfl
@[simp] theorem raise_mWaiting (s : State) (f : Fault) : (s.raise f).mWaiting = s.mWaiting := by unfold State.raise; split <;> rfl
@[simp] theorem raise_mAcc (s : State) (f : Fault) : (s.raise f).mAcc = s.mAcc := by unfold State.raise; split <;> rfl
@[simp] theorem raise_wires (s : State) (f : Fault) : (s.raise f).wires = s.wires := by unfold State.raise; split <;> rfl
@[simp] theorem raise_store (s : State) (f : Fault) : (s.raise f).store = s.store := by unfold State.raise; split <;> rfl
@[simp] theorem raise_icache (s : State) (f : Fault) : (s.raise f).icache = s.icache := by unfold State.raise; split <;> rfl
@[simp] theorem raise_dcache (s : State) (f : Fault) : (s.raise f).dcache = s.dcache := by unfold State.raise; split <;> rfl
@[simp] theorem raise_counters (s : State) (f : Fault) : (s.raise f).counters = s.counters := by unfold State.raise; split <;> rfl

/-! ### withCache -/

@[simp] theorem withCache_cfg (s : State) (c : Client) (k : Cache) : (s.withCache c k).cfg = s.cfg := by cases c <;> rfl
@[simp] theorem withCache_level (s : State) (c : Client) (k : Cache) : (s.withCache c k).level = s.level := by cases c <;> rfl
@[simp] theorem withCache_regs (s : State) (c : Client) (k : Cache) : (s.withCache c k).regs = s.regs := by cases c <;> rfl
@[simp] theorem withCache_pc (s : State) (c : Client) (k : Cache) : (s.withCache c k).pc = s.pc := by cases c <;> rfl
@[simp] theorem withCache_fetchPending (s : State) (c : Client) (k : Cache) : (s.withCache c k).fetchPending = s.fetchPending := by cases c <;> rfl
@[simp] theorem withCache_fd (s : State) (c : Client) (k : Cache) : (s.withCache c k).fd = s.fd := by cases c <;> rfl
@[simp] theorem withCache_de (s : State) (c : Client) (k : Cache) : (s.withCache c k).de = s.de := by cases c <;> rfl
@[simp] theorem withCache_em (s : State) (c : Client) (k : Cache) : (s.withCache c k).em = s.em := by cases c <;> rfl
@[simp] theorem withCache_mw (s : State) (c : Client) (k : Cache) : (s.withCache c k).mw = s.mw := by cases c <;> rfl
@[simp] theorem withCache_mBeat (s : State) (c : Client) (k : Cache) : (s.withCache c k).mBeat = s.mBeat := by cases c <;> rfl
@[simp] theorem withCache_mWaiting (s : State) (c : Client) (k : Cache) : (s.withCache c k).mWaiting = s.mWaiting := by cases c <;> rfl
@[simp] theorem withCache_mAcc (s : State) (c : Client) (k : Cache) : (s.withCache c k).mAcc = s.mAcc := by cases c <;> rfl
@[simp] theorem withCache_wires (s : State) (c : Client) (k : Cache) : (s.withCache c k).wires = s.wires := by cases c <;> rfl
@[simp] theorem withCache_store (s : State) (c : Client) (k : Cache) : (s.withCache c k).store = s.store := by cases c <;> rfl
@[simp] theorem withCache_counters (s : State) (c : Client) (k : Cache) : (s.withCache c k).counters = s.counters := by cases c <;> rfl
@[simp] theorem withCache_fault (s : State) (c : Client) (k : Cache) : (s.withCache c k).fault = s.fault := by cases c <;> rfl

/-! ### withQueue -/

@[simp] theorem withQueue_cfg (s : State) (c : Client) (q : List Transaction) : (s.withQueue c q).cfg = s.cfg := by cases c <;> rfl
@[simp] theorem withQueue_level (s : State) (c : Client) (q : List Transaction) : (s.withQueue c q).level = s.level := by cases c <;> rfl
@[simp] theorem withQueue_regs (s : State) (c : Client) (q : List Transaction) : (s.withQueue c q).regs = s.regs := by cases c <;> rfl
@[simp] theorem withQueue_pc (s : State) (c : Client) (q : List Transaction) : (s.withQueue c q).pc = s.pc := by cases c <;> rfl
@[simp] theorem withQueue_fetchPending (s : State) (c : Client) (q : List Transaction) : (s.withQueue c q).fetchPending = s.fetchPending := by cases c <;> rfl
@[simp] theorem withQueue_fd (s : State) (c : Client) (q : List Transaction) : (s.withQueue c q).fd = s.fd := by cases c <;> rfl
@[simp] theorem withQueue_de (s : State) (c : Client) (q : List Transaction) : (s.withQueue c q).de = s.de := by cases c <;> rfl
@[simp] theorem withQueue_em (s : State) (c : Client) (q : List Transaction) : (s.withQueue c q).em = s.em := by cases c <;> rfl
@[simp] theorem withQueue_mw (s : State) (c : Client) (q : List Transaction) : (s.withQueue c q).mw = s.mw := by cases c <;> rfl
@[simp] theorem withQueue_mBeat (s : State) (c : Client) (q : List Transaction) : (s.withQueue c q).mBeat = s.mBeat := by cases c <;> rfl
@[simp] theorem withQueue_mWaiting (s : State) (c : Client) (q : List Transaction) : (s.withQueue c q).mWaiting = s.mWaiting := by cases c <;> rfl
@[simp] theorem withQueue_mAcc (s : State) (c : Client) (q : List Transaction) : (s.withQueue c q).mAcc = s.mAcc := by cases c <;> rfl
@[simp] theorem withQueue_wires (s : State) (c : Client) (q : List Transaction) : (s.withQueue c q).wires = s.wires := by cases c <;> rfl
@[simp] theorem withQueue_store (s : State) (c : Client) (q : List Transaction) : (s.withQueue c q).store = s.store := by cases c <;> rfl
@[simp] theorem withQueue_counters (s : State) (c : Client) (q : List Transaction) : (s.withQueue c q).counters = s.counters := by cases c <;> rfl
@[simp] theorem withQueue_fault (s : State) (c : Client) (q : List Transaction) : (s.withQueue c q).fault = s.fault := by cases c <;> rfl

/-! ### The cache of a client -/

@[simp] theorem withCache_cache (s : State) (c : Client) (k : Cache) : (s.withCache c k).cache c = k := by
  cases c <;> rfl

@[simp] theorem withCache_withCache (s : State) (c : Client) (k k' : Cache) :
    (s.withCache c k).withCache c k' = s.withCache c k' := by
  cases c <;> rfl

@[simp] theorem withCache_self (s : State) (c : Client) : s.withCache c (s.cache c) = s := by
  cases c <;> rfl

@[simp] theorem withCache_geometry (s : State) (c d : Client) (k : Cache) :
    (s.withCache c k).geometry d = s.geometry d := by
  cases c <;> cases d <;> rfl

@[simp] theorem withQueue_cache (s : State) (c : Client) (q : List Transaction) :
    (s.withQueue c q).cache c = { s.cache c with queue := q } := by
  cases c <;> rfl

@[simp] theorem withQueue_geometry (s : State) (c d : Client) (q : List Transaction) :
    (s.withQueue c q).geometry d = s.geometry d := by
  cases c <;> cases d <;> rfl

/-! ### raise and andThen (R220, R270) -/

theorem raise_of_none {s : State} (h : s.fault = none) (f : Fault) : s.raise f = { s with fault := some f } := by
  simp [State.raise, h]

/-- A raise leaves a recorded fault (R270). -/
theorem raise_fault_ne_none (s : State) (f : Fault) : (s.raise f).fault ≠ none := by
  unfold State.raise
  split <;> simp_all

/-- The fault a raise leaves is the one recorded before, or the one raised (R39, R270). -/
theorem raise_fault_cases {s : State} {f g : Fault} (h : (s.raise f).fault = some g) : s.fault = some g ∨ g = f := by
  unfold State.raise at h
  split at h
  · exact .inr (by simpa using h.symm)
  · exact .inl h

theorem andThen_of_none {s : State} (h : s.fault = none) (next : State → State) : s.andThen next = next s := by
  simp [State.andThen, h]

theorem andThen_of_some {s : State} {f : Fault} (h : s.fault = some f) (next : State → State) : s.andThen next = s := by
  simp [State.andThen, h]

/-- If no fault stands recorded after two pieces of work, the second ran on the fault-free result of the first. -/
theorem andThen_next {s : State} {next : State → State} (h : (s.andThen next).fault = none) :
    s.fault = none ∧ s.andThen next = next s := by
  unfold State.andThen at h ⊢
  split at h <;> simp_all

/-- A property the two pieces of work share holds of both in a row. -/
theorem andThen_induct {P : State → Prop} {s : State} {next : State → State} (hs : P s)
    (hn : s.fault = none → P (next s)) : P (s.andThen next) := by
  unfold State.andThen
  split
  · exact hn ‹_›
  · exact hs

/-! ### Registers (R21, R24) -/

@[simp] theorem regEntry_zero (s : State) : s.regEntry 0 = { value := 0, valid := true } := rfl

theorem writeReg_zero (s : State) (v : Word) : s.writeReg 0 v = s := rfl

/-- A written register holds the value and is valid (R24). -/
theorem writeReg_regEntry_same (s : State) {r : Reg} (h : r ≠ 0) (v : Word) :
    (s.writeReg r v).regEntry r = { value := v, valid := true } := by
  unfold State.writeReg State.regEntry
  simp only [if_neg h, Vector.getElem_set_self]

/-- A write leaves every other register alone. -/
theorem writeReg_regEntry_ne (s : State) {r q : Reg} (h : q ≠ r) (v : Word) :
    (s.writeReg r v).regEntry q = s.regEntry q := by
  have hn : r.toNat ≠ q.toNat := fun e => h (BitVec.eq_of_toNat_eq e.symm)
  unfold State.writeReg State.regEntry
  split
  · rfl
  · split
    · rfl
    · simp [hn]

/-- No write changes the entry of x0 (R21). -/
theorem writeReg_regs_zero (s : State) (r : Reg) (v : Word) : (s.writeReg r v).regs[0] = s.regs[0] := by
  unfold State.writeReg
  split
  · rfl
  · have hn : r.toNat ≠ 0 := fun e => ‹¬ r = 0› (BitVec.eq_of_toNat_eq e)
    simp [hn]

theorem writeDest_regs_zero (s : State) (rd : Option Reg) (v : Word) : (s.writeDest rd v).regs[0] = s.regs[0] := by
  cases rd with
  | none => rfl
  | some r => exact writeReg_regs_zero s r v

/-! ### Destination tags -/

theorem liveReg_eq_some {r : Option Reg} {x : Reg} : liveReg r = some x ↔ r = some x ∧ x ≠ 0 := by
  cases r with
  | none => simp [liveReg]
  | some y =>
    simp only [liveReg]
    split
    · constructor
      · intro h; cases h
      · rintro ⟨h, hx⟩; cases h; contradiction
    · constructor
      · intro h; cases h; exact ⟨rfl, ‹_›⟩
      · rintro ⟨h, -⟩; exact h

/-! ### Latches (R32) -/

@[simp] theorem latch_clock_cur (l : Latch) : l.clock.cur = l.pending := rfl

@[simp] theorem latch_clock_pending (l : Latch) : l.clock.pending = none := rfl

@[simp] theorem latch_empty_cur : Latch.empty.cur = none := rfl

@[simp] theorem latch_empty_pending : Latch.empty.pending = none := rfl

@[simp] theorem slotCount_none : slotCount none = 0 := rfl

@[simp] theorem slotCount_some (r : Record) : slotCount (some r) = 1 := rfl

end Sys2Proof.Machine
end

