-- ==== Sys2Proof/Laws/Cache.lean ====
section
/-! SUPPORT. Laws of the cache arrays and of architectural memory: reading and replacing lines, the shape every cache
operation keeps, and read after write through `Mem` (R80). -/

namespace Sys2Proof.Machine

/-! ## Lines -/

/-- The line at a set and way after one line has been replaced. -/
theorem setLine_line (k : Cache) (set way set' way' : Nat) (ln : Line) :
    (k.setLine set way ln).line set' way' =
      if set' = set ∧ way' = way ∧ set < k.lines.length ∧ way < (k.lines.getD set []).length then ln
      else k.line set' way' := by
  simp only [Cache.setLine, Cache.line, List.getD_eq_getElem?_getD, List.getElem?_set]
  by_cases hs : set = set'
  · subst hs
    by_cases hl : set < k.lines.length
    · simp only [hl, if_true, Option.getD_some, List.getElem?_set, true_and]
      by_cases hw : way = way'
      · subst hw
        by_cases hlw : way < (k.lines[set]?.getD []).length
        · simp [hlw]
        · simp [hlw]
      · simp [hw, Ne.symm hw]
    · simp [hl]
  · simp [hs, Ne.symm hs]

/-- Replacing a line leaves every row's length and the number of rows. -/
theorem setLine_lines_length (k : Cache) (set way : Nat) (ln : Line) :
    (k.setLine set way ln).lines.length = k.lines.length := by
  simp [Cache.setLine]

theorem setLine_row_length (k : Cache) (set way set' : Nat) (ln : Line) :
    ((k.setLine set way ln).lines.getD set' []).length = (k.lines.getD set' []).length := by
  simp only [Cache.setLine, List.getD_eq_getElem?_getD, List.getElem?_set]
  by_cases hs : set = set'
  · subst hs
    by_cases hl : set < k.lines.length <;> simp [hl]
  · simp [hs]

@[simp] theorem setLine_fifo (k : Cache) (set way : Nat) (ln : Line) : (k.setLine set way ln).fifo = k.fifo := rfl

@[simp] theorem setLine_req (k : Cache) (set way : Nat) (ln : Line) : (k.setLine set way ln).req = k.req := rfl

@[simp] theorem setLine_queue (k : Cache) (set way : Nat) (ln : Line) : (k.setLine set way ln).queue = k.queue := rfl

/-- A row's line is the cache's line at that way. -/
theorem row_getElem (k : Cache) {set way : Nat} (h : way < (k.lines.getD set []).length) :
    (k.lines.getD set [])[way] = k.line set way := by
  simp only [Cache.line]
  rw [List.getD_eq_getElem?_getD (i := way), List.getElem?_eq_getElem h]
  rfl

/-- A way beyond the row holds no line. -/
theorem line_absent (k : Cache) {set way : Nat} (h : (k.lines.getD set []).length ≤ way) :
    k.line set way = Line.absent := by
  simp only [Cache.line]
  rw [List.getD_eq_getElem?_getD, List.getElem?_eq_none h]
  rfl

/-- A hit names a way of the row that holds a valid line of the address, and no earlier way does (R92). -/
theorem lookup_eq_some {g : Geometry} {k : Cache} {a way : Nat} :
    k.lookup g a = some way ↔
      way < (k.lines.getD (setIndex g a) []).length ∧ lineHits g a (k.line (setIndex g a) way) = true ∧
        ∀ j, j < way → lineHits g a (k.line (setIndex g a) j) = false := by
  unfold Cache.lookup
  rw [List.findIdx?_eq_some_iff_getElem]
  constructor
  · rintro ⟨h, h1, h2⟩
    refine ⟨h, by rwa [row_getElem] at h1, fun j hj => ?_⟩
    have := h2 j hj
    rw [row_getElem] at this
    simpa using this
  · rintro ⟨h, h1, h2⟩
    refine ⟨h, by rwa [row_getElem], fun j hj => ?_⟩
    rw [row_getElem _ (by omega)]
    simp [h2 j hj]

/-- A miss: no way of the set holds a valid line of the address (R92). -/
theorem lookup_eq_none {g : Geometry} {k : Cache} {a : Nat} :
    k.lookup g a = none ↔ ∀ way, lineHits g a (k.line (setIndex g a) way) = false := by
  unfold Cache.lookup
  rw [List.findIdx?_eq_none_iff]
  constructor
  · intro h way
    by_cases hw : way < (k.lines.getD (setIndex g a) []).length
    · rw [← row_getElem _ hw]
      exact h _ (List.getElem_mem hw)
    · rw [line_absent _ (by omega)]
      rfl
  · intro h ln hln
    obtain ⟨way, hw, rfl⟩ := List.getElem_of_mem hln
    rw [row_getElem]
    exact h way

/-- A lookup depends only on which ways of the set hold a line of the address, and on the length of the row. -/
theorem lookup_congr {g : Geometry} {k k' : Cache} {a : Nat}
    (hl : (k'.lines.getD (setIndex g a) []).length = (k.lines.getD (setIndex g a) []).length)
    (h : ∀ way, lineHits g a (k'.line (setIndex g a) way) = lineHits g a (k.line (setIndex g a) way)) :
    k'.lookup g a = k.lookup g a := by
  cases hk : k.lookup g a with
  | none =>
    rw [lookup_eq_none] at hk ⊢
    intro way
    rw [h, hk]
  | some way =>
    rw [lookup_eq_some] at hk ⊢
    rw [hl, h]
    exact ⟨hk.1, hk.2.1, fun j hj => by rw [h, hk.2.2 j hj]⟩

/-! ## The shape of a cache (R37) -/

theorem setLine_shaped {g : Geometry} {k : Cache} (h : k.shaped g) (set way : Nat) {ln : Line}
    (hl : way < (k.lines.getD set []).length → ln.data.length = g.lineSize) : (k.setLine set way ln).shaped g := by
  obtain ⟨h1, h2, h3, h4⟩ := h
  refine ⟨by simp [Cache.setLine, h1], ?_, h3, h4⟩
  intro row hrow
  simp only [Cache.setLine] at hrow
  rcases List.mem_or_eq_of_mem_set hrow with hrow | rfl
  · exact h2 row hrow
  · by_cases hs : set < k.lines.length
    · have hm : k.lines.getD set [] ∈ k.lines := by
        rw [List.getD_eq_getElem?_getD, List.getElem?_eq_getElem hs]
        exact List.getElem_mem hs
      refine ⟨by rw [List.length_set, (h2 _ hm).1], fun l hlm => ?_⟩
      by_cases hw : way < (k.lines.getD set []).length
      · rcases List.mem_or_eq_of_mem_set hlm with hlm | rfl
        · exact (h2 _ hm).2 l hlm
        · exact hl hw
      · rw [List.set_eq_of_length_le (by omega)] at hlm
        exact (h2 _ hm).2 l hlm
    · rw [List.set_eq_of_length_le (by omega)] at hrow
      exact h2 _ hrow

/-- A line of a shaped cache has the line size. -/
theorem shaped_line_length {g : Geometry} {k : Cache} (h : k.shaped g) {set way : Nat}
    (hw : way < (k.lines.getD set []).length) : (k.line set way).data.length = g.lineSize := by
  rw [← row_getElem k hw]
  by_cases hs : set < k.lines.length
  · have hm : k.lines.getD set [] ∈ k.lines := by
      rw [List.getD_eq_getElem?_getD, List.getElem?_eq_getElem hs]
      exact List.getElem_mem hs
    exact (h.2.1 _ hm).2 _ (List.getElem_mem hw)
  · rw [List.getD_eq_getElem?_getD, List.getElem?_eq_none (by omega)] at hw
    simp at hw

/-- The caches of `State.resetWith` have the shape of their geometry. -/
theorem reset_shaped {g : Geometry} (h : 1 ≤ g.ways) : (Cache.reset g).shaped g := by
  refine ⟨by simp [Cache.reset], ?_, by simp [Cache.reset], ?_⟩
  · intro row hrow
    simp only [Cache.reset] at hrow
    rw [List.eq_of_mem_replicate hrow]
    refine ⟨by simp, fun ln hln => ?_⟩
    rw [List.eq_of_mem_replicate hln]
    simp [Line.reset]
  · intro way hway
    rw [List.eq_of_mem_replicate hway]
    omega

/-! ## Architectural memory (R80) -/

/-! ### What a write to `Mem` changes besides `Mem` -/

theorem writeArchByte_miss {s : State} {a : Nat} (h : s.dcache.lookup s.cfg.dcache a = none) (b : Byte) :
    writeArchByte s a b = { s with store := { s.store with mem := writeCell s.store.mem a b } } := by
  simp only [writeArchByte, h]

theorem writeArchByte_hit {s : State} {a way : Nat} (h : s.dcache.lookup s.cfg.dcache a = some way) (b : Byte) :
    writeArchByte s a b =
      { s with dcache := (s.dcache.setLine (setIndex s.cfg.dcache a) way
          { s.dcache.line (setIndex s.cfg.dcache a) way with
              data := (s.dcache.line (setIndex s.cfg.dcache a) way).data.set (lineOffset s.cfg.dcache a) b,
              dirty := true }) } := by
  simp only [writeArchByte, h]

theorem writeArchByte_eq (s : State) (a : Nat) (b : Byte) :
    writeArchByte s a b =
      { s with store := { s.store with mem := (writeArchByte s a b).store.mem }, dcache := (writeArchByte s a b).dcache } := by
  cases h : s.dcache.lookup s.cfg.dcache a with
  | none => rw [writeArchByte_miss h]
  | some way => rw [writeArchByte_hit h]

theorem writeArchBytes_eq (s : State) (a : Nat) (bs : List Byte) :
    writeArchBytes s a bs =
      { s with store := { s.store with mem := (writeArchBytes s a bs).store.mem }, dcache := (writeArchBytes s a bs).dcache } := by
  induction bs generalizing s a with
  | nil => rfl
  | cons b bs ih =>
    simp only [writeArchBytes]
    rw [ih, writeArchByte_eq]

/-- A write to `Mem` changes the store's bytes and the data cache only. -/
theorem memWrite_eq (s : State) (a n : Nat) (v : Word) :
    memWrite s a n v =
      { s with store := { s.store with mem := (memWrite s a n v).store.mem }, dcache := (memWrite s a n v).dcache } :=
  writeArchBytes_eq s a _

/-- In the data cache a write to `Mem` changes the data and the dirty bit of lines, nothing else (R95). -/
structure Cache.SameTags (k k' : Cache) : Prop where
  rows : k'.lines.length = k.lines.length
  ways : ∀ set, (k'.lines.getD set []).length = (k.lines.getD set []).length
  addr : ∀ set way, (k'.line set way).addr = (k.line set way).addr
  valid : ∀ set way, (k'.line set way).valid = (k.line set way).valid
  size : ∀ set way, (k'.line set way).data.length = (k.line set way).data.length
  fifo : k'.fifo = k.fifo
  req : k'.req = k.req
  queue : k'.queue = k.queue

theorem sameTags_refl (k : Cache) : k.SameTags k :=
  ⟨rfl, fun _ => rfl, fun _ _ => rfl, fun _ _ => rfl, fun _ _ => rfl, rfl, rfl, rfl⟩

theorem sameTags_trans {k k' k'' : Cache} (h : k.SameTags k') (h' : k'.SameTags k'') : k.SameTags k'' :=
  ⟨h'.rows.trans h.rows, fun s => (h'.ways s).trans (h.ways s), fun s w => (h'.addr s w).trans (h.addr s w),
    fun s w => (h'.valid s w).trans (h.valid s w), fun s w => (h'.size s w).trans (h.size s w), h'.fifo.trans h.fifo,
    h'.req.trans h.req, h'.queue.trans h.queue⟩

theorem sameTags_setLine (k : Cache) (set way : Nat) {ln : Line} (ha : ln.addr = (k.line set way).addr)
    (hv : ln.valid = (k.line set way).valid) (hd : ln.data.length = (k.line set way).data.length) :
    k.SameTags (k.setLine set way ln) := by
  refine ⟨setLine_lines_length k set way ln, fun s => setLine_row_length k set way s ln, ?_, ?_, ?_, rfl, rfl, rfl⟩
  all_goals
    intro s w
    rw [setLine_line]
    split
    · rename_i h
      obtain ⟨rfl, rfl, -⟩ := h
      assumption
    · rfl

theorem sameTags_hits {k k' : Cache} (h : k.SameTags k') (g : Geometry) (a set way : Nat) :
    lineHits g a (k'.line set way) = lineHits g a (k.line set way) := by
  simp [lineHits, h.addr, h.valid]

theorem sameTags_lookup {k k' : Cache} (h : k.SameTags k') (g : Geometry) (a : Nat) :
    k'.lookup g a = k.lookup g a :=
  lookup_congr (h.ways _) fun way => sameTags_hits h g a _ way

theorem sameTags_shaped {g : Geometry} {k k' : Cache} (h : k.SameTags k') (hk : k.shaped g) : k'.shaped g := by
  obtain ⟨h1, h2, h3, h4⟩ := hk
  refine ⟨h.rows.trans h1, ?_, by rw [h.fifo]; exact h3, by rw [h.fifo]; exact h4⟩
  intro row hrow
  obtain ⟨set, hs, rfl⟩ := List.getElem_of_mem hrow
  have hs' : set < k.lines.length := by rw [← h.rows]; exact hs
  have e' : k'.lines.getD set [] = k'.lines[set] := by simp [List.getD_eq_getElem?_getD, hs]
  have e : k.lines.getD set [] = k.lines[set] := by simp [List.getD_eq_getElem?_getD, hs']
  have hl := h.ways set
  have hr := h2 _ (List.getElem_mem hs')
  rw [e', e] at hl
  refine ⟨hl.trans hr.1, fun ln hln => ?_⟩
  obtain ⟨way, hw, rfl⟩ := List.getElem_of_mem hln
  have hw' : way < (k'.lines.getD set []).length := by rw [e']; exact hw
  have hl' : k'.lines[set][way] = k'.line set way := by
    have := row_getElem k' hw'
    simp only [e'] at this
    exact this
  rw [hl', h.size]
  exact shaped_line_length ⟨h1, h2, h3, h4⟩ (by rw [← h.ways]; exact hw')

theorem writeArchByte_sameTags (s : State) (a : Nat) (b : Byte) : s.dcache.SameTags (writeArchByte s a b).dcache := by
  cases h : s.dcache.lookup s.cfg.dcache a with
  | none => rw [writeArchByte_miss h]; exact sameTags_refl _
  | some way => rw [writeArchByte_hit h]; exact sameTags_setLine _ _ _ rfl rfl (by simp)

theorem writeArchBytes_sameTags (s : State) (a : Nat) (bs : List Byte) :
    s.dcache.SameTags (writeArchBytes s a bs).dcache := by
  induction bs generalizing s a with
  | nil => exact sameTags_refl _
  | cons b bs ih => exact sameTags_trans (writeArchByte_sameTags s a b) (ih _ _)

theorem memWrite_sameTags (s : State) (a n : Nat) (v : Word) : s.dcache.SameTags (memWrite s a n v).dcache :=
  writeArchBytes_sameTags s a _

theorem writeArchByte_wf {s : State} (h : Memory.wf s.store.mem = true) (a : Nat) (b : Byte) :
    Memory.wf (writeArchByte s a b).store.mem = true := by
  cases hl : s.dcache.lookup s.cfg.dcache a with
  | none => rw [writeArchByte_miss hl]; exact writeCell_wf h a b
  | some way => rw [writeArchByte_hit hl]; exact h

theorem writeArchBytes_wf {s : State} (h : Memory.wf s.store.mem = true) (a : Nat) (bs : List Byte) :
    Memory.wf (writeArchBytes s a bs).store.mem = true := by
  induction bs generalizing s a with
  | nil => exact h
  | cons b bs ih => exact ih (writeArchByte_wf h a b) _

/-- A write to `Mem` keeps the canonical form of the store's bytes. -/
theorem memWrite_wf {s : State} (h : Memory.wf s.store.mem = true) (a n : Nat) (v : Word) :
    Memory.wf (memWrite s a n v).store.mem = true :=
  writeArchBytes_wf h a _

/-! ### Read after write -/

/-- The line offset of two addresses of one line differs unless they are equal. -/
theorem lineOffset_ne {g : Geometry} {a b : Nat} (ht : tagOf g a = tagOf g b) (h : a ≠ b) :
    lineOffset g a ≠ lineOffset g b := by
  intro ho
  apply h
  unfold tagOf at ht
  unfold lineOffset at ho
  rw [← Nat.div_add_mod a g.lineSize, ← Nat.div_add_mod b g.lineSize, ht, ho]

/-- A write to one byte of `Mem` leaves every other byte. -/
theorem archByte_writeArchByte_ne (s : State) {a c : Nat} (b : Byte) (h : c ≠ a) :
    archByte (writeArchByte s a b) c = archByte s c := by
  have ht := sameTags_lookup (writeArchByte_sameTags s a b) s.cfg.dcache c
  have hc : (writeArchByte s a b).cfg = s.cfg := by rw [writeArchByte_eq]
  unfold archByte
  rw [hc, ht]
  cases hl : s.dcache.lookup s.cfg.dcache c with
  | none =>
    simp only
    cases hla : s.dcache.lookup s.cfg.dcache a with
    | none => rw [writeArchByte_miss hla]; exact readCell_writeCell_ne _ b h
    | some way => rw [writeArchByte_hit hla]
  | some way =>
    simp only
    cases hla : s.dcache.lookup s.cfg.dcache a with
    | none => rw [writeArchByte_miss hla]
    | some way' =>
      rw [writeArchByte_hit hla]
      simp only [setLine_line]
      split
      · rename_i hh
        obtain ⟨hs, rfl, -⟩ := hh
        have h1 := (lookup_eq_some.1 hl).2.1
        have h2 := (lookup_eq_some.1 hla).2.1
        rw [hs] at h1 ⊢
        simp only [lineHits, Bool.and_eq_true, beq_iff_eq] at h1 h2
        have := lineOffset_ne (h2.2.symm.trans h1.2) (Ne.symm h)
        simp [List.getD_eq_getElem?_getD, this]
      · rfl

/-- Reading back a byte of `Mem`, in a machine whose caches have their shape and whose memory is canonical. -/
theorem archByte_writeArchByte_same {s : State} (hd : s.dcache.shaped s.cfg.dcache) (hm : Memory.wf s.store.mem = true)
    (hB : 1 ≤ s.cfg.dcache.lineSize) (a : Nat) (b : Byte) : archByte (writeArchByte s a b) a = b := by
  have ht := sameTags_lookup (writeArchByte_sameTags s a b) s.cfg.dcache a
  have hc : (writeArchByte s a b).cfg = s.cfg := by rw [writeArchByte_eq]
  unfold archByte
  rw [hc, ht]
  cases hl : s.dcache.lookup s.cfg.dcache a with
  | none =>
    simp only [writeArchByte, hl]
    exact readCell_writeCell_same hm a b
  | some way =>
    have hw := (lookup_eq_some.1 hl).1
    have hs : setIndex s.cfg.dcache a < s.dcache.lines.length := by
      by_contra hn
      rw [List.getD_eq_getElem?_getD, List.getElem?_eq_none (by omega)] at hw
      simp at hw
    have hn : lineOffset s.cfg.dcache a < (s.dcache.line (setIndex s.cfg.dcache a) way).data.length := by
      rw [shaped_line_length hd hw]
      exact Nat.mod_lt _ (by omega)
    simp only [writeArchByte, hl, setLine_line]
    rw [if_pos ⟨trivial, trivial, hs, hw⟩]
    simp [List.getD_eq_getElem?_getD, hn]

/-- A write of several bytes leaves every byte outside them. -/
theorem archByte_writeArchBytes_ne (s : State) (a c : Nat) (bs : List Byte) (h : c < a ∨ a + bs.length ≤ c) :
    archByte (writeArchBytes s a bs) c = archByte s c := by
  induction bs generalizing s a with
  | nil => rfl
  | cons b bs ih =>
    simp only [List.length_cons] at h
    simp only [writeArchBytes]
    rw [ih _ _ (by omega), archByte_writeArchByte_ne _ _ (by omega)]

/-- A store leaves every byte of `Mem` outside the bytes it stores to. -/
theorem archByte_memWrite_ne (s : State) (a n c : Nat) (v : Word) (h : c < a ∨ a + n ≤ c) :
    archByte (memWrite s a n v) c = archByte s c :=
  archByte_writeArchBytes_ne s a c _ (by simpa using h)

theorem archBytes_writeArchBytes {s : State} (hd : s.dcache.shaped s.cfg.dcache) (hm : Memory.wf s.store.mem = true)
    (hB : 1 ≤ s.cfg.dcache.lineSize) (a : Nat) (bs : List Byte) :
    archBytes (writeArchBytes s a bs) a bs.length = bs := by
  induction bs generalizing s a with
  | nil => rfl
  | cons b bs ih =>
    have hc : (writeArchByte s a b).cfg = s.cfg := by rw [writeArchByte_eq]
    simp only [writeArchBytes, List.length_cons, archBytes]
    rw [ih (by rw [hc]; exact sameTags_shaped (writeArchByte_sameTags s a b) hd) (writeArchByte_wf hm a b) (by rw [hc]; exact hB),
      archByte_writeArchBytes_ne _ _ _ _ (by omega), archByte_writeArchByte_same hd hm hB]

/-- What a store wrote is what `Mem` then holds, least significant byte first (R62). -/
theorem archBytes_memWrite {s : State} (hd : s.dcache.shaped s.cfg.dcache) (hm : Memory.wf s.store.mem = true)
    (hB : 1 ≤ s.cfg.dcache.lineSize) (a n : Nat) (v : Word) : archBytes (memWrite s a n v) a n = bytesLE v n := by
  have := archBytes_writeArchBytes hd hm hB a (bytesLE v n)
  rwa [bytesLE_length] at this

/-- `Mem` depends on the store's bytes, the data cache and its geometry only. -/
theorem archByte_congr {s t : State} (hm : t.store.mem = s.store.mem) (hd : t.dcache = s.dcache)
    (hc : t.cfg.dcache = s.cfg.dcache) (a : Nat) : archByte t a = archByte s a := by
  unfold archByte
  rw [hm, hd, hc]

/-! ## Every dirty line is valid (R107) -/

/-- Only the lines matter. -/
theorem dirtyValid_congr {k k' : Cache} (hl : k'.lines = k.lines) (h : k.dirtyValid) : k'.dirtyValid := by
  intro set way
  have e : k'.line set way = k.line set way := by simp only [Cache.line, hl]
  rw [e]
  exact h set way

/-- Replacing a line by one that is valid if it is dirty. -/
theorem dirtyValid_setLine {k : Cache} (h : k.dirtyValid) (set way : Nat) {ln : Line}
    (hl : ln.dirty = true → ln.valid = true) : (k.setLine set way ln).dirtyValid := by
  intro set' way'
  rw [setLine_line]
  split
  · exact hl
  · exact h set' way'

/-- A write through `Mem` makes a line dirty that it has found valid. -/
theorem writeArchByte_dirtyValid {s : State} (h : s.dcache.dirtyValid) (a : Nat) (b : Byte) :
    (writeArchByte s a b).dcache.dirtyValid := by
  unfold writeArchByte
  dsimp only
  split
  · rename_i way hway
    have hits := (lookup_eq_some.1 hway).2.1
    refine dirtyValid_setLine h _ _ fun _ => ?_
    simp only [lineHits, Bool.and_eq_true] at hits
    exact hits.1
  · exact h

theorem writeArchBytes_dirtyValid {s : State} (h : s.dcache.dirtyValid) (a : Nat) (bs : List Byte) :
    (writeArchBytes s a bs).dcache.dirtyValid := by
  induction bs generalizing s a with
  | nil => exact h
  | cons b bs ih => exact ih (writeArchByte_dirtyValid h a b) (a + 1)

theorem memWrite_dirtyValid {s : State} (h : s.dcache.dirtyValid) (a n : Nat) (v : Word) :
    (memWrite s a n v).dcache.dirtyValid := writeArchBytes_dirtyValid h a _

/-- A hit names a set and a way that the arrays have (R92). -/
theorem lookup_lt {g : Geometry} {k : Cache} {a way : Nat} (h : k.lookup g a = some way) :
    setIndex g a < k.lines.length ∧ way < (k.lines.getD (setIndex g a) []).length := by
  obtain ⟨hw, -, -⟩ := lookup_eq_some.1 h
  refine ⟨?_, hw⟩
  by_contra hc
  rw [List.getD_eq_getElem?_getD, List.getElem?_eq_none (by omega)] at hw
  simp at hw

/-- Addresses of one line find the same way (R91, R92). -/
theorem lookup_sameLine {g : Geometry} {k : Cache} {a b : Nat} (h : tagOf g b = tagOf g a) :
    k.lookup g b = k.lookup g a := by
  have hs : setIndex g b = setIndex g a := congrArg (· % g.sets) h
  have hl : lineHits g b = lineHits g a := by
    funext ln
    simp only [lineHits, h]
  simp only [Cache.lookup, hs, hl]

end Sys2Proof.Machine
end

