-- ==== Sys2Proof/Laws/Alone.lean ====
section
/-! SUPPORT. Laws of the instruction level: what reading the sources, the access and the commit of one instruction can do,
said once for all instructions. -/

namespace Sys2Proof.Machine

/-! ## Sources (R13, R273) -/

@[simp] theorem sourceValue_none (s : State) : sourceValue s none = .ok 0 := rfl

/-- A readable source has its value. -/
theorem sourceValue_of_readable {s : State} {r : Reg} (h : s.readable r) : sourceValue s (some r) = .ok (s.x r) := by
  unfold State.readable at h
  simp only [sourceValue, h, if_true]
  rfl

/-- A source that is not readable is reported (R273). -/
theorem sourceValue_of_not_readable {s : State} {r : Reg} (h : ¬ s.readable r) : sourceValue s (some r) = .error r := by
  unfold State.readable at h
  simp only [sourceValue, h]
  rfl

@[simp] theorem readable_zero (s : State) : s.readable 0 := rfl

@[simp] theorem x_zero (s : State) : s.x 0 = 0 := rfl

/-! ## Commit (R140, R187) -/

/-- Committing a record with a destination. -/
theorem commit_some {r : Record} {rd : Reg} (h : r.rd = some rd) (s : State) :
    commit r s = s.wrote rd (wbval r) r.nextPc := by
  simp only [commit, h, State.writeDest, State.writeReg, State.wrote]
  split <;> rfl

/-- Committing a record without a destination only goes on. -/
theorem commit_none {r : Record} (h : r.rd = none) (s : State) : commit r s = { s with pc := r.nextPc } := by
  simp only [commit, h, State.writeDest]

/-- A commit writes registers and `pc` only. -/
theorem commit_eq (r : Record) (s : State) : commit r s = { s with regs := (commit r s).regs, pc := r.nextPc } := by
  cases h : r.rd with
  | none => rw [commit_none h]
  | some rd => rw [commit_some h]; rfl

theorem commit_regs (r : Record) (s : State) : (commit r s).regs = (s.writeDest r.rd (wbval r)).regs := rfl

/-- The write-back value of a record that is no load is its result (R187). -/
theorem wbval_of_not_load {r : Record} (h : r.isLoad = false) : wbval r = r.res := by
  simp [wbval, h]

/-! ## The access (R196, R198, R199) -/

theorem access_plain {r : Record} (hl : r.isLoad = false) (hs : r.isStore = false) (s : State) :
    access r s = .next (commit r s) := by
  simp [access, hl, hs]

theorem access_load {r : Record} {s : State} (hl : r.isLoad = true) (ha : s.accessible r.addr r.size) :
    access r s = .next (commit { r with res := memRead s r.addr.toNat r.size } s) := by
  obtain ⟨h1, h2⟩ := ha
  simp [access, hl, h1, Nat.not_lt.2 h2]

theorem access_store {r : Record} {s : State} (hl : r.isLoad = false) (hs : r.isStore = true)
    (ha : s.accessible r.addr r.size) : access r s = .next (commit r (memWrite s r.addr.toNat r.size r.v2)) := by
  obtain ⟨h1, h2⟩ := ha
  simp [access, hl, hs, h1, Nat.not_lt.2 h2]

/-- The alignment test comes first (R196 a). -/
theorem access_misaligned {r : Record} {s : State} (hm : (r.isLoad || r.isStore) = true)
    (ha : r.addr.toNat % r.size ≠ 0) :
    access r s = .fault (.misalignedAccess s.counters.cycles r.pc r.addr r.size) := by
  simp [access, hm, ha, raiseAlone]

/-- Then the range test (R196 b). -/
theorem access_outOfRange {r : Record} {s : State} (hm : (r.isLoad || r.isStore) = true)
    (ha : r.addr.toNat % r.size = 0) (hr : s.cfg.memSize < r.addr.toNat + r.size) :
    access r s =
      .fault (.outOfRange s.counters.cycles r.pc (lineBase s.cfg.dcache r.addr) s.cfg.fillBeat (some .D)) := by
  simp [access, hm, ha, hr, raiseAlone]

/-- Everything an access that completes can be. -/
theorem access_next {r : Record} {s t : State} (h : access r s = .next t) :
    ((r.isLoad || r.isStore) = false ∧ t = commit r s) ∨
    (r.isLoad = true ∧ s.accessible r.addr r.size ∧ t = commit { r with res := memRead s r.addr.toNat r.size } s) ∨
    (r.isLoad = false ∧ r.isStore = true ∧ s.accessible r.addr r.size ∧
      t = commit r (memWrite s r.addr.toNat r.size r.v2)) := by
  by_cases hm : (r.isLoad || r.isStore) = true
  · by_cases ha : r.addr.toNat % r.size = 0
    · by_cases hr : s.cfg.memSize < r.addr.toNat + r.size
      · rw [access_outOfRange hm ha hr] at h
        cases h
      · have hacc : s.accessible r.addr r.size := ⟨ha, Nat.not_lt.1 hr⟩
        by_cases hl : r.isLoad = true
        · rw [access_load hl hacc] at h
          cases h
          exact .inr (.inl ⟨hl, hacc, rfl⟩)
        · have hl' : r.isLoad = false := by simpa using hl
          have hs : r.isStore = true := by simpa [hl'] using hm
          rw [access_store hl' hs hacc] at h
          cases h
          exact .inr (.inr ⟨hl', hs, hacc, rfl⟩)
    · rw [access_misaligned hm ha] at h
      cases h
  · have hm' : (r.isLoad || r.isStore) = false := by simpa using hm
    have hb := Bool.or_eq_false_iff.1 hm'
    rw [access_plain hb.1 hb.2] at h
    cases h
    exact .inl ⟨hm', rfl⟩

/-- No access is refused. -/
theorem access_not_refused (r : Record) (s : State) (e : Refusal) : access r s ≠ .refused e := by
  unfold access
  split
  · split
    · simp [raiseAlone]
    · split
      · simp [raiseAlone]
      · split <;> simp
  · simp

/-! ## One instruction (R11) -/

/-- Every instruction's meaning is its record, executed by the execute stage's own function, run alone (R140). -/
theorem exec_eq_runAlone (i : Instr) (s : State) : exec i s = runAlone execute i s := by
  cases i <;> rfl

/-- The record of an instruction with its operands read. -/
def boundRecord (i : Instr) (s : State) (a b : Word) : Record := { recordOf i (encode i) s.pc with v1 := a, v2 := b }

section
variable (i : Instr) (s : State) (a b : Word)

@[simp] theorem boundRecord_rd : (boundRecord i s a b).rd = (recordOf i (encode i) s.pc).rd := rfl

@[simp] theorem boundRecord_isLoad : (boundRecord i s a b).isLoad = (recordOf i (encode i) s.pc).isLoad := rfl

@[simp] theorem boundRecord_isStore : (boundRecord i s a b).isStore = (recordOf i (encode i) s.pc).isStore := rfl

@[simp] theorem boundRecord_size : (boundRecord i s a b).size = (recordOf i (encode i) s.pc).size := rfl

@[simp] theorem boundRecord_pc : (boundRecord i s a b).pc = (recordOf i (encode i) s.pc).pc := rfl

@[simp] theorem boundRecord_imm : (boundRecord i s a b).imm = (recordOf i (encode i) s.pc).imm := rfl

@[simp] theorem boundRecord_v1 : (boundRecord i s a b).v1 = a := rfl

@[simp] theorem boundRecord_v2 : (boundRecord i s a b).v2 = b := rfl

end

theorem exec_of_sources {i : Instr} {s : State} {a b : Word}
    (h1 : sourceValue s (recordOf i (encode i) s.pc).rs1 = .ok a)
    (h2 : sourceValue s (recordOf i (encode i) s.pc).rs2 = .ok b) :
    exec i s = access (execute (boundRecord i s a b)) s := by
  rw [exec_eq_runAlone]
  simp only [runAlone, h1, h2, boundRecord]

/-- If an instruction completes, its sources had values and its access completed. -/
theorem exec_next {i : Instr} {s t : State} (h : exec i s = .next t) :
    ∃ a b, sourceValue s (recordOf i (encode i) s.pc).rs1 = .ok a ∧
      sourceValue s (recordOf i (encode i) s.pc).rs2 = .ok b ∧ access (execute (boundRecord i s a b)) s = .next t := by
  cases h1 : sourceValue s (recordOf i (encode i) s.pc).rs1 with
  | error x =>
    rw [exec_eq_runAlone] at h
    simp [runAlone, h1, raiseAlone] at h
  | ok a =>
    cases h2 : sourceValue s (recordOf i (encode i) s.pc).rs2 with
    | error x =>
      rw [exec_eq_runAlone] at h
      simp [runAlone, h1, h2, raiseAlone] at h
    | ok b => exact ⟨a, b, rfl, rfl, by rw [← exec_of_sources h1 h2]; exact h⟩

/-! ## What execution leaves of the record -/

/-- The execute functions write `res`, `next_pc` and `addr` only (R140). -/
theorem execute_eq (r : Record) :
    execute r = { r with res := (execute r).res, nextPc := (execute r).nextPc, addr := (execute r).addr } := by
  rcases r with ⟨_, _, op, _, _, _, _, _, _, _, _, _, _, _, _, _, _⟩
  cases op <;> rfl

@[simp] theorem execute_rd (r : Record) : (execute r).rd = r.rd := by rw [execute_eq]

@[simp] theorem execute_rs1 (r : Record) : (execute r).rs1 = r.rs1 := by rw [execute_eq]

@[simp] theorem execute_rs2 (r : Record) : (execute r).rs2 = r.rs2 := by rw [execute_eq]

@[simp] theorem execute_pc (r : Record) : (execute r).pc = r.pc := by rw [execute_eq]

@[simp] theorem execute_word (r : Record) : (execute r).word = r.word := by rw [execute_eq]

@[simp] theorem execute_op (r : Record) : (execute r).op = r.op := by rw [execute_eq]

@[simp] theorem execute_imm (r : Record) : (execute r).imm = r.imm := by rw [execute_eq]

@[simp] theorem execute_isLoad (r : Record) : (execute r).isLoad = r.isLoad := by rw [execute_eq]

@[simp] theorem execute_isStore (r : Record) : (execute r).isStore = r.isStore := by rw [execute_eq]

@[simp] theorem execute_size (r : Record) : (execute r).size = r.size := by rw [execute_eq]

@[simp] theorem execute_loadSigned (r : Record) : (execute r).loadSigned = r.loadSigned := by rw [execute_eq]

@[simp] theorem execute_v1 (r : Record) : (execute r).v1 = r.v1 := by rw [execute_eq]

@[simp] theorem execute_v2 (r : Record) : (execute r).v2 = r.v2 := by rw [execute_eq]

/-- The access width of a decoded record (R186). -/
theorem recordOf_sized (i : Instr) (word pc : Word) : (recordOf i word pc).sized := by
  cases i <;> simp [Record.sized, recordOf, recordR, recordI, recordB, recordU, recordJ, recordLoad, recordStore, recordBase]

/-- The destination of a decoded record (R124). -/
theorem recordOf_rd (i : Instr) (word pc : Word) : (recordOf i word pc).rd = i.dest := by cases i <;> rfl

theorem recordOf_isStore (i : Instr) (word pc : Word) : (recordOf i word pc).isStore = i.stores := by cases i <;> rfl

end Sys2Proof.Machine
end

