-- ==== Sys2Proof/Laws/Pipeline.lean ====
section
/-! SUPPORT. Laws of the cycle level: for each function of a cycle, which part of the state it can change. -/

namespace Sys2Proof.Machine

/-! ## The memory system changes the store, the caches and the fault record only (R221) -/

/-- `t` is `s` but for the store, the caches and the fault record. -/
def State.SameCore (s t : State) : Prop :=
  t = { s with store := t.store, icache := t.icache, dcache := t.dcache, fault := t.fault }

theorem sameCore_refl (s : State) : s.SameCore s := rfl

theorem sameCore_trans {s t u : State} (h : s.SameCore t) (h' : t.SameCore u) : s.SameCore u := by
  unfold State.SameCore at *
  rw [h']
  rw [h]

theorem sameCore_raise (s : State) (f : Fault) : s.SameCore (s.raise f) := by
  unfold State.raise State.SameCore
  split <;> rfl

theorem sameCore_withCache (s : State) (c : Client) (k : Cache) : s.SameCore (s.withCache c k) := by cases c <;> rfl

theorem sameCore_withQueue (s : State) (c : Client) (q : List Transaction) : s.SameCore (s.withQueue c q) := by
  cases c <;> rfl

theorem sameCore_andThen {r s : State} {next : State → State} (hs : r.SameCore s)
    (hn : s.fault = none → s.SameCore (next s)) : r.SameCore (s.andThen next) :=
  andThen_induct hs fun h => sameCore_trans hs (hn h)

theorem storeSend_sameCore (kind : Access) (addr : Word) (n : Nat) (v : Word) (c : Client) (s : State) :
    s.SameCore (storeSend kind addr n v c s) := by
  unfold storeSend
  split
  · exact sameCore_raise _ _
  · rfl

theorem storePerform_sameCore (s : State) : s.SameCore (storePerform s) := by
  unfold storePerform
  split <;> rfl

theorem storeClock_sameCore (s : State) : s.SameCore (storeClock s) := by
  unfold storeClock
  split
  · dsimp only
    split
    · split
      · exact sameCore_trans (t := { s with store := { s.store with countdown := s.store.countdown - 1 } }) rfl
          (sameCore_raise _ _)
      · exact sameCore_trans (t := { s with store := { s.store with countdown := s.store.countdown - 1 } }) rfl
          (storePerform_sameCore _)
    · rfl
  · rfl

theorem performRequest_sameCore (c : Client) (set way : Nat) (s : State) : s.SameCore (performRequest c set way s) := by
  unfold performRequest
  dsimp only
  split
  · exact sameCore_raise _ _
  · split <;> exact sameCore_withCache _ _ _

theorem issueBeat_sameCore (c : Client) (t : Transaction) (rest : List Transaction) (s : State) :
    s.SameCore (issueBeat c t rest s) := by
  unfold issueBeat
  split
  · exact sameCore_withQueue _ _ _
  · refine sameCore_andThen ?_ fun _ => sameCore_withQueue _ _ _
    split <;> exact storeSend_sameCore _ _ _ _ _ _

theorem collectBeat_sameCore (c : Client) (t : Transaction) (s : State) : s.SameCore (collectBeat c t s) := by
  cases c <;> rfl

theorem completeTransaction_sameCore (c : Client) (t : Transaction) (s : State) :
    s.SameCore (completeTransaction c t s) := by
  unfold completeTransaction
  split
  · exact sameCore_refl s
  · exact sameCore_trans (sameCore_withCache _ _ _) (performRequest_sameCore _ _ _ _)

theorem processQueue_sameCore (c : Client) (q : List Transaction) (s : State) : s.SameCore (processQueue c q s) := by
  induction q generalizing s with
  | nil => exact sameCore_withQueue _ _ _
  | cons t rest ih =>
    unfold processQueue
    split
    · split
      · dsimp only
        split
        · exact sameCore_andThen (sameCore_trans (sameCore_trans (collectBeat_sameCore _ _ _) (sameCore_withQueue _ _ _))
            (completeTransaction_sameCore _ _ _)) fun _ => ih _
        · exact sameCore_trans (collectBeat_sameCore _ _ _) (issueBeat_sameCore _ _ _ _)
      · exact sameCore_withQueue _ _ _
    · exact issueBeat_sameCore _ _ _ _

theorem processCache_sameCore (c : Client) (s : State) : s.SameCore (processCache c s) := processQueue_sameCore _ _ _

theorem cacheMiss_sameCore (c : Client) (addr : Word) (s : State) : s.SameCore (cacheMiss c addr s) :=
  sameCore_withCache _ _ _

theorem cacheSend_sameCore (c : Client) (kind : Access) (addr : Word) (n : Nat) (v : Word) (s : State) :
    s.SameCore (cacheSend c kind addr n v s) := by
  unfold cacheSend
  dsimp only
  split
  · exact sameCore_raise _ _
  · split
    · exact sameCore_trans (sameCore_withCache _ _ _) (performRequest_sameCore _ _ _ _)
    · exact sameCore_trans (sameCore_trans (sameCore_withCache _ _ _) (cacheMiss_sameCore _ _ _)) (processCache_sameCore _ _)

/-- Phase 1 reads and writes no latch, register or wire (R221). -/
theorem phaseMemory_sameCore (s : State) : s.SameCore (phaseMemory s) :=
  sameCore_andThen (sameCore_andThen (storeClock_sameCore s) fun _ => processCache_sameCore _ _) fun _ =>
    processCache_sameCore _ _

/-! ## One cache's work leaves the other cache alone -/

/-- The other client. -/
def Client.other : Client → Client
  | .I => .D
  | .D => .I

@[simp] theorem withCache_cache_other (s : State) (c : Client) (k : Cache) :
    (s.withCache c k).cache c.other = s.cache c.other := by
  cases c <;> rfl

@[simp] theorem withQueue_cache_other (s : State) (c : Client) (q : List Transaction) :
    (s.withQueue c q).cache c.other = s.cache c.other := by
  cases c <;> rfl

@[simp] theorem raise_cache (s : State) (f : Fault) (c : Client) : (s.raise f).cache c = s.cache c := by
  cases c <;> simp [State.cache]

@[simp] theorem raise_geometry (s : State) (f : Fault) (c : Client) : (s.raise f).geometry c = s.geometry c := by
  cases c <;> simp [State.geometry]

theorem sameCore_cfg {s t : State} (h : s.SameCore t) : t.cfg = s.cfg := by rw [h]

theorem sameCore_geometry {s t : State} (h : s.SameCore t) (c : Client) : t.geometry c = s.geometry c := by
  cases c <;> simp only [State.geometry, sameCore_cfg h]

theorem storeSend_cache (kind : Access) (addr : Word) (n : Nat) (v : Word) (c d : Client) (s : State) :
    (storeSend kind addr n v c s).cache d = s.cache d := by
  unfold storeSend
  split
  · simp
  · cases d <;> rfl

theorem storeClock_cache (s : State) (d : Client) : (storeClock s).cache d = s.cache d := by
  unfold storeClock
  split
  · dsimp only
    split
    · split
      · rw [raise_cache]; cases d <;> rfl
      · unfold storePerform; split <;> cases d <;> rfl
    · cases d <;> rfl
  · rfl

theorem performRequest_other (c : Client) (set way : Nat) (s : State) :
    (performRequest c set way s).cache c.other = s.cache c.other := by
  unfold performRequest
  dsimp only
  split
  · simp
  · split <;> simp

theorem performRequest_store (c : Client) (set way : Nat) (s : State) : (performRequest c set way s).store = s.store := by
  unfold performRequest
  dsimp only
  split
  · simp
  · split <;> simp

theorem issueBeat_other (c : Client) (t : Transaction) (rest : List Transaction) (s : State) :
    (issueBeat c t rest s).cache c.other = s.cache c.other := by
  unfold issueBeat
  split
  · simp
  · dsimp only
    refine andThen_induct (P := fun u => u.cache c.other = s.cache c.other) ?_ fun _ => ?_
    · split <;> exact storeSend_cache _ _ _ _ _ _ _
    · rw [withQueue_cache_other]
      split <;> exact storeSend_cache _ _ _ _ _ _ _

theorem collectBeat_other (c : Client) (t : Transaction) (s : State) :
    (collectBeat c t s).cache c.other = s.cache c.other := by
  cases c <;> rfl

theorem completeTransaction_other (c : Client) (t : Transaction) (s : State) :
    (completeTransaction c t s).cache c.other = s.cache c.other := by
  unfold completeTransaction
  split
  · rfl
  · dsimp only
    rw [performRequest_other, withCache_cache_other]

theorem processQueue_other (c : Client) (q : List Transaction) (s : State) :
    (processQueue c q s).cache c.other = s.cache c.other := by
  induction q generalizing s with
  | nil => exact withQueue_cache_other _ _ _
  | cons t rest ih =>
    unfold processQueue
    split
    · split
      · dsimp only
        have hk : ∀ u : State, (completeTransaction c { t with done := t.done + s.cfg.fillBeat, outstanding := false }
            ((collectBeat c t s).withQueue c rest)).cache c.other = s.cache c.other := fun _ => by
          rw [completeTransaction_other, withQueue_cache_other, collectBeat_other]
        split
        · exact andThen_induct (P := fun u => u.cache c.other = s.cache c.other) (hk s) fun _ => by rw [ih, hk s]
        · rw [issueBeat_other, collectBeat_other]
      · exact withQueue_cache_other _ _ _
    · exact issueBeat_other _ _ _ _

theorem cacheSend_other (c : Client) (kind : Access) (addr : Word) (n : Nat) (v : Word) (s : State) :
    (cacheSend c kind addr n v s).cache c.other = s.cache c.other := by
  unfold cacheSend
  dsimp only
  split
  · simp
  · split
    · rw [performRequest_other, withCache_cache_other]
    · unfold processCache
      rw [processQueue_other]
      unfold cacheMiss
      simp

/-! ## What each stage can change (R229) -/

/-- W changes registers and the count of retired instructions. -/
theorem stageW_eq (s : State) :
    stageW s = { s with regs := (stageW s).regs
                        counters := { s.counters with retired := s.counters.retired + slotCount s.mw.cur } } := by
  unfold stageW
  split
  · rename_i h
    rw [h]
    rfl
  · rename_i i h
    rw [h]
    dsimp only
    cases hd : i.rd with
    | none => rfl
    | some r =>
      simp only [State.writeDest, State.writeReg]
      split <;> rfl

/-- The registers after W. -/
theorem stageW_regs (s : State) :
    (stageW s).regs = match s.mw.cur with | none => s.regs | some i => (s.writeDest i.rd (wbval i)).regs := by
  unfold stageW
  cases s.mw.cur <;> rfl

/-- What M can change: its own registers, the wires, the slot it writes, the store, the data cache, the fault record. -/
def State.MemoryPart (s t : State) : Prop :=
  t = { s with mBeat := t.mBeat, mWaiting := t.mWaiting, mAcc := t.mAcc, wires := t.wires,
               mw := { s.mw with pending := t.mw.pending }, store := t.store, dcache := t.dcache, fault := t.fault }

theorem memoryPart_trans {s t u : State} (h : s.MemoryPart t) (h' : t.MemoryPart u) : s.MemoryPart u := by
  unfold State.MemoryPart at *
  rw [h']
  rw [h]

theorem memoryPart_raise (s : State) (f : Fault) : s.MemoryPart (s.raise f) := by
  unfold State.raise State.MemoryPart
  split <;> rfl

theorem memoryPart_cacheSend (kind : Access) (addr : Word) (n : Nat) (v : Word) (s : State) :
    s.MemoryPart (cacheSend .D kind addr n v s) := by
  have h := cacheSend_sameCore .D kind addr n v s
  have ho : (cacheSend .D kind addr n v s).icache = s.icache := cacheSend_other .D kind addr n v s
  unfold State.SameCore at h
  unfold State.MemoryPart
  rw [ho] at h
  rw [h]

theorem sendBeat_memoryPart (i : Record) (s : State) : s.MemoryPart (sendBeat i s) := by
  unfold sendBeat
  split
  · rfl
  · dsimp only
    refine andThen_induct ?_ fun _ => ?_
    · split <;> exact memoryPart_cacheSend _ _ _ _ _
    · split
      · exact memoryPart_trans (memoryPart_cacheSend _ _ _ _ _) rfl
      · exact memoryPart_trans (memoryPart_cacheSend _ _ _ _ _) rfl

theorem consumeBeat_memoryPart (i : Record) (s : State) : s.MemoryPart (consumeBeat i s) := by
  unfold consumeBeat
  dsimp only
  split
  · split <;> rfl
  · rfl

theorem stageM_memoryPart (s : State) : s.MemoryPart (stageM s) := by
  unfold stageM
  split
  · rfl
  · split
    · unfold accessMemory
      split
      · exact memoryPart_raise _ _
      · exact andThen_induct (sendBeat_memoryPart _ _) fun _ =>
          memoryPart_trans (sendBeat_memoryPart _ _) (consumeBeat_memoryPart _ _)
    · rfl

/-- E changes the wires and the slot it writes. -/
theorem stageE_eq (s : State) :
    stageE s = { s with wires := (stageE s).wires, em := { s.em with pending := (stageE s).em.pending } } := by
  unfold stageE
  split
  · rfl
  · split <;> rfl

/-- D changes the wires, the slot it writes, and the fault record. -/
theorem stageD_eq (s : State) :
    stageD s = { s with wires := (stageD s).wires, de := { s.de with pending := (stageD s).de.pending },
                        fault := (stageD s).fault } := by
  unfold stageD
  split
  · rfl
  · split
    · rfl
    · split
      · rfl
      · unfold readOperands
        split
        · unfold State.raise; split <;> rfl
        · unfold State.raise; split <;> rfl
        · rfl

/-- What F can change: the fetch state, the slot it writes, the count of created records, the store, the instruction
cache, the fault record. -/
def State.FetchPart (s t : State) : Prop :=
  t = { s with pc := t.pc, fetchPending := t.fetchPending, fd := { s.fd with pending := t.fd.pending }, store := t.store,
               icache := t.icache, counters := { s.counters with created := t.counters.created }, fault := t.fault }

theorem fetchPart_trans {s t u : State} (h : s.FetchPart t) (h' : t.FetchPart u) : s.FetchPart u := by
  unfold State.FetchPart at *
  rw [h']
  rw [h]

theorem fetchPart_raise (s : State) (f : Fault) : s.FetchPart (s.raise f) := by
  unfold State.raise State.FetchPart
  split <;> rfl

theorem fetchPart_cacheSend (kind : Access) (addr : Word) (n : Nat) (v : Word) (s : State) :
    s.FetchPart (cacheSend .I kind addr n v s) := by
  have h := cacheSend_sameCore .I kind addr n v s
  have ho : (cacheSend .I kind addr n v s).dcache = s.dcache := cacheSend_other .I kind addr n v s
  unfold State.SameCore at h
  unfold State.FetchPart
  rw [ho] at h
  rw [h]

theorem requestFetch_fetchPart (s : State) : s.FetchPart (requestFetch s) := by
  unfold requestFetch
  split
  · rfl
  · split
    · exact fetchPart_raise _ _
    · exact andThen_induct (fetchPart_cacheSend _ _ _ _ _) fun _ => fetchPart_trans (fetchPart_cacheSend _ _ _ _ _) rfl

theorem deliverFetch_fetchPart (s : State) : s.FetchPart (deliverFetch s) := by
  unfold deliverFetch
  split
  · dsimp only
    split
    · split
      · exact fetchPart_trans (t := { s with fetchPending := false }) rfl (fetchPart_raise _ _)
      · rfl
    · rfl
  · rfl

theorem stageF_fetchPart (s : State) : s.FetchPart (stageF s) := by
  unfold stageF
  split
  · rfl
  · exact andThen_induct (requestFetch_fetchPart _) fun _ =>
      fetchPart_trans (requestFetch_fetchPart _) (deliverFetch_fetchPart _)

/-! ## Projections: the fields each function leaves -/

@[simp] theorem phaseMemory_cfg (s : State) : (phaseMemory s).cfg = s.cfg := by
  have h := phaseMemory_sameCore s
  unfold State.SameCore at h
  rw [h]

@[simp] theorem phaseMemory_level (s : State) : (phaseMemory s).level = s.level := by
  have h := phaseMemory_sameCore s
  unfold State.SameCore at h
  rw [h]

@[simp] theorem phaseMemory_regs (s : State) : (phaseMemory s).regs = s.regs := by
  have h := phaseMemory_sameCore s
  unfold State.SameCore at h
  rw [h]

@[simp] theorem phaseMemory_pc (s : State) : (phaseMemory s).pc = s.pc := by
  have h := phaseMemory_sameCore s
  unfold State.SameCore at h
  rw [h]

@[simp] theorem phaseMemory_fetchPending (s : State) : (phaseMemory s).fetchPending = s.fetchPending := by
  have h := phaseMemory_sameCore s
  unfold State.SameCore at h
  rw [h]

@[simp] theorem phaseMemory_fd (s : State) : (phaseMemory s).fd = s.fd := by
  have h := phaseMemory_sameCore s
  unfold State.SameCore at h
  rw [h]

@[simp] theorem phaseMemory_de (s : State) : (phaseMemory s).de = s.de := by
  have h := phaseMemory_sameCore s
  unfold State.SameCore at h
  rw [h]

@[simp] theorem phaseMemory_em (s : State) : (phaseMemory s).em = s.em := by
  have h := phaseMemory_sameCore s
  unfold State.SameCore at h
  rw [h]

@[simp] theorem phaseMemory_mw (s : State) : (phaseMemory s).mw = s.mw := by
  have h := phaseMemory_sameCore s
  unfold State.SameCore at h
  rw [h]

@[simp] theorem phaseMemory_mBeat (s : State) : (phaseMemory s).mBeat = s.mBeat := by
  have h := phaseMemory_sameCore s
  unfold State.SameCore at h
  rw [h]

@[simp] theorem phaseMemory_mWaiting (s : State) : (phaseMemory s).mWaiting = s.mWaiting := by
  have h := phaseMemory_sameCore s
  unfold State.SameCore at h
  rw [h]

@[simp] theorem phaseMemory_mAcc (s : State) : (phaseMemory s).mAcc = s.mAcc := by
  have h := phaseMemory_sameCore s
  unfold State.SameCore at h
  rw [h]

@[simp] theorem phaseMemory_wires (s : State) : (phaseMemory s).wires = s.wires := by
  have h := phaseMemory_sameCore s
  unfold State.SameCore at h
  rw [h]

@[simp] theorem phaseMemory_counters (s : State) : (phaseMemory s).counters = s.counters := by
  have h := phaseMemory_sameCore s
  unfold State.SameCore at h
  rw [h]

@[simp] theorem cacheSend_cfg (c : Client) (kind : Access) (addr : Word) (n : Nat) (v : Word) (s : State) : (cacheSend c kind addr n v s).cfg = s.cfg := by
  have h := cacheSend_sameCore c kind addr n v s
  unfold State.SameCore at h
  rw [h]

@[simp] theorem cacheSend_level (c : Client) (kind : Access) (addr : Word) (n : Nat) (v : Word) (s : State) : (cacheSend c kind addr n v s).level = s.level := by
  have h := cacheSend_sameCore c kind addr n v s
  unfold State.SameCore at h
  rw [h]

@[simp] theorem cacheSend_regs (c : Client) (kind : Access) (addr : Word) (n : Nat) (v : Word) (s : State) : (cacheSend c kind addr n v s).regs = s.regs := by
  have h := cacheSend_sameCore c kind addr n v s
  unfold State.SameCore at h
  rw [h]

@[simp] theorem cacheSend_pc (c : Client) (kind : Access) (addr : Word) (n : Nat) (v : Word) (s : State) : (cacheSend c kind addr n v s).pc = s.pc := by
  have h := cacheSend_sameCore c kind addr n v s
  unfold State.SameCore at h
  rw [h]

@[simp] theorem cacheSend_fetchPending (c : Client) (kind : Access) (addr : Word) (n : Nat) (v : Word) (s : State) : (cacheSend c kind addr n v s).fetchPending = s.fetchPending := by
  have h := cacheSend_sameCore c kind addr n v s
  unfold State.SameCore at h
  rw [h]

@[simp] theorem cacheSend_fd (c : Client) (kind : Access) (addr : Word) (n : Nat) (v : Word) (s : State) : (cacheSend c kind addr n v s).fd = s.fd := by
  have h := cacheSend_sameCore c kind addr n v s
  unfold State.SameCore at h
  rw [h]

@[simp] theorem cacheSend_de (c : Client) (kind : Access) (addr : Word) (n : Nat) (v : Word) (s : State) : (cacheSend c kind addr n v s).de = s.de := by
  have h := cacheSend_sameCore c kind addr n v s
  unfold State.SameCore at h
  rw [h]

@[simp] theorem cacheSend_em (c : Client) (kind : Access) (addr : Word) (n : Nat) (v : Word) (s : State) : (cacheSend c kind addr n v s).em = s.em := by
  have h := cacheSend_sameCore c kind addr n v s
  unfold State.SameCore at h
  rw [h]

@[simp] theorem cacheSend_mw (c : Client) (kind : Access) (addr : Word) (n : Nat) (v : Word) (s : State) : (cacheSend c kind addr n v s).mw = s.mw := by
  have h := cacheSend_sameCore c kind addr n v s
  unfold State.SameCore at h
  rw [h]

@[simp] theorem cacheSend_mBeat (c : Client) (kind : Access) (addr : Word) (n : Nat) (v : Word) (s : State) : (cacheSend c kind addr n v s).mBeat = s.mBeat := by
  have h := cacheSend_sameCore c kind addr n v s
  unfold State.SameCore at h
  rw [h]

@[simp] theorem cacheSend_mWaiting (c : Client) (kind : Access) (addr : Word) (n : Nat) (v : Word) (s : State) : (cacheSend c kind addr n v s).mWaiting = s.mWaiting := by
  have h := cacheSend_sameCore c kind addr n v s
  unfold State.SameCore at h
  rw [h]

@[simp] theorem cacheSend_mAcc (c : Client) (kind : Access) (addr : Word) (n : Nat) (v : Word) (s : State) : (cacheSend c kind addr n v s).mAcc = s.mAcc := by
  have h := cacheSend_sameCore c kind addr n v s
  unfold State.SameCore at h
  rw [h]

@[simp] theorem cacheSend_wires (c : Client) (kind : Access) (addr : Word) (n : Nat) (v : Word) (s : State) : (cacheSend c kind addr n v s).wires = s.wires := by
  have h := cacheSend_sameCore c kind addr n v s
  unfold State.SameCore at h
  rw [h]

@[simp] theorem cacheSend_counters (c : Client) (kind : Access) (addr : Word) (n : Nat) (v : Word) (s : State) : (cacheSend c kind addr n v s).counters = s.counters := by
  have h := cacheSend_sameCore c kind addr n v s
  unfold State.SameCore at h
  rw [h]

@[simp] theorem stageW_cfg (s : State) : (stageW s).cfg = s.cfg := by rw [stageW_eq]
@[simp] theorem stageW_level (s : State) : (stageW s).level = s.level := by rw [stageW_eq]
@[simp] theorem stageW_pc (s : State) : (stageW s).pc = s.pc := by rw [stageW_eq]
@[simp] theorem stageW_fetchPending (s : State) : (stageW s).fetchPending = s.fetchPending := by rw [stageW_eq]
@[simp] theorem stageW_fd (s : State) : (stageW s).fd = s.fd := by rw [stageW_eq]
@[simp] theorem stageW_de (s : State) : (stageW s).de = s.de := by rw [stageW_eq]
@[simp] theorem stageW_em (s : State) : (stageW s).em = s.em := by rw [stageW_eq]
@[simp] theorem stageW_mw (s : State) : (stageW s).mw = s.mw := by rw [stageW_eq]
@[simp] theorem stageW_mBeat (s : State) : (stageW s).mBeat = s.mBeat := by rw [stageW_eq]
@[simp] theorem stageW_mWaiting (s : State) : (stageW s).mWaiting = s.mWaiting := by rw [stageW_eq]
@[simp] theorem stageW_mAcc (s : State) : (stageW s).mAcc = s.mAcc := by rw [stageW_eq]
@[simp] theorem stageW_wires (s : State) : (stageW s).wires = s.wires := by rw [stageW_eq]
@[simp] theorem stageW_store (s : State) : (stageW s).store = s.store := by rw [stageW_eq]
@[simp] theorem stageW_icache (s : State) : (stageW s).icache = s.icache := by rw [stageW_eq]
@[simp] theorem stageW_dcache (s : State) : (stageW s).dcache = s.dcache := by rw [stageW_eq]
@[simp] theorem stageW_fault (s : State) : (stageW s).fault = s.fault := by rw [stageW_eq]

@[simp] theorem stageM_cfg (s : State) : (stageM s).cfg = s.cfg := by
  have h := stageM_memoryPart s
  unfold State.MemoryPart at h
  rw [h]

@[simp] theorem stageM_level (s : State) : (stageM s).level = s.level := by
  have h := stageM_memoryPart s
  unfold State.MemoryPart at h
  rw [h]

@[simp] theorem stageM_regs (s : State) : (stageM s).regs = s.regs := by
  have h := stageM_memoryPart s
  unfold State.MemoryPart at h
  rw [h]

@[simp] theorem stageM_pc (s : State) : (stageM s).pc = s.pc := by
  have h := stageM_memoryPart s
  unfold State.MemoryPart at h
  rw [h]

@[simp] theorem stageM_fetchPending (s : State) : (stageM s).fetchPending = s.fetchPending := by
  have h := stageM_memoryPart s
  unfold State.MemoryPart at h
  rw [h]

@[simp] theorem stageM_fd (s : State) : (stageM s).fd = s.fd := by
  have h := stageM_memoryPart s
  unfold State.MemoryPart at h
  rw [h]

@[simp] theorem stageM_de (s : State) : (stageM s).de = s.de := by
  have h := stageM_memoryPart s
  unfold State.MemoryPart at h
  rw [h]

@[simp] theorem stageM_em (s : State) : (stageM s).em = s.em := by
  have h := stageM_memoryPart s
  unfold State.MemoryPart at h
  rw [h]

@[simp] theorem stageM_icache (s : State) : (stageM s).icache = s.icache := by
  have h := stageM_memoryPart s
  unfold State.MemoryPart at h
  rw [h]

@[simp] theorem stageM_counters (s : State) : (stageM s).counters = s.counters := by
  have h := stageM_memoryPart s
  unfold State.MemoryPart at h
  rw [h]

@[simp] theorem stageE_cfg (s : State) : (stageE s).cfg = s.cfg := by rw [stageE_eq]
@[simp] theorem stageE_level (s : State) : (stageE s).level = s.level := by rw [stageE_eq]
@[simp] theorem stageE_regs (s : State) : (stageE s).regs = s.regs := by rw [stageE_eq]
@[simp] theorem stageE_pc (s : State) : (stageE s).pc = s.pc := by rw [stageE_eq]
@[simp] theorem stageE_fetchPending (s : State) : (stageE s).fetchPending = s.fetchPending := by rw [stageE_eq]
@[simp] theorem stageE_fd (s : State) : (stageE s).fd = s.fd := by rw [stageE_eq]
@[simp] theorem stageE_de (s : State) : (stageE s).de = s.de := by rw [stageE_eq]
@[simp] theorem stageE_mw (s : State) : (stageE s).mw = s.mw := by rw [stageE_eq]
@[simp] theorem stageE_mBeat (s : State) : (stageE s).mBeat = s.mBeat := by rw [stageE_eq]
@[simp] theorem stageE_mWaiting (s : State) : (stageE s).mWaiting = s.mWaiting := by rw [stageE_eq]
@[simp] theorem stageE_mAcc (s : State) : (stageE s).mAcc = s.mAcc := by rw [stageE_eq]
@[simp] theorem stageE_store (s : State) : (stageE s).store = s.store := by rw [stageE_eq]
@[simp] theorem stageE_icache (s : State) : (stageE s).icache = s.icache := by rw [stageE_eq]
@[simp] theorem stageE_dcache (s : State) : (stageE s).dcache = s.dcache := by rw [stageE_eq]
@[simp] theorem stageE_counters (s : State) : (stageE s).counters = s.counters := by rw [stageE_eq]
@[simp] theorem stageE_fault (s : State) : (stageE s).fault = s.fault := by rw [stageE_eq]

@[simp] theorem stageD_cfg (s : State) : (stageD s).cfg = s.cfg := by rw [stageD_eq]
@[simp] theorem stageD_level (s : State) : (stageD s).level = s.level := by rw [stageD_eq]
@[simp] theorem stageD_regs (s : State) : (stageD s).regs = s.regs := by rw [stageD_eq]
@[simp] theorem stageD_pc (s : State) : (stageD s).pc = s.pc := by rw [stageD_eq]
@[simp] theorem stageD_fetchPending (s : State) : (stageD s).fetchPending = s.fetchPending := by rw [stageD_eq]
@[simp] theorem stageD_fd (s : State) : (stageD s).fd = s.fd := by rw [stageD_eq]
@[simp] theorem stageD_em (s : State) : (stageD s).em = s.em := by rw [stageD_eq]
@[simp] theorem stageD_mw (s : State) : (stageD s).mw = s.mw := by rw [stageD_eq]
@[simp] theorem stageD_mBeat (s : State) : (stageD s).mBeat = s.mBeat := by rw [stageD_eq]
@[simp] theorem stageD_mWaiting (s : State) : (stageD s).mWaiting = s.mWaiting := by rw [stageD_eq]
@[simp] theorem stageD_mAcc (s : State) : (stageD s).mAcc = s.mAcc := by rw [stageD_eq]
@[simp] theorem stageD_store (s : State) : (stageD s).store = s.store := by rw [stageD_eq]
@[simp] theorem stageD_icache (s : State) : (stageD s).icache = s.icache := by rw [stageD_eq]
@[simp] theorem stageD_dcache (s : State) : (stageD s).dcache = s.dcache := by rw [stageD_eq]
@[simp] theorem stageD_counters (s : State) : (stageD s).counters = s.counters := by rw [stageD_eq]

@[simp] theorem stageF_cfg (s : State) : (stageF s).cfg = s.cfg := by
  have h := stageF_fetchPart s
  unfold State.FetchPart at h
  rw [h]

@[simp] theorem stageF_level (s : State) : (stageF s).level = s.level := by
  have h := stageF_fetchPart s
  unfold State.FetchPart at h
  rw [h]

@[simp] theorem stageF_regs (s : State) : (stageF s).regs = s.regs := by
  have h := stageF_fetchPart s
  unfold State.FetchPart at h
  rw [h]

@[simp] theorem stageF_de (s : State) : (stageF s).de = s.de := by
  have h := stageF_fetchPart s
  unfold State.FetchPart at h
  rw [h]

@[simp] theorem stageF_em (s : State) : (stageF s).em = s.em := by
  have h := stageF_fetchPart s
  unfold State.FetchPart at h
  rw [h]

@[simp] theorem stageF_mw (s : State) : (stageF s).mw = s.mw := by
  have h := stageF_fetchPart s
  unfold State.FetchPart at h
  rw [h]

@[simp] theorem stageF_mBeat (s : State) : (stageF s).mBeat = s.mBeat := by
  have h := stageF_fetchPart s
  unfold State.FetchPart at h
  rw [h]

@[simp] theorem stageF_mWaiting (s : State) : (stageF s).mWaiting = s.mWaiting := by
  have h := stageF_fetchPart s
  unfold State.FetchPart at h
  rw [h]

@[simp] theorem stageF_mAcc (s : State) : (stageF s).mAcc = s.mAcc := by
  have h := stageF_fetchPart s
  unfold State.FetchPart at h
  rw [h]

@[simp] theorem stageF_wires (s : State) : (stageF s).wires = s.wires := by
  have h := stageF_fetchPart s
  unfold State.FetchPart at h
  rw [h]

@[simp] theorem stageF_dcache (s : State) : (stageF s).dcache = s.dcache := by
  have h := stageF_fetchPart s
  unfold State.FetchPart at h
  rw [h]

@[simp] theorem stageM_mw_cur (s : State) : (stageM s).mw.cur = s.mw.cur := by
  have h := stageM_memoryPart s
  unfold State.MemoryPart at h
  rw [h]

@[simp] theorem stageF_fd_cur (s : State) : (stageF s).fd.cur = s.fd.cur := by
  have h := stageF_fetchPart s
  unfold State.FetchPart at h
  rw [h]

@[simp] theorem stageE_em_cur (s : State) : (stageE s).em.cur = s.em.cur := by rw [stageE_eq]

@[simp] theorem stageD_de_cur (s : State) : (stageD s).de.cur = s.de.cur := by rw [stageD_eq]

@[simp] theorem stageF_cycles (s : State) : (stageF s).counters.cycles = s.counters.cycles := by
  have h := stageF_fetchPart s
  unfold State.FetchPart at h
  rw [h]

@[simp] theorem stageW_cycles (s : State) : (stageW s).counters.cycles = s.counters.cycles := by rw [stageW_eq]

/-! ## One clock (R220) -/

/-- If no fault is recorded after the stages, none was before any of them, and they ran in the order of R220. -/
theorem beforeAdvance_next {s : State} (h : (beforeAdvance s).fault = none) :
    (phaseMemory s).fault = none ∧ (stageW (phaseMemory s)).fault = none ∧ (stageM (stageW (phaseMemory s))).fault = none ∧
    (stageE (stageM (stageW (phaseMemory s)))).fault = none ∧
    (stageD (stageE (stageM (stageW (phaseMemory s))))).fault = none ∧
    beforeAdvance s = stageF (stageD (stageE (stageM (stageW (phaseMemory s))))) := by
  unfold beforeAdvance at h ⊢
  obtain ⟨h0, h1⟩ := andThen_next h
  rw [h1] at h ⊢
  unfold phaseStages at h ⊢
  obtain ⟨h2, h3⟩ := andThen_next h
  rw [h3] at h ⊢
  obtain ⟨h4, h5⟩ := andThen_next h2
  rw [h5] at h2 h ⊢
  obtain ⟨h6, h7⟩ := andThen_next h4
  rw [h7] at h4 h2 h ⊢
  obtain ⟨h8, h9⟩ := andThen_next h6
  rw [h9] at h6 h4 h2 h ⊢
  exact ⟨h0, h8, h6, h4, h2, rfl⟩

/-- If the Memory Unit's phase ends without a fault, its three units ran in the order of R72. -/
theorem phaseMemory_next {s : State} (h : (phaseMemory s).fault = none) :
    (storeClock s).fault = none ∧ (processCache .I (storeClock s)).fault = none ∧
    phaseMemory s = processCache .D (processCache .I (storeClock s)) := by
  unfold phaseMemory at h ⊢
  obtain ⟨h0, h1⟩ := andThen_next h
  rw [h1] at h ⊢
  obtain ⟨h2, h3⟩ := andThen_next h0
  rw [h3] at h0 h ⊢
  exact ⟨h2, h0, rfl⟩

/-- The latch advance changes latches, `pc` and the count of flushed records. -/
theorem advance_eq (s : State) :
    advance s = { s with fd := (advance s).fd, de := (advance s).de, em := (advance s).em, mw := s.mw.clock,
                         pc := (advance s).pc,
                         counters := { s.counters with flushed := (advance s).counters.flushed } } := by
  unfold advance
  split <;> rfl

/-- A cycle's phases 3 and 4 on the state the stages leave. -/
def finish (s : State) : State := endCycle (advance (count s))

theorem finish_eq (s : State) :
    finish s = { s with fd := (finish s).fd, de := (finish s).de, em := (finish s).em, mw := s.mw.clock,
                        pc := (finish s).pc, wires := Wires.cleared, counters := (finish s).counters } := by
  unfold finish endCycle
  rw [advance_eq]
  rfl

@[simp] theorem finish_fault (s : State) : (finish s).fault = s.fault := by rw [finish_eq]

@[simp] theorem finish_regs (s : State) : (finish s).regs = s.regs := by rw [finish_eq]

@[simp] theorem finish_cfg (s : State) : (finish s).cfg = s.cfg := by rw [finish_eq]

@[simp] theorem finish_level (s : State) : (finish s).level = s.level := by rw [finish_eq]

@[simp] theorem finish_store (s : State) : (finish s).store = s.store := by rw [finish_eq]

@[simp] theorem finish_icache (s : State) : (finish s).icache = s.icache := by rw [finish_eq]

@[simp] theorem finish_dcache (s : State) : (finish s).dcache = s.dcache := by rw [finish_eq]

@[simp] theorem finish_wires (s : State) : (finish s).wires = Wires.cleared := by rw [finish_eq]

@[simp] theorem finish_mw (s : State) : (finish s).mw = s.mw.clock := by rw [finish_eq]

@[simp] theorem finish_fetchPending (s : State) : (finish s).fetchPending = s.fetchPending := by rw [finish_eq]

@[simp] theorem finish_mBeat (s : State) : (finish s).mBeat = s.mBeat := by rw [finish_eq]

@[simp] theorem finish_mWaiting (s : State) : (finish s).mWaiting = s.mWaiting := by rw [finish_eq]

@[simp] theorem finish_mAcc (s : State) : (finish s).mAcc = s.mAcc := by rw [finish_eq]

/-- What a clock is: the stages' result if they faulted, else that result finished. -/
theorem clock_of_none {s : State} (h : s.fault = none) : clock s = (beforeAdvance s).andThen finish := by
  unfold clock
  rw [andThen_of_none h]
  rfl

/-- A clock without a fault. -/
theorem clock_next {s : State} (h : (clock s).fault = none) :
    s.fault = none ∧ (beforeAdvance s).fault = none ∧ clock s = finish (beforeAdvance s) := by
  unfold clock at h ⊢
  obtain ⟨h0, h1⟩ := andThen_next h
  rw [h1] at h ⊢
  obtain ⟨h2, h3⟩ := andThen_next h
  exact ⟨h0, h2, h3⟩

/-! ## One step -/

theorem outcomeOf_next {s t : State} (h : outcomeOf s = .next t) : s.fault = none ∧ t = s := by
  unfold outcomeOf at h
  split at h
  · cases h
  · cases h
    exact ⟨‹_›, rfl⟩

/-- Everything a step that completes can be. -/
theorem step_next {s t : State} (h : step s = .next t) :
    s.cfg.legal = true ∧ s.fault = none ∧
      ((s.level = .cycle ∧ t.fault = none ∧ t = clock s) ∨
        (s.level = .instruction ∧ ∃ i, fetchAlone s = .ok i ∧ exec i s = .next t)) := by
  unfold step at h
  split at h
  · refine ⟨‹_›, ?_⟩
    split at h
    · cases h
    · refine ⟨‹_›, ?_⟩
      split at h
      · obtain ⟨h1, rfl⟩ := outcomeOf_next h
        exact .inl ⟨‹_›, h1, rfl⟩
      · unfold stepAlone at h
        split at h
        · cases h
        · exact .inr ⟨‹_›, _, ‹_›, h⟩
  · cases h

/-- Everything a step that faults, in a machine that is not halted, can be. -/
theorem step_fault {s : State} {f : Fault} (hs : s.fault = none) (h : step s = .fault f) :
    s.cfg.legal = true ∧
      ((s.level = .cycle ∧ (beforeAdvance s).fault = some f) ∨
        (s.level = .instruction ∧ (fetchAlone s = .error f ∨ ∃ i, fetchAlone s = .ok i ∧ exec i s = .fault f))) := by
  unfold step at h
  split at h
  · refine ⟨‹_›, ?_⟩
    rw [hs] at h
    dsimp only at h
    split at h
    · refine .inl ⟨‹_›, ?_⟩
      rw [clock_of_none hs] at h
      unfold outcomeOf at h
      split at h
      · rename_i g hg
        cases h
        unfold State.andThen at hg
        split at hg
        · rw [finish_fault] at hg
          simp_all
        · exact hg
      · cases h
    · refine .inr ⟨‹_›, ?_⟩
      unfold stepAlone at h
      split at h
      · rename_i g hg
        cases h
        exact .inl hg
      · exact .inr ⟨_, ‹_›, h⟩
  · cases h

end Sys2Proof.Machine
end

