-- ==== Sys2Proof/Laws/Faults.lean ====
section
/-! SUPPORT. Laws of the fault record: a fault a function of the cycle records is stamped with the cycle's own number
(R270), function by function. -/

namespace Sys2Proof.Machine

/-- `t` counts the same cycle as `s`, and a fault recorded in `t` was recorded in `s` already or is stamped with that
cycle. -/
def State.FaultNow (s t : State) : Prop :=
  t.counters.cycles = s.counters.cycles ∧
    ∀ f, t.fault = some f → s.fault = some f ∨ f.cycle = s.counters.cycles

theorem faultNow_refl (s : State) : s.FaultNow s := ⟨rfl, fun _ h => .inl h⟩

theorem faultNow_trans {s t u : State} (h : s.FaultNow t) (h' : t.FaultNow u) : s.FaultNow u := by
  refine ⟨h'.1.trans h.1, fun f hf => ?_⟩
  rcases h'.2 f hf with h1 | h1
  · exact h.2 f h1
  · exact .inr (h1.trans h.1)

/-- A change that touches neither the fault record nor the cycle count. -/
theorem faultNow_of_eq {s t : State} (hc : t.counters.cycles = s.counters.cycles) (hf : t.fault = s.fault) :
    s.FaultNow t :=
  ⟨hc, fun f h => .inl (by rw [← hf]; exact h)⟩

theorem faultNow_raise {s : State} {f : Fault} (h : f.cycle = s.counters.cycles) : s.FaultNow (s.raise f) := by
  refine ⟨by simp, fun g hg => ?_⟩
  rcases raise_fault_cases hg with h' | rfl
  · exact .inl h'
  · exact .inr h

theorem faultNow_andThen {r s : State} {next : State → State} (hs : r.FaultNow s) (hn : s.FaultNow (next s)) :
    r.FaultNow (s.andThen next) :=
  andThen_induct hs fun _ => faultNow_trans hs hn

theorem faultNow_withCache (s : State) (c : Client) (k : Cache) : s.FaultNow (s.withCache c k) :=
  faultNow_of_eq (by simp) (by simp)

theorem faultNow_withQueue (s : State) (c : Client) (q : List Transaction) : s.FaultNow (s.withQueue c q) :=
  faultNow_of_eq (by simp) (by simp)

theorem storeSend_faultNow (kind : Access) (addr : Word) (n : Nat) (v : Word) (c : Client) (s : State) :
    s.FaultNow (storeSend kind addr n v c s) := by
  unfold storeSend
  split
  · exact faultNow_raise rfl
  · exact faultNow_of_eq rfl rfl

theorem storeClock_faultNow (s : State) : s.FaultNow (storeClock s) := by
  unfold storeClock
  split
  · dsimp only
    split
    · split
      · exact faultNow_trans (t := { s with store := { s.store with countdown := s.store.countdown - 1 } })
          (faultNow_of_eq rfl rfl) (faultNow_raise rfl)
      · unfold storePerform
        split <;> exact faultNow_of_eq rfl rfl
    · exact faultNow_of_eq rfl rfl
  · exact faultNow_refl s

theorem performRequest_faultNow (c : Client) (set way : Nat) (s : State) : s.FaultNow (performRequest c set way s) := by
  unfold performRequest
  dsimp only
  split
  · exact faultNow_raise rfl
  · split <;> exact faultNow_withCache _ _ _

theorem issueBeat_faultNow (c : Client) (t : Transaction) (rest : List Transaction) (s : State) :
    s.FaultNow (issueBeat c t rest s) := by
  unfold issueBeat
  split
  · exact faultNow_withQueue _ _ _
  · refine faultNow_andThen ?_ (faultNow_withQueue _ _ _)
    split <;> exact storeSend_faultNow _ _ _ _ _ _

theorem collectBeat_faultNow (c : Client) (t : Transaction) (s : State) : s.FaultNow (collectBeat c t s) := by
  cases c <;> exact faultNow_of_eq rfl rfl

theorem completeTransaction_faultNow (c : Client) (t : Transaction) (s : State) :
    s.FaultNow (completeTransaction c t s) := by
  unfold completeTransaction
  split
  · exact faultNow_refl s
  · exact faultNow_trans (faultNow_withCache _ _ _) (performRequest_faultNow _ _ _ _)

theorem processQueue_faultNow (c : Client) (q : List Transaction) (s : State) : s.FaultNow (processQueue c q s) := by
  induction q generalizing s with
  | nil => exact faultNow_withQueue _ _ _
  | cons t rest ih =>
    unfold processQueue
    split
    · split
      · dsimp only
        split
        · exact faultNow_andThen (faultNow_trans (faultNow_trans (collectBeat_faultNow _ _ _) (faultNow_withQueue _ _ _))
            (completeTransaction_faultNow _ _ _)) (ih _)
        · exact faultNow_trans (collectBeat_faultNow _ _ _) (issueBeat_faultNow _ _ _ _)
      · exact faultNow_withQueue _ _ _
    · exact issueBeat_faultNow _ _ _ _

theorem cacheSend_faultNow (c : Client) (kind : Access) (addr : Word) (n : Nat) (v : Word) (s : State) :
    s.FaultNow (cacheSend c kind addr n v s) := by
  unfold cacheSend
  dsimp only
  split
  · exact faultNow_raise rfl
  · split
    · exact faultNow_trans (faultNow_withCache _ _ _) (performRequest_faultNow _ _ _ _)
    · exact faultNow_trans (faultNow_trans (faultNow_withCache _ _ _) (faultNow_withCache _ _ _))
        (processQueue_faultNow _ _ _)

theorem phaseMemory_faultNow (s : State) : s.FaultNow (phaseMemory s) :=
  faultNow_andThen (faultNow_andThen (storeClock_faultNow s) (processQueue_faultNow _ _ _)) (processQueue_faultNow _ _ _)

theorem stageW_faultNow (s : State) : s.FaultNow (stageW s) := faultNow_of_eq (by simp) (by simp)

theorem stageM_faultNow (s : State) : s.FaultNow (stageM s) := by
  unfold stageM
  split
  · exact faultNow_of_eq rfl rfl
  · split
    · unfold accessMemory
      split
      · exact faultNow_raise rfl
      · refine faultNow_andThen ?_ ?_
        · unfold sendBeat
          split
          · exact faultNow_refl s
          · dsimp only
            refine faultNow_andThen ?_ (faultNow_of_eq rfl rfl)
            split <;> exact cacheSend_faultNow _ _ _ _ _ _
        · unfold consumeBeat
          dsimp only
          split
          · split <;> exact faultNow_of_eq rfl rfl
          · exact faultNow_of_eq rfl rfl
    · exact faultNow_of_eq rfl rfl

theorem stageE_faultNow (s : State) : s.FaultNow (stageE s) := faultNow_of_eq (by simp) (by simp)

theorem stageD_faultNow (s : State) : s.FaultNow (stageD s) := by
  unfold stageD
  split
  · exact faultNow_refl s
  · split
    · exact faultNow_of_eq rfl rfl
    · split
      · exact faultNow_of_eq rfl rfl
      · unfold readOperands
        split
        · exact faultNow_raise rfl
        · exact faultNow_raise rfl
        · exact faultNow_of_eq rfl rfl

theorem stageF_faultNow (s : State) : s.FaultNow (stageF s) := by
  unfold stageF
  split
  · exact faultNow_refl s
  · refine faultNow_andThen ?_ ?_
    · unfold requestFetch
      split
      · exact faultNow_refl s
      · split
        · exact faultNow_raise rfl
        · exact faultNow_andThen (cacheSend_faultNow _ _ _ _ _ _) (faultNow_of_eq rfl rfl)
    · unfold deliverFetch
      split
      · dsimp only
        split
        · split
          · exact faultNow_trans (t := { (requestFetch s) with fetchPending := false }) (faultNow_of_eq rfl rfl)
              (faultNow_raise rfl)
          · exact faultNow_of_eq rfl rfl
        · exact faultNow_of_eq rfl rfl
      · exact faultNow_of_eq rfl rfl

/-- Everything before the counters and the latches of a cycle. -/
theorem beforeAdvance_faultNow (s : State) : s.FaultNow (beforeAdvance s) :=
  faultNow_andThen (phaseMemory_faultNow s) <|
    faultNow_andThen (faultNow_andThen (faultNow_andThen (faultNow_andThen (stageW_faultNow _) (stageM_faultNow _))
      (stageE_faultNow _)) (stageD_faultNow _)) (stageF_faultNow _)

end Sys2Proof.Machine
end

