-- ==== Sys2Proof/Laws/Stages.lean ====
section
/-! SUPPORT. Laws of the stage procedures: what each leaves on the wires and in the slot it writes, said by cases, so that
no later proof unfolds a stage. -/

namespace Sys2Proof.Machine

/-! ## Leaving and waiting in M (R224, R252, R253, R255) -/

section
variable (i : Record) (s : State)

theorem leaveMemory_eq : leaveMemory i s = { s with wires := (leaveMemory i s).wires, mw := { s.mw with pending := some i } } :=
  rfl

@[simp] theorem leaveMemory_fault : (leaveMemory i s).fault = s.fault := rfl

theorem leaveMemory_flush : (leaveMemory i s).wires.flush = (s.wires.flush || needsFlush i) := by
  unfold leaveMemory
  cases needsFlush i <;> cases liveReg i.rd <;> simp

theorem leaveMemory_flushTarget :
    (leaveMemory i s).wires.flushTarget = if needsFlush i then i.nextPc else s.wires.flushTarget := by
  unfold leaveMemory
  cases needsFlush i <;> cases liveReg i.rd <;> simp

theorem leaveMemory_bypM :
    (leaveMemory i s).wires.bypM =
      match liveReg i.rd with
      | some r => { tag := some r, value := wbval i }
      | none => s.wires.bypM := by
  unfold leaveMemory
  cases needsFlush i <;> cases liveReg i.rd <;> simp

/-- Leaving M sets no stall flag, no mask and nothing of the execute stage. -/
theorem leaveMemory_rest :
    (leaveMemory i s).wires =
      { s.wires with flush := (leaveMemory i s).wires.flush, flushTarget := (leaveMemory i s).wires.flushTarget,
                     bypM := (leaveMemory i s).wires.bypM } := by
  unfold leaveMemory
  cases needsFlush i <;> cases liveReg i.rd <;> rfl

/-- Waiting in M is the structural stall and a bubble to W. -/
theorem waitMemory_eq :
    waitMemory i s = { s with wires := { s.wires with stallEM := true, stallDE := true, stallFD := true,
                                                      maskM := (waitMemory i s).wires.maskM },
                              mw := { s.mw with pending := none } } :=
  rfl

/-- The hazard test of R253. -/
theorem needsFlush_iff : needsFlush i = true ↔ i.nextPc ≠ i.pc + 4 := bne_iff_ne

end

/-! ## Outcomes of the memory stage -/

/-- What the stall flags, the flush flag and the slot of M can be after M, given what M saw: either an instruction left M
or M passed a bubble down, and then no stall flag was set; or M waits with all three set and no flush. -/
inductive MemoryOutcome (s t : State) : Prop where
  /-- M was empty -/
  | bubble (cur : s.em.cur = none) (wires : t.wires = s.wires) (mw : t.mw.pending = none)
  /-- the instruction in M, with a load's value in it, leaves M -/
  | leaves (j i : Record) (cur : s.em.cur = some j) (pc : i.pc = j.pc) (next : i.nextPc = j.nextPc) (rd : i.rd = j.rd)
      (wires : t.wires = (leaveMemory i s).wires) (mw : t.mw.pending = some i)
  /-- the instruction in M waits -/
  | waits (j : Record) (cur : s.em.cur = some j) (wires : t.wires = structuralStall j s.wires) (mw : t.mw.pending = none)

theorem consumeBeat_outcome {s u : State} {j : Record} (hj : s.em.cur = some j) (hw : u.wires = s.wires) :
    MemoryOutcome s (consumeBeat j u) := by
  unfold consumeBeat
  dsimp only
  by_cases hc : u.dcache.req.complete = true
  · rw [if_pos hc]
    by_cases hb : u.mBeat + 1 = beatCount u.cfg j
    · rw [if_pos hb]
      cases hl : j.isLoad
      · refine .leaves j j hj rfl rfl rfl ?_ rfl
        unfold leaveMemory
        simp [hw]
      · simp only [if_true]
        refine .leaves j _ hj ?_ ?_ ?_ ?_ rfl
        · rfl
        · rfl
        · rfl
        · unfold leaveMemory
          simp [hw]
    · rw [if_neg hb]
      exact .waits j hj (by simp only [waitMemory, hw]) rfl
  · rw [if_neg hc]
    exact .waits j hj (by simp only [waitMemory, hw]) rfl

theorem sendBeat_wires (i : Record) (s : State) : (sendBeat i s).wires = s.wires := by
  unfold sendBeat
  split
  · rfl
  · dsimp only
    refine andThen_induct (P := fun u => u.wires = s.wires) ?_ fun _ => ?_
    · split <;> simp
    · dsimp only
      split <;> simp

/-- M by cases, when it raises no fault. -/
theorem stageM_outcome {s : State} (h : (stageM s).fault = none) : MemoryOutcome s (stageM s) := by
  unfold stageM at h ⊢
  split
  · exact .bubble ‹_› rfl rfl
  · rename_i j hj
    rw [hj] at h
    dsimp only at h
    split
    · rw [if_pos ‹_›] at h
      unfold accessMemory at h ⊢
      split
      · rw [if_pos ‹_›] at h
        exact absurd h (raise_fault_ne_none _ _)
      · rw [if_neg ‹_›] at h
        obtain ⟨-, h2⟩ := andThen_next h
        rw [h2]
        exact consumeBeat_outcome hj (sendBeat_wires j s)
    · exact .leaves j j hj rfl rfl rfl rfl rfl

/-! ## Outcomes of decode -/

/-- D by cases, when it raises no fault. -/
inductive DecodeOutcome (s t : State) : Prop where
  /-- the pipeline is structurally stalled -/
  | stalled (stall : s.wires.stallEM = true) (same : t = s)
  /-- D was empty -/
  | bubble (stall : s.wires.stallEM = false) (cur : s.fd.cur = none) (wires : t.wires = s.wires) (de : t.de.pending = none)
  /-- a data hazard: D keeps its instruction -/
  | hazard (i : Record) (stall : s.wires.stallEM = false) (cur : s.fd.cur = some i) (hz : hasDataHazard s.wires i = true)
      (wires : t.wires = { s.wires with dataHazard := true, stallFD := true }) (de : t.de.pending = none)
  /-- the instruction goes on with its operands -/
  | issues (i : Record) (a b : Word) (cls : BypassClass) (stall : s.wires.stallEM = false) (cur : s.fd.cur = some i)
      (hz : hasDataHazard s.wires i = false) (first : readOperand s i.rs1 = .ok a) (second : readOperand s i.rs2 = .ok b)
      (wires : t.wires = { s.wires with bypClass := cls }) (de : t.de.pending = some { i with v1 := a, v2 := b })

theorem stageD_outcome {s : State} (h : (stageD s).fault = none) : DecodeOutcome s (stageD s) := by
  unfold stageD at h ⊢
  split
  · exact .stalled ‹_› rfl
  · rename_i hs
    rw [if_neg hs] at h
    have hs' : s.wires.stallEM = false := by simpa using hs
    split
    · exact .bubble hs' ‹_› rfl rfl
    · rename_i i hi
      rw [hi] at h
      dsimp only at h
      split
      · exact .hazard i hs' hi ‹_› rfl rfl
      · rename_i hz
        rw [if_neg hz] at h
        unfold readOperands at h ⊢
        split
        · rename_i r hr
          rw [hr] at h
          exact absurd h (raise_fault_ne_none _ _)
        · rename_i a r hr ha
          rw [hr, ha] at h
          exact absurd h (raise_fault_ne_none _ _)
        · exact .issues i _ _ _ hs' hi (by simpa using hz) ‹_› ‹_› rfl rfl

/-! ## Outcomes of fetch -/

/-- F by cases, when it raises no fault: what it does to `pc`, the slot and the count of created records. -/
inductive FetchOutcome (s t : State) : Prop where
  /-- F is held -/
  | stalled (stall : s.wires.stallFD = true) (same : t = s)
  /-- F writes a bubble -/
  | bubble (stall : s.wires.stallFD = false) (fd : t.fd.pending = none) (pc : t.pc = s.pc)
      (created : t.counters.created = s.counters.created)
  /-- F delivers a record -/
  | delivers (w : Word) (i : Record) (stall : s.wires.stallFD = false) (record : decodeRecord w s.pc = some i)
      (fd : t.fd.pending = some i) (pc : t.pc = s.pc + 4) (created : t.counters.created = s.counters.created + 1)

theorem requestFetch_rest (s : State) :
    (requestFetch s).pc = s.pc ∧ (requestFetch s).counters = s.counters ∧ (requestFetch s).fd = s.fd := by
  unfold requestFetch
  split
  · exact ⟨rfl, rfl, rfl⟩
  · split
    · exact ⟨by simp, by simp, by simp⟩
    · refine andThen_induct (P := fun u => u.pc = s.pc ∧ u.counters = s.counters ∧ u.fd = s.fd) ?_ fun _ => ?_
      · exact ⟨by simp, by simp, by simp⟩
      · exact ⟨by simp, by simp, by simp⟩

theorem stageF_outcome {s : State} (h : (stageF s).fault = none) : FetchOutcome s (stageF s) := by
  unfold stageF at h ⊢
  split
  · exact .stalled ‹_› rfl
  · rename_i hs
    rw [if_neg hs] at h
    have hs' : s.wires.stallFD = false := by simpa using hs
    obtain ⟨-, h2⟩ := andThen_next h
    obtain ⟨hp, hc, -⟩ := requestFetch_rest s
    rw [h2] at h ⊢
    unfold deliverFetch at h ⊢
    split
    · rw [if_pos ‹_›] at h
      dsimp only at h ⊢
      split
      · rename_i ha
        rw [if_pos ha] at h
        split
        · rename_i hd
          rw [hd] at h
          exact absurd h (raise_fault_ne_none _ _)
        · rename_i i hd
          rw [hp] at hd
          exact .delivers _ i hs' hd rfl (by simp [hp]) (by simp [hc])
      · exact .bubble hs' rfl hp (by simp [hc])
    · exact .bubble hs' rfl hp (by simp [hc])

/-! ## Outcomes of execute -/

/-- E by cases. -/
inductive ExecuteOutcome (s t : State) : Prop where
  | stalled (stall : s.wires.stallEM = true) (same : t = s)
  | bubble (stall : s.wires.stallEM = false) (cur : s.de.cur = none) (wires : t.wires = s.wires) (em : t.em.pending = none)
  | executes (i : Record) (stall : s.wires.stallEM = false) (cur : s.de.cur = some i)
      (wires : t.wires = { s.wires with maskE := t.wires.maskE, bypE := t.wires.bypE })
      (em : t.em.pending = some (execute i))

theorem stageE_outcome (s : State) : ExecuteOutcome s (stageE s) := by
  unfold stageE
  split
  · exact .stalled ‹_› rfl
  · rename_i hs
    have hs' : s.wires.stallEM = false := by simpa using hs
    split
    · exact .bubble hs' ‹_› rfl rfl
    · refine .executes _ hs' ‹_› ?_ rfl
      dsimp only
      cases liveReg (execute _).rd with
      | none => rfl
      | some r => dsimp only; split <;> rfl

end Sys2Proof.Machine
end

