-- ==== Sys2Proof/Laws/Shape.lean ====
section
/-! SUPPORT. Every operation of the memory system keeps the memory canonical and the arrays of both caches in the shape of
their geometry. -/

namespace Sys2Proof.Machine

/-- Memory is in canonical form and both caches have the shape of their geometry (spec/10_state.md R36, R37). -/
def State.Arrays (s : State) : Prop :=
  Memory.wf s.store.mem = true ∧ ∀ c, (s.cache c).shaped (s.geometry c)

/-- The request and the queue are no part of a cache's shape. -/
theorem shaped_congr {g : Geometry} {k k' : Cache} (hl : k'.lines = k.lines) (hf : k'.fifo = k.fifo) (h : k.shaped g) :
    k'.shaped g := by
  unfold Cache.shaped at *
  rwa [hl, hf]

/-- The lines alone say what stands at a set and way. -/
theorem line_congr {k k' : Cache} (hl : k'.lines = k.lines) (set way : Nat) : k'.line set way = k.line set way := by
  unfold Cache.line
  rw [hl]

/-- A line whose data keep the length of the line they replace keeps the shape. -/
theorem setLine_shaped_of_length {g : Geometry} {k : Cache} (h : k.shaped g) (set way : Nat) {ln : Line}
    (hl : ln.data.length = (k.line set way).data.length) : (k.setLine set way ln).shaped g :=
  setLine_shaped h set way fun hw => hl.trans (shaped_line_length h hw)

section
variable {s : State} (h : s.Arrays)
include h

theorem arrays_raise (f : Fault) : (s.raise f).Arrays := by
  refine ⟨by simpa using h.1, fun c => ?_⟩
  rw [raise_cache, raise_geometry]
  exact h.2 c

theorem arrays_withCache (c : Client) {k : Cache} (hk : k.shaped (s.geometry c)) : (s.withCache c k).Arrays := by
  refine ⟨by simpa using h.1, fun d => ?_⟩
  have := h.2 d
  cases c <;> cases d <;> first | exact hk | exact this

theorem arrays_withQueue (c : Client) (q : List Transaction) : (s.withQueue c q).Arrays :=
  arrays_withCache h c (shaped_congr rfl rfl (h.2 c))

theorem arrays_storeSend (kind : Access) (addr : Word) (n : Nat) (v : Word) (c : Client) :
    (storeSend kind addr n v c s).Arrays := by
  unfold storeSend
  split
  · exact arrays_raise h _
  · exact ⟨h.1, fun d => by cases d <;> [exact h.2 .I; exact h.2 .D]⟩

theorem arrays_storeClock : (storeClock s).Arrays := by
  have hk : ∀ u : Store, Memory.wf u.mem = true → ({ s with store := u } : State).Arrays := fun u hu =>
    ⟨hu, fun d => by cases d <;> [exact h.2 .I; exact h.2 .D]⟩
  unfold storeClock
  split
  · dsimp only
    split
    · split
      · exact arrays_raise (hk { s.store with countdown := s.store.countdown - 1 } h.1) _
      · unfold storePerform
        split
        · exact hk _ h.1
        · exact hk _ (writeBytes_wf h.1 _ _)
    · exact hk _ h.1
  · exact h

theorem arrays_performRequest (c : Client) (set way : Nat) : (performRequest c set way s).Arrays := by
  unfold performRequest
  dsimp only
  split
  · exact arrays_raise h _
  · split
    · exact arrays_withCache h c (shaped_congr rfl rfl (h.2 c))
    · exact arrays_withCache h c
        (shaped_congr rfl rfl (setLine_shaped_of_length (h.2 c) set way (setLineBytes_length _ _ _)))

theorem arrays_issueBeat (c : Client) (t : Transaction) (rest : List Transaction) : (issueBeat c t rest s).Arrays := by
  unfold issueBeat
  split
  · exact arrays_withQueue h c _
  · dsimp only
    have hs : ∀ kind addr n v, (storeSend kind addr n v c s).Arrays := fun _ _ _ _ => arrays_storeSend h _ _ _ _ _
    refine andThen_induct (P := State.Arrays) ?_ fun _ => arrays_withQueue ?_ c _ <;> split <;> exact hs _ _ _ _

theorem arrays_collectBeat (c : Client) (t : Transaction) : (collectBeat c t s).Arrays := by
  have hk : ∀ k : Cache, k.shaped (s.geometry c) →
      ({ s.withCache c k with store := { s.store with owner := none, complete := false } } : State).Arrays := by
    intro k hk
    have := (arrays_withCache h c hk).2
    exact ⟨h.1, fun d => by cases d <;> [exact this .I; exact this .D]⟩
  unfold collectBeat
  dsimp only
  apply hk
  split
  · exact setLine_shaped_of_length (h.2 c) _ _ (setLineBytes_length _ _ _)
  · exact h.2 c

theorem arrays_completeTransaction (c : Client) (t : Transaction) : (completeTransaction c t s).Arrays := by
  unfold completeTransaction
  split
  · exact h
  · dsimp only
    refine arrays_performRequest (arrays_withCache h c (setLine_shaped_of_length (h.2 c) _ _ ?_)) c _ _
    rfl

end

theorem arrays_processQueue (c : Client) (q : List Transaction) {s : State} (h : s.Arrays) :
    (processQueue c q s).Arrays := by
  induction q generalizing s with
  | nil => exact arrays_withQueue h c _
  | cons t rest ih =>
    unfold processQueue
    split
    · split
      · have hc := arrays_collectBeat h c t
        dsimp only
        split
        · exact andThen_induct (P := State.Arrays) (arrays_completeTransaction (arrays_withQueue hc c _) c _) fun _ =>
            ih (arrays_completeTransaction (arrays_withQueue hc c _) c _)
        · exact arrays_issueBeat hc c _ _
      · exact arrays_withQueue h c _
    · exact arrays_issueBeat h c _ _

/-- The invalidation of the victim and the rotation of the FIFO keep the shape where the geometry has a way (R96, R99). -/
theorem arrays_cacheMiss (c : Client) (addr : Word) {s : State} (hw : 1 ≤ (s.geometry c).ways) (h : s.Arrays) :
    (cacheMiss c addr s).Arrays := by
  unfold cacheMiss
  dsimp only
  apply arrays_withCache h c
  have hk := setLine_shaped_of_length (h.2 c) (setIndex (s.geometry c) addr.toNat)
    ((s.cache c).fifo.getD (setIndex (s.geometry c) addr.toNat) 0)
    (ln := { (s.cache c).line (setIndex (s.geometry c) addr.toNat)
      ((s.cache c).fifo.getD (setIndex (s.geometry c) addr.toNat) 0) with valid := false, dirty := false }) rfl
  obtain ⟨h1, h2, h3, h4⟩ := hk
  refine ⟨h1, h2, by simpa using h3, fun way hway => ?_⟩
  rcases List.mem_or_eq_of_mem_set hway with hm | rfl
  · exact h4 way hm
  · exact Nat.mod_lt _ (by omega)

theorem arrays_cacheSend (c : Client) (kind : Access) (addr : Word) (n : Nat) (v : Word) {s : State}
    (hw : 1 ≤ (s.geometry c).ways) (h : s.Arrays) : (cacheSend c kind addr n v s).Arrays := by
  unfold cacheSend
  dsimp only
  split
  · exact arrays_raise h _
  · have hr : ∀ r : Request, (s.withCache c { s.cache c with req := r }).Arrays := fun r =>
      arrays_withCache h c (shaped_congr rfl rfl (h.2 c))
    split
    · exact arrays_performRequest (hr _) c _ _
    · exact arrays_processQueue c _ (arrays_cacheMiss c addr (by simpa using hw) (hr _))

theorem arrays_phaseMemory {s : State} (h : s.Arrays) : (phaseMemory s).Arrays := by
  unfold phaseMemory
  refine andThen_induct (P := State.Arrays) (andThen_induct (P := State.Arrays) (arrays_storeClock h) fun _ => ?_) fun _ => ?_
  · exact arrays_processQueue _ _ (arrays_storeClock h)
  · exact arrays_processQueue _ _
      (andThen_induct (P := State.Arrays) (arrays_storeClock h) fun _ => arrays_processQueue _ _ (arrays_storeClock h))

/-- Only the memory, the caches and the parameters matter. -/
theorem arrays_congr {s t : State} (hc : t.cfg = s.cfg) (hm : t.store.mem = s.store.mem) (hi : t.icache = s.icache)
    (hd : t.dcache = s.dcache) (h : s.Arrays) : t.Arrays := by
  refine ⟨by rw [hm]; exact h.1, fun c => ?_⟩
  have := h.2 c
  cases c <;> simp only [State.cache, State.geometry, hc, hi, hd] at * <;> exact this

theorem arrays_stageM {s : State} (hw : 1 ≤ s.cfg.dcache.ways) (h : s.Arrays) : (stageM s).Arrays := by
  have hl : ∀ (i : Record) {u : State}, u.Arrays → (leaveMemory i u).Arrays := fun _ _ hu => arrays_congr rfl rfl rfl rfl hu
  have hwt : ∀ (i : Record) {u : State}, u.Arrays → (waitMemory i u).Arrays := fun _ _ hu => arrays_congr rfl rfl rfl rfl hu
  have hc : ∀ (i : Record) {u : State}, u.Arrays → (consumeBeat i u).Arrays := by
    intro i u hu
    unfold consumeBeat
    split
    · dsimp only
      split
      · exact hl _ (arrays_congr (s := u) rfl rfl rfl rfl hu)
      · exact hwt _ (arrays_congr (s := u) rfl rfl rfl rfl hu)
    · exact hwt _ hu
  have hs : ∀ i : Record, (sendBeat i s).Arrays := by
    intro i
    unfold sendBeat
    split
    · exact h
    · dsimp only
      have hk : ∀ kind a n v, (cacheSend .D kind a n v s).Arrays := fun _ _ _ _ => arrays_cacheSend .D _ _ _ _ hw h
      refine andThen_induct (P := State.Arrays) ?_ fun _ => ?_
      · split <;> exact hk _ _ _ _
      · refine arrays_congr (s := if i.isLoad then cacheSend .D .R (beatAddr s.cfg i s.mBeat) (beatSize s.cfg i) 0 s
          else cacheSend .D .W (beatAddr s.cfg i s.mBeat) (beatSize s.cfg i) (beatData s.cfg i s.mBeat) s) rfl rfl rfl rfl ?_
        split <;> exact hk _ _ _ _
  unfold stageM
  split
  · exact arrays_congr (s := s) rfl rfl rfl rfl h
  · split
    · unfold accessMemory
      split
      · exact arrays_raise h _
      · exact andThen_induct (P := State.Arrays) (hs _) fun _ => hc _ (hs _)
    · exact hl _ h

theorem arrays_stageF {s : State} (hw : 1 ≤ s.cfg.icache.ways) (h : s.Arrays) : (stageF s).Arrays := by
  have hr : (requestFetch s).Arrays := by
    unfold requestFetch
    split
    · exact h
    · split
      · exact arrays_raise h _
      · exact andThen_induct (P := State.Arrays) (arrays_cacheSend .I _ _ _ _ hw h) fun _ =>
          arrays_congr (s := cacheSend .I .R s.pc 4 0 s) rfl rfl rfl rfl (arrays_cacheSend .I _ _ _ _ hw h)
  unfold stageF
  split
  · exact h
  · refine andThen_induct (P := State.Arrays) hr fun _ => ?_
    unfold deliverFetch
    split
    · dsimp only
      split
      · split
        · exact arrays_raise (s := { requestFetch s with fetchPending := false }) (arrays_congr rfl rfl rfl rfl hr) _
        · exact arrays_congr (s := requestFetch s) rfl rfl rfl rfl hr
      · exact arrays_congr (s := requestFetch s) rfl rfl rfl rfl hr
    · exact arrays_congr (s := requestFetch s) rfl rfl rfl rfl hr

/-- What a cycle's stages leave has the shape of what they found. -/
theorem arrays_beforeAdvance {s : State} (hi : 1 ≤ s.cfg.icache.ways) (hd : 1 ≤ s.cfg.dcache.ways)
    (hf : (beforeAdvance s).fault = none) (h : s.Arrays) : (beforeAdvance s).Arrays := by
  rw [(beforeAdvance_next hf).2.2.2.2.2]
  refine arrays_stageF (by simpa using hi) ?_
  refine arrays_congr (s := stageM (stageW (phaseMemory s))) (by simp) (by simp) (by simp) (by simp) ?_
  refine arrays_stageM (by simpa using hd) ?_
  exact arrays_congr (s := phaseMemory s) (by simp) (by simp) (by simp) (by simp) (arrays_phaseMemory h)

end Sys2Proof.Machine
end

