-- ==== Sys2Proof/Laws/Cycle.lean ====
section
/-! SUPPORT. What one cycle leaves on the wires and in the pending slots, said once by cases. -/

namespace Sys2Proof.Machine

/-- What D hands down: nothing, or the record it held with its operands in it (R226). -/
def Issued (held out : Option Record) : Prop :=
  (held = none ∧ out = none) ∨ ∃ i a b, held = some i ∧ out = some { i with v1 := a, v2 := b }

/-- What M hands down: nothing, or the record it held with a load's value in it (R224). -/
def Passed (held out : Option Record) : Prop :=
  (held = none ∧ out = none) ∨ ∃ j i, held = some j ∧ out = some i ∧ i.pc = j.pc ∧ i.nextPc = j.nextPc ∧ i.rd = j.rd

/-- What F hands down: nothing, with no record created, or the record of a word decoded at `pc` (R228). -/
def Fetched (s : State) (out : Option Record) (created : Nat) : Prop :=
  (out = none ∧ created = s.counters.created) ∨
    ∃ w i, decodeRecord w s.pc = some i ∧ out = some i ∧ created = s.counters.created + 1

/-- A cycle without a fault that began with cleared wires is one of three. -/
inductive CycleOutcome (s b : State) : Prop where
  /-- the instruction in M waits: nothing moves (R252) -/
  | waits (j : Record) (cur : s.em.cur = some j)
      (wires : b.wires.stallEM = true ∧ b.wires.stallDE = true ∧ b.wires.stallFD = true)
      (clear : b.wires.dataHazard = false ∧ b.wires.flush = false)
      (mw : b.mw.pending = none) (em : b.em.pending = s.em.pending) (de : b.de.pending = s.de.pending)
      (fd : b.fd.pending = s.fd.pending) (pc : b.pc = s.pc) (created : b.counters.created = s.counters.created)
  /-- M and E move, D keeps its instruction for a data hazard (R251) -/
  | hazard (i : Record) (cur : s.fd.cur = some i)
      (wires : b.wires.stallEM = false ∧ b.wires.stallDE = false ∧ b.wires.stallFD = true ∧ b.wires.dataHazard = true)
      (flush : b.wires.flush = true → s.em.cur ≠ none)
      (mw : Passed s.em.cur b.mw.pending) (em : b.em.pending = s.de.cur.map execute) (de : b.de.pending = none)
      (fd : b.fd.pending = s.fd.pending) (pc : b.pc = s.pc) (created : b.counters.created = s.counters.created)
  /-- every stage moves -/
  | moves
      (wires : b.wires.stallEM = false ∧ b.wires.stallDE = false ∧ b.wires.stallFD = false ∧ b.wires.dataHazard = false)
      (flush : b.wires.flush = true → s.em.cur ≠ none)
      (mw : Passed s.em.cur b.mw.pending) (em : b.em.pending = s.de.cur.map execute) (de : Issued s.fd.cur b.de.pending)
      (fd : Fetched s b.fd.pending b.counters.created)

theorem cycle_outcome {s : State} (hw : s.wires = Wires.cleared) (hf : (beforeAdvance s).fault = none) :
    CycleOutcome s (beforeAdvance s) := by
  obtain ⟨-, -, h3, -, h5, hb⟩ := beforeAdvance_next hf
  rw [hb] at hf ⊢
  have hM := stageM_outcome h3
  have hE := stageE_outcome (stageM (stageW (phaseMemory s)))
  have hD := stageD_outcome h5
  have hF := stageF_outcome hf
  have hww : (stageW (phaseMemory s)).wires = Wires.cleared := by simp [hw]
  have hde : (stageM (stageW (phaseMemory s))).de = s.de := by simp
  have hem : (stageM (stageW (phaseMemory s))).em = s.em := by simp
  have hfdE : (stageE (stageM (stageW (phaseMemory s)))).fd = s.fd := by simp
  have hdeE : (stageE (stageM (stageW (phaseMemory s)))).de = s.de := by simp
  have hfdD : (stageD (stageE (stageM (stageW (phaseMemory s))))).fd = s.fd := by simp
  have hpcD : (stageD (stageE (stageM (stageW (phaseMemory s))))).pc = s.pc := by simp
  have hcrD : (stageD (stageE (stageM (stageW (phaseMemory s))))).counters.created = s.counters.created := by
    simp only [stageD_counters, stageE_counters, stageM_counters]
    rw [stageW_eq]
    simp
  have hmw : (stageF (stageD (stageE (stageM (stageW (phaseMemory s)))))).mw.pending =
      (stageM (stageW (phaseMemory s))).mw.pending := by simp
  have hemF : (stageF (stageD (stageE (stageM (stageW (phaseMemory s)))))).em =
      (stageE (stageM (stageW (phaseMemory s)))).em := by simp
  have hdeF : (stageF (stageD (stageE (stageM (stageW (phaseMemory s)))))).de =
      (stageD (stageE (stageM (stageW (phaseMemory s))))).de := by simp
  -- M waits, or it moves and leaves the stall flags cleared
  have mcases : (∃ j, s.em.cur = some j ∧ (stageM (stageW (phaseMemory s))).wires = structuralStall j Wires.cleared ∧
        (stageM (stageW (phaseMemory s))).mw.pending = none) ∨
      (Passed s.em.cur (stageM (stageW (phaseMemory s))).mw.pending ∧
        (stageM (stageW (phaseMemory s))).wires.stallEM = false ∧
        (stageM (stageW (phaseMemory s))).wires.stallDE = false ∧
        (stageM (stageW (phaseMemory s))).wires.stallFD = false ∧
        (stageM (stageW (phaseMemory s))).wires.dataHazard = false ∧
        ((stageM (stageW (phaseMemory s))).wires.flush = true → s.em.cur ≠ none)) := by
    cases hM with
    | bubble h1 h2 h4 =>
      right
      rw [h2, hww, h4]
      have h1 : s.em.cur = none := by simpa using h1
      exact ⟨.inl ⟨h1, rfl⟩, rfl, rfl, rfl, rfl, fun h => by cases h⟩
    | leaves j i h1 h2 h4 h5 h6 h7 =>
      right
      have h1 : s.em.cur = some j := by simpa using h1
      rw [h7, h6, leaveMemory_rest, hww]
      exact ⟨.inr ⟨j, i, h1, rfl, h2, h4, h5⟩, rfl, rfl, rfl, rfl, fun _ => by simp [h1]⟩
    | waits j h1 h2 h4 => exact .inl ⟨j, by simpa using h1, by rw [h2, hww], h4⟩
  rcases mcases with ⟨j, hj, hwj, hmj⟩ | ⟨hp, m1, m2, m3, m4, m5⟩
  · have e1 : stageE (stageM (stageW (phaseMemory s))) = stageM (stageW (phaseMemory s)) := by
      simp [stageE, hwj, structuralStall]
    have e2 : stageD (stageM (stageW (phaseMemory s))) = stageM (stageW (phaseMemory s)) := by
      simp [stageD, hwj, structuralStall]
    have e3 : stageF (stageM (stageW (phaseMemory s))) = stageM (stageW (phaseMemory s)) := by
      simp [stageF, hwj, structuralStall]
    rw [e1, e2] at hcrD
    rw [e1, e2, e3]
    refine .waits j hj ?_ ?_ hmj (by simp) (by simp) (by simp) (by simp) hcrD
    · rw [hwj]; exact ⟨rfl, rfl, rfl⟩
    · rw [hwj]; exact ⟨rfl, rfl⟩
  · have hEw : (stageE (stageM (stageW (phaseMemory s)))).wires =
        { (stageM (stageW (phaseMemory s))).wires with
            maskE := (stageE (stageM (stageW (phaseMemory s)))).wires.maskE,
            bypE := (stageE (stageM (stageW (phaseMemory s)))).wires.bypE } := by
      cases hE with
      | stalled h _ => rw [m1] at h; cases h
      | bubble _ _ h _ => rw [h]
      | executes i _ _ h _ => exact h
    have hEp : (stageE (stageM (stageW (phaseMemory s)))).em.pending = s.de.cur.map execute := by
      cases hE with
      | stalled h _ => rw [m1] at h; cases h
      | bubble _ h _ h' => rw [hde] at h; rw [h', h]; rfl
      | executes i _ h _ h' => rw [hde] at h; rw [h', h]; rfl
    have f1 : ∀ (b : State), b.wires.flush = (stageM (stageW (phaseMemory s))).wires.flush →
        b.wires.flush = true → s.em.cur ≠ none := fun b hb h => m5 (hb ▸ h)
    have hWF : (stageF (stageD (stageE (stageM (stageW (phaseMemory s)))))).wires =
        (stageD (stageE (stageM (stageW (phaseMemory s))))).wires := by simp
    have fetched : (stageD (stageE (stageM (stageW (phaseMemory s))))).wires.stallFD = false →
        Fetched s (stageF (stageD (stageE (stageM (stageW (phaseMemory s)))))).fd.pending
          (stageF (stageD (stageE (stageM (stageW (phaseMemory s)))))).counters.created := by
      intro hs
      cases hF with
      | stalled h _ => rw [hs] at h; cases h
      | bubble _ h _ h' => exact .inl ⟨h, h'.trans hcrD⟩
      | delivers w i _ h h' _ h'' => rw [hpcD] at h; rw [hcrD] at h''; exact .inr ⟨w, i, h, h', h''⟩
    cases hD with
    | stalled h _ => rw [hEw] at h; simp [m1] at h
    | bubble _ h h' hd =>
      rw [hfdE] at h
      refine .moves ?_ (f1 _ ?_) (by rw [hmw]; exact hp) (by rw [hemF]; exact hEp) ?_ (fetched ?_)
      · rw [hWF, h', hEw]; exact ⟨m1, m2, m3, m4⟩
      · rw [hWF, h', hEw]
      · rw [hdeF, hd]; exact .inl ⟨h, rfl⟩
      · rw [h', hEw]; exact m3
    | hazard i _ h _ h' hd =>
      rw [hfdE] at h
      have hstall : (stageD (stageE (stageM (stageW (phaseMemory s))))).wires.stallFD = true := by rw [h']
      have eF : stageF (stageD (stageE (stageM (stageW (phaseMemory s))))) =
          stageD (stageE (stageM (stageW (phaseMemory s)))) := by
        unfold stageF
        rw [if_pos hstall]
      refine .hazard i h ?_ (f1 _ ?_) (by rw [hmw]; exact hp) (by rw [hemF]; exact hEp) (by rw [hdeF]; exact hd) ?_ ?_ ?_
      · rw [hWF, h', hEw]; exact ⟨m1, m2, rfl, rfl⟩
      · rw [hWF, h', hEw]
      · rw [eF, hfdD]
      · rw [eF, hpcD]
      · rw [eF, hcrD]
    | issues i x y c _ h _ _ _ h' hd =>
      rw [hfdE] at h
      refine .moves ?_ (f1 _ ?_) (by rw [hmw]; exact hp) (by rw [hemF]; exact hEp) ?_ (fetched ?_)
      · rw [hWF, h', hEw]; exact ⟨m1, m2, m3, m4⟩
      · rw [hWF, h', hEw]
      · rw [hdeF, hd]; exact .inr ⟨i, x, y, h, rfl⟩
      · rw [h', hEw]; exact m3

/-! ## Small facts about a cycle and about an instruction executed alone -/

/-- A legal configuration has at least one way in each cache (R7). -/
theorem legal_ways {c : Config} (h : c.legal = true) : 1 ≤ c.icache.ways ∧ 1 ≤ c.dcache.ways := by
  simp [Config.legal, Geometry.legal] at h
  omega

/-- W never touches x0 (R21). -/
theorem stageW_regs_zero (s : State) : (stageW s).regs[0] = s.regs[0] := by
  unfold stageW
  split
  · rfl
  · exact writeDest_regs_zero _ _ _

/-- Before the latches advance a cycle has changed only two counters: W retires, F creates (R285). -/
theorem beforeAdvance_counters {s : State} (hf : (beforeAdvance s).fault = none) :
    (beforeAdvance s).counters =
      { s.counters with retired := s.counters.retired + slotCount s.mw.cur,
                        created := (beforeAdvance s).counters.created } := by
  rw [(beforeAdvance_next hf).2.2.2.2.2]
  have hF := stageF_fetchPart (stageD (stageE (stageM (stageW (phaseMemory s)))))
  unfold State.FetchPart at hF
  rw [hF]
  simp only [stageD_counters, stageE_counters, stageM_counters]
  rw [stageW_eq]
  simp

/-- What a cycle leaves alone until the latches advance. -/
theorem beforeAdvance_rest {s : State} (hf : (beforeAdvance s).fault = none) :
    (beforeAdvance s).cfg = s.cfg ∧ (beforeAdvance s).fd.cur = s.fd.cur ∧ (beforeAdvance s).de.cur = s.de.cur ∧
      (beforeAdvance s).em.cur = s.em.cur ∧ (beforeAdvance s).regs[0] = s.regs[0] := by
  rw [(beforeAdvance_next hf).2.2.2.2.2]
  refine ⟨by simp, by simp, by simp, by simp, ?_⟩
  simp only [stageF_regs, stageD_regs, stageE_regs, stageM_regs]
  rw [stageW_regs_zero]
  simp

/-- An instruction executed alone changes registers but x0, `pc`, and, if it stores, memory bytes and the data and dirty
bits of data-cache lines. -/
theorem exec_rest {i : Instr} {s t : State} (h : exec i s = .next t) :
    t = { s with regs := t.regs, pc := t.pc, store := { s.store with mem := t.store.mem }, dcache := t.dcache } ∧
      t.regs[0] = s.regs[0] ∧ s.dcache.SameTags t.dcache ∧
      (Memory.wf s.store.mem = true → Memory.wf t.store.mem = true) ∧ (s.dcache.dirtyValid → t.dcache.dirtyValid) := by
  obtain ⟨a, b, -, -, h⟩ := exec_next h
  have hc : ∀ (r : Record) (u : State), (commit r u).regs[0] = u.regs[0] := fun r u => by
    rw [commit_regs]
    exact writeDest_regs_zero _ _ _
  have hk : ∀ r : Record, commit r s = { s with regs := (commit r s).regs, pc := (commit r s).pc } := fun r => by
    rw [commit_eq]
  unfold access at h
  split at h
  · split at h
    · cases h
    · split at h
      · cases h
      · split at h
        · cases h
          exact ⟨by rw [hk], hc _ _, by rw [hk]; exact sameTags_refl _, by rw [hk]; exact id, by rw [hk]; exact id⟩
        · cases h
          refine ⟨by rw [commit_eq, memWrite_eq], by rw [hc, memWrite_eq], ?_, ?_, ?_⟩
          · rw [commit_eq]
            exact memWrite_sameTags _ _ _ _
          · rw [commit_eq]
            exact fun h => memWrite_wf h _ _ _
          · rw [commit_eq]
            exact fun h => memWrite_dirtyValid h _ _ _
  · cases h
    exact ⟨by rw [hk], hc _ _, by rw [hk]; exact sameTags_refl _, by rw [hk]; exact id, by rw [hk]; exact id⟩

end Sys2Proof.Machine
end

