-- ==== Sys2Proof/Laws/MemorySystem.lean ====
section
/-! SUPPORT. Every operation of the memory system keeps the order of the queues, the store's slot and the tags
(spec/21_cache.md R107), and none of them raises a `ContentionFault` where the client asks a cache that is not busy for
bytes of one line (spec/60_exceptions.md R277). -/

namespace Sys2Proof.Machine

/-! ## What a legal configuration gives (R7) -/

/-- The facts about one cache's geometry that the operations need. -/
structure GeometryFits (g : Geometry) (fillBeat : Nat) : Prop where
  ways : 1 ≤ g.ways
  sets : 1 ≤ g.sets
  line : 1 ≤ g.lineSize
  four : g.lineSize % 4 = 0
  beats : fillBeat ∣ g.lineSize
  beat : 1 ≤ fillBeat

theorem legal_fits {s : State} (h : s.cfg.legal = true) (c : Client) : GeometryFits (s.geometry c) s.cfg.fillBeat := by
  have hb : ∀ n, isBeatWidth n = true → 1 ≤ n := fun n hn => by
    simp [isBeatWidth] at hn
    omega
  simp [Config.legal, Geometry.legal] at h
  obtain ⟨⟨⟨⟨⟨h1, h2⟩, h3⟩, h4⟩, h5⟩, h6⟩ := h
  have := hb _ h2
  cases c <;>
    refine ⟨?_, ?_, ?_, ?_, Nat.dvd_of_mod_eq_zero ?_, this⟩ <;> simp only [State.geometry] <;> omega

theorem setIndex_lt {g : Geometry} (h : 1 ≤ g.sets) (a : Nat) : setIndex g a < g.sets := Nat.mod_lt _ h

/-- The line address has the tag of every address of the line (R91). -/
theorem tagOf_lineBase {g : Geometry} (h : 1 ≤ g.lineSize) (a : Word) :
    tagOf g (lineBase g a).toNat = tagOf g a.toNat := by
  have h1 : a.toNat % g.lineSize ≤ a.toNat := Nat.mod_le _ _
  have h2 : (lineBase g a).toNat = a.toNat - a.toNat % g.lineSize := by
    unfold lineBase lineOffset
    have h3 : (BitVec.ofNat 32 (a.toNat % g.lineSize)).toNat = a.toNat % g.lineSize := by
      rw [BitVec.toNat_ofNat, Nat.mod_eq_of_lt (by have := a.isLt; omega)]
    rw [BitVec.toNat_sub_of_le (by rw [BitVec.le_def, h3]; exact h1), h3]
  unfold tagOf
  rw [h2, show a.toNat - a.toNat % g.lineSize = g.lineSize * (a.toNat / g.lineSize) by
    have := Nat.div_add_mod a.toNat g.lineSize
    omega, Nat.mul_div_cancel_left _ (by omega)]

/-! ## The order of the memory system -/

/-- Both queues are in order, the tags of a set differ, every dirty line is valid, and the store's slot agrees with both
caches. -/
structure State.Ordered (s : State) : Prop where
  queue : ∀ c, (s.cache c).queueOk (s.geometry c) s.cfg.fillBeat
  tags : ∀ c, (s.cache c).uniqueTags (s.geometry c)
  dirty : ∀ c, (s.cache c).dirtyValid
  slot : ∀ c, (s.cache c).beatOut = (s.store.owner == some c)
  free : s.store.owner = none → s.store.pending = false ∧ s.store.complete = false
  taken : s.store.owner ≠ none → s.store.pending = !s.store.complete
  counting : s.store.pending = true → 1 ≤ s.store.countdown

/-- The parts of the state the order looks at. -/
theorem ordered_congr {s t : State} (hc : t.cfg = s.cfg) (hs : t.store = s.store) (hi : t.icache = s.icache)
    (hd : t.dcache = s.dcache) (h : s.Ordered) : t.Ordered := by
  have hk : ∀ c, t.cache c = s.cache c := fun c => by cases c <;> simp only [State.cache, hi, hd]
  have hg : ∀ c, t.geometry c = s.geometry c := fun c => by cases c <;> simp only [State.geometry, hc]
  refine ⟨fun c => ?_, fun c => ?_, fun c => ?_, fun c => ?_, ?_, ?_, ?_⟩
  · rw [hk, hg, hc]; exact h.queue c
  · rw [hk, hg]; exact h.tags c
  · rw [hk]; exact h.dirty c
  · rw [hk, hs]; exact h.slot c
  · rw [hs]; exact h.free
  · rw [hs]; exact h.taken
  · rw [hs]; exact h.counting

theorem ordered_raise {s : State} (f : Fault) (h : s.Ordered) : (s.raise f).Ordered :=
  ordered_congr (by simp) (by simp) (by simp) (by simp) h

/-- `MemoryOk` says the order and more. -/
theorem memoryOk_ordered {s : State} (h : s.MemoryOk) : s.Ordered where
  queue := fun c => by cases c <;> [exact h.icache; exact h.dcache]
  tags := fun c => by cases c <;> [exact h.itags; exact h.dtags]
  dirty := fun c => by cases c <;> [exact h.idirty; exact h.ddirty]
  slot := fun c => by cases c <;> [exact h.slot.fetch; exact h.slot.data]
  free := h.slot.free
  taken := h.slot.taken
  counting := h.slot.counting

/-! ## Tags and queues that a change of data leaves alone -/

theorem uniqueTags_of_same {g : Geometry} {k k' : Cache} (ha : ∀ set way, (k'.line set way).addr = (k.line set way).addr)
    (hv : ∀ set way, (k'.line set way).valid = true → (k.line set way).valid = true) (h : k.uniqueTags g) :
    k'.uniqueTags g := by
  intro set hs i j hi hj h1 h2 h3
  rw [ha, ha] at h3
  exact h set hs i j hi hj (hv _ _ h1) (hv _ _ h2) h3

theorem fillServes_of_same {g : Geometry} {k k' : Cache} {t t' : Transaction} (hr : k'.req.addr = k.req.addr)
    (hn : k'.req.n = k.req.n) (ha : ∀ set way, (k'.line set way).addr = (k.line set way).addr)
    (hv : ∀ set way, (k'.line set way).valid = (k.line set way).valid) (hk : t'.kind = t.kind) (hs : t'.set = t.set)
    (hw : t'.way = t.way) (hta : t'.addr = t.addr) (h : FillServes g k t) : FillServes g k' t' := by
  refine ⟨hk.trans h.kind, by rw [hs, hr]; exact h.set, by rw [hw]; exact h.way, by rw [hta, hr]; exact h.addr, ?_,
    by rw [hr, hn]; exact h.inLine⟩
  intro i hi
  have := h.absent i hi
  unfold lineHits at this ⊢
  rw [hr, hs, ha, hv]
  exact this

/-- The queue's order survives a change of data, of the beat count within the line, and of whether a beat is out. -/
theorem queueOk_of_same {g : Geometry} {fb : Nat} {k k' : Cache} {t t' : Transaction} {rest : List Transaction}
    (hq : k.queue = t :: rest) (hq' : k'.queue = t' :: rest) (hr : k'.req = k.req)
    (ha : ∀ set way, (k'.line set way).addr = (k.line set way).addr)
    (hv : ∀ set way, (k'.line set way).valid = (k.line set way).valid) (hk : t'.kind = t.kind) (hs : t'.set = t.set)
    (hw : t'.way = t.way) (hta : t'.addr = t.addr) (hu : t'.underWay g fb) (h : k.queueOk g fb) : k'.queueOk g fb := by
  have hb : k'.busy = k.busy := by simp only [Cache.busy, hr]
  unfold Cache.queueOk at h ⊢
  rw [hq] at h
  rw [hq']
  match rest, h with
  | [], h => exact ⟨hb.trans h.1, fillServes_of_same (by rw [hr]) (by rw [hr]) ha hv hk hs hw hta h.2.1, hu⟩
  | [f], h =>
    obtain ⟨h1, h2, h3, h4, h5, h6, h7⟩ := h
    exact ⟨hb.trans h1, fillServes_of_same (by rw [hr]) (by rw [hr]) ha hv rfl rfl rfl rfl h2, hk.trans h3, hs.trans h4,
      hw.trans h5, hu, h7⟩

/-- A busy cache with the fill that serves its request is in order. -/
theorem queueOk_one {g : Geometry} {fb : Nat} {k : Cache} {f : Transaction} (hq : k.queue = [f]) (hb : k.busy = true)
    (hf : FillServes g k f) (hu : f.underWay g fb) : k.queueOk g fb := by
  unfold Cache.queueOk
  rw [hq]
  exact ⟨hb, hf, hu⟩

/-- A busy cache with a write-back before the fill that serves its request is in order. -/
theorem queueOk_two {g : Geometry} {fb : Nat} {k : Cache} {w f : Transaction} (hq : k.queue = [w, f])
    (hb : k.busy = true) (hf : FillServes g k f)
    (hw : w.kind = .WB ∧ w.set = f.set ∧ w.way = f.way ∧ w.underWay g fb ∧ f.done = 0 ∧ f.outstanding = false) :
    k.queueOk g fb := by
  unfold Cache.queueOk
  rw [hq]
  exact ⟨hb, hf, hw⟩

/-- A cache that is not busy has an empty queue (R107). -/
theorem queueOk_idle {g : Geometry} {fb : Nat} {k : Cache} (h : k.queueOk g fb) (hb : k.busy = false) : k.queue = [] := by
  unfold Cache.queueOk at h
  split at h
  · assumption
  · rw [hb] at h; cases h.1
  · rw [hb] at h; cases h.1
  · exact h.elim

/-! ## Changing one cache and the slot -/

/-- To see that an operation of cache `c` keeps the order it is enough to look at `c` and the slot: the other cache stays,
and the slot is not taken from it nor given to it. -/
theorem ordered_update {s t : State} (c : Client) (h : s.Ordered) (hc : t.cfg = s.cfg)
    (ho : t.cache c.other = s.cache c.other)
    (hown : t.store.owner = s.store.owner ∨
      (s.store.owner = none ∨ s.store.owner = some c) ∧ (t.store.owner = none ∨ t.store.owner = some c))
    (queue : (t.cache c).queueOk (t.geometry c) t.cfg.fillBeat) (tags : (t.cache c).uniqueTags (t.geometry c))
    (dirty : (t.cache c).dirtyValid) (slot : (t.cache c).beatOut = (t.store.owner == some c))
    (free : t.store.owner = none → t.store.pending = false ∧ t.store.complete = false)
    (taken : t.store.owner ≠ none → t.store.pending = !t.store.complete)
    (counting : t.store.pending = true → 1 ≤ t.store.countdown) : t.Ordered := by
  have hg : ∀ d, t.geometry d = s.geometry d := fun d => by cases d <;> simp only [State.geometry, hc]
  have hcase : ∀ d : Client, d = c ∨ d = c.other := fun d => by cases c <;> cases d <;> simp [Client.other]
  refine ⟨fun d => ?_, fun d => ?_, fun d => ?_, fun d => ?_, free, taken, counting⟩
  · rcases hcase d with rfl | rfl
    · exact queue
    · rw [ho, hg, hc]; exact h.queue _
  · rcases hcase d with rfl | rfl
    · exact tags
    · rw [ho, hg]; exact h.tags _
  · rcases hcase d with rfl | rfl
    · exact dirty
    · rw [ho]; exact h.dirty _
  · rcases hcase d with rfl | rfl
    · exact slot
    · rw [ho, h.slot]
      rcases hown with e | ⟨e | e, e' | e'⟩
      · rw [e]
      all_goals rw [e, e']
      all_goals cases c <;> rfl

theorem noContention_of_none {s : State} (h : s.fault = none) :
    ∀ cycle busyUnit, s.fault ≠ some (.contention cycle busyUnit) := fun _ _ he => by
  rw [h] at he
  cases he

/-! ## The store (R69, R70) -/

/-- The store's clock keeps the order unless it faults, and its only fault is `OutOfRangeFault`. -/
theorem ordered_storeClock {s : State} (h0 : s.fault = none) (h : s.Ordered) :
    ((storeClock s).fault = none → (storeClock s).Ordered) ∧
      ∀ cycle busyUnit, (storeClock s).fault ≠ some (.contention cycle busyUnit) := by
  have hk : ∀ st : Store, st.owner = s.store.owner →
      (st.owner = none → st.pending = false ∧ st.complete = false) → (st.owner ≠ none → st.pending = !st.complete) →
      (st.pending = true → 1 ≤ st.countdown) → ({ s with store := st } : State).Ordered := by
    intro st h1 h2 h3 h4
    refine ⟨fun c => ?_, fun c => ?_, fun c => ?_, fun c => ?_, h2, h3, h4⟩
    · have := h.queue c; cases c <;> exact this
    · have := h.tags c; cases c <;> exact this
    · have := h.dirty c; cases c <;> exact this
    · have := h.slot c
      rw [← h1] at this
      cases c <;> exact this
  unfold storeClock
  split
  · rename_i hp
    have hown : s.store.owner ≠ none := fun e => by rw [(h.free e).1] at hp; cases hp
    have hc : s.store.complete = false := by
      have := h.taken hown
      rw [hp] at this
      simpa using this.symm
    dsimp only
    split
    · split
      · refine ⟨fun hf => absurd hf (raise_fault_ne_none _ _), fun _ _ he => ?_⟩
        rcases raise_fault_cases he with he | he
        · simp [h0] at he
        · cases he
      · unfold storePerform
        split
        · exact ⟨fun _ => hk _ rfl (fun e => absurd e hown) (fun _ => rfl) (fun e => by cases e), fun _ _ he => by simp [h0] at he⟩
        · exact ⟨fun _ => hk _ rfl (fun e => absurd e hown) (fun _ => rfl) (fun e => by cases e), fun _ _ he => by simp [h0] at he⟩
    · refine ⟨fun _ => hk _ rfl (fun e => absurd e hown) (fun _ => ?_) (fun _ => ?_), fun _ _ he => by simp [h0] at he⟩
      · simp only [hp, hc]; rfl
      · dsimp only; omega
  · exact ⟨fun _ => h, fun _ _ he => by simp [h0] at he⟩

/-! ## The request (R93) -/

/-- A request inside one line is performed: the line keeps its address and its valid bit, the request is complete, nothing
else changes, and on a valid line every dirty line stays valid. -/
theorem performRequest_inLine {c : Client} {set way : Nat} {s : State}
    (h : lineOffset (s.geometry c) (s.cache c).req.addr.toNat + (s.cache c).req.n ≤ (s.geometry c).lineSize) :
    ∃ k, performRequest c set way s = s.withCache c k ∧
      (∀ set way, (k.line set way).addr = ((s.cache c).line set way).addr) ∧
      (∀ set way, (k.line set way).valid = ((s.cache c).line set way).valid) ∧
      k.queue = (s.cache c).queue ∧ k.fifo = (s.cache c).fifo ∧ k.req.complete = true ∧
      k.req.active = (s.cache c).req.active ∧
      (((s.cache c).line set way).valid = true → (s.cache c).dirtyValid → k.dirtyValid) := by
  unfold performRequest
  dsimp only
  rw [if_neg (by omega)]
  split
  · exact ⟨_, rfl, fun _ _ => rfl, fun _ _ => rfl, rfl, rfl, rfl, rfl, fun _ h => dirtyValid_congr rfl h⟩
  · have e := sameTags_setLine (s.cache c) set way
      (ln := { (s.cache c).line set way with
        data := setLineBytes ((s.cache c).line set way).data
          (lineOffset (s.geometry c) (s.cache c).req.addr.toNat) (bytesLE (s.cache c).req.value (s.cache c).req.n),
        dirty := true }) rfl rfl (setLineBytes_length _ _ _)
    exact ⟨_, rfl, e.addr, e.valid, rfl, rfl, rfl, rfl, fun hv h =>
      dirtyValid_congr rfl (dirtyValid_setLine h set way (ln := { (s.cache c).line set way with data := _, dirty := true })
        fun _ => hv)⟩

/-! ## One beat (R100, R101) -/

/-- Issuing the head's next beat keeps the order and raises nothing. -/
theorem ordered_issueBeat {c : Client} {t : Transaction} {rest : List Transaction} {s : State}
    (hl : s.cfg.legal = true) (h0 : s.fault = none) (ht : t.outstanding = false)
    (h : (s.withQueue c (t :: rest)).Ordered) :
    (issueBeat c t rest s).Ordered ∧ (issueBeat c t rest s).fault = none := by
  have hq := h.queue c
  have hslot := h.slot c
  simp only [withQueue_cache, withQueue_geometry, withQueue_cfg, withQueue_store] at hq hslot
  unfold issueBeat
  split
  · exact ⟨h, by simp [h0]⟩
  · rename_i hown
    have hlat : 1 ≤ s.cfg.latency := by
      simp [Config.legal] at hl
      omega
    have hfirst : t.underWay (s.geometry c) s.cfg.fillBeat := by
      unfold Cache.queueOk at hq
      dsimp only at hq
      match rest, hq with
      | [], hq => exact hq.2.2
      | [f], hq => exact hq.2.2.2.2.2.1
    have hout : ((s.cache c).queue = (s.cache c).queue) ∧ (rest.any fun t => t.outstanding) = false := by
      refine ⟨rfl, ?_⟩
      unfold Cache.beatOut at hslot
      rw [hown] at hslot
      simpa [ht] using hslot
    have key : ∀ st : Store, st.owner = some c → st.pending = true → st.complete = false → st.countdown = s.cfg.latency →
        (({ s with store := st } : State).withQueue c ({ t with outstanding := true } :: rest)).Ordered := by
      intro st h1 h2 h3 h4
      refine ordered_update c h (by simp) ?_ (.inr ⟨.inl (by simpa using hown), .inr (by simpa using h1)⟩) ?_ ?_ ?_ ?_ ?_ ?_ ?_
      · rw [withQueue_cache_other, withQueue_cache_other]; cases c <;> rfl
      · simp only [withQueue_cache, withQueue_geometry, withQueue_cfg]
        have e : ({ s with store := st } : State).cache c = s.cache c := by cases c <;> rfl
        have e' : ({ s with store := st } : State).geometry c = s.geometry c := by cases c <;> rfl
        rw [e, e']
        exact queueOk_of_same (k := { s.cache c with queue := t :: rest }) rfl rfl rfl (fun _ _ => rfl) (fun _ _ => rfl)
          rfl rfl rfl rfl hfirst hq
      · have := h.tags c
        simp only [withQueue_cache, withQueue_geometry] at this ⊢
        cases c <;> exact this
      · have := h.dirty c
        simp only [withQueue_cache] at this ⊢
        cases c <;> exact dirtyValid_congr rfl this
      · simp [Cache.beatOut, h1]
      · simp [h1]
      · simp [h2, h3]
      · simp only [withQueue_store, h4]
        exact fun _ => hlat
    dsimp only
    split
    · unfold storeSend
      rw [hown]
      dsimp only
      rw [andThen_of_none (by exact h0)]
      exact ⟨key _ rfl rfl rfl rfl, by simp [h0]⟩
    · unfold storeSend
      rw [hown]
      dsimp only
      rw [andThen_of_none (by exact h0)]
      exact ⟨key _ rfl rfl rfl rfl, by simp [h0]⟩

theorem withQueue_self {s : State} {c : Client} {q : List Transaction} (h : (s.cache c).queue = q) : s.withQueue c q = s := by
  subst h
  cases c <;> rfl

/-- A beat inside the line: the beat count stays a whole number of beats (R102). -/
theorem underWay_next {g : Geometry} {fb : Nat} (hg : GeometryFits g fb) {t t' : Transaction} (h : t.underWay g fb)
    (hd : t'.done = t.done + fb) (hn : t'.done ≠ g.lineSize) : t'.underWay g fb := by
  obtain ⟨⟨a, ha⟩, hlt⟩ := h
  obtain ⟨b, hb⟩ := hg.beats
  have hfb := hg.beat
  unfold Transaction.underWay
  rw [hd] at hn ⊢
  refine ⟨⟨a + 1, by rw [ha]; ring⟩, ?_⟩
  rw [ha, hb] at hlt hn ⊢
  have h1 : a < b := Nat.lt_of_mul_lt_mul_left hlt
  have h2 : fb * a + fb = fb * (a + 1) := by ring
  have h3 : a + 1 ≠ b := fun e => hn (by rw [h2, e])
  rw [h2]
  exact Nat.mul_lt_mul_of_pos_left (by omega) (by omega)

/-- What the collection of a beat leaves (R101): the slot is free, and in the cache only a line's data changed. -/
theorem collectBeat_eq (c : Client) (t : Transaction) (s : State) :
    ∃ k, collectBeat c t s = { s.withCache c k with store := { s.store with owner := none, complete := false } } ∧
      (s.cache c).SameTags k ∧ ((s.cache c).dirtyValid → k.dirtyValid) := by
  unfold collectBeat
  dsimp only
  split
  · exact ⟨_, rfl, sameTags_setLine _ _ _ rfl rfl (setLineBytes_length _ _ _), fun h => dirtyValid_setLine h _ _ (h _ _)⟩
  · exact ⟨_, rfl, sameTags_refl _, id⟩

/-- A collected beat after which the head is not done leaves the order, with the head's new count. -/
theorem ordered_collectBeat {c : Client} {t t' : Transaction} {rest : List Transaction} {s : State}
    (hl : s.cfg.legal = true) (h : s.Ordered) (hq : (s.cache c).queue = t :: rest) (hout : t.outstanding = true)
    (hc : s.store.complete = true) (ht : t' = { t with done := t.done + s.cfg.fillBeat, outstanding := false })
    (hn : t'.done ≠ (s.geometry c).lineSize) : ((collectBeat c t s).withQueue c (t' :: rest)).Ordered := by
  obtain ⟨k, he, hk, hdv⟩ := collectBeat_eq c t s
  have hown : s.store.owner = some c := by
    have := h.slot c
    unfold Cache.beatOut at this
    rw [hq] at this
    simpa [hout] using this.symm
  have hpend : s.store.pending = false := by
    have := h.taken (by rw [hown]; simp)
    rw [hc] at this
    simpa using this
  have hqk := h.queue c
  have hu : t.underWay (s.geometry c) s.cfg.fillBeat ∧ (rest.any fun t => t.outstanding) = false := by
    unfold Cache.queueOk at hqk
    rw [hq] at hqk
    match rest, hqk with
    | [], hqk => exact ⟨hqk.2.2, rfl⟩
    | [f], hqk => exact ⟨hqk.2.2.2.2.2.1, by simp [hqk.2.2.2.2.2.2.2]⟩
  have hcache : (collectBeat c t s).cache c = k := by rw [he]; cases c <;> rfl
  have hgeo : (collectBeat c t s).geometry c = s.geometry c := by rw [he]; cases c <;> rfl
  have hcfg : (collectBeat c t s).cfg = s.cfg := by rw [he]; simp
  have hst : (collectBeat c t s).store = { s.store with owner := none, complete := false } := by rw [he]
  refine ordered_update c h (by simp [hcfg]) ?_ (.inr ⟨.inr hown, .inl (by simp [hst])⟩) ?_ ?_ ?_ ?_ ?_ ?_ ?_
  · rw [withQueue_cache_other, collectBeat_other]
  · simp only [withQueue_cache, withQueue_geometry, withQueue_cfg, hcache, hgeo, hcfg]
    exact queueOk_of_same (k := s.cache c) (k' := { k with queue := t' :: rest }) hq rfl hk.req hk.addr hk.valid
      (by rw [ht]) (by rw [ht]) (by rw [ht]) (by rw [ht])
      (underWay_next (legal_fits hl c) hu.1 (by rw [ht]) hn) hqk
  · simp only [withQueue_cache, withQueue_geometry, hcache, hgeo]
    exact uniqueTags_of_same (k := s.cache c) hk.addr (fun a b hv => by rw [← hk.valid]; exact hv) (h.tags c)
  · simp only [withQueue_cache, hcache]
    exact dirtyValid_congr rfl (hdv (h.dirty c))
  · simp only [withQueue_cache, withQueue_store, hst]
    unfold Cache.beatOut
    simp only [List.any_cons, hu.2, Bool.or_false]
    rw [ht]
    rfl
  · simp [hst, hpend]
  · simp [hst]
  · simp [hst, hpend]

/-- A write-back that has moved its line retires: the fill behind it is the head (R102). -/
theorem ordered_writtenBack {c : Client} {t : Transaction} {rest : List Transaction} {s : State}
    (h : s.Ordered) (hq : (s.cache c).queue = t :: rest) (hout : t.outstanding = true) (hc : s.store.complete = true)
    (hw : t.kind = .WB) (hl : s.cfg.legal = true) : ((collectBeat c t s).withQueue c rest).Ordered := by
  obtain ⟨k, he, hk, hdv⟩ := collectBeat_eq c t s
  have hown : s.store.owner = some c := by
    have := h.slot c
    unfold Cache.beatOut at this
    rw [hq] at this
    simpa [hout] using this.symm
  have hpend : s.store.pending = false := by
    have := h.taken (by rw [hown]; simp)
    rw [hc] at this
    simpa using this
  have hcache : (collectBeat c t s).cache c = k := by rw [he]; cases c <;> rfl
  have hgeo : (collectBeat c t s).geometry c = s.geometry c := by rw [he]; cases c <;> rfl
  have hcfg : (collectBeat c t s).cfg = s.cfg := by rw [he]; simp
  have hst : (collectBeat c t s).store = { s.store with owner := none, complete := false } := by rw [he]
  have hqk := h.queue c
  have hg := legal_fits hl c
  have hrest : ({ k with queue := rest } : Cache).queueOk (s.geometry c) s.cfg.fillBeat ∧
      (rest.any fun t => t.outstanding) = false := by
    unfold Cache.queueOk at hqk
    rw [hq] at hqk
    match rest, hqk with
    | [], hqk => have := hqk.2.1.kind; rw [hw] at this; cases this
    | [f], hqk =>
      obtain ⟨h1, h2, -, -, -, -, h7, h8⟩ := hqk
      refine ⟨⟨?_, fillServes_of_same (k := s.cache c) (k' := { k with queue := [f] }) (by simp only [hk.req])
        (by simp only [hk.req]) hk.addr hk.valid rfl rfl rfl rfl h2, ?_⟩, by simp [h8]⟩
      · simpa only [Cache.busy, hk.req] using h1
      · unfold Transaction.underWay
        rw [h7]
        exact ⟨Nat.dvd_zero _, by have := hg.line; omega⟩
  refine ordered_update c h (by simp [hcfg]) ?_ (.inr ⟨.inr hown, .inl (by simp [hst])⟩) ?_ ?_ ?_ ?_ ?_ ?_ ?_
  · rw [withQueue_cache_other, collectBeat_other]
  · simp only [withQueue_cache, withQueue_geometry, withQueue_cfg, hcache, hgeo, hcfg]
    exact hrest.1
  · simp only [withQueue_cache, withQueue_geometry, hcache, hgeo]
    exact uniqueTags_of_same (k := s.cache c) hk.addr (fun a b hv => by rw [← hk.valid]; exact hv) (h.tags c)
  · simp only [withQueue_cache, hcache]
    exact dirtyValid_congr rfl (hdv (h.dirty c))
  · simp only [withQueue_cache, withQueue_store, hst]
    exact hrest.2
  · simp [hst, hpend]
  · simp [hst]
  · simp [hst, hpend]

/-- A fill that has moved its line makes it valid under its address and performs the request on it: the cache is no longer
busy, its queue is empty, and no fault is raised (R93, R102). -/
theorem ordered_filled {c : Client} {t t' : Transaction} {s : State} (hl : s.cfg.legal = true) (ha : s.Arrays)
    (h : s.Ordered) (hq : (s.cache c).queue = [t]) (hout : t.outstanding = true) (hc : s.store.complete = true)
    (ht : t' = { t with done := t.done + s.cfg.fillBeat, outstanding := false }) :
    let u := completeTransaction c t' ((collectBeat c t s).withQueue c [])
    u.Ordered ∧ u.fault = s.fault ∧ (u.cache c).queue = [] ∧ (u.cache c).busy = false := by
  obtain ⟨k, he, hk, hdv⟩ := collectBeat_eq c t s
  have hown : s.store.owner = some c := by
    have := h.slot c
    unfold Cache.beatOut at this
    rw [hq] at this
    simpa [hout] using this.symm
  have hpend : s.store.pending = false := by
    have := h.taken (by rw [hown]; simp)
    rw [hc] at this
    simpa using this
  have hqk := h.queue c
  have hg := legal_fits hl c
  unfold Cache.queueOk at hqk
  rw [hq] at hqk
  obtain ⟨hbusy, hfill, -⟩ := hqk
  have hcache : (collectBeat c t s).cache c = k := by rw [he]; cases c <;> rfl
  have hgeo : (collectBeat c t s).geometry c = s.geometry c := by rw [he]; cases c <;> rfl
  have hcfg : (collectBeat c t s).cfg = s.cfg := by rw [he]; simp
  have hst : (collectBeat c t s).store = { s.store with owner := none, complete := false } := by rw [he]
  have hfa : (collectBeat c t s).fault = s.fault := by rw [he]; simp
  dsimp only
  unfold completeTransaction
  have hkind : t'.kind = .FILL := by rw [ht]; exact hfill.kind
  rw [hkind]
  dsimp only
  simp only [withQueue_cache, hcache]
  -- the cache the request is performed on
  set k1 : Cache := ({ k with queue := [] } : Cache).setLine t'.set t'.way
    { ({ k with queue := [] } : Cache).line t'.set t'.way with addr := t'.addr, valid := true, dirty := false } with hk1
  have hin : lineOffset (((collectBeat c t s).withQueue c []).withCache c k1 |>.geometry c)
      ((((collectBeat c t s).withQueue c []).withCache c k1).cache c).req.addr.toNat +
      ((((collectBeat c t s).withQueue c []).withCache c k1).cache c).req.n ≤
      ((((collectBeat c t s).withQueue c []).withCache c k1).geometry c).lineSize := by
    simp only [withCache_geometry, withQueue_geometry, withCache_cache, hgeo]
    have : k1.req = (s.cache c).req := hk.req
    rw [this]
    exact hfill.inLine
  obtain ⟨k2, e2, a2, v2, q2, -, c2, act2, d2⟩ := performRequest_inLine (set := t'.set) (way := t'.way) hin
  rw [e2]
  simp only [withCache_cache] at a2 v2 q2 act2 d2
  have hq2 : k2.queue = [] := q2
  have hb2 : k2.busy = false := by simp [Cache.busy, c2]
  -- only the filled line differs
  have hshape := sameTags_shaped hk (ha.2 c)
  have hset : t'.set = setIndex (s.geometry c) (s.cache c).req.addr.toNat := by rw [ht]; exact hfill.set
  have hway : t'.way < (s.geometry c).ways := by rw [ht]; exact hfill.way
  have hslt : t'.set < k.lines.length := by rw [hset, hshape.1]; exact setIndex_lt hg.sets _
  have hrow : (k.lines.getD t'.set []).length = (s.geometry c).ways := by
    rw [List.getD_eq_getElem?_getD, List.getElem?_eq_getElem hslt]
    exact (hshape.2.1 _ (List.getElem_mem hslt)).1
  have hline : ∀ set way, k1.line set way =
      if set = t'.set ∧ way = t'.way then
        { k.line t'.set t'.way with addr := t'.addr, valid := true, dirty := false }
      else k.line set way := by
    intro set way
    rw [hk1, setLine_line]
    by_cases hcase : set = t'.set ∧ way = t'.way
    · rw [if_pos hcase, if_pos ⟨hcase.1, hcase.2, hslt, by rw [hrow]; exact hway⟩]
      rfl
    · rw [if_neg hcase, if_neg (fun e => hcase ⟨e.1, e.2.1⟩)]
      rfl
  refine ⟨?_, by simp [hfa], by simpa using hq2, by simpa using hb2⟩
  refine ordered_update c h (by simp [hcfg]) ?_ (.inr ⟨.inr hown, .inl (by simp [hst])⟩) ?_ ?_ ?_ ?_ ?_ ?_ ?_
  · rw [withCache_cache_other, withCache_cache_other, withQueue_cache_other, collectBeat_other]
  · simp only [withCache_cache]
    unfold Cache.queueOk
    rw [hq2]
    exact hb2
  · simp only [withCache_cache, withCache_geometry, withQueue_geometry, hgeo]
    refine uniqueTags_of_same a2 (fun a b hv => by rw [← v2]; exact hv) ?_
    -- no other valid line of its set has the filled line's tag
    have haddr : tagOf (s.geometry c) t'.addr.toNat = tagOf (s.geometry c) (s.cache c).req.addr.toNat := by
      rw [ht]
      dsimp only
      rw [hfill.addr, tagOf_lineBase hg.line]
    have habs : ∀ i, i < (s.geometry c).ways → (k.line t'.set i).valid = true →
        tagOf (s.geometry c) (k.line t'.set i).addr.toNat ≠ tagOf (s.geometry c) t'.addr.toNat := by
      intro i hi hv e
      have := hfill.absent i hi
      unfold lineHits at this
      rw [show t.set = t'.set by rw [ht], ← hk.addr, ← hk.valid, hv, e, haddr] at this
      simp at this
    have hk0 : k.uniqueTags (s.geometry c) :=
      uniqueTags_of_same (k := s.cache c) hk.addr (fun a b hv => by rw [← hk.valid]; exact hv) (h.tags c)
    intro set hs i j hi hj h1 h2 h3
    rw [hline, hline] at h3
    rw [hline] at h1 h2
    by_cases hI : set = t'.set ∧ i = t'.way <;> by_cases hJ : set = t'.set ∧ j = t'.way
    · exact hI.2.trans hJ.2.symm
    · rw [if_pos hI, if_neg hJ] at h3
      rw [if_neg hJ] at h2
      rw [hI.1] at h2 h3
      exact absurd h3.symm (habs j hj h2)
    · rw [if_neg hI, if_pos hJ] at h3
      rw [if_neg hI] at h1
      rw [hJ.1] at h1 h3
      exact absurd h3 (habs i hi h1)
    · rw [if_neg hI, if_neg hJ] at h3
      rw [if_neg hI] at h1
      rw [if_neg hJ] at h2
      exact hk0 set hs i j hi hj h1 h2 h3
  · simp only [withCache_cache]
    exact d2 (by rw [hline, if_pos ⟨rfl, rfl⟩])
      (dirtyValid_setLine (dirtyValid_congr rfl (hdv (h.dirty c))) _ _ (fun _ => rfl))
  · simp only [withCache_cache, withCache_store, withQueue_store, hst]
    unfold Cache.beatOut
    rw [hq2]
    rfl
  · simp [hst, hpend]
  · simp [hst]
  · simp [hst, hpend]

/-! ## The loop (R100) -/

/-- The loop keeps the order and raises nothing; a cache that is not busy stays so. -/
theorem ordered_processQueue (c : Client) (q : List Transaction) {s : State} (hl : s.cfg.legal = true)
    (h0 : s.fault = none) (ha : s.Arrays) (h : s.Ordered) (hq : (s.cache c).queue = q) :
    (processQueue c q s).Ordered ∧ (processQueue c q s).fault = none ∧
      ((s.cache c).busy = false → ((processQueue c q s).cache c).busy = false) := by
  induction q generalizing s with
  | nil =>
    unfold processQueue
    rw [withQueue_self hq]
    exact ⟨h, h0, id⟩
  | cons t rest ih =>
    have hqk := h.queue c
    have hbusy : (s.cache c).busy = true := by
      cases hb : (s.cache c).busy
      · rw [queueOk_idle hqk hb] at hq; cases hq
      · rfl
    have idle : ∀ {P : Prop}, (s.cache c).busy = false → P := fun hb => by rw [hbusy] at hb; cases hb
    unfold processQueue
    split
    · split
      · rename_i hout hc
        dsimp only
        split
        · rename_i hd
          unfold Cache.queueOk at hqk
          rw [hq] at hqk
          match rest, hqk with
          | [], hqk =>
            obtain ⟨h1, h2, h3, h4⟩ := ordered_filled hl ha h hq hout hc rfl
            rw [andThen_of_none (h2.trans h0)]
            have hl' : (completeTransaction c { t with done := t.done + s.cfg.fillBeat, outstanding := false }
                ((collectBeat c t s).withQueue c [])).cfg.legal = true := by
              rw [sameCore_cfg (completeTransaction_sameCore _ _ _), withQueue_cfg,
                sameCore_cfg (collectBeat_sameCore _ _ _)]
              exact hl
            have ha' := arrays_completeTransaction (arrays_withQueue (arrays_collectBeat ha c t) c []) c
              { t with done := t.done + s.cfg.fillBeat, outstanding := false }
            obtain ⟨k1, k2, -⟩ := ih hl' (h2.trans h0) ha' h1 h3
            exact ⟨k1, k2, fun hb => idle hb⟩
          | [f], hqk =>
            have hw : t.kind = .WB := hqk.2.2.1
            have hO := ordered_writtenBack h hq hout hc hw hl
            have e : completeTransaction c { t with done := t.done + s.cfg.fillBeat, outstanding := false }
                ((collectBeat c t s).withQueue c [f]) = (collectBeat c t s).withQueue c [f] := by
              unfold completeTransaction
              rw [show ({ t with done := t.done + s.cfg.fillBeat, outstanding := false } : Transaction).kind = .WB from hw]
            have hf : ((collectBeat c t s).withQueue c [f]).fault = none := by
              rw [withQueue_fault]
              obtain ⟨k, hk, -⟩ := collectBeat_eq c t s
              rw [hk]
              simpa using h0
            rw [e, andThen_of_none hf]
            have hl' : ((collectBeat c t s).withQueue c [f]).cfg.legal = true := by
              rw [withQueue_cfg, sameCore_cfg (collectBeat_sameCore _ _ _)]
              exact hl
            obtain ⟨k1, k2, -⟩ := ih hl' hf (arrays_withQueue (arrays_collectBeat ha c t) c [f]) hO (by simp)
            exact ⟨k1, k2, fun hb => idle hb⟩
        · rename_i hd
          have hO := ordered_collectBeat (t' := { t with done := t.done + s.cfg.fillBeat, outstanding := false })
            hl h hq hout hc rfl hd
          have hf : (collectBeat c t s).fault = none := by
            obtain ⟨k, hk, -⟩ := collectBeat_eq c t s
            rw [hk]
            simpa using h0
          have hl' : (collectBeat c t s).cfg.legal = true := by
            rw [sameCore_cfg (collectBeat_sameCore _ _ _)]
            exact hl
          obtain ⟨k1, k2⟩ := ordered_issueBeat hl' hf rfl hO
          exact ⟨k1, k2, fun hb => idle hb⟩
      · rw [withQueue_self hq]
        exact ⟨h, h0, fun hb => idle hb⟩
    · rename_i hout
      obtain ⟨k1, k2⟩ := ordered_issueBeat (rest := rest) hl h0 (by simpa using hout) (by rw [withQueue_self hq]; exact h)
      exact ⟨k1, k2, fun hb => idle hb⟩

/-! ## A request to an idle cache (R97 to R99) -/

/-- A miss in an idle cache that has just taken its request queues the transactions in order (R99). -/
theorem ordered_cacheMiss {c : Client} {addr : Word} {s : State} {req : Request} (hl : s.cfg.legal = true)
    (ha : s.Arrays) (h : s.Ordered) (hb : (s.cache c).busy = false) (hreq : req.addr = addr)
    (hact : req.active = true) (hcom : req.complete = false)
    (hin : lineOffset (s.geometry c) addr.toNat + req.n ≤ (s.geometry c).lineSize)
    (hmiss : (s.cache c).lookup (s.geometry c) addr.toNat = none) :
    (cacheMiss c addr (s.withCache c { s.cache c with req := req })).Ordered := by
  have hg := legal_fits hl c
  have hq : (s.cache c).queue = [] := queueOk_idle (h.queue c) hb
  have hshape := ha.2 c
  have hslot := h.slot c
  have hfree : ((s.cache c).beatOut) = false := by unfold Cache.beatOut; rw [hq]; rfl
  unfold cacheMiss
  simp only [withCache_geometry, withCache_cache, withCache_withCache]
  set set₀ := setIndex (s.geometry c) addr.toNat with hset
  set way₀ := (s.cache c).fifo.getD set₀ 0 with hway
  have hwlt : way₀ < (s.geometry c).ways := by
    rw [hway, List.getD_eq_getElem?_getD]
    have hs : set₀ < (s.cache c).fifo.length := by rw [hshape.2.2.1]; exact setIndex_lt hg.sets _
    rw [List.getElem?_eq_getElem hs]
    exact hshape.2.2.2 _ (List.getElem_mem hs)
  -- the lines after the victim has been made invalid
  set k1 : Cache := ({ s.cache c with req := req } : Cache).setLine set₀ way₀
    { ({ s.cache c with req := req } : Cache).line set₀ way₀ with valid := false, dirty := false } with hk1
  have hline : ∀ set way, k1.line set way =
      if set = set₀ ∧ way = way₀ ∧ set₀ < (s.cache c).lines.length ∧ way₀ < ((s.cache c).lines.getD set₀ []).length then
        { (s.cache c).line set₀ way₀ with valid := false, dirty := false }
      else (s.cache c).line set way := fun set way => by rw [hk1, setLine_line]; rfl
  have haddr : ∀ set way, (k1.line set way).addr = ((s.cache c).line set way).addr := by
    intro set way
    rw [hline]
    split
    · rename_i e
      obtain ⟨rfl, rfl, -⟩ := e
      rfl
    · rfl
  have hvalid : ∀ set way, (k1.line set way).valid = true → ((s.cache c).line set way).valid = true := by
    intro set way
    rw [hline]
    split
    · intro e; cases e
    · exact id
  have hdone : (0 : Nat) < (s.geometry c).lineSize := by have := hg.line; omega
  have fill : ∀ k : Cache, k.lines = k1.lines → k.req = req →
      FillServes (s.geometry c) k
        { kind := .FILL, set := set₀, way := way₀, addr := lineBase (s.geometry c) addr, done := 0, outstanding := false } := by
    intro k hk hr
    refine ⟨rfl, by rw [hr, hreq], hwlt, by rw [hr, hreq], ?_, by rw [hr, hreq]; exact hin⟩
    intro i _
    have hm := lookup_eq_none.1 hmiss i
    rw [hr, hreq, line_congr hk]
    cases hv : (k1.line set₀ i).valid
    · simp [lineHits, hv]
    · have := hvalid _ _ hv
      rw [lineHits, ← hset, this, Bool.true_and] at hm
      simp only [lineHits, haddr, hv, Bool.true_and]
      exact hm
  have busy : ∀ k : Cache, k.req = req → k.busy = true := fun k hr => by simp [Cache.busy, hr, hact, hcom]
  refine ordered_update c h (by simp) (by simp) (.inl (by simp)) ?_ ?_ ?_ ?_ (by simpa using h.free)
    (by simpa using h.taken) (by simpa using h.counting)
  · simp only [withCache_cache, withCache_geometry, withCache_cfg]
    set ln := ({ s.cache c with req := req } : Cache).line set₀ way₀
    by_cases hd : (ln.valid && ln.dirty) = true
    · exact queueOk_two
        (w := { kind := .WB, set := set₀, way := way₀, addr := ln.addr, done := 0, outstanding := false })
        (f := { kind := .FILL, set := set₀, way := way₀, addr := lineBase (s.geometry c) addr, done := 0,
                outstanding := false })
        (by simp only [hq, hd, if_true]; rfl) (busy _ rfl) (fill _ rfl rfl)
        ⟨rfl, rfl, rfl, ⟨Nat.dvd_zero _, hdone⟩, rfl, rfl⟩
    · exact queueOk_one (by simp only [hq, hd]; rfl) (busy _ rfl) (fill _ rfl rfl) ⟨Nat.dvd_zero _, hdone⟩
  · simp only [withCache_cache, withCache_geometry]
    exact uniqueTags_of_same (k := s.cache c) haddr hvalid (h.tags c)
  · simp only [withCache_cache]
    exact dirtyValid_congr (k := k1) rfl (dirtyValid_setLine (dirtyValid_congr rfl (h.dirty c)) _ _ (by simp))
  · simp only [withCache_cache, withCache_store]
    rw [← hslot, hfree]
    unfold Cache.beatOut
    simp only [hq, List.nil_append]
    split <;> rfl

/-- A request inside one line to a cache that is not busy keeps the order and raises nothing (R97, R98). -/
theorem ordered_cacheSend {c : Client} {kind : Access} {addr : Word} {n : Nat} {v : Word} {s : State}
    (hl : s.cfg.legal = true) (h0 : s.fault = none) (ha : s.Arrays) (h : s.Ordered) (hb : (s.cache c).busy = false)
    (hin : lineOffset (s.geometry c) addr.toNat + n ≤ (s.geometry c).lineSize) :
    (cacheSend c kind addr n v s).Ordered ∧ (cacheSend c kind addr n v s).fault = none := by
  have hq : (s.cache c).queue = [] := queueOk_idle (h.queue c) hb
  unfold cacheSend
  simp only [hb, Bool.false_eq_true, if_false, withCache_geometry]
  split
  · rename_i way hway
    obtain ⟨k, e, a, va, q, -, co, -, dv⟩ := performRequest_inLine (c := c)
      (set := setIndex (s.geometry c) addr.toNat) (way := way)
      (s := s.withCache c { s.cache c with req := { active := true, complete := false, kind := kind, addr := addr, n := n, value := v, result := 0 } })
      (by simpa using hin)
    rw [e]
    simp only [withCache_cache] at a va q dv
    have hqk : k.queue = [] := q.trans hq
    have hbk : k.busy = false := by simp [Cache.busy, co]
    refine ⟨?_, by simpa using h0⟩
    refine ordered_update c h (by simp) (by simp) (.inl (by simp)) ?_ ?_ ?_ ?_ (by simpa using h.free)
      (by simpa using h.taken) (by simpa using h.counting)
    · simp only [withCache_cache]
      unfold Cache.queueOk
      rw [hqk]
      exact hbk
    · simp only [withCache_cache, withCache_geometry]
      exact uniqueTags_of_same (k := s.cache c) a (fun x y hv => by rw [va] at hv; exact hv) (h.tags c)
    · simp only [withCache_cache]
      have hits := (lookup_eq_some.1 hway).2.1
      simp only [lineHits, Bool.and_eq_true] at hits
      exact dv hits.1 (dirtyValid_congr rfl (h.dirty c))
    · have := h.slot c
      simp only [withCache_cache, withCache_store]
      rw [← this]
      unfold Cache.beatOut
      rw [hqk, hq]
  · rename_i hm
    have hm' : (s.cache c).lookup (s.geometry c) addr.toNat = none := hm
    have hO := ordered_cacheMiss (c := c) (addr := addr)
      (req := { active := true, complete := false, kind := kind, addr := addr, n := n, value := v, result := 0 })
      hl ha h hb rfl rfl rfl hin hm'
    have hA : (cacheMiss c addr (s.withCache c { s.cache c with
        req := { active := true, complete := false, kind := kind, addr := addr, n := n, value := v, result := 0 } })).Arrays :=
      arrays_cacheMiss c addr (by simpa using (legal_fits hl c).ways) (arrays_withCache ha c (shaped_congr rfl rfl (ha.2 c)))
    obtain ⟨k1, k2, -⟩ := ordered_processQueue c _ (by rw [sameCore_cfg (cacheMiss_sameCore _ _ _)]; simpa using hl)
      (by unfold cacheMiss; simpa using h0) hA hO rfl
    exact ⟨k1, k2⟩

/-! ## The Memory Unit's clock (R221) -/

theorem ordered_processCache (c : Client) {s : State} (hl : s.cfg.legal = true) (h0 : s.fault = none) (ha : s.Arrays)
    (h : s.Ordered) :
    (processCache c s).Ordered ∧ (processCache c s).fault = none ∧
      ((s.cache c).busy = false → ((processCache c s).cache c).busy = false) :=
  ordered_processQueue c _ hl h0 ha h rfl

/-- Phase 1 keeps the order unless the store faults; it raises no `ContentionFault`, and a cache that is not busy stays so. -/
theorem ordered_phaseMemory {s : State} (hl : s.cfg.legal = true) (h0 : s.fault = none) (ha : s.Arrays) (h : s.Ordered) :
    ((phaseMemory s).fault = none → (phaseMemory s).Ordered ∧
      ∀ c, (s.cache c).busy = false → ((phaseMemory s).cache c).busy = false) ∧
    ∀ cycle busyUnit, (phaseMemory s).fault ≠ some (.contention cycle busyUnit) := by
  obtain ⟨h1, h2⟩ := ordered_storeClock h0 h
  have ha1 := arrays_storeClock ha
  have hl1 : (storeClock s).cfg.legal = true := by rw [sameCore_cfg (storeClock_sameCore s)]; exact hl
  cases hf : (storeClock s).fault with
  | some f =>
    have e : phaseMemory s = storeClock s := by
      unfold phaseMemory
      rw [andThen_of_some hf, andThen_of_some hf]
    rw [e]
    exact ⟨fun hn => absurd (hf.symm.trans hn) (by simp), h2⟩
  | none =>
    obtain ⟨i1, i2, i3⟩ := ordered_processCache .I hl1 hf ha1 (h1 hf)
    have hl2 : (processCache .I (storeClock s)).cfg.legal = true := by
      rw [sameCore_cfg (processCache_sameCore _ _)]
      exact hl1
    obtain ⟨d1, d2, d3⟩ := ordered_processCache .D hl2 i2 (arrays_processQueue _ _ ha1) i1
    have e : phaseMemory s = processCache .D (processCache .I (storeClock s)) := by
      unfold phaseMemory
      rw [andThen_of_none hf, andThen_of_none i2]
    rw [e]
    refine ⟨fun _ => ⟨d1, fun c hb => ?_⟩, fun _ _ he => absurd (d2.symm.trans he) (by simp)⟩
    cases c with
    | I =>
      have : (processCache .D (processCache .I (storeClock s))).cache .I = (processCache .I (storeClock s)).cache .I :=
        processQueue_other .D _ _
      rw [this]
      exact i3 (by rw [storeClock_cache]; exact hb)
    | D =>
      apply d3
      have : (processCache .I (storeClock s)).cache .D = (storeClock s).cache .D := processQueue_other .I _ _
      rw [this, storeClock_cache]
      exact hb

/-! ## The clients: M and F (R224, R228) -/

/-- An access aligned to a divisor of the line size stays in its line. -/
theorem inLine_of_dvd {L a b : Nat} (hL : 0 < L) (ha : b ∣ a) (hb : b ∣ L) : a % L + b ≤ L := by
  have h1 : a % L < L := Nat.mod_lt _ hL
  obtain ⟨x, hx⟩ : b ∣ a % L := (Nat.dvd_mod_iff hb).2 ha
  obtain ⟨y, hy⟩ := hb
  rw [hx, hy] at h1 ⊢
  have h2 : x < y := Nat.lt_of_mul_lt_mul_left h1
  calc b * x + b = b * (x + 1) := by ring
    _ ≤ b * y := Nat.mul_le_mul_left _ h2

/-- Every beat of an aligned access stays in one line of the data cache (R224, R277). -/
theorem beat_inLine {s : State} {i : Record} (hl : s.cfg.legal = true) (hs : i.size = 1 ∨ i.size = 2 ∨ i.size = 4)
    (ha : i.addr.toNat % i.size = 0) (k : Nat) :
    lineOffset s.cfg.dcache (beatAddr s.cfg i k).toNat + beatSize s.cfg i ≤ s.cfg.dcache.lineSize := by
  have hg := legal_fits hl .D
  have hL : 4 ∣ s.cfg.dcache.lineSize := Nat.dvd_of_mod_eq_zero hg.four
  have hp : s.cfg.portBeat = 1 ∨ s.cfg.portBeat = 2 ∨ s.cfg.portBeat = 4 := by
    have h2 := hl
    simp [Config.legal, isBeatWidth] at h2
    tauto
  have hb4 : beatSize s.cfg i ∣ 4 := by
    unfold beatSize
    rcases hp with e | e | e <;> rcases hs with e' | e' | e' <;> rw [e, e'] <;> decide
  refine inLine_of_dvd hg.line ?_ (hb4.trans hL)
  have h1 : beatSize s.cfg i ∣ i.addr.toNat := by
    have : beatSize s.cfg i ∣ i.size := by
      unfold beatSize
      rcases hp with e | e | e <;> rcases hs with e' | e' | e' <;> rw [e, e'] <;> decide
    exact this.trans (Nat.dvd_of_mod_eq_zero ha)
  have h2 : beatSize s.cfg i ∣ k * s.cfg.portBeat := by
    have : beatSize s.cfg i ∣ s.cfg.portBeat := by
      unfold beatSize
      rcases hp with e | e | e <;> rcases hs with e' | e' | e' <;> rw [e, e'] <;> decide
    exact this.trans (Nat.dvd_mul_left _ _)
  have h3 : beatSize s.cfg i ∣ 2 ^ 32 := hb4.trans (by decide)
  unfold beatAddr
  rw [BitVec.toNat_add, BitVec.toNat_ofNat]
  exact (Nat.dvd_mod_iff h3).2 (Nat.dvd_add h1 ((Nat.dvd_mod_iff h3).2 h2))

/-- Only the fields it names matter to the order. -/
theorem ordered_consumeBeat (i : Record) {s : State} (h : s.Ordered) : (consumeBeat i s).Ordered := by
  unfold consumeBeat
  split
  · dsimp only
    split
    · exact ordered_congr (s := s) rfl rfl rfl rfl h
    · exact ordered_congr (s := s) rfl rfl rfl rfl h
  · exact ordered_congr (s := s) rfl rfl rfl rfl h

/-- What a consumed or awaited beat leaves in M's registers and in the data cache (R34, R224). -/
theorem consumeBeat_registers {i : Record} {s : State} (hw : s.mWaiting = true) (hst : s.wires.stallEM = false)
    (hk : s.mBeat < beatCount s.cfg i) (hacc : s.mBeat = 0 → s.mAcc = 0) :
    (consumeBeat i s).dcache = s.dcache ∧ (consumeBeat i s).fault = s.fault ∧
      ((consumeBeat i s).mWaiting = false → s.dcache.req.complete = true) ∧
      (if (consumeBeat i s).wires.stallEM then
          (consumeBeat i s).mBeat < beatCount s.cfg i ∧ ((consumeBeat i s).mBeat = 0 → (consumeBeat i s).mAcc = 0)
        else (consumeBeat i s).beatIdle) := by
  unfold consumeBeat
  split
  · rename_i hc
    dsimp only
    split
    · rename_i hlast
      refine ⟨rfl, rfl, fun _ => hc, ?_⟩
      have : ∀ (j : Record) (u : State), u.wires.stallEM = false → (leaveMemory j u).wires.stallEM = false :=
        fun j u hu => by rw [leaveMemory_rest]; exact hu
      rw [if_neg (by rw [this _ { s with mWaiting := false, mBeat := 0, mAcc := 0 } hst]; simp)]
      exact ⟨rfl, rfl, rfl⟩
    · rename_i hlast
      refine ⟨rfl, rfl, fun _ => hc, ?_⟩
      rw [if_pos (by rfl)]
      refine ⟨?_, fun h => absurd h (Nat.succ_ne_zero _)⟩
      show s.mBeat + 1 < beatCount s.cfg i
      omega
  · refine ⟨rfl, rfl, fun h => ?_, ?_⟩
    · rw [show (waitMemory i s).mWaiting = s.mWaiting from rfl, hw] at h
      cases h
    · rw [if_pos (show (waitMemory i s).wires.stallEM = true from rfl)]
      exact ⟨hk, hacc⟩

/-- M keeps the order of the memory system and the meaning of its registers, and raises no `ContentionFault` (R34, R277). -/
theorem ordered_stageM {s : State} (hl : s.cfg.legal = true) (h0 : s.fault = none) (ha : s.Arrays) (h : s.Ordered)
    (hst : s.wires.stallEM = false) (hb : s.mWaiting = false → s.dcache.busy = false) (hbeat : s.beatOk)
    (hsz : ∀ r, s.em.cur = some r → r.sized) :
    (∀ cycle busyUnit, (stageM s).fault ≠ some (.contention cycle busyUnit)) ∧
    ((stageM s).fault = none → (stageM s).Ordered ∧ ((stageM s).mWaiting = false → (stageM s).dcache.busy = false) ∧
      (if (stageM s).wires.stallEM then (stageM s).beatOk else (stageM s).beatIdle)) := by
  unfold State.beatOk at hbeat
  unfold stageM
  cases hc : s.em.cur with
  | none =>
    rw [hc] at hbeat
    dsimp only at hbeat ⊢
    refine ⟨noContention_of_none h0, fun _ => ⟨ordered_congr (s := s) rfl rfl rfl rfl h, hb, ?_⟩⟩
    rw [hst]
    exact hbeat
  | some i =>
    rw [hc] at hbeat
    dsimp only at hbeat ⊢
    rcases Bool.eq_false_or_eq_true (i.isLoad || i.isStore) with hm | hm
    case inr =>
      simp only [hm, Bool.false_eq_true, if_false] at hbeat ⊢
      refine ⟨noContention_of_none (by rw [leaveMemory_fault, h0]), fun _ =>
        ⟨ordered_congr (s := s) rfl rfl rfl rfl h, hb, ?_⟩⟩
      rw [leaveMemory_rest]
      dsimp only
      rw [hst]
      exact hbeat
    case inl =>
      simp only [hm, if_true] at hbeat ⊢
      obtain ⟨hal, hk, hacc⟩ := hbeat
      have hsize := hsz i hc hm
      unfold accessMemory
      split
      · rename_i hmis
        refine ⟨fun _ _ he => ?_, fun hf => absurd hf (raise_fault_ne_none _ _)⟩
        rcases raise_fault_cases he with he | he
        · rw [h0] at he; cases he
        · cases he
      · rename_i hmis
        have halign : i.addr.toNat % i.size = 0 := by
          by_cases hz : s.mBeat = 0
          · cases hw : s.mWaiting
            · by_contra hne
              exact hmis ⟨hz, hw, hne⟩
            · exact hal (.inr hw)
          · exact hal (.inl hz)
        -- the beat is outstanding after the send, and nothing was raised
        have hsend : (sendBeat i s).Ordered ∧ (sendBeat i s).fault = none ∧ (sendBeat i s).mWaiting = true ∧
            (sendBeat i s).mBeat = s.mBeat ∧ (sendBeat i s).cfg = s.cfg ∧ (sendBeat i s).em = s.em ∧
            (sendBeat i s).mAcc = s.mAcc := by
          unfold sendBeat
          cases hw : s.mWaiting with
          | true => simp only [if_true]; exact ⟨h, h0, hw, trivial, trivial, trivial, trivial⟩
          | false =>
            have hin := beat_inLine hl hsize halign s.mBeat
            have hs : ∀ kind v, (cacheSend .D kind (beatAddr s.cfg i s.mBeat) (beatSize s.cfg i) v s).Ordered ∧
                (cacheSend .D kind (beatAddr s.cfg i s.mBeat) (beatSize s.cfg i) v s).fault = none := fun kind v =>
              ordered_cacheSend hl h0 ha h (hb hw) hin
            simp only [Bool.false_eq_true, if_false]
            split
            · rw [andThen_of_none (hs _ _).2]
              exact ⟨ordered_congr (s := cacheSend .D .R (beatAddr s.cfg i s.mBeat) (beatSize s.cfg i) 0 s) rfl rfl rfl rfl
                (hs .R 0).1, (hs _ _).2, rfl, by simp, by simp, by simp, by simp⟩
            · rw [andThen_of_none (hs _ _).2]
              exact ⟨ordered_congr (s := cacheSend .D .W (beatAddr s.cfg i s.mBeat) (beatSize s.cfg i) (beatData s.cfg i s.mBeat) s)
                rfl rfl rfl rfl (hs .W _).1, (hs _ _).2, rfl, by simp, by simp, by simp, by simp⟩
        obtain ⟨s1, s2, s3, s4, s5, s6, s7⟩ := hsend
        have hst' : (sendBeat i s).wires.stallEM = false := by rw [sendBeat_wires]; exact hst
        obtain ⟨c1, c2, c3, c4⟩ := consumeBeat_registers (i := i) s3 hst' (by rw [s4, s5]; exact hk)
          (by rw [s4, s7]; exact hacc)
        rw [andThen_of_none s2]
        refine ⟨noContention_of_none (by rw [c2, s2]), fun _ => ⟨ordered_consumeBeat i s1, fun hw => ?_, ?_⟩⟩
        · rw [c1]
          simp [Cache.busy, c3 hw]
        · cases hstall : (consumeBeat i (sendBeat i s)).wires.stallEM with
          | false => rw [hstall] at c4; simpa using c4
          | true =>
            rw [hstall] at c4
            simp only [if_true] at c4 ⊢
            have hcur : (consumeBeat i (sendBeat i s)).em.cur = some i ∧ (consumeBeat i (sendBeat i s)).cfg = s.cfg := by
              have := consumeBeat_memoryPart i (sendBeat i s)
              unfold State.MemoryPart at this
              rw [this]
              exact ⟨by rw [s6]; exact hc, s5⟩
            unfold State.beatOk
            rw [hcur.1, hcur.2]
            simp only [hm, if_true]
            exact ⟨fun _ => halign, by rw [← s5]; exact c4.1, c4.2⟩

/-- F keeps the order of the memory system and raises no `ContentionFault` (R277). -/
theorem ordered_stageF {s : State} (hl : s.cfg.legal = true) (h0 : s.fault = none) (ha : s.Arrays) (h : s.Ordered)
    (hb : s.fetchPending = false → s.icache.busy = false) :
    (∀ cycle busyUnit, (stageF s).fault ≠ some (.contention cycle busyUnit)) ∧
    ((stageF s).fault = none → (stageF s).Ordered ∧ ((stageF s).fetchPending = false → (stageF s).icache.busy = false)) := by
  have hg := legal_fits hl .I
  unfold stageF
  split
  · exact ⟨noContention_of_none h0, fun _ => ⟨h, hb⟩⟩
  · have hreq : (∀ cycle busyUnit, (requestFetch s).fault ≠ some (.contention cycle busyUnit)) ∧
        ((requestFetch s).fault = none → (requestFetch s).Ordered ∧ (requestFetch s).fetchPending = true) := by
      unfold requestFetch
      split
      · exact ⟨noContention_of_none h0, fun _ => ⟨h, ‹_›⟩⟩
      · rename_i hp
        split
        · refine ⟨fun _ _ he => ?_, fun hf => absurd hf (raise_fault_ne_none _ _)⟩
          rcases raise_fault_cases he with he | he
          · rw [h0] at he; cases he
          · cases he
        · rename_i hpc
          have hin : lineOffset (s.geometry .I) s.pc.toNat + 4 ≤ (s.geometry .I).lineSize :=
            inLine_of_dvd hg.line (Nat.dvd_of_mod_eq_zero (by omega)) (Nat.dvd_of_mod_eq_zero hg.four)
          obtain ⟨k1, k2⟩ := ordered_cacheSend (c := .I) (kind := .R) (v := 0) hl h0 ha h (hb (by simpa using hp)) hin
          rw [andThen_of_none k2]
          exact ⟨noContention_of_none k2, fun _ =>
            ⟨ordered_congr (s := cacheSend .I .R s.pc 4 0 s) rfl rfl rfl rfl k1, rfl⟩⟩
    obtain ⟨r1, r2⟩ := hreq
    cases hf : (requestFetch s).fault with
    | some f =>
      rw [andThen_of_some hf]
      exact ⟨r1, fun hn => absurd (hf.symm.trans hn) (by simp)⟩
    | none =>
      obtain ⟨r3, r4⟩ := r2 hf
      rw [andThen_of_none hf]
      unfold deliverFetch
      split
      · rename_i hc
        have idle : (requestFetch s).icache.busy = false := by simp [Cache.busy, hc]
        dsimp only
        split
        · split
          · refine ⟨fun _ _ he => ?_, fun hf => absurd hf (raise_fault_ne_none _ _)⟩
            rcases raise_fault_cases he with he | he
            · exact absurd he (noContention_of_none hf _ _)
            · cases he
          · exact ⟨noContention_of_none hf, fun _ =>
              ⟨ordered_congr (s := requestFetch s) rfl rfl rfl rfl r3, fun _ => idle⟩⟩
        · exact ⟨noContention_of_none hf, fun _ =>
            ⟨ordered_congr (s := requestFetch s) rfl rfl rfl rfl r3, fun _ => idle⟩⟩
      · refine ⟨noContention_of_none hf, fun _ =>
          ⟨ordered_congr (s := requestFetch s) rfl rfl rfl rfl r3, fun hp => ?_⟩⟩
        rw [show _ = true from r4] at hp
        cases hp

/-! ## A hit (R93, R97) -/

/-- The line a request asks for, in the way that hits. -/
def State.hitLine (s : State) (c : Client) (addr : Word) (way : Nat) : Line :=
  (s.cache c).line (setIndex (s.geometry c) addr.toNat) way

/-- All that a read that hits inside its line does: the request is complete and holds the line's bytes. -/
theorem cacheSend_readHit {c : Client} {addr : Word} {n : Nat} {v : Word} {s : State} {way : Nat}
    (hb : (s.cache c).busy = false) (hl : (s.cache c).lookup (s.geometry c) addr.toNat = some way)
    (hn : lineOffset (s.geometry c) addr.toNat + n ≤ (s.geometry c).lineSize) :
    cacheSend c .R addr n v s =
      s.withCache c { s.cache c with
        req := { active := true, complete := true, kind := .R, addr := addr, n := n, value := v,
                 result := wordLE (lineBytes (s.hitLine c addr way).data (lineOffset (s.geometry c) addr.toNat) n) } } := by
  unfold cacheSend
  simp only [hb, Bool.false_eq_true, if_false, hl, withCache_geometry]
  unfold performRequest
  simp only [withCache_cache, withCache_geometry, withCache_withCache]
  rw [if_neg (by omega)]
  rfl

/-- All that a write that hits inside its line does: the request is complete and the line holds the bytes, dirty. -/
theorem cacheSend_writeHit {c : Client} {addr : Word} {n : Nat} {v : Word} {s : State} {way : Nat}
    (hb : (s.cache c).busy = false) (hl : (s.cache c).lookup (s.geometry c) addr.toNat = some way)
    (hn : lineOffset (s.geometry c) addr.toNat + n ≤ (s.geometry c).lineSize) :
    cacheSend c .W addr n v s =
      s.withCache c
        { (s.cache c).setLine (setIndex (s.geometry c) addr.toNat) way
            { s.hitLine c addr way with
              data := setLineBytes (s.hitLine c addr way).data (lineOffset (s.geometry c) addr.toNat) (bytesLE v n)
              dirty := true } with
          req := { active := true, complete := true, kind := .W, addr := addr, n := n, value := v, result := 0 } } := by
  unfold cacheSend
  simp only [hb, Bool.false_eq_true, if_false, hl, withCache_geometry]
  unfold performRequest
  simp only [withCache_cache, withCache_geometry, withCache_withCache]
  rw [if_neg (by omega)]
  rfl

end Sys2Proof.Machine
end

