-- ==== Sys2Proof/Laws/Beats.lean ====
section
/-! SUPPORT. Laws of one beat: what a cache keeps of what it was asked for, what goes into the store's slot for a line
transaction (spec/21_cache.md R97 to R101), and what the memory stage does with a beat of a load or store
(spec/50_pipeline.md R224). -/

namespace Sys2Proof.Machine

/-! ## What is asked for stays asked for (R37, R100)

No work on the queue changes the request but its result and its completion. -/

/-- The two requests ask for the same. -/
def Request.SameAsk (r r' : Request) : Prop := r' = { r with complete := r'.complete, result := r'.result }

theorem sameAsk_refl (r : Request) : r.SameAsk r := rfl

theorem sameAsk_trans {r r' r'' : Request} (h : r.SameAsk r') (h' : r'.SameAsk r'') : r.SameAsk r'' := by
  unfold Request.SameAsk at *
  rw [h', h]

theorem sameAsk_of_eq {r r' : Request} (h : r' = r) : r.SameAsk r' := h ▸ rfl

theorem performRequest_ask (c : Client) (set way : Nat) (s : State) :
    (s.cache c).req.SameAsk ((performRequest c set way s).cache c).req := by
  unfold performRequest
  dsimp only
  split
  · exact sameAsk_of_eq (by simp)
  · split <;> simp [Request.SameAsk]

theorem issueBeat_ask (c : Client) (t : Transaction) (rest : List Transaction) (s : State) :
    (s.cache c).req.SameAsk ((issueBeat c t rest s).cache c).req := by
  unfold issueBeat
  split
  · exact sameAsk_of_eq (by simp)
  · dsimp only
    refine andThen_induct (P := fun u => (s.cache c).req.SameAsk (u.cache c).req) ?_ fun _ => ?_
    · split <;> exact sameAsk_of_eq (by rw [storeSend_cache])
    · refine sameAsk_of_eq ?_
      simp only [withQueue_cache]
      split <;> rw [storeSend_cache]

theorem collectBeat_ask (c : Client) (t : Transaction) (s : State) :
    (s.cache c).req.SameAsk ((collectBeat c t s).cache c).req := by
  obtain ⟨k, he, hk, -⟩ := collectBeat_eq c t s
  refine sameAsk_of_eq ?_
  rw [he, ← hk.req]
  cases c <;> rfl

theorem completeTransaction_ask (c : Client) (t : Transaction) (s : State) :
    (s.cache c).req.SameAsk ((completeTransaction c t s).cache c).req := by
  unfold completeTransaction
  split
  · exact sameAsk_refl _
  · exact sameAsk_trans (sameAsk_of_eq (by simp)) (performRequest_ask _ _ _ _)

theorem processQueue_ask (c : Client) (q : List Transaction) (s : State) :
    (s.cache c).req.SameAsk ((processQueue c q s).cache c).req := by
  induction q generalizing s with
  | nil => exact sameAsk_of_eq (by simp [processQueue])
  | cons t rest ih =>
    unfold processQueue
    split
    · split
      · dsimp only
        split
        · have h : (s.cache c).req.SameAsk ((completeTransaction c
              { t with done := t.done + s.cfg.fillBeat, outstanding := false }
              ((collectBeat c t s).withQueue c rest)).cache c).req :=
            sameAsk_trans (sameAsk_trans (collectBeat_ask c t s) (sameAsk_of_eq (by simp))) (completeTransaction_ask _ _ _)
          exact andThen_induct (P := fun u => (s.cache c).req.SameAsk (u.cache c).req) h fun _ => sameAsk_trans h (ih _)
        · exact sameAsk_trans (collectBeat_ask _ _ _) (issueBeat_ask _ _ _ _)
      · exact sameAsk_of_eq (by simp)
    · exact issueBeat_ask _ _ _ _

/-- A send to a cache that is not busy leaves what was asked for in the request slot, whether it hits, misses or faults. -/
theorem cacheSend_ask {c : Client} {kind : Access} {addr : Word} {n : Nat} {v : Word} {s : State}
    (hb : (s.cache c).busy = false) :
    Request.SameAsk { active := true, complete := false, kind := kind, addr := addr, n := n, value := v, result := 0 }
      ((cacheSend c kind addr n v s).cache c).req := by
  unfold cacheSend
  simp only [hb, Bool.false_eq_true, if_false]
  split
  · exact sameAsk_trans (sameAsk_of_eq (by simp)) (performRequest_ask _ _ _ _)
  · refine sameAsk_trans (sameAsk_of_eq ?_) (processQueue_ask _ _ _)
    simp [cacheMiss]

/-! ## A beat of a line transaction (R100) -/

/-- A send to the free slot. -/
theorem storeSend_free {s : State} (ho : s.store.owner = none) (kind : Access) (addr : Word) (n : Nat) (v : Word)
    (c : Client) :
    storeSend kind addr n v c s =
      { s with store := { s.store with kind := kind, addr := addr, n := n, value := v, owner := some c, pending := true,
                                       complete := false, countdown := s.cfg.latency } } := by
  unfold storeSend
  rw [ho]

/-- The beat that goes into a free slot. -/
theorem issueBeat_free {c : Client} {t : Transaction} {rest : List Transaction} {s : State} (h0 : s.fault = none)
    (ho : s.store.owner = none) :
    (issueBeat c t rest s).CarriesBeat c t ((s.cache c).line t.set t.way).data ∧
      issueBeat c t rest s =
        { s.withCache c { s.cache c with queue := { t with outstanding := true } :: rest } with
          store := (issueBeat c t rest s).store } ∧
      (issueBeat c t rest s).store.mem = s.store.mem := by
  unfold issueBeat
  rw [ho]
  dsimp only
  obtain ⟨kind, set, way, addr, done, out⟩ := t
  cases kind <;> simp only [storeSend_free ho] <;> rw [andThen_of_none (by exact h0)] <;>
    refine ⟨⟨by simp, by simp, by simp, by simp, by simp, by simp⟩, ?_, by simp⟩ <;> cases c <;> rfl

/-- A beat has to wait while the slot is owned. -/
theorem issueBeat_taken {c : Client} {t : Transaction} {rest : List Transaction} {s : State}
    (ho : s.store.owner ≠ none) : issueBeat c t rest s = s.withQueue c (t :: rest) := by
  unfold issueBeat
  split
  · rfl
  · contradiction

/-- The state in which a miss has recorded its request and queued its transactions (R97, R99). -/
def missed (c : Client) (kind : Access) (addr : Word) (n : Nat) (v : Word) (s : State) : State :=
  cacheMiss c addr (s.withCache c { s.cache c with
    req := { active := true, complete := false, kind := kind, addr := addr, n := n, value := v, result := 0 } })

/-- A miss changes its cache only. -/
theorem missed_eq (c : Client) (kind : Access) (addr : Word) (n : Nat) (v : Word) (s : State) :
    missed c kind addr n v s = s.withCache c ((missed c kind addr n v s).cache c) := by
  unfold missed cacheMiss
  simp

/-- A send that misses is the miss and one unit of queue work. -/
theorem cacheSend_missed {c : Client} {kind : Access} {addr : Word} {n : Nat} {v : Word} {s : State}
    (hb : (s.cache c).busy = false) (hl : (s.cache c).lookup (s.geometry c) addr.toNat = none) :
    cacheSend c kind addr n v s = processCache c (missed c kind addr n v s) := by
  unfold cacheSend
  simp only [hb, Bool.false_eq_true, if_false, withCache_geometry, hl]
  rfl

/-- The transactions a miss queues behind an empty queue: the first, and the rest. -/
theorem missed_queue {c : Client} {kind : Access} {addr : Word} {n : Nat} {v : Word} {s : State}
    (hq : (s.cache c).queue = []) :
    ∃ t rest, ((missed c kind addr n v s).cache c).queue = t :: rest ∧ t.outstanding = false := by
  unfold missed cacheMiss
  simp only [withCache_cache, hq, List.nil_append]
  split <;> exact ⟨_, _, rfl, rfl⟩

/-- The unit of queue work of a miss behind an empty queue: the first transaction's first beat. -/
theorem cacheSend_issues {c : Client} {kind : Access} {addr : Word} {n : Nat} {v : Word} {s : State}
    (hb : (s.cache c).busy = false) (hl : (s.cache c).lookup (s.geometry c) addr.toNat = none) {t : Transaction}
    {rest : List Transaction} (hq : ((missed c kind addr n v s).cache c).queue = t :: rest) (ho : t.outstanding = false) :
    cacheSend c kind addr n v s = issueBeat c t rest (missed c kind addr n v s) := by
  rw [cacheSend_missed hb hl]
  unfold processCache
  rw [hq]
  simp only [processQueue, ho, Bool.false_eq_true, if_false]

/-- A miss of a cache with an empty queue changes that cache and the slot only: no fault, the request waits, and the
transactions are queued. -/
theorem cacheSend_miss {c : Client} {kind : Access} {addr : Word} {n : Nat} {v : Word} {s : State} (h0 : s.fault = none)
    (hb : (s.cache c).busy = false) (hl : (s.cache c).lookup (s.geometry c) addr.toNat = none)
    (hq : (s.cache c).queue = []) :
    let t := cacheSend c kind addr n v s
    t = { s.withCache c (t.cache c) with store := t.store } ∧ t.store.mem = s.store.mem ∧
      (t.cache c).req.complete = false ∧ (t.cache c).queue ≠ [] := by
  obtain ⟨t, rest, hq0, h2⟩ := missed_queue (kind := kind) (addr := addr) (n := n) (v := v) hq
  have e := cacheSend_issues hb hl hq0 h2
  have core := missed_eq c kind addr n v s
  have hreq : ((missed c kind addr n v s).cache c).req.complete = false := by simp [missed, cacheMiss]
  generalize missed c kind addr n v s = s0 at e core hreq
  have f0 : s0.fault = none := by
    rw [core]
    simpa using h0
  dsimp only
  rw [e]
  by_cases ho : s0.store.owner = none
  · obtain ⟨-, he, hm⟩ := issueBeat_free (c := c) (t := t) (rest := rest) f0 ho
    have hk : (issueBeat c t rest s0).cache c = { s0.cache c with queue := { t with outstanding := true } :: rest } := by
      rw [he]
      cases c <;> rfl
    refine ⟨?_, ?_, ?_, ?_⟩
    · rw [hk]
      refine he.trans ?_
      generalize issueBeat c t rest s0 = w
      rw [core]
      cases c <;> rfl
    · rw [hm, core]
      simp
    · rw [hk]
      exact hreq
    · rw [hk]
      simp
  · rw [issueBeat_taken ho]
    refine ⟨?_, ?_, by simpa using hreq, by simp⟩
    · rw [core]
      cases c <;> rfl
    · rw [core]
      simp

/-! ## A beat of a load or store (R224) -/

/-- Consuming a beat touches neither the data cache nor the store. -/
theorem consumeBeat_memory (i : Record) (s : State) :
    (consumeBeat i s).dcache = s.dcache ∧ (consumeBeat i s).store = s.store := by
  unfold consumeBeat
  split
  · dsimp only
    split <;> exact ⟨rfl, rfl⟩
  · exact ⟨rfl, rfl⟩

/-- M with a load or store whose beat is not yet sent. -/
theorem stageM_sends {s : State} {i : Record} (hc : s.em.cur = some i) (hm : (i.isLoad || i.isStore) = true)
    (hw : s.mWaiting = false) (ha : s.mBeat = 0 → i.addr.toNat % i.size = 0) :
    stageM s =
      ((if i.isLoad then cacheSend .D .R (beatAddr s.cfg i s.mBeat) (beatSize s.cfg i) 0 s
        else cacheSend .D .W (beatAddr s.cfg i s.mBeat) (beatSize s.cfg i) (beatData s.cfg i s.mBeat) s).andThen
          fun s => { s with mWaiting := true }).andThen (consumeBeat i) := by
  unfold stageM accessMemory sendBeat
  simp only [hc, hm, if_true, hw]
  rw [if_neg fun h => h.2.2 (ha h.1)]
  rfl

/-- M with a load or store whose beat was sent before. -/
theorem stageM_sent {s : State} {i : Record} (h0 : s.fault = none) (hc : s.em.cur = some i)
    (hm : (i.isLoad || i.isStore) = true) (hw : s.mWaiting = true) : stageM s = consumeBeat i s := by
  unfold stageM accessMemory sendBeat
  simp only [hc, hm, if_true, hw]
  rw [if_neg (by simp), andThen_of_none h0]

/-- After the beat is sent the data cache is as the send left it. -/
theorem sends_dcache (i : Record) (s : State) :
    ((s.andThen fun s => { s with mWaiting := true }).andThen (consumeBeat i)).dcache = s.dcache := by
  have h : (s.andThen fun s => { s with mWaiting := true }).dcache = s.dcache :=
    andThen_induct (P := fun u => u.dcache = s.dcache) rfl fun _ => rfl
  exact andThen_induct (P := fun u => u.dcache = s.dcache) h fun _ => by rw [(consumeBeat_memory _ _).1, h]

/-- A beat that is not complete is waited for. -/
theorem consumeBeat_waits {s : State} (i : Record) (h : s.dcache.req.complete = false) :
    consumeBeat i s = waitMemory i s := by
  simp [consumeBeat, h]

/-- A beat whose send has changed the data cache and the slot only and is not complete is `BeatSent`. -/
theorem consumeBeat_sent {s u : State} {i : Record} (hu : u = { s with store := u.store, dcache := u.dcache })
    (hm : u.store.mem = s.store.mem) (hd : u.dcache.req.complete = false) :
    s.BeatSent (consumeBeat i { u with mWaiting := true }) i := by
  rw [consumeBeat_waits i (by exact hd)]
  have hw : u.wires = s.wires := by rw [hu]
  refine ⟨?_, ?_, ?_, ?_, ?_, hd, hm⟩
  · unfold waitMemory
    rw [hu]
  · simp only [waitMemory, structuralStall, hw]
  · intro hl r hr h0
    simp [waitMemory, structuralStall, hl, liveReg_eq_some.2 ⟨hr, h0⟩]
  · intro hl hr
    rcases hr with hr | hr <;> simp [waitMemory, structuralStall, hl, hr, liveReg]
  · intro hl
    simp [waitMemory, structuralStall, hl, hw]

/-- What a load has assembled after a beat with this result; a store assembles nothing. -/
def assembled (s : State) (i : Record) (result : Word) : Word :=
  if i.isLoad then s.mAcc ||| (result <<< (8 * s.mBeat * s.cfg.portBeat)) else s.mAcc

/-- Consuming a completed beat is `BeatDone`. -/
theorem consumeBeat_done {s u : State} {i : Record} (h0 : s.fault = none)
    (hu : u = { s with mWaiting := u.mWaiting, dcache := u.dcache }) (hd : u.dcache.req.complete = true) :
    s.BeatDone (consumeBeat i u) i (if i.isLoad then { i with res := assembled s i u.dcache.req.result } else i)
      (assembled s i u.dcache.req.result) := by
  have hf : u.fault = none := by rw [hu]; exact h0
  have hc : u.cfg = s.cfg := by rw [hu]
  have hb : u.mBeat = s.mBeat := by rw [hu]
  have ha : u.mAcc = s.mAcc := by rw [hu]
  have hw : u.wires = s.wires := by rw [hu]
  set acc := assembled s i u.dcache.req.result with hacc
  set out : Record := if i.isLoad then { i with res := acc } else i with hout
  have e : consumeBeat i u =
      if s.mBeat + 1 = beatCount s.cfg i then leaveMemory out { u with mWaiting := false, mBeat := 0, mAcc := 0 }
      else waitMemory i { u with mWaiting := false, mBeat := s.mBeat + 1, mAcc := acc } := by
    unfold consumeBeat
    rw [if_pos hd]
    simp only [hc, hb, ha, hout, hacc, assembled]
  rw [e]
  constructor
  · split <;> exact hf
  · split
    · rw [leaveMemory_eq, hu]
    · rw [waitMemory_eq, hu]
  · intro h
    rw [if_pos (show _ = beatCount s.cfg i from h)]
    refine ⟨rfl, ⟨rfl, rfl, rfl⟩, ?_, ?_, ?_, fun r hr h0 => ?_, fun hr => ?_⟩
    · rw [leaveMemory_rest]
      simp only [hw]
    · rw [leaveMemory_flush, Bool.or_eq_true, needsFlush_iff]
      simp only [hw]
    · rw [leaveMemory_flushTarget]
      simp only [hw, needsFlush_iff]
    · rw [leaveMemory_bypM, liveReg_eq_some.2 ⟨hr, h0⟩]
    · rw [leaveMemory_bypM]
      rcases hr with hr | hr <;> simp [hr, liveReg, hw]
  · intro h
    rw [if_neg (show ¬ _ = beatCount s.cfg i from h)]
    refine ⟨rfl, rfl, rfl, rfl, by simp only [waitMemory, structuralStall, hw], ?_, ?_, ?_⟩
    · intro hl r hr h0
      simp [waitMemory, structuralStall, hl, liveReg_eq_some.2 ⟨hr, h0⟩]
    · intro hl hr
      rcases hr with hr | hr <;> simp [waitMemory, structuralStall, hl, hr, liveReg]
    · intro hl
      simp [waitMemory, structuralStall, hl, hw]

end Sys2Proof.Machine
end

