-- ==== Sys2Proof/Laws/Decode.lean ====
section
/-! SUPPORT. The three masks of the opcode table read as fields, and the fields of encoded words: what a proof about
decoding needs instead of unfolding the table's numbers. -/

namespace Sys2Proof.Laws

/-- The mask 0x0000007F looks at the opcode alone. -/
theorem selects_opcode (w q : Word) (hq : q &&& 0x7F#32 = q) : w &&& 0x7F#32 = q ↔ opcodeField w = opcodeField q := by
  constructor
  · rintro rfl
    apply BitVec.eq_of_getLsbD_eq
    intro i hi
    simp only [opcodeField, BitVec.getLsbD_extractLsb', BitVec.getLsbD_and]
    interval_cases i <;> simp
  · intro h
    rw [← hq]
    apply BitVec.eq_of_getLsbD_eq
    intro i hi
    have h0 (j : Nat) := congrArg (fun x : BitVec 7 => x.getLsbD j) h
    simp only [opcodeField, BitVec.getLsbD_extractLsb', BitVec.getLsbD_and] at h0 ⊢
    by_cases hi0 : i < 7
    · simpa [hi0] using congrArg (· && (0x7F#32).getLsbD i) (h0 i)
    · interval_cases i <;> simp_all

/-- The mask 0x0000707F looks at the opcode and funct3. -/
theorem selects_funct3 (w q : Word) (hq : q &&& 0x707F#32 = q) :
    w &&& 0x707F#32 = q ↔ opcodeField w = opcodeField q ∧ funct3Field w = funct3Field q := by
  constructor
  · rintro rfl
    constructor
    all_goals
      apply BitVec.eq_of_getLsbD_eq
      intro i hi
      simp only [opcodeField, funct3Field, BitVec.getLsbD_extractLsb', BitVec.getLsbD_and]
      interval_cases i <;> simp
  · rintro ⟨h, g⟩
    rw [← hq]
    apply BitVec.eq_of_getLsbD_eq
    intro i hi
    have h0 (j : Nat) := congrArg (fun x : BitVec 7 => x.getLsbD j) h
    have g0 (j : Nat) := congrArg (fun x : BitVec 3 => x.getLsbD j) g
    simp only [opcodeField, funct3Field, BitVec.getLsbD_extractLsb', BitVec.getLsbD_and] at h0 g0 ⊢
    have h1 := h0 i
    have g1 := g0 (i - 12)
    interval_cases i <;> simp_all

/-- The mask 0xFE00707F looks at the opcode, funct3 and funct7. -/
theorem selects_funct7 (w q : Word) (hq : q &&& 0xFE00707F#32 = q) :
    w &&& 0xFE00707F#32 = q ↔
      opcodeField w = opcodeField q ∧ funct3Field w = funct3Field q ∧ funct7Field w = funct7Field q := by
  constructor
  · rintro rfl
    refine ⟨?_, ?_, ?_⟩
    all_goals
      apply BitVec.eq_of_getLsbD_eq
      intro i hi
      simp only [opcodeField, funct3Field, funct7Field, BitVec.getLsbD_extractLsb', BitVec.getLsbD_and]
      interval_cases i <;> simp
  · rintro ⟨h, g, k⟩
    rw [← hq]
    apply BitVec.eq_of_getLsbD_eq
    intro i hi
    have h0 (j : Nat) := congrArg (fun x : BitVec 7 => x.getLsbD j) h
    have g0 (j : Nat) := congrArg (fun x : BitVec 3 => x.getLsbD j) g
    have k0 (j : Nat) := congrArg (fun x : BitVec 7 => x.getLsbD j) k
    simp only [opcodeField, funct3Field, funct7Field, BitVec.getLsbD_extractLsb', BitVec.getLsbD_and] at h0 g0 k0 ⊢
    have h1 := h0 i
    have g1 := g0 (i - 12)
    have k1 := k0 (i - 25)
    interval_cases i <;> simp_all

/-! Fields of encoded words, by format (R122). -/

section
variable (funct7 opcode : BitVec 7) (rs2 rs1 rd : Reg) (funct3 : BitVec 3) (imm : BitVec 12) (imm20 : BitVec 20)
  (boff : BitVec 13) (joff : BitVec 21)

theorem encodeR_eq : encodeR funct7 rs2 rs1 funct3 rd opcode = (funct7 ++ rs2 ++ rs1 ++ funct3 ++ rd ++ opcode : BitVec (7 + 5 + 5 + 3 + 5 + 7)).setWidth 32 :=
  (BitVec.setWidth_eq _).symm

@[simp] theorem opcodeField_encodeR : opcodeField (encodeR funct7 rs2 rs1 funct3 rd opcode) = opcode := by
  rw [encodeR_eq]
  apply BitVec.eq_of_getLsbD_eq
  intro i hi
  simp only [opcodeField, BitVec.getLsbD_append, BitVec.getLsbD_extractLsb', BitVec.getLsbD_setWidth]
  interval_cases i <;> simp

@[simp] theorem funct3Field_encodeR : funct3Field (encodeR funct7 rs2 rs1 funct3 rd opcode) = funct3 := by
  rw [encodeR_eq]
  apply BitVec.eq_of_getLsbD_eq
  intro i hi
  simp only [funct3Field, BitVec.getLsbD_append, BitVec.getLsbD_extractLsb', BitVec.getLsbD_setWidth]
  interval_cases i <;> simp

@[simp] theorem funct7Field_encodeR : funct7Field (encodeR funct7 rs2 rs1 funct3 rd opcode) = funct7 := by
  rw [encodeR_eq]
  apply BitVec.eq_of_getLsbD_eq
  intro i hi
  simp only [funct7Field, BitVec.getLsbD_append, BitVec.getLsbD_extractLsb', BitVec.getLsbD_setWidth]
  interval_cases i <;> simp

@[simp] theorem rdField_encodeR : rdField (encodeR funct7 rs2 rs1 funct3 rd opcode) = rd := by
  rw [encodeR_eq]
  apply BitVec.eq_of_getLsbD_eq
  intro i hi
  simp only [rdField, BitVec.getLsbD_append, BitVec.getLsbD_extractLsb', BitVec.getLsbD_setWidth]
  interval_cases i <;> simp

@[simp] theorem rs1Field_encodeR : rs1Field (encodeR funct7 rs2 rs1 funct3 rd opcode) = rs1 := by
  rw [encodeR_eq]
  apply BitVec.eq_of_getLsbD_eq
  intro i hi
  simp only [rs1Field, BitVec.getLsbD_append, BitVec.getLsbD_extractLsb', BitVec.getLsbD_setWidth]
  interval_cases i <;> simp

@[simp] theorem rs2Field_encodeR : rs2Field (encodeR funct7 rs2 rs1 funct3 rd opcode) = rs2 := by
  rw [encodeR_eq]
  apply BitVec.eq_of_getLsbD_eq
  intro i hi
  simp only [rs2Field, BitVec.getLsbD_append, BitVec.getLsbD_extractLsb', BitVec.getLsbD_setWidth]
  interval_cases i <;> simp

theorem encodeI_eq : encodeI imm rs1 funct3 rd opcode = (imm ++ rs1 ++ funct3 ++ rd ++ opcode : BitVec (12 + 5 + 3 + 5 + 7)).setWidth 32 :=
  (BitVec.setWidth_eq _).symm

@[simp] theorem opcodeField_encodeI : opcodeField (encodeI imm rs1 funct3 rd opcode) = opcode := by
  rw [encodeI_eq]
  apply BitVec.eq_of_getLsbD_eq
  intro i hi
  simp only [opcodeField, BitVec.getLsbD_append, BitVec.getLsbD_extractLsb', BitVec.getLsbD_setWidth]
  interval_cases i <;> simp

@[simp] theorem funct3Field_encodeI : funct3Field (encodeI imm rs1 funct3 rd opcode) = funct3 := by
  rw [encodeI_eq]
  apply BitVec.eq_of_getLsbD_eq
  intro i hi
  simp only [funct3Field, BitVec.getLsbD_append, BitVec.getLsbD_extractLsb', BitVec.getLsbD_setWidth]
  interval_cases i <;> simp

@[simp] theorem rdField_encodeI : rdField (encodeI imm rs1 funct3 rd opcode) = rd := by
  rw [encodeI_eq]
  apply BitVec.eq_of_getLsbD_eq
  intro i hi
  simp only [rdField, BitVec.getLsbD_append, BitVec.getLsbD_extractLsb', BitVec.getLsbD_setWidth]
  interval_cases i <;> simp

@[simp] theorem rs1Field_encodeI : rs1Field (encodeI imm rs1 funct3 rd opcode) = rs1 := by
  rw [encodeI_eq]
  apply BitVec.eq_of_getLsbD_eq
  intro i hi
  simp only [rs1Field, BitVec.getLsbD_append, BitVec.getLsbD_extractLsb', BitVec.getLsbD_setWidth]
  interval_cases i <;> simp

@[simp] theorem immIField_encodeI : immIField (encodeI imm rs1 funct3 rd opcode) = imm := by
  rw [encodeI_eq]
  apply BitVec.eq_of_getLsbD_eq
  intro i hi
  simp only [immIField, BitVec.getLsbD_append, BitVec.getLsbD_extractLsb', BitVec.getLsbD_setWidth]
  interval_cases i <;> simp

theorem encodeS_eq : encodeS imm rs2 rs1 funct3 opcode = (imm.extractLsb' 5 7 ++ rs2 ++ rs1 ++ funct3 ++ imm.extractLsb' 0 5 ++ opcode : BitVec (7 + 5 + 5 + 3 + 5 + 7)).setWidth 32 :=
  (BitVec.setWidth_eq _).symm

@[simp] theorem opcodeField_encodeS : opcodeField (encodeS imm rs2 rs1 funct3 opcode) = opcode := by
  rw [encodeS_eq]
  apply BitVec.eq_of_getLsbD_eq
  intro i hi
  simp only [opcodeField, BitVec.getLsbD_append, BitVec.getLsbD_extractLsb', BitVec.getLsbD_setWidth]
  interval_cases i <;> simp

@[simp] theorem funct3Field_encodeS : funct3Field (encodeS imm rs2 rs1 funct3 opcode) = funct3 := by
  rw [encodeS_eq]
  apply BitVec.eq_of_getLsbD_eq
  intro i hi
  simp only [funct3Field, BitVec.getLsbD_append, BitVec.getLsbD_extractLsb', BitVec.getLsbD_setWidth]
  interval_cases i <;> simp

@[simp] theorem rs1Field_encodeS : rs1Field (encodeS imm rs2 rs1 funct3 opcode) = rs1 := by
  rw [encodeS_eq]
  apply BitVec.eq_of_getLsbD_eq
  intro i hi
  simp only [rs1Field, BitVec.getLsbD_append, BitVec.getLsbD_extractLsb', BitVec.getLsbD_setWidth]
  interval_cases i <;> simp

@[simp] theorem rs2Field_encodeS : rs2Field (encodeS imm rs2 rs1 funct3 opcode) = rs2 := by
  rw [encodeS_eq]
  apply BitVec.eq_of_getLsbD_eq
  intro i hi
  simp only [rs2Field, BitVec.getLsbD_append, BitVec.getLsbD_extractLsb', BitVec.getLsbD_setWidth]
  interval_cases i <;> simp

@[simp] theorem immSField_encodeS : immSField (encodeS imm rs2 rs1 funct3 opcode) = imm := by
  rw [encodeS_eq]
  apply BitVec.eq_of_getLsbD_eq
  intro i hi
  simp only [immSField, BitVec.getLsbD_append, BitVec.getLsbD_extractLsb', BitVec.getLsbD_setWidth]
  interval_cases i <;> simp

theorem encodeB_eq : encodeB boff rs2 rs1 funct3 opcode = (boff.extractLsb' 12 1 ++ boff.extractLsb' 5 6 ++ rs2 ++ rs1 ++ funct3 ++ boff.extractLsb' 1 4 ++ boff.extractLsb' 11 1 ++
      opcode : BitVec (1 + 6 + 5 + 5 + 3 + 4 + 1 + 7)).setWidth 32 :=
  (BitVec.setWidth_eq _).symm

@[simp] theorem opcodeField_encodeB : opcodeField (encodeB boff rs2 rs1 funct3 opcode) = opcode := by
  rw [encodeB_eq]
  apply BitVec.eq_of_getLsbD_eq
  intro i hi
  simp only [opcodeField, BitVec.getLsbD_append, BitVec.getLsbD_extractLsb', BitVec.getLsbD_setWidth]
  interval_cases i <;> simp

@[simp] theorem funct3Field_encodeB : funct3Field (encodeB boff rs2 rs1 funct3 opcode) = funct3 := by
  rw [encodeB_eq]
  apply BitVec.eq_of_getLsbD_eq
  intro i hi
  simp only [funct3Field, BitVec.getLsbD_append, BitVec.getLsbD_extractLsb', BitVec.getLsbD_setWidth]
  interval_cases i <;> simp

@[simp] theorem rs1Field_encodeB : rs1Field (encodeB boff rs2 rs1 funct3 opcode) = rs1 := by
  rw [encodeB_eq]
  apply BitVec.eq_of_getLsbD_eq
  intro i hi
  simp only [rs1Field, BitVec.getLsbD_append, BitVec.getLsbD_extractLsb', BitVec.getLsbD_setWidth]
  interval_cases i <;> simp

@[simp] theorem rs2Field_encodeB : rs2Field (encodeB boff rs2 rs1 funct3 opcode) = rs2 := by
  rw [encodeB_eq]
  apply BitVec.eq_of_getLsbD_eq
  intro i hi
  simp only [rs2Field, BitVec.getLsbD_append, BitVec.getLsbD_extractLsb', BitVec.getLsbD_setWidth]
  interval_cases i <;> simp

/-- Bit 0 of an offset is not encoded; an even offset comes back whole. -/
theorem immBField_encodeB (h : boff.getLsbD 0 = false) : immBField (encodeB boff rs2 rs1 funct3 opcode) = boff := by
  rw [encodeB_eq]
  apply BitVec.eq_of_getLsbD_eq
  intro i hi
  simp only [immBField, BitVec.getLsbD_append, BitVec.getLsbD_extractLsb', BitVec.getLsbD_setWidth]
  interval_cases i <;> simp_all

theorem encodeU_eq : encodeU imm20 rd opcode = (imm20 ++ rd ++ opcode : BitVec (20 + 5 + 7)).setWidth 32 :=
  (BitVec.setWidth_eq _).symm

@[simp] theorem opcodeField_encodeU : opcodeField (encodeU imm20 rd opcode) = opcode := by
  rw [encodeU_eq]
  apply BitVec.eq_of_getLsbD_eq
  intro i hi
  simp only [opcodeField, BitVec.getLsbD_append, BitVec.getLsbD_extractLsb', BitVec.getLsbD_setWidth]
  interval_cases i <;> simp

@[simp] theorem rdField_encodeU : rdField (encodeU imm20 rd opcode) = rd := by
  rw [encodeU_eq]
  apply BitVec.eq_of_getLsbD_eq
  intro i hi
  simp only [rdField, BitVec.getLsbD_append, BitVec.getLsbD_extractLsb', BitVec.getLsbD_setWidth]
  interval_cases i <;> simp

@[simp] theorem immUField_encodeU : immUField (encodeU imm20 rd opcode) = imm20 := by
  rw [encodeU_eq]
  apply BitVec.eq_of_getLsbD_eq
  intro i hi
  simp only [immUField, BitVec.getLsbD_append, BitVec.getLsbD_extractLsb', BitVec.getLsbD_setWidth]
  interval_cases i <;> simp

theorem encodeJ_eq : encodeJ joff rd opcode = (joff.extractLsb' 20 1 ++ joff.extractLsb' 1 10 ++ joff.extractLsb' 11 1 ++ joff.extractLsb' 12 8 ++ rd ++
      opcode : BitVec (1 + 10 + 1 + 8 + 5 + 7)).setWidth 32 :=
  (BitVec.setWidth_eq _).symm

@[simp] theorem opcodeField_encodeJ : opcodeField (encodeJ joff rd opcode) = opcode := by
  rw [encodeJ_eq]
  apply BitVec.eq_of_getLsbD_eq
  intro i hi
  simp only [opcodeField, BitVec.getLsbD_append, BitVec.getLsbD_extractLsb', BitVec.getLsbD_setWidth]
  interval_cases i <;> simp

@[simp] theorem rdField_encodeJ : rdField (encodeJ joff rd opcode) = rd := by
  rw [encodeJ_eq]
  apply BitVec.eq_of_getLsbD_eq
  intro i hi
  simp only [rdField, BitVec.getLsbD_append, BitVec.getLsbD_extractLsb', BitVec.getLsbD_setWidth]
  interval_cases i <;> simp

/-- Bit 0 of an offset is not encoded; an even offset comes back whole. -/
theorem immJField_encodeJ (h : joff.getLsbD 0 = false) : immJField (encodeJ joff rd opcode) = joff := by
  rw [encodeJ_eq]
  apply BitVec.eq_of_getLsbD_eq
  intro i hi
  simp only [immJField, BitVec.getLsbD_append, BitVec.getLsbD_extractLsb', BitVec.getLsbD_setWidth]
  interval_cases i <;> simp_all

end

/-! ## The decode function by fields -/

/-- One row of the table at a time (R121). -/
theorem decodeWord_cons (row : OpcodeRow) (rows : List OpcodeRow) (w : Word) :
    ((row :: rows).find? (rowSelects w)).map (fun r => r.build w) =
      if w &&& row.mask = row.pattern then
      some (row.build w) else (rows.find? (rowSelects w)).map fun r => r.build w := by
  by_cases h : w &&& row.mask = row.pattern
  · simp [rowSelects, h]
  · have : rowSelects w row = false := by simpa [rowSelects] using h
    simp [this, h]

/-- What decodes is built by a row that selects the word (R121). -/
theorem decodeWord_row {w : Word} {i : Instr} (h : decodeWord w = some i) :
    ∃ row ∈ opcodeTable, w &&& row.mask = row.pattern ∧ row.build w = i := by
  unfold decodeWord at h
  obtain ⟨row, hr, hi⟩ := Option.map_eq_some_iff.1 h
  exact ⟨row, List.mem_of_find?_eq_some hr, by simpa [rowSelects] using List.find?_some hr, hi⟩

/-- The decode function said by the fields of R122 in place of masks (R125, R126). -/
theorem decodeWord_fields (w : Word) : decodeWord w =
    if opcodeField w = 0x37#7 then some (.lui (rdField w) (immUField w))
    else if opcodeField w = 0x17#7 then some (.auipc (rdField w) (immUField w))
    else if opcodeField w = 0x6F#7 then some (.jal (rdField w) (immJField w))
    else if opcodeField w = 0x67#7 ∧ funct3Field w = 0#3 then some (.jalr (rdField w) (rs1Field w) (immIField w))
    else if opcodeField w = 0x63#7 ∧ funct3Field w = 0#3 then some (.beq (rs1Field w) (rs2Field w) (immBField w))
    else if opcodeField w = 0x63#7 ∧ funct3Field w = 1#3 then some (.bne (rs1Field w) (rs2Field w) (immBField w))
    else if opcodeField w = 0x63#7 ∧ funct3Field w = 4#3 then some (.blt (rs1Field w) (rs2Field w) (immBField w))
    else if opcodeField w = 0x63#7 ∧ funct3Field w = 5#3 then some (.bge (rs1Field w) (rs2Field w) (immBField w))
    else if opcodeField w = 0x63#7 ∧ funct3Field w = 6#3 then some (.bltu (rs1Field w) (rs2Field w) (immBField w))
    else if opcodeField w = 0x63#7 ∧ funct3Field w = 7#3 then some (.bgeu (rs1Field w) (rs2Field w) (immBField w))
    else if opcodeField w = 0x03#7 ∧ funct3Field w = 0#3 then some (.lb (rdField w) (rs1Field w) (immIField w))
    else if opcodeField w = 0x03#7 ∧ funct3Field w = 1#3 then some (.lh (rdField w) (rs1Field w) (immIField w))
    else if opcodeField w = 0x03#7 ∧ funct3Field w = 2#3 then some (.lw (rdField w) (rs1Field w) (immIField w))
    else if opcodeField w = 0x03#7 ∧ funct3Field w = 4#3 then some (.lbu (rdField w) (rs1Field w) (immIField w))
    else if opcodeField w = 0x03#7 ∧ funct3Field w = 5#3 then some (.lhu (rdField w) (rs1Field w) (immIField w))
    else if opcodeField w = 0x23#7 ∧ funct3Field w = 0#3 then some (.sb (rs2Field w) (rs1Field w) (immSField w))
    else if opcodeField w = 0x23#7 ∧ funct3Field w = 1#3 then some (.sh (rs2Field w) (rs1Field w) (immSField w))
    else if opcodeField w = 0x23#7 ∧ funct3Field w = 2#3 then some (.sw (rs2Field w) (rs1Field w) (immSField w))
    else if opcodeField w = 0x13#7 ∧ funct3Field w = 0#3 then some (.addi (rdField w) (rs1Field w) (immIField w))
    else if opcodeField w = 0x13#7 ∧ funct3Field w = 2#3 then some (.slti (rdField w) (rs1Field w) (immIField w))
    else if opcodeField w = 0x13#7 ∧ funct3Field w = 3#3 then some (.sltiu (rdField w) (rs1Field w) (immIField w))
    else if opcodeField w = 0x13#7 ∧ funct3Field w = 4#3 then some (.xori (rdField w) (rs1Field w) (immIField w))
    else if opcodeField w = 0x13#7 ∧ funct3Field w = 6#3 then some (.ori (rdField w) (rs1Field w) (immIField w))
    else if opcodeField w = 0x13#7 ∧ funct3Field w = 7#3 then some (.andi (rdField w) (rs1Field w) (immIField w))
    else if opcodeField w = 0x13#7 ∧ funct3Field w = 1#3 ∧ funct7Field w = 0#7 then
      some (.slli (rdField w) (rs1Field w) (rs2Field w))
    else if opcodeField w = 0x13#7 ∧ funct3Field w = 5#3 ∧ funct7Field w = 0#7 then
      some (.srli (rdField w) (rs1Field w) (rs2Field w))
    else if opcodeField w = 0x13#7 ∧ funct3Field w = 5#3 ∧ funct7Field w = 0x20#7 then
      some (.srai (rdField w) (rs1Field w) (rs2Field w))
    else if opcodeField w = 0x33#7 ∧ funct3Field w = 0#3 ∧ funct7Field w = 0#7 then
      some (.add (rdField w) (rs1Field w) (rs2Field w))
    else if opcodeField w = 0x33#7 ∧ funct3Field w = 0#3 ∧ funct7Field w = 0x20#7 then
      some (.sub (rdField w) (rs1Field w) (rs2Field w))
    else if opcodeField w = 0x33#7 ∧ funct3Field w = 1#3 ∧ funct7Field w = 0#7 then
      some (.sll (rdField w) (rs1Field w) (rs2Field w))
    else if opcodeField w = 0x33#7 ∧ funct3Field w = 2#3 ∧ funct7Field w = 0#7 then
      some (.slt (rdField w) (rs1Field w) (rs2Field w))
    else if opcodeField w = 0x33#7 ∧ funct3Field w = 3#3 ∧ funct7Field w = 0#7 then
      some (.sltu (rdField w) (rs1Field w) (rs2Field w))
    else if opcodeField w = 0x33#7 ∧ funct3Field w = 4#3 ∧ funct7Field w = 0#7 then
      some (.xor (rdField w) (rs1Field w) (rs2Field w))
    else if opcodeField w = 0x33#7 ∧ funct3Field w = 5#3 ∧ funct7Field w = 0#7 then
      some (.srl (rdField w) (rs1Field w) (rs2Field w))
    else if opcodeField w = 0x33#7 ∧ funct3Field w = 5#3 ∧ funct7Field w = 0x20#7 then
      some (.sra (rdField w) (rs1Field w) (rs2Field w))
    else if opcodeField w = 0x33#7 ∧ funct3Field w = 6#3 ∧ funct7Field w = 0#7 then
      some (.or (rdField w) (rs1Field w) (rs2Field w))
    else if opcodeField w = 0x33#7 ∧ funct3Field w = 7#3 ∧ funct7Field w = 0#7 then
      some (.and (rdField w) (rs1Field w) (rs2Field w))
    else none := by
  unfold decodeWord
  simp only [opcodeTable, rowsUpperJump, rowsBranch, rowsLoad, rowsStore, rowsImmediate, rowsRegister, List.cons_append,
    List.nil_append, decodeWord_cons]
  iterate 3 refine if_congr (selects_opcode w _ (by decide)) rfl ?_
  iterate 21 refine if_congr (selects_funct3 w _ (by decide)) rfl ?_
  iterate 13 refine if_congr (selects_funct7 w _ (by decide)) rfl ?_
  rfl

/-! ## Words from their fields (R122, R123) -/

theorem encodeR_fields (w : Word) :
    encodeR (funct7Field w) (rs2Field w) (rs1Field w) (funct3Field w) (rdField w) (opcodeField w) = w := by
  rw [encodeR_eq]
  apply BitVec.eq_of_getLsbD_eq
  intro i hi
  simp only [funct7Field, rs2Field, rs1Field, funct3Field, rdField, opcodeField, BitVec.getLsbD_append,
    BitVec.getLsbD_extractLsb', BitVec.getLsbD_setWidth]
  interval_cases i <;> simp

theorem encodeI_fields (w : Word) :
    encodeI (immIField w) (rs1Field w) (funct3Field w) (rdField w) (opcodeField w) = w := by
  rw [encodeI_eq]
  apply BitVec.eq_of_getLsbD_eq
  intro i hi
  simp only [immIField, rs1Field, funct3Field, rdField, opcodeField, BitVec.getLsbD_append,
    BitVec.getLsbD_extractLsb', BitVec.getLsbD_setWidth]
  interval_cases i <;> simp

theorem encodeS_fields (w : Word) :
    encodeS (immSField w) (rs2Field w) (rs1Field w) (funct3Field w) (opcodeField w) = w := by
  rw [encodeS_eq]
  apply BitVec.eq_of_getLsbD_eq
  intro i hi
  simp only [immSField, rs2Field, rs1Field, funct3Field, opcodeField, BitVec.getLsbD_append,
    BitVec.getLsbD_extractLsb', BitVec.getLsbD_setWidth]
  interval_cases i <;> simp

theorem encodeB_fields (w : Word) :
    encodeB (immBField w) (rs2Field w) (rs1Field w) (funct3Field w) (opcodeField w) = w := by
  rw [encodeB_eq]
  apply BitVec.eq_of_getLsbD_eq
  intro i hi
  simp only [immBField, rs2Field, rs1Field, funct3Field, opcodeField, BitVec.getLsbD_append,
    BitVec.getLsbD_extractLsb', BitVec.getLsbD_setWidth]
  interval_cases i <;> simp

theorem encodeU_fields (w : Word) : encodeU (immUField w) (rdField w) (opcodeField w) = w := by
  rw [encodeU_eq]
  apply BitVec.eq_of_getLsbD_eq
  intro i hi
  simp only [immUField, rdField, opcodeField, BitVec.getLsbD_append, BitVec.getLsbD_extractLsb',
    BitVec.getLsbD_setWidth]
  interval_cases i <;> simp

theorem encodeJ_fields (w : Word) : encodeJ (immJField w) (rdField w) (opcodeField w) = w := by
  rw [encodeJ_eq]
  apply BitVec.eq_of_getLsbD_eq
  intro i hi
  simp only [immJField, rdField, opcodeField, BitVec.getLsbD_append, BitVec.getLsbD_extractLsb',
    BitVec.getLsbD_setWidth]
  interval_cases i <;> simp

/-- The offsets of the B and J formats are even (R123). -/
theorem immBField_even (w : Word) : (immBField w).getLsbD 0 = false := by
  simp only [immBField, BitVec.getLsbD_append]
  simp

theorem immJField_even (w : Word) : (immJField w).getLsbD 0 = false := by
  simp only [immJField, BitVec.getLsbD_append]
  simp

end Sys2Proof.Laws
end

