-- ==== Sys2Proof/Laws/PerInstr.lean ====
section
/-! SUPPORT. What the word of each instruction looks like, one lemma per constructor: it is a 32-bit encoding, and the
destination register stands in its field. -/

namespace Sys2Proof.Laws.Encoding

/-- The word of an instruction ends in the bits 11 of a 32-bit encoding (spec/30_encoding.md R120, R127), and where the
instruction names a destination register, the field `rd` of the word is that register (R124). -/
def Statement (i : Instr) : Prop :=
  (encode i).extractLsb' 0 2 = 0b11#2 ∧ ∀ r, i.dest = some r → rdField (encode i) = r

/-- The low two bits are those of the opcode field. -/
theorem low_bits {w : Word} {q : BitVec 7} (h : opcodeField w = q) (hq : q.extractLsb' 0 2 = 0b11#2) :
    w.extractLsb' 0 2 = 0b11#2 := by
  rw [← hq, ← h, opcodeField]
  ext k hk
  simp only [BitVec.getElem_extractLsb', BitVec.getLsbD_extractLsb', Nat.zero_add]
  simp [show k < 7 by omega]

theorem lui (rd imm20 : _) : Statement (.lui rd imm20) :=
  ⟨low_bits (by rw [encode, opcodeField_encodeU]) rfl, fun _ h => by cases h; rw [encode, rdField_encodeU]⟩

theorem auipc (rd imm20 : _) : Statement (.auipc rd imm20) :=
  ⟨low_bits (by rw [encode, opcodeField_encodeU]) rfl, fun _ h => by cases h; rw [encode, rdField_encodeU]⟩

theorem jal (rd offset : _) : Statement (.jal rd offset) :=
  ⟨low_bits (by rw [encode, opcodeField_encodeJ]) rfl, fun _ h => by cases h; rw [encode, rdField_encodeJ]⟩

theorem jalr (rd rs1 imm : _) : Statement (.jalr rd rs1 imm) :=
  ⟨low_bits (by rw [encode, opcodeField_encodeI]) rfl, fun _ h => by cases h; rw [encode, rdField_encodeI]⟩

theorem beq (rs1 rs2 offset : _) : Statement (.beq rs1 rs2 offset) :=
  ⟨low_bits (by rw [encode, opcodeField_encodeB]) rfl, fun _ h => by cases h⟩

theorem bne (rs1 rs2 offset : _) : Statement (.bne rs1 rs2 offset) :=
  ⟨low_bits (by rw [encode, opcodeField_encodeB]) rfl, fun _ h => by cases h⟩

theorem blt (rs1 rs2 offset : _) : Statement (.blt rs1 rs2 offset) :=
  ⟨low_bits (by rw [encode, opcodeField_encodeB]) rfl, fun _ h => by cases h⟩

theorem bge (rs1 rs2 offset : _) : Statement (.bge rs1 rs2 offset) :=
  ⟨low_bits (by rw [encode, opcodeField_encodeB]) rfl, fun _ h => by cases h⟩

theorem bltu (rs1 rs2 offset : _) : Statement (.bltu rs1 rs2 offset) :=
  ⟨low_bits (by rw [encode, opcodeField_encodeB]) rfl, fun _ h => by cases h⟩

theorem bgeu (rs1 rs2 offset : _) : Statement (.bgeu rs1 rs2 offset) :=
  ⟨low_bits (by rw [encode, opcodeField_encodeB]) rfl, fun _ h => by cases h⟩

theorem lb (rd rs1 imm : _) : Statement (.lb rd rs1 imm) :=
  ⟨low_bits (by rw [encode, opcodeField_encodeI]) rfl, fun _ h => by cases h; rw [encode, rdField_encodeI]⟩

theorem lh (rd rs1 imm : _) : Statement (.lh rd rs1 imm) :=
  ⟨low_bits (by rw [encode, opcodeField_encodeI]) rfl, fun _ h => by cases h; rw [encode, rdField_encodeI]⟩

theorem lw (rd rs1 imm : _) : Statement (.lw rd rs1 imm) :=
  ⟨low_bits (by rw [encode, opcodeField_encodeI]) rfl, fun _ h => by cases h; rw [encode, rdField_encodeI]⟩

theorem lbu (rd rs1 imm : _) : Statement (.lbu rd rs1 imm) :=
  ⟨low_bits (by rw [encode, opcodeField_encodeI]) rfl, fun _ h => by cases h; rw [encode, rdField_encodeI]⟩

theorem lhu (rd rs1 imm : _) : Statement (.lhu rd rs1 imm) :=
  ⟨low_bits (by rw [encode, opcodeField_encodeI]) rfl, fun _ h => by cases h; rw [encode, rdField_encodeI]⟩

theorem sb (rs2 rs1 imm : _) : Statement (.sb rs2 rs1 imm) :=
  ⟨low_bits (by rw [encode, opcodeField_encodeS]) rfl, fun _ h => by cases h⟩

theorem sh (rs2 rs1 imm : _) : Statement (.sh rs2 rs1 imm) :=
  ⟨low_bits (by rw [encode, opcodeField_encodeS]) rfl, fun _ h => by cases h⟩

theorem sw (rs2 rs1 imm : _) : Statement (.sw rs2 rs1 imm) :=
  ⟨low_bits (by rw [encode, opcodeField_encodeS]) rfl, fun _ h => by cases h⟩

theorem addi (rd rs1 imm : _) : Statement (.addi rd rs1 imm) :=
  ⟨low_bits (by rw [encode, opcodeField_encodeI]) rfl, fun _ h => by cases h; rw [encode, rdField_encodeI]⟩

theorem slti (rd rs1 imm : _) : Statement (.slti rd rs1 imm) :=
  ⟨low_bits (by rw [encode, opcodeField_encodeI]) rfl, fun _ h => by cases h; rw [encode, rdField_encodeI]⟩

theorem sltiu (rd rs1 imm : _) : Statement (.sltiu rd rs1 imm) :=
  ⟨low_bits (by rw [encode, opcodeField_encodeI]) rfl, fun _ h => by cases h; rw [encode, rdField_encodeI]⟩

theorem xori (rd rs1 imm : _) : Statement (.xori rd rs1 imm) :=
  ⟨low_bits (by rw [encode, opcodeField_encodeI]) rfl, fun _ h => by cases h; rw [encode, rdField_encodeI]⟩

theorem ori (rd rs1 imm : _) : Statement (.ori rd rs1 imm) :=
  ⟨low_bits (by rw [encode, opcodeField_encodeI]) rfl, fun _ h => by cases h; rw [encode, rdField_encodeI]⟩

theorem andi (rd rs1 imm : _) : Statement (.andi rd rs1 imm) :=
  ⟨low_bits (by rw [encode, opcodeField_encodeI]) rfl, fun _ h => by cases h; rw [encode, rdField_encodeI]⟩

theorem slli (rd rs1 shamt : _) : Statement (.slli rd rs1 shamt) :=
  ⟨low_bits (by rw [encode, opcodeField_encodeR]) rfl, fun _ h => by cases h; rw [encode, rdField_encodeR]⟩

theorem srli (rd rs1 shamt : _) : Statement (.srli rd rs1 shamt) :=
  ⟨low_bits (by rw [encode, opcodeField_encodeR]) rfl, fun _ h => by cases h; rw [encode, rdField_encodeR]⟩

theorem srai (rd rs1 shamt : _) : Statement (.srai rd rs1 shamt) :=
  ⟨low_bits (by rw [encode, opcodeField_encodeR]) rfl, fun _ h => by cases h; rw [encode, rdField_encodeR]⟩

theorem add (rd rs1 rs2 : _) : Statement (.add rd rs1 rs2) :=
  ⟨low_bits (by rw [encode, opcodeField_encodeR]) rfl, fun _ h => by cases h; rw [encode, rdField_encodeR]⟩

theorem sub (rd rs1 rs2 : _) : Statement (.sub rd rs1 rs2) :=
  ⟨low_bits (by rw [encode, opcodeField_encodeR]) rfl, fun _ h => by cases h; rw [encode, rdField_encodeR]⟩

theorem sll (rd rs1 rs2 : _) : Statement (.sll rd rs1 rs2) :=
  ⟨low_bits (by rw [encode, opcodeField_encodeR]) rfl, fun _ h => by cases h; rw [encode, rdField_encodeR]⟩

theorem slt (rd rs1 rs2 : _) : Statement (.slt rd rs1 rs2) :=
  ⟨low_bits (by rw [encode, opcodeField_encodeR]) rfl, fun _ h => by cases h; rw [encode, rdField_encodeR]⟩

theorem sltu (rd rs1 rs2 : _) : Statement (.sltu rd rs1 rs2) :=
  ⟨low_bits (by rw [encode, opcodeField_encodeR]) rfl, fun _ h => by cases h; rw [encode, rdField_encodeR]⟩

theorem xor (rd rs1 rs2 : _) : Statement (.xor rd rs1 rs2) :=
  ⟨low_bits (by rw [encode, opcodeField_encodeR]) rfl, fun _ h => by cases h; rw [encode, rdField_encodeR]⟩

theorem srl (rd rs1 rs2 : _) : Statement (.srl rd rs1 rs2) :=
  ⟨low_bits (by rw [encode, opcodeField_encodeR]) rfl, fun _ h => by cases h; rw [encode, rdField_encodeR]⟩

theorem sra (rd rs1 rs2 : _) : Statement (.sra rd rs1 rs2) :=
  ⟨low_bits (by rw [encode, opcodeField_encodeR]) rfl, fun _ h => by cases h; rw [encode, rdField_encodeR]⟩

theorem or (rd rs1 rs2 : _) : Statement (.or rd rs1 rs2) :=
  ⟨low_bits (by rw [encode, opcodeField_encodeR]) rfl, fun _ h => by cases h; rw [encode, rdField_encodeR]⟩

theorem and (rd rs1 rs2 : _) : Statement (.and rd rs1 rs2) :=
  ⟨low_bits (by rw [encode, opcodeField_encodeR]) rfl, fun _ h => by cases h; rw [encode, rdField_encodeR]⟩

end Sys2Proof.Laws.Encoding
end

