-- ==== Sys2Proof/Machine/Observe.lean ====
section
/-! DEFINITION. What the host reads and how it runs the machine: the per-cycle snapshot (spec/60_exceptions.md R287), the
bypass class of a cycle (R257, R288), the run budgets (spec/70_reset_and_hazards.md R298). Reading changes no state. -/

namespace Sys2Proof.Machine

/-! ## Instruction text in the syntax of R130 -/

/-- The mnemonic, in lower case. -/
def Op.mnemonic : Op → String
  | .lui => "lui"
  | .auipc => "auipc"
  | .jal => "jal"
  | .jalr => "jalr"
  | .beq => "beq"
  | .bne => "bne"
  | .blt => "blt"
  | .bge => "bge"
  | .bltu => "bltu"
  | .bgeu => "bgeu"
  | .lb => "lb"
  | .lh => "lh"
  | .lw => "lw"
  | .lbu => "lbu"
  | .lhu => "lhu"
  | .sb => "sb"
  | .sh => "sh"
  | .sw => "sw"
  | .addi => "addi"
  | .slti => "slti"
  | .sltiu => "sltiu"
  | .xori => "xori"
  | .ori => "ori"
  | .andi => "andi"
  | .slli => "slli"
  | .srli => "srli"
  | .srai => "srai"
  | .add => "add"
  | .sub => "sub"
  | .sll => "sll"
  | .slt => "slt"
  | .sltu => "sltu"
  | .xor => "xor"
  | .srl => "srl"
  | .sra => "sra"
  | .or => "or"
  | .and => "and"

/-- `x0` to `x31`; nothing for an absent field. -/
def regText (r : Option Reg) : String :=
  match r with
  | none => ""
  | some r => "x" ++ toString r.toNat

/-- The instruction of a record in the operand order of R130. The U format shows the 20 upper bits. -/
def Record.text (r : Record) : String :=
  let imm := toString r.imm.toInt
  let operands :=
    if r.isLoad then regText r.rd ++ ", " ++ imm ++ "(" ++ regText r.rs1 ++ ")"
    else
      match r.fmt with
      | .R => regText r.rd ++ ", " ++ regText r.rs1 ++ ", " ++ regText r.rs2
      | .I =>
        if r.op = .jalr then regText r.rd ++ ", " ++ imm ++ "(" ++ regText r.rs1 ++ ")"
        else regText r.rd ++ ", " ++ regText r.rs1 ++ ", " ++ imm
      | .S => regText r.rs2 ++ ", " ++ imm ++ "(" ++ regText r.rs1 ++ ")"
      | .B => regText r.rs1 ++ ", " ++ regText r.rs2 ++ ", " ++ imm
      | .U => regText r.rd ++ ", " ++ toString (r.imm >>> 12).toNat
      | .J => regText r.rd ++ ", " ++ imm
  r.op.mnemonic ++ " " ++ operands

/-! ## The per-cycle snapshot (R287) -/

/-- What the snapshot shows of one stage. -/
structure StageSnapshot where
  empty : Bool
  pc : Option Word
  text : Option String
  stalled : Bool
  flushed : Bool
  cacheWaiting : Bool
  deriving DecidableEq, Repr

/-- The five stages of one cycle. -/
structure Snapshot where
  f : StageSnapshot
  d : StageSnapshot
  e : StageSnapshot
  m : StageSnapshot
  w : StageSnapshot
  deriving DecidableEq, Repr

/-- A stage that shows the record in its upstream latch. -/
def stageSnapshot (r : Option Record) (stalled flushed cacheWaiting : Bool) : StageSnapshot where
  empty := r.isNone
  pc := r.map fun r => r.pc
  text := r.map fun r => r.text
  stalled := stalled
  flushed := flushed && r.isSome
  cacheWaiting := cacheWaiting

/-- The snapshot of the cycle that starts in `s`: the latches and `pc` at its start, the wires and flags at the end of
phase 2 (R287). -/
def snapshot (s : State) : Snapshot :=
  let t := beforeAdvance s
  let w := t.wires
  { f := { empty := false, pc := some s.pc, text := none, stalled := w.stallFD, flushed := w.flush,
           cacheWaiting := t.fetchPending }
    d := stageSnapshot s.fd.cur w.stallFD w.flush false
    e := stageSnapshot s.de.cur w.stallDE w.flush false
    m := stageSnapshot s.em.cur w.stallEM false t.mWaiting
    w := stageSnapshot s.mw.cur false false false }

/-- `byp_class` of the cycle that starts in `s` (R257, R297). -/
def bypassClassOf (s : State) : BypassClass := (beforeAdvance s).wires.bypClass

/-! ## Run budgets (R298) -/

/-- `run_cycles(n)`: `n` clocks, or until a fault (a halted machine stays as it is, R276). -/
def runCycles : Nat → State → State
  | 0, s => s
  | n + 1, s => runCycles n (clock s)

/-- `run_retired(n)`: clocks until `retired >= n` or a fault, within `fuel` clocks. -/
def runRetired : Nat → Nat → State → State
  | 0, _, s => s
  | fuel + 1, n, s => if n ≤ s.counters.retired ∨ s.fault.isSome then s else runRetired fuel n (clock s)

end Sys2Proof.Machine
end

