-- ==== Sys2Proof/Tests/Slice0.lean ====
section
/-! SUPPORT. Tests of the model. Every expected value stands in the spec, or is worked out by hand from the rule the comment
names; the words are those of the spec's examples. At the end, for every statement with hypotheses, a state and operands
that meet them. -/

namespace Sys2Proof.Tests

open Sys2Proof.Machine

/-! ## Ill-formed terms (R123, R130): an odd offset has no encoding -/

theorem test_illFormed_jal : (Instr.jal 1 3).wellFormed = false := by decide

theorem test_illFormed_beq : (Instr.beq 6 7 1).wellFormed = false := by decide

theorem test_illFormed_bne : (Instr.bne 6 7 (-1)).wellFormed = false := by decide

theorem test_illFormed_blt : (Instr.blt 6 7 5).wellFormed = false := by decide

theorem test_illFormed_bge : (Instr.bge 6 7 4095).wellFormed = false := by decide

theorem test_illFormed_bltu : (Instr.bltu 6 7 9).wellFormed = false := by decide

theorem test_illFormed_bgeu : (Instr.bgeu 6 7 (-7)).wellFormed = false := by decide

/-! ## Decoding (R120 to R126): the example words of files 40 to 42 -/

theorem test_decode_lui : decodeTableWord 32 0x123452B7 = some (.lui 5 0x12345) := by decide

theorem test_decode_auipc : decodeTableWord 32 0xFFFFF297 = some (.auipc 5 0xFFFFF) := by decide

theorem test_decode_jal : decodeTableWord 32 0x00C000EF = some (.jal 1 12) := by decide

theorem test_decode_jal_back : decodeTableWord 32 0xFF9FF0EF = some (.jal 1 (-8)) := by decide

theorem test_decode_jalr : decodeTableWord 32 0xFFC300E7 = some (.jalr 1 6 (-4)) := by decide

theorem test_decode_beq : decodeTableWord 32 0xFE730CE3 = some (.beq 6 7 (-8)) := by decide

theorem test_decode_bne : decodeTableWord 32 0xFE731CE3 = some (.bne 6 7 (-8)) := by decide

theorem test_decode_blt : decodeTableWord 32 0xFE734CE3 = some (.blt 6 7 (-8)) := by decide

theorem test_decode_bge : decodeTableWord 32 0xFE735CE3 = some (.bge 6 7 (-8)) := by decide

theorem test_decode_bltu : decodeTableWord 32 0xFE736CE3 = some (.bltu 6 7 (-8)) := by decide

theorem test_decode_bgeu : decodeTableWord 32 0xFE737CE3 = some (.bgeu 6 7 (-8)) := by decide

theorem test_decode_beq_far : decodeTableWord 32 0x7E730FE3 = some (.beq 6 7 4094) := by decide

theorem test_decode_lb : decodeTableWord 32 0xFFC30283 = some (.lb 5 6 (-4)) := by decide

theorem test_decode_lh : decodeTableWord 32 0xFFC31283 = some (.lh 5 6 (-4)) := by decide

theorem test_decode_lw : decodeTableWord 32 0xFFC32283 = some (.lw 5 6 (-4)) := by decide

theorem test_decode_lbu : decodeTableWord 32 0xFFC34283 = some (.lbu 5 6 (-4)) := by decide

theorem test_decode_lhu : decodeTableWord 32 0xFFC35283 = some (.lhu 5 6 (-4)) := by decide

theorem test_decode_sb : decodeTableWord 32 0xFE730E23 = some (.sb 7 6 (-4)) := by decide

theorem test_decode_sh : decodeTableWord 32 0xFE731E23 = some (.sh 7 6 (-4)) := by decide

theorem test_decode_sw : decodeTableWord 32 0xFE732E23 = some (.sw 7 6 (-4)) := by decide

theorem test_decode_addi : decodeTableWord 32 0xFFF30293 = some (.addi 5 6 (-1)) := by decide

theorem test_decode_slti : decodeTableWord 32 0xFFF32293 = some (.slti 5 6 (-1)) := by decide

theorem test_decode_sltiu : decodeTableWord 32 0xFFF33293 = some (.sltiu 5 6 (-1)) := by decide

theorem test_decode_xori : decodeTableWord 32 0xFFF34293 = some (.xori 5 6 (-1)) := by decide

theorem test_decode_ori : decodeTableWord 32 0x80036293 = some (.ori 5 6 (-2048)) := by decide

theorem test_decode_andi : decodeTableWord 32 0x0FF37293 = some (.andi 5 6 0xFF) := by decide

theorem test_decode_slli : decodeTableWord 32 0x01F31293 = some (.slli 5 6 31) := by decide

theorem test_decode_srli : decodeTableWord 32 0x01F35293 = some (.srli 5 6 31) := by decide

theorem test_decode_srai : decodeTableWord 32 0x41F35293 = some (.srai 5 6 31) := by decide

theorem test_decode_add : decodeTableWord 32 0x007302B3 = some (.add 5 6 7) := by decide

theorem test_decode_sub : decodeTableWord 32 0x407302B3 = some (.sub 5 6 7) := by decide

theorem test_decode_sll : decodeTableWord 32 0x007312B3 = some (.sll 5 6 7) := by decide

theorem test_decode_slt : decodeTableWord 32 0x007322B3 = some (.slt 5 6 7) := by decide

theorem test_decode_sltu : decodeTableWord 32 0x007332B3 = some (.sltu 5 6 7) := by decide

theorem test_decode_xor : decodeTableWord 32 0x007342B3 = some (.xor 5 6 7) := by decide

theorem test_decode_srl : decodeTableWord 32 0x007352B3 = some (.srl 5 6 7) := by decide

theorem test_decode_sra : decodeTableWord 32 0x407352B3 = some (.sra 5 6 7) := by decide

theorem test_decode_or : decodeTableWord 32 0x007362B3 = some (.or 5 6 7) := by decide

theorem test_decode_and : decodeTableWord 32 0x007372B3 = some (.and 5 6 7) := by decide

/-- R127: SLLI's fields with `funct7` 0100000, ECALL, FENCE, MUL and the all-zero word are illegal. -/
theorem test_decode_illegal :
    [0x40101093, 0x00000073, 0x0FF0000F, 0x02A28333, 0x00000000].map (decodeTableWord 32) = [none, none, none, none, none] := by
  decide

/-- The encoder writes the same word (R122). -/
theorem test_encode_branch : encode (.beq 6 7 (-4096)) = 0x80730063#32 := by decide

/-! ## One instruction at a time (files 40 to 42) -/

/-- A small configuration: 1024 bytes of store, the caches and beats of the spec's T0 (spec/95_test_vectors.md). -/
def small : Config where
  memSize := 1024
  latency := 2
  icache := { ways := 2, sets := 2, lineSize := 8 }
  dcache := { ways := 2, sets := 2, lineSize := 8 }
  fillBeat := 2
  portBeat := 2

/-- A machine at `pc` with x6 and x7 set and the bytes 80 FF 7F 01 at 0x200 (R198). -/
def machine (pc x6 x7 : Word) : State :=
  let s := State.resetWith small [(0x200, 0x80), (0x201, 0xFF), (0x202, 0x7F), (0x203, 0x01)] 0 0 0 0
  { (s.writeReg 6 x6).writeReg 7 x7 with pc := pc }

/-- `x[r]` and `pc` after the word `w` has run as the next instruction of `s`. -/
def after (s : State) (w : Nat) (r : Reg) : Option (Word × Word) :=
  match step (s.withFetchWord 32 w) with
  | .next t => some (t.x r, t.pc)
  | _ => none

/-- `Mem[0x200..0x203]` after the word `w` has run as the next instruction of `s`. -/
def stored (s : State) (w : Nat) : Option (List Byte) :=
  match step (s.withFetchWord 32 w) with
  | .next t => some (archBytes t 0x200 4)
  | _ => none

/-- The fault of the word `w` run as the next instruction of `s`. -/
def faulted (s : State) (w : Nat) : Option Fault :=
  match step (s.withFetchWord 32 w) with
  | .fault f => some f
  | _ => none

theorem test_addi : after (machine 0x100 0x0 0x0) 0xFFF30293 5 = some (0xffffffff, 0x104) := by decide

theorem test_addi_wraps : after (machine 0x100 0x7fffffff 0x0) 0x7FF30293 5 = some (0x800007fe, 0x104) := by decide

theorem test_slti : after (machine 0x100 0xfffffffe 0x0) 0xFFF32293 5 = some (0x1, 0x104) := by decide

theorem test_slti_signed : after (machine 0x100 0x7fffffff 0x0) 0x80032293 5 = some (0x0, 0x104) := by decide

theorem test_sltiu : after (machine 0x100 0xfffffffe 0x0) 0xFFF33293 5 = some (0x1, 0x104) := by decide

theorem test_sltiu_zero : after (machine 0x100 0x0 0x0) 0x00033293 5 = some (0x0, 0x104) := by decide

theorem test_xori : after (machine 0x100 0xff 0x0) 0x0F034293 5 = some (0xf, 0x104) := by decide

theorem test_xori_not : after (machine 0x100 0x12345678 0x0) 0xFFF34293 5 = some (0xedcba987, 0x104) := by decide

theorem test_ori : after (machine 0x100 0x1 0x0) 0x80036293 5 = some (0xfffff801, 0x104) := by decide

theorem test_ori_bits : after (machine 0x100 0xaaa 0x0) 0x55536293 5 = some (0xfff, 0x104) := by decide

theorem test_andi : after (machine 0x100 0xffffffff 0x0) 0x80037293 5 = some (0xfffff800, 0x104) := by decide

theorem test_andi_mask : after (machine 0x100 0xdeadbeef 0x0) 0x0FF37293 5 = some (0xef, 0x104) := by decide

theorem test_slli : after (machine 0x100 0x3 0x0) 0x01F31293 5 = some (0x80000000, 0x104) := by decide

theorem test_slli_four : after (machine 0x100 0x12345678 0x0) 0x00431293 5 = some (0x23456780, 0x104) := by decide

theorem test_srli : after (machine 0x100 0x80000000 0x0) 0x01F35293 5 = some (0x1, 0x104) := by decide

theorem test_srli_four : after (machine 0x100 0x87654321 0x0) 0x00435293 5 = some (0x8765432, 0x104) := by decide

theorem test_srai : after (machine 0x100 0x80000000 0x0) 0x41F35293 5 = some (0xffffffff, 0x104) := by decide

theorem test_srai_four : after (machine 0x100 0x87654321 0x0) 0x40435293 5 = some (0xf8765432, 0x104) := by decide

theorem test_add : after (machine 0x100 0xffffffff 0x1) 0x007302B3 5 = some (0x0, 0x104) := by decide

theorem test_add_overflow : after (machine 0x100 0x7fffffff 0x1) 0x007302B3 5 = some (0x80000000, 0x104) := by decide

theorem test_sub : after (machine 0x100 0x0 0x1) 0x407302B3 5 = some (0xffffffff, 0x104) := by decide

theorem test_sub_overflow : after (machine 0x100 0x80000000 0x1) 0x407302B3 5 = some (0x7fffffff, 0x104) := by decide

theorem test_sll_32 : after (machine 0x100 0x1 0x20) 0x007312B3 5 = some (0x1, 0x104) := by decide

theorem test_sll : after (machine 0x100 0x12345678 0x8) 0x007312B3 5 = some (0x34567800, 0x104) := by decide

theorem test_slt : after (machine 0x100 0x80000000 0x7fffffff) 0x007322B3 5 = some (0x1, 0x104) := by decide

theorem test_slt_not : after (machine 0x100 0x7fffffff 0x80000000) 0x007322B3 5 = some (0x0, 0x104) := by decide

theorem test_sltu : after (machine 0x100 0x7fffffff 0x80000000) 0x007332B3 5 = some (0x1, 0x104) := by decide

theorem test_sltu_not : after (machine 0x100 0x80000000 0x7fffffff) 0x007332B3 5 = some (0x0, 0x104) := by decide

theorem test_xor : after (machine 0x100 0xff00ff00 0xff00ff0) 0x007342B3 5 = some (0xf0f0f0f0, 0x104) := by decide

theorem test_srl_33 : after (machine 0x100 0x80000000 0x21) 0x007352B3 5 = some (0x40000000, 0x104) := by decide

theorem test_srl_31 : after (machine 0x100 0x80000000 0x1f) 0x007352B3 5 = some (0x1, 0x104) := by decide

theorem test_sra_33 : after (machine 0x100 0x80000000 0x21) 0x407352B3 5 = some (0xc0000000, 0x104) := by decide

theorem test_sra_30 : after (machine 0x100 0x40000000 0x1e) 0x407352B3 5 = some (0x1, 0x104) := by decide

theorem test_or : after (machine 0x100 0xff00ff00 0xff00ff0) 0x007362B3 5 = some (0xfff0fff0, 0x104) := by decide

theorem test_and : after (machine 0x100 0xff00ff00 0xff00ff0) 0x007372B3 5 = some (0xf000f00, 0x104) := by decide

theorem test_lui : after (machine 0x100 0x0 0x0) 0xFFFFF2B7 5 = some (0xfffff000, 0x104) := by decide

theorem test_auipc : after (machine 0x104 0x0 0x0) 0x00000297 5 = some (0x104, 0x108) := by decide

theorem test_jal : after (machine 0x100 0x0 0x0) 0xFF9FF0EF 1 = some (0x104, 0xf8) := by decide

theorem test_jal_plain : after (machine 0xc 0x0 0x0) 0x0000006F 0 = some (0x0, 0xc) := by decide

theorem test_jalr : after (machine 0x100 0x203 0x0) 0xFFC300E7 1 = some (0x104, 0x1fe) := by decide

theorem test_jalr_own : after (machine 0x100 0x200 0x0) 0x00830367 6 = some (0x104, 0x208) := by decide

theorem test_beq : after (machine 0x100 0x5 0x5) 0xFE730CE3 0 = some (0x0, 0xf8) := by decide

theorem test_beq_not : after (machine 0x100 0x5 0x6) 0xFE730CE3 0 = some (0x0, 0x104) := by decide

theorem test_bne : after (machine 0x100 0x5 0x6) 0xFE731CE3 0 = some (0x0, 0xf8) := by decide

theorem test_bne_not : after (machine 0x100 0x5 0x5) 0xFE731CE3 0 = some (0x0, 0x104) := by decide

theorem test_blt : after (machine 0x100 0xffffffff 0x0) 0xFE734CE3 0 = some (0x0, 0xf8) := by decide

theorem test_blt_not : after (machine 0x100 0x0 0xffffffff) 0xFE734CE3 0 = some (0x0, 0x104) := by decide

theorem test_bge : after (machine 0x100 0x3 0x3) 0xFE735CE3 0 = some (0x0, 0xf8) := by decide

theorem test_bge_not : after (machine 0x100 0xffffffff 0x0) 0xFE735CE3 0 = some (0x0, 0x104) := by decide

theorem test_bltu : after (machine 0x100 0x0 0xffffffff) 0xFE736CE3 0 = some (0x0, 0xf8) := by decide

theorem test_bltu_not : after (machine 0x100 0x3 0x3) 0xFE736CE3 0 = some (0x0, 0x104) := by decide

theorem test_bgeu : after (machine 0x100 0xffffffff 0x0) 0xFE737CE3 0 = some (0x0, 0xf8) := by decide

theorem test_bgeu_not : after (machine 0x100 0x0 0xffffffff) 0xFE737CE3 0 = some (0x0, 0x104) := by decide

theorem test_lb : after (machine 0x100 0x204 0x0) 0xFFC30283 5 = some (0xffffff80, 0x104) := by decide

theorem test_lh : after (machine 0x100 0x204 0x0) 0xFFC31283 5 = some (0xffffff80, 0x104) := by decide

theorem test_lw : after (machine 0x100 0x204 0x0) 0xFFC32283 5 = some (0x17fff80, 0x104) := by decide

theorem test_lbu : after (machine 0x100 0x204 0x0) 0xFFC34283 5 = some (0x80, 0x104) := by decide

theorem test_lhu : after (machine 0x100 0x204 0x0) 0xFFC35283 5 = some (0xff80, 0x104) := by decide

/-- R193 to R195: x7 = 0xA1B2C3D4 stored at 0x200; the other bytes stay. -/
theorem test_sb : stored (machine 0x100 0x204 0xA1B2C3D4) 0xFE730E23 = some [0xD4, 0xFF, 0x7F, 0x01] := by decide

theorem test_sh : stored (machine 0x100 0x204 0xA1B2C3D4) 0xFE731E23 = some [0xD4, 0xC3, 0x7F, 0x01] := by decide

theorem test_sw : stored (machine 0x100 0x204 0xA1B2C3D4) 0xFE732E23 = some [0xD4, 0xC3, 0xB2, 0xA1] := by decide

/-- R189, R190: `lh x1, 3(x0)` and `lw x1, 1(x0)` are misaligned. -/
theorem test_misaligned :
    faulted (machine 0x100 0 0) 0x00301083 = some (.misalignedAccess 0 0x100 3 2) ∧
    faulted (machine 0x100 0 0) 0x00102083 = some (.misalignedAccess 0 0x100 1 4) := by decide

/-- R273: `add x3, x5, x5` in a machine whose x5 is invalid. -/
theorem test_invalidRegister : faulted (machine 0x100 0 0) 0x005281B3 = some (.invalidRegister 0 0x100 5) := by decide

/-- R271: ECALL does not decode. -/
theorem test_undecodable : faulted (machine 0x100 0 0) 0x00000073 = some (.decode 0 0x100 0x73) := by decide

/-- R21: `addi x0, x6, 5` writes nothing. -/
theorem test_x0 : after (machine 0x100 1 0) 0x00530013 0 = some (0, 0x104) := by decide

/-- The host's question at reset: `addi x1, x0, 5` is the first instruction the machine runs. -/
theorem test_reset_runs : after State.reset 0x00500093 1 = some (5, 4) := by decide

/-! ## The cycle level -/

/-- R228, R229: in the first cycle after reset the fetch at `pc` is outstanding, its line is being filled, and nothing
retires. -/
theorem test_first_cycle :
    (clock (machine 0x100 0 0)).fetchPending = true ∧ (clock (machine 0x100 0 0)).icache.busy = true ∧
    (clock (machine 0x100 0 0)).store.owner = some .I ∧ (clock (machine 0x100 0 0)).counters.retired = 0 ∧
    (clock (machine 0x100 0 0)).counters.cycles = 1 := by decide

/-- R285: a cycle with no instruction in M stalls nothing. -/
theorem test_first_cycle_counts : (clock (machine 0x100 0 0)).counters.memStalls = 0 := by decide

/-! ## States and operands that meet the hypotheses of the statements

One theorem for each statement with hypotheses, named after it, with every clause of it met. -/

/-- A record as the fetch stage makes it, of a word at 0x100. -/
def record (i : Instr) : Record := recordOf i (encode i) 0x100

/-- A machine with given records in its four latches. -/
def latched (fd de em mw : Option Record) : State :=
  { machine 0x100 0x204 7 with
    fd := { pending := none, cur := fd }, de := { pending := none, cur := de },
    em := { pending := none, cur := em }, mw := { pending := none, cur := mw } }

/-- A machine whose data cache holds the line at 0x200 in set 0, way 0. -/
def cached (s : State) : State :=
  let ln : Line := { data := [0x80, 0xFF, 0x7F, 0x01, 0, 0, 0, 0], addr := 0x200, valid := true, dirty := false }
  { s with dcache := s.dcache.setLine 0 0 ln }

/-- A machine with the load or store `i` in M, whose first beat was sent in an earlier cycle. -/
def awaiting (i : Record) (complete : Bool) : State :=
  let s := latched none none (some i) none
  { s with mWaiting := true,
           dcache := { s.dcache with req := { active := true, complete := complete, kind := .R, addr := i.addr, n := 2,
                                              value := 0, result := 0xFF80 } } }

/-- A machine whose data cache is busy with the request and the queue given; the slot's owner and completion as given, its
result 0xFF80. -/
def moving (kind : Access) (q : List Transaction) (owner : Option Client) (complete : Bool) : State :=
  let s := machine 0x100 0 0
  { s with dcache := { s.dcache with req := { active := true, complete := false, kind := kind, addr := 0x204, n := 2,
                                              value := 0xC3D4, result := 0 }, queue := q },
           store := { s.store with owner := owner, pending := owner.isSome && !complete, complete := complete,
                                   result := 0xFF80 } }

/-- A transaction of the line at 0x200 in set 0, way 0. -/
def transaction (kind : TransactionKind) (done : Nat) (outstanding : Bool) : Transaction :=
  { kind := kind, set := 0, way := 0, addr := 0x200, done := done, outstanding := outstanding }

/-- R99, R107: the victim of a miss is neither valid nor dirty, and its write-back and the fill are queued. -/
theorem test_miss_victim :
    let s := cached (machine 0x100 0 0)
    let dirty := { s with dcache := s.dcache.setLine 0 0 { s.dcache.line 0 0 with dirty := true } }
    let t := cacheMiss .D 0x214 dirty
    (t.dcache.line 0 0).valid = false ∧ (t.dcache.line 0 0).dirty = false ∧ t.dcache.fifo = [1, 0] ∧
    t.dcache.queue = [{ kind := .WB, set := 0, way := 0, addr := 0x200, done := 0, outstanding := false },
                      { kind := .FILL, set := 0, way := 0, addr := 0x210, done := 0, outstanding := false }] := by decide

/-- R97: a read that misses is incomplete, and the first beat of its fill is in the slot at once, at the line's address. -/
theorem test_miss_sends :
    let t := cacheSend .D .R 0x204 2 0 (machine 0x100 0 0)
    t.dcache.req.complete = false ∧ t.dcache.busy = true ∧ t.store.owner = some .D ∧ t.store.kind = .R ∧
    t.store.addr = 0x200 ∧ t.store.n = 2 := by decide

/-- R224, R252: the cycle in which the first beat of `lw x5` misses. -/
theorem test_load_misses :
    let t := stageM (latched none none (some { record (.lw 5 6 0) with addr := 0x200 }) none)
    t.mWaiting = true ∧ t.mBeat = 0 ∧ t.mw.pending = none ∧ t.wires.stallEM = true ∧ t.wires.stallDE = true ∧
    t.wires.stallFD = true ∧ t.wires.maskM = [5] := by decide

/-- R101: the second beat of a fill puts its two bytes at offset 2; the third reads two bytes at 0x204. -/
theorem test_fill_beat :
    let t := processCache .D (moving .R [transaction .FILL 2 true] (some .D) true)
    (t.dcache.line 0 0).data = [0, 0, 0x80, 0xFF, 0, 0, 0, 0] ∧ t.store.addr = 0x204 ∧ t.store.n = 2 ∧
    t.store.kind = .R := by decide

/-- R100: the second beat of the write-back of a line writes its bytes 2 and 3 to 0x202. -/
theorem test_writeBack_beat :
    let t := processCache .D (cached (moving .R [transaction .WB 2 false] none false))
    t.store.addr = 0x202 ∧ t.store.n = 2 ∧ t.store.kind = .W ∧ t.store.value = 0x017F := by decide

/-- R224: the first beat of `sw` of 0xA1B2C3D4 writes the two low bytes at the address, the second the two high bytes. -/
theorem test_store_beats :
    let s := latched none none (some { record (.sw 7 6 0) with addr := 0x200, v2 := 0xA1B2C3D4 }) none
    ((stageM s).dcache.req.addr = 0x200 ∧ (stageM s).dcache.req.n = 2 ∧ (stageM s).dcache.req.value = 0xC3D4) ∧
    ((stageM { s with mBeat := 1 }).dcache.req.addr = 0x202 ∧
      (stageM { s with mBeat := 1 }).dcache.req.value = 0xA1B2) := by decide

theorem test_meets_DecodeEncode :
    (Instr.jal 1 (-2)).wellFormed = true ∧ (Instr.beq 6 7 (-4096)).wellFormed = true ∧
    (Instr.addi 31 31 (-1)).wellFormed = true := by decide

theorem test_meets_EncodeDecode : decodeWord 0xFFF30293#32 = some (.addi 5 6 (-1)) := by decide

theorem test_meets_RowsDisjoint : ∃ h : 36 < opcodeTable.length, rowSelects 0x007372B3#32 (opcodeTable[36]'h) = true :=
  ⟨by decide, by decide⟩

/-- One word of each format. -/
theorem test_meets_RecordFields :
    ([0x007302B3#32, 0xFFF30293#32, 0x40435293#32, 0xFE732E23#32, 0xFE730CE3#32, 0x123452B7#32, 0x00C000EF#32].map fun w =>
      (decodeRecord w 0x100).map fun r => r.fmt) =
    [some .R, some .I, some .I, some .S, some .B, some .U, some .J] := by decide

theorem test_meets_ImmediateArithmetic : (machine 0x100 0 0).readable 6 ∧ (machine 0x100 0 0).readable 0 := by
  unfold State.readable; decide

theorem test_meets_ImmediateCompare : (machine 0x100 0 0).readable 6 := by unfold State.readable; decide

theorem test_meets_ImmediateShift : (machine 0x100 0 0).readable 6 := by unfold State.readable; decide

theorem test_meets_RegisterArithmetic : (machine 0x100 0 0).readable 6 ∧ (machine 0x100 0 0).readable 7 := by
  unfold State.readable; decide

theorem test_meets_RegisterCompare : (machine 0x100 0 0).readable 6 ∧ (machine 0x100 0 0).readable 7 := by
  unfold State.readable; decide

theorem test_meets_RegisterShift : (machine 0x100 0 0).readable 6 ∧ (machine 0x100 0 0).readable 7 := by
  unfold State.readable; decide

theorem test_meets_Jumps : (1048574 : BitVec 21).getLsbD 0 = false ∧ (machine 0x100 0 0).readable 6 := by
  unfold State.readable; decide

theorem test_meets_BranchesEqual :
    (4094 : BitVec 13).getLsbD 0 = false ∧ (machine 0x100 0 0).readable 6 ∧ (machine 0x100 0 0).readable 7 := by
  unfold State.readable; decide

theorem test_meets_BranchesOrdered :
    (-4096 : BitVec 13).getLsbD 0 = false ∧ (machine 0x100 0 0).readable 6 ∧ (machine 0x100 0 0).readable 7 := by
  unfold State.readable; decide

/-- The last byte and the last half-word of the store. -/
theorem test_meets_LoadNarrow :
    (machine 0x100 0x400 0).readable 6 ∧
    (machine 0x100 0x400 0).accessible ((machine 0x100 0x400 0).effective 6 (-1)) 1 ∧
    (machine 0x100 0x400 0).accessible ((machine 0x100 0x400 0).effective 6 (-2)) 2 := by
  unfold State.readable State.accessible; decide

/-- The last word of the store. -/
theorem test_meets_LoadWord :
    (machine 0x100 0x400 0).readable 6 ∧
    (machine 0x100 0x400 0).accessible ((machine 0x100 0x400 0).effective 6 (-4)) 4 := by
  unfold State.readable State.accessible; decide

theorem machine_boundary : (machine 0x100 0x400 7).Boundary where
  memory := by decide
  zero := by decide
  wires := rfl
  fd := rfl
  de := rfl
  em := rfl
  mw := rfl
  fault := rfl
  icache := by unfold Cache.shaped; decide
  dcache := by unfold Cache.shaped; decide

theorem test_meets_Stores :
    (machine 0x100 0x400 7).cfg.legal = true ∧ (machine 0x100 0x400 7).Boundary ∧ (machine 0x100 0x400 7).readable 6 ∧
    (machine 0x100 0x400 7).readable 7 ∧
    (machine 0x100 0x400 7).accessible ((machine 0x100 0x400 7).effective 6 (-1)) 1 ∧
    (machine 0x100 0x400 7).accessible ((machine 0x100 0x400 7).effective 6 (-2)) 2 ∧
    (machine 0x100 0x400 7).accessible ((machine 0x100 0x400 7).effective 6 (-4)) 4 := by
  refine ⟨by decide, machine_boundary, ?_⟩
  unfold State.readable State.accessible; decide

/-- The pipeline's clauses: a beat that hits, the last for a half-word and not for a word; a beat sent before, complete or
not. -/
theorem test_meets_Stores_beats :
    ∀ i ∈ [{ record (.sh 7 6 0) with addr := 0x206 }, { record (.sw 7 6 0) with addr := 0x204 }],
      let s := cached (latched none none (some i) none)
      (s.fault = none ∧ s.em.cur = some i ∧ i.isLoad = false ∧ i.isStore = true ∧ s.mWaiting = false ∧
        s.dcache.busy = false ∧ i.addr.toNat % i.size = 0 ∧
        s.dcache.lookup s.cfg.dcache (i.addr + BitVec.ofNat 32 (s.mBeat * s.cfg.portBeat)).toNat = some 0 ∧
        lineOffset s.cfg.dcache (i.addr + BitVec.ofNat 32 (s.mBeat * s.cfg.portBeat)).toNat +
          min s.cfg.portBeat i.size ≤ s.cfg.dcache.lineSize ∧
        (s.mBeat + 1 = max 1 (i.size / s.cfg.portBeat) ↔ i.size = 2)) ∧
      ∀ complete ∈ [true, false], (awaiting i complete).fault = none ∧ (awaiting i complete).em.cur = some i ∧
        (awaiting i complete).mWaiting = true ∧ (awaiting i complete).dcache.req.complete = complete := by decide

/-- A store's beat that misses in a cache with an empty queue. -/
theorem test_meets_Stores_miss :
    let i := { record (.sw 7 6 0) with addr := 0x204 }
    let s := latched none none (some i) none
    s.fault = none ∧ s.em.cur = some i ∧ i.isLoad = false ∧ i.isStore = true ∧ s.mWaiting = false ∧
    s.dcache.busy = false ∧ i.addr.toNat % i.size = 0 ∧ s.dcache.queue = [] ∧
    s.dcache.lookup s.cfg.dcache (i.addr + BitVec.ofNat 32 (s.mBeat * s.cfg.portBeat)).toNat = none := by decide

theorem test_meets_FrameWithoutStore :
    (Instr.lw 5 6 (-4)).stores = false ∧ ∃ t, exec (.lw 5 6 (-4)) (machine 0x100 0x204 0) = .next t := ⟨rfl, _, rfl⟩

theorem test_meets_FrameOfStore :
    (Instr.sw 7 6 (-4)).stores = true ∧ (Instr.sw 7 6 (-4)).access? = some (6, -4, 4) ∧
    ∃ t, exec (.sw 7 6 (-4)) (machine 0x100 0x204 0) = .next t := ⟨rfl, rfl, _, rfl⟩

theorem test_meets_MisalignedAccess :
    ((Instr.lw 5 6 1).access? = some (6, 1, 4) ∧ (∀ r ∈ (Instr.lw 5 6 1).sources, (machine 0x100 0x204 0).readable r) ∧
      ((machine 0x100 0x204 0).effective 6 1).toNat % 4 ≠ 0) ∧
    (let r := { record (.lw 5 6 1) with addr := 0x205 }
     let s := latched none none (some r) none
     s.fault = none ∧ s.em.cur = some r ∧ (r.isLoad || r.isStore) = true ∧ s.mBeat = 0 ∧ s.mWaiting = false ∧
       r.addr.toNat % r.size ≠ 0) := by
  unfold State.readable; decide

/-- The first address beyond the store. -/
theorem test_meets_OutOfRangeAccess :
    (Instr.lw 5 6 0).access? = some (6, 0, 4) ∧ (∀ r ∈ (Instr.lw 5 6 0).sources, (machine 0x100 0x400 0).readable r) ∧
    ((machine 0x100 0x400 0).effective 6 0).toNat % 4 = 0 ∧
    (machine 0x100 0x400 0).cfg.memSize < ((machine 0x100 0x400 0).effective 6 0).toNat + 4 := by
  unfold State.readable; decide

/-- The second source is the invalid one. -/
theorem test_meets_InvalidSource :
    exec (.add 5 6 9) (machine 0x100 0 0) = .fault (.invalidRegister 0 0x100 9) ∧
    (Instr.add 5 6 9).sources = [6] ++ 9 :: [] := ⟨rfl, rfl⟩

/-- A store whose access ends one beat beyond `MEM_SIZE`, owned by either cache. -/
def beyond (c : Client) : State :=
  let s := latched none none (some (record (.lw 5 6 0))) none
  { s with store := { s.store with pending := true, owner := some c, addr := 0x400, n := 2, countdown := 1 } }

theorem test_meets_StoreOutOfRange : ∀ c ∈ [Client.I, Client.D],
    (beyond c).fault = none ∧ (beyond c).store.pending = true ∧ (beyond c).store.countdown = 1 ∧
    (beyond c).cfg.memSize < (beyond c).store.addr.toNat + (beyond c).store.n ∧ (beyond c).store.owner = some c ∧
    (beyond c).em.cur = some (record (.lw 5 6 0)) := by decide

theorem test_meets_StepRunsDecoded :
    let s := (machine 0x3FC 0 0).withFetchWord 32 0x00530293
    s.cfg.legal = true ∧ s.fault = none ∧ s.level = .instruction ∧ s.pc.toNat % 4 = 0 ∧ s.pc.toNat + 4 ≤ s.cfg.memSize ∧
    decodeBytes [archByte s s.pc.toNat, archByte s (s.pc.toNat + 1), archByte s (s.pc.toNat + 2),
      archByte s (s.pc.toNat + 3)] = .ok (.addi 5 6 5, []) := ⟨by decide, rfl, rfl, by decide, by decide, rfl⟩

/-- A misaligned `pc`, one beyond the store, and a word that does not decode. -/
theorem test_meets_StepFetchFaults :
    (0x102 : Word).toNat % 4 ≠ 0 ∧ (0x400 : Word).toNat % 4 = 0 ∧ small.memSize < (0x400 : Word).toNat + 4 ∧
    (machine 0x3FC 0 0).pc.toNat % 4 = 0 ∧ (machine 0x3FC 0 0).pc.toNat + 4 ≤ (machine 0x3FC 0 0).cfg.memSize ∧
    decodeWord (archByte (machine 0x3FC 0 0) 0x3FF ++ archByte (machine 0x3FC 0 0) 0x3FE ++
      archByte (machine 0x3FC 0 0) 0x3FD ++ archByte (machine 0x3FC 0 0) 0x3FC) = none ∧
    (machine 0x3FC 0 0).cfg.legal = true ∧ (machine 0x3FC 0 0).fault = none := by decide

theorem test_meets_StepRunsCycle :
    (machine 0x100 0 0).cfg.legal = true ∧ (machine 0x100 0 0).fault = none ∧ (machine 0x100 0 0).level = .cycle ∧
    (beforeAdvance (machine 0x100 0 0)).fault = none ∧
    (beforeAdvance (machine 0x102 0 0)).fault = some (.misalignedFetch 0 0x102) ∧
    ({ machine 0x100 0 0 with fault := some (.misalignedFetch 0 2) } : State).fault ≠ none := by decide

theorem test_meets_HaltedAndRefused :
    ({ machine 0x100 0 0 with fault := some (.misalignedFetch 0 2) } : State).fault = some (.misalignedFetch 0 2) ∧
    ({ small with latency := 0 } : Config).legal = false ∧
    step { machine 0x100 0 0 with cfg := { small with latency := 0 } } = .refused .illegalConfiguration := ⟨rfl, rfl, rfl⟩

theorem test_meets_FaultCycle :
    (machine 0x102 0 0).fault = none ∧ step (machine 0x102 0 0) = .fault (.misalignedFetch 0 0x102) := ⟨rfl, rfl⟩

theorem test_meets_ParametersFixed : ∃ t, step (machine 0x100 0 0) = .next t := ⟨_, rfl⟩

theorem test_meets_RegisterFile : (5 : Reg) ≠ 0 ∧ (6 : Reg) ≠ 5 := by decide

theorem test_meets_Writeback :
    (latched none none none none).mw.cur = none ∧
    (latched none none none (some (record (.addi 5 6 1)))).mw.cur = some (record (.addi 5 6 1)) ∧
    (record (.addi 5 6 1)).rd = some 5 ∧ (5 : Reg) ≠ 0 ∧ (record (.beq 6 7 8)).rd = none ∧
    (record (.addi 0 6 1)).rd = some 0 := by decide

theorem test_meets_WritebackValue :
    ((record (.lb 5 6 0)).isLoad = true ∧ (record (.lb 5 6 0)).loadSigned = true ∧ (record (.lb 5 6 0)).size = 1) ∧
    ((record (.lh 5 6 0)).isLoad = true ∧ (record (.lh 5 6 0)).loadSigned = true ∧ (record (.lh 5 6 0)).size = 2) ∧
    (record (.lbu 5 6 0)).loadSigned = false := by decide

theorem test_meets_RegistersChangeInW :
    (clock (latched none none none (some (record (.jal 5 8))))).regs[5] ≠
      (latched none none none (some (record (.jal 5 8)))).regs[5] := by decide

/-- The first source invalid, the second source invalid, both valid. -/
theorem test_meets_DecodeReadsOperands :
    let s := latched (some (record (.add 5 6 7))) none none none
    s.fault = none ∧ s.wires.stallEM = false ∧ s.fd.cur = some (record (.add 5 6 7)) ∧
    hasDataHazard s.wires (record (.add 5 6 7)) = false ∧
    readOperand s (record (.add 5 9 7)).rs1 = .error 9 ∧
    readOperand s (record (.add 5 6 9)).rs1 = .ok 0x204 ∧ readOperand s (record (.add 5 6 9)).rs2 = .error 9 ∧
    readOperand s (record (.add 5 6 7)).rs2 = .ok 7 := ⟨rfl, rfl, rfl, rfl, rfl, rfl, rfl, rfl⟩

/-- A source in `mask_E`, and none in any mask. -/
theorem test_meets_DataHazard :
    (latched (some (record (.add 5 6 7))) none none none).wires.stallEM = false ∧
    (latched (some (record (.add 5 6 7))) none none none).fd.cur = some (record (.add 5 6 7)) ∧
    (7 : Reg) ≠ 0 ∧ (record (.add 5 6 7)).rs2 = some 7 ∧
    (7 : Reg) ∈ ({ latched (some (record (.add 5 6 7))) none none none with
      wires := { Wires.cleared with maskE := [7] } } : State).wires.maskE ∧
    (6 : Reg) ∉ Wires.cleared.maskE ∧ (7 : Reg) ∉ Wires.cleared.maskM := by decide

theorem test_meets_ExecuteStage :
    ({ Wires.cleared with stallEM := true } : Wires).stallEM = true ∧
    (latched none none none none).de.cur = none ∧
    (latched none (some (record (.lw 5 6 0))) none none).wires.stallEM = false ∧
    (latched none (some (record (.lw 5 6 0))) none none).de.cur = some (record (.lw 5 6 0)) ∧
    (record (.lw 5 6 0)).rd = some 5 ∧ (record (.lw 5 6 0)).isLoad = true ∧ (record (.add 5 6 7)).isLoad = false ∧
    (record (.sw 5 6 0)).rd = none ∧ (record (.add 0 6 7)).rd = some 0 := by decide

theorem test_meets_MemoryStagePasses :
    (latched none none none none).em.cur = none ∧
    (latched none none (some (record (.jal 5 8))) none).em.cur = some (record (.jal 5 8)) ∧
    (record (.jal 5 8)).isLoad = false ∧ (record (.jal 5 8)).isStore = false ∧
    (latched none none (some (record (.jal 5 8))) none).wires = Wires.cleared ∧
    (execute (record (.jal 5 8))).nextPc ≠ (record (.jal 5 8)).pc + 4 ∧ (record (.jal 5 8)).rd = some 5 ∧
    (record (.beq 6 7 8)).rd = none := by decide

/-- The one beat of a half-word is the last; the first of a word's two is not. -/
theorem test_meets_LoadBeatHit : ∀ i ∈ [{ record (.lh 5 6 0) with addr := 0x200 }, { record (.lw 5 6 0) with addr := 0x200 }],
    let s := cached (latched none none (some i) none)
    s.fault = none ∧ s.em.cur = some i ∧ i.isLoad = true ∧ s.mWaiting = false ∧ s.dcache.busy = false ∧
    i.addr.toNat % i.size = 0 ∧ s.dcache.lookup s.cfg.dcache (beatAddr s.cfg i s.mBeat).toNat = some 0 ∧
    lineOffset s.cfg.dcache (beatAddr s.cfg i s.mBeat).toNat + beatSize s.cfg i ≤ s.cfg.dcache.lineSize ∧
    (s.mBeat + 1 = beatCount s.cfg i ↔ i.size = 2) := by decide

/-- A beat that misses in a cache with an empty queue, the first and the second, of a load with a destination and without. -/
theorem test_meets_LoadBeatHit_miss :
    ∀ i ∈ [{ record (.lw 5 6 0) with addr := 0x200 }, { record (.lw 0 6 0) with addr := 0x200 }], ∀ beat ∈ [0, 1],
      let s := { latched none none (some i) none with mBeat := beat }
      s.fault = none ∧ s.em.cur = some i ∧ i.isLoad = true ∧ s.mWaiting = false ∧ s.dcache.busy = false ∧
      i.addr.toNat % i.size = 0 ∧ s.dcache.queue = [] ∧ (i.rd = some 5 ∨ i.rd = some 0) ∧
      s.dcache.lookup s.cfg.dcache (i.addr + BitVec.ofNat 32 (s.mBeat * s.cfg.portBeat)).toNat = none := by decide

/-- A beat sent before, complete or not, of a load that has a destination and of one that has none. -/
theorem test_meets_LoadBeatHit_sent : ∀ i ∈ [{ record (.lw 5 6 0) with addr := 0x200 }, { record (.lw 0 6 0) with addr := 0x200 }],
    ∀ complete ∈ [true, false], (awaiting i complete).fault = none ∧ (awaiting i complete).em.cur = some i ∧
      i.isLoad = true ∧ (awaiting i complete).mWaiting = true ∧
      (awaiting i complete).dcache.req.complete = complete ∧ (i.rd = some 5 ∨ i.rd = some 0) := by decide

/-- A machine whose fetch at `a` has delivered the word `w`, or not yet. -/
def fetching (a w : Word) (complete : Bool) : State :=
  let s := machine 0x100 0 0
  { s with fetchPending := true,
           icache := { s.icache with req := { active := true, complete := complete, kind := .R, addr := a, n := 4,
                                              value := 0, result := w } } }

theorem test_meets_FetchStage :
    ({ Wires.cleared with stallFD := true } : Wires).stallFD = true ∧
    ((machine 0x102 0 0).fault = none ∧ (machine 0x102 0 0).wires.stallFD = false ∧
      (machine 0x102 0 0).fetchPending = false ∧ (machine 0x102 0 0).pc.toNat % 4 ≠ 0) ∧
    ((fetching 0x100 0 false).fetchPending = true ∧ (fetching 0x100 0 false).icache.req.complete = false) ∧
    ((fetching 0x104 0 true).icache.req.complete = true ∧ (fetching 0x104 0 true).icache.req.addr ≠ 0x100) ∧
    ((fetching 0x100 0x13 true).icache.req.addr = (fetching 0x100 0x13 true).pc ∧
      decodeRecord (fetching 0x100 0x13 true).icache.req.result 0x100 =
        some (recordI .addi 0 0 0 0x13 0x100)) ∧
    decodeRecord (fetching 0x100 0 true).icache.req.result 0x100 = none := by decide

/-- A new fetch: a miss, a hit on `addi x0, x0, 0`, and a hit on the undecodable word 0. -/
theorem test_meets_FetchStage_new :
    let hit := fun data : List Byte => { machine 0x104 0 0 with
      icache := (machine 0x104 0 0).icache.setLine 0 1 { data := data, addr := 0x100, valid := true, dirty := false } }
    let nop : List Byte := [0, 0, 0, 0, 0x13, 0, 0, 0]
    (∀ s ∈ [machine 0x104 0 0, hit nop, hit (List.replicate 8 0)],
      s.fault = none ∧ s.wires.stallFD = false ∧ s.fetchPending = false ∧ s.pc.toNat % 4 = 0 ∧ s.icache.busy = false ∧
        lineOffset s.cfg.icache s.pc.toNat + 4 ≤ s.cfg.icache.lineSize) ∧
    ((machine 0x104 0 0).icache.lookup small.icache 0x104 = none ∧ (machine 0x104 0 0).icache.queue = []) ∧
    ((hit nop).icache.lookup small.icache 0x104 = some 1 ∧
      decodeRecord (wordLE (lineBytes nop 4 4)) 0x104 = some (recordI .addi 0 0 0 0x13 0x104)) ∧
    ((hit (List.replicate 8 0)).icache.lookup small.icache 0x104 = some 1 ∧
      decodeRecord (wordLE (lineBytes (List.replicate 8 0) 4 4)) 0x104 = none) := by decide

/-- A cycle in which M stalls the pipeline, one with a data hazard, and one with a flush. -/
theorem test_meets_StallCombinations :
    let stalled := latched none none (some { record (.lw 5 6 0) with addr := 0x200 }) none
    let hazard := latched (some (record (.add 5 5 7))) (some { record (.lw 5 6 0) with v1 := 0x204 }) none none
    let flush := latched none none (some (execute (record (.jal 5 8)))) none
    (stalled.wires = Wires.cleared ∧ (beforeAdvance stalled).fault = none ∧
      (beforeAdvance stalled).wires.stallEM = true) ∧
    (hazard.wires = Wires.cleared ∧ (beforeAdvance hazard).fault = none ∧
      (beforeAdvance hazard).wires.dataHazard = true ∧ (beforeAdvance hazard).wires.stallFD = true) ∧
    (flush.wires = Wires.cleared ∧ (beforeAdvance flush).fault = none ∧ (beforeAdvance flush).wires.flush = true) := by
  decide

theorem test_meets_LatchDiscipline :
    let s := latched none none (some { record (.lw 5 6 0) with addr := 0x200 }) none
    (beforeAdvance s).wires.flush = false ∧ (beforeAdvance s).wires.stallEM = true ∧
    (beforeAdvance s).wires.stallDE = true ∧ (beforeAdvance s).wires.stallFD = true ∧ s.fault = none ∧
    (beforeAdvance s).fault = none := by decide

/-- A cycle without a fault, a flush or a stall. -/
theorem test_meets_LatchDiscipline_moves :
    let s := latched (some (record (.add 5 6 7))) (some (record (.add 5 6 7))) (some (record (.add 5 6 7))) none
    s.fault = none ∧ (beforeAdvance s).fault = none ∧ (beforeAdvance s).wires.flush = false ∧
    (beforeAdvance s).wires.stallEM = false ∧ (beforeAdvance s).wires.stallDE = false ∧
    (beforeAdvance s).wires.stallFD = false := by decide

theorem test_meets_Flush :
    let s := latched none none (some (execute (record (.jal 5 8)))) none
    s.fault = none ∧ (beforeAdvance s).fault = none ∧ s.wires = Wires.cleared ∧ (beforeAdvance s).wires.flush = true := by
  decide

/-- A flush and a data hazard in one cycle. -/
theorem test_meets_CounterIncrements :
    let s := latched (some (record (.add 5 5 7))) (some { record (.lw 5 6 0) with v1 := 0x204 })
      (some (execute (record (.jal 5 8)))) none
    s.fault = none ∧ (beforeAdvance s).fault = none ∧ s.wires = Wires.cleared ∧
    (beforeAdvance s).wires.dataHazard = true ∧ (beforeAdvance s).wires.flush = true := by decide

theorem test_meets_PipelineAgreesAlone :
    (Instr.add 5 6 7).access? = none ∧
    readOperand { machine 0x100 1 2 with wires := Wires.cleared } (recordOf (.add 5 6 7) (encode (.add 5 6 7)) 0x100).rs1 =
      .ok 1 ∧
    readOperand { machine 0x100 1 2 with wires := Wires.cleared } (recordOf (.add 5 6 7) (encode (.add 5 6 7)) 0x100).rs2 =
      .ok 2 ∧ ∃ t, exec (.add 5 6 7) (machine 0x100 1 2) = .next t := ⟨rfl, rfl, rfl, _, rfl⟩

theorem test_meets_PipelineAgreesAlone_access :
    (Instr.lb 31 6 (-2048)).access? = some (6, -2048, 1) ∧ (Instr.lw 5 6 2047).access? = some (6, 2047, 4) ∧
    (Instr.sb 7 6 0).access? = some (6, 0, 1) ∧ (Instr.sh 7 6 (-2)).access? = some (6, -2, 2) := ⟨rfl, rfl, rfl, rfl⟩

/-- R185: the effective address wraps modulo 2^32; the expected values are hand arithmetic. -/
theorem test_execute_address :
    (execute { record (.lw 5 6 (-4)) with v1 := 2 }).addr = 0xFFFFFFFE#32 ∧
    (execute { record (.sh 7 6 2047) with v1 := 0x100, v2 := 9 }).addr = 0x8FF#32 := by decide

theorem test_meets_ByteOrder :
    Memory.wf [(0x200, 0x80), (0x201, 0xFF)] = true ∧ 3 < 4 ∧ 0x1FF < 0x200 ∧ 0x200 + 4 ≤ 0x204 ∧
    4 + 4 ≤ (List.replicate 8 (0 : Byte)).length := by decide

theorem test_meets_StoreLatency :
    (machine 0x100 0 0).fault = none ∧ (machine 0x100 0 0).store.owner = none ∧ 1 ≤ (machine 0x100 0 0).cfg.latency ∧
    (0x3FC : Word).toNat + 4 ≤ (machine 0x100 0 0).cfg.memSize ∧ (beyond .I).fault = none ∧
    (beyond .I).store.owner ≠ none := by decide

/-- The last bytes of the line at 0x200. -/
theorem test_meets_CacheHit :
    let s := cached (machine 0x100 0 0)
    s.fault = none ∧ (s.cache .D).busy = false ∧ (s.cache .D).lookup (s.geometry .D) (0x204 : Word).toNat = some 0 ∧
    lineOffset (s.geometry .D) (0x204 : Word).toNat + 4 ≤ (s.geometry .D).lineSize := by decide

theorem test_meets_HitReadsMem :
    let s := cached (machine 0x100 0 0)
    s.fault = none ∧ s.dcache.busy = false ∧ s.dcache.lookup s.cfg.dcache (0x204 : Word).toNat = some 0 ∧
    lineOffset s.cfg.dcache (0x204 : Word).toNat + 4 ≤ s.cfg.dcache.lineSize := by decide

theorem test_meets_CacheMiss :
    (machine 0x100 0 0).cfg.legal = true ∧
    ((machine 0x100 0 0).cache .D).shaped ((machine 0x100 0 0).geometry .D) :=
  ⟨by decide, by unfold Cache.shaped; decide⟩

/-- A send that misses: a clean and a dirty victim, the slot free and owned. -/
theorem test_meets_CacheMiss_send :
    let clean := cached (machine 0x100 0 0)
    let dirty := { clean with dcache := clean.dcache.setLine 0 0 { clean.dcache.line 0 0 with dirty := true } }
    ((clean.dcache.line 0 0).dirty = false ∧ (dirty.dcache.line 0 0).valid = true ∧ (dirty.dcache.line 0 0).dirty = true) ∧
    ∀ s ∈ [clean, dirty], ∀ owner ∈ [none, some Client.I],
      let u := { s with store := { s.store with owner := owner } }
      u.fault = none ∧ (u.cache .D).busy = false ∧ (u.cache .D).lookup (u.geometry .D) (0x214 : Word).toNat = none ∧
      (u.cache .D).queue = [] ∧ u.store.owner = owner ∧ setIndex (u.geometry .D) (0x214 : Word).toNat = 0 ∧
      (u.cache .D).fifo.getD 0 0 = 0 := by decide

/-- Every case of a head transaction: the slot is owned; the slot is free; the beat is under way; the beat is complete and
the line is not done; the fill is done, for a read and for a write; the write-back is done and a fill is behind it. -/
theorem test_meets_CacheMiss_transactions :
    let fill := transaction .FILL 0 false
    let cases : List (Access × List Transaction × Option Client × Bool) :=
      [(.R, [fill], some .I, false), (.R, [fill], none, false), (.R, [transaction .FILL 0 true], some .D, false),
       (.R, [transaction .FILL 4 true], some .D, true), (.R, [transaction .FILL 6 true], some .D, true),
       (.W, [transaction .FILL 6 true], some .D, true), (.R, [transaction .WB 6 true, fill], some .D, true)]
    (∀ k ∈ cases, let s := moving k.1 k.2.1 k.2.2.1 k.2.2.2
      s.fault = none ∧ (s.cache .D).shaped (s.geometry .D) ∧ (s.cache .D).queue = k.2.1 ∧ s.store.owner = k.2.2.1 ∧
      s.store.complete = k.2.2.2 ∧ (s.cache .D).req.kind = k.1 ∧
      lineOffset (s.geometry .D) (s.cache .D).req.addr.toNat + (s.cache .D).req.n ≤ (s.geometry .D).lineSize) ∧
    0 < small.dcache.sets ∧ 0 < small.dcache.ways ∧ 4 + small.fillBeat ≠ small.dcache.lineSize ∧
    6 + small.fillBeat = small.dcache.lineSize ∧ fill.outstanding = false := by
  unfold Cache.shaped; decide

/-- An illegal configuration, an image that is too short, and an accepted reset. -/
theorem test_meets_Reset :
    ({ small with latency := 0 } : Config).legal = false ∧
    ({ small with memSize := 8 } : Config).legal = true ∧ ([0x13, 0, 0] : List Byte).length ≠ 8 ∧
    ([0x13, 0, 0, 0, 0x13, 0, 0, 0] : List Byte).length = ({ small with memSize := 8 } : Config).memSize := by decide

theorem test_meets_StepKeepsBoundary :
    (machine 0x100 0x400 7).Boundary ∧ ∃ t, step (machine 0x100 0x400 7) = .next t := ⟨machine_boundary, _, rfl⟩

theorem test_meets_StepKeepsCounts :
    (machine 0x100 0x400 7).Boundary ∧ (machine 0x100 0x400 7).Counted ∧
    ∃ t, step (machine 0x100 0x400 7) = .next t :=
  ⟨machine_boundary, ⟨by decide, by decide, by decide, by decide, by decide, by decide⟩, _, rfl⟩

theorem test_meets_StepKeepsFetchClean :
    (machine 0x100 0x400 7).FetchClean ∧ ∃ t, step (machine 0x100 0x400 7) = .next t :=
  ⟨⟨by decide, by decide, by decide⟩, _, rfl⟩

/-- The first cycle has left a fill in the instruction cache's queue and a beat in the store's slot. -/
theorem clock_memoryOk : (clock (machine 0x100 0x400 7)).MemoryOk := by
  have lines : ∀ c, ((clock (machine 0x100 0x400 7)).cache c).lines =
      List.replicate 2 (List.replicate 2 (Line.reset 8)) := by
    intro c
    cases c <;> decide
  have invalid : ∀ c set way, (((clock (machine 0x100 0x400 7)).cache c).line set way).valid = false := by
    intro c set way
    unfold Cache.line
    rw [lines c]
    simp only [List.getD_eq_getElem?_getD, List.getElem?_replicate]
    split
    · simp only [Option.getD_some, List.getElem?_replicate]
      split <;> rfl
    · rfl
  have clean : ∀ c, ((clock (machine 0x100 0x400 7)).cache c).dirtyValid := by
    intro c set way h
    have : (((clock (machine 0x100 0x400 7)).cache c).line set way).dirty = false := by
      unfold Cache.line
      rw [lines c]
      simp only [List.getD_eq_getElem?_getD, List.getElem?_replicate]
      split
      · simp only [Option.getD_some, List.getElem?_replicate]
        split <;> rfl
      · rfl
    rw [this] at h
    cases h
  have unique : ∀ c g, ((clock (machine 0x100 0x400 7)).cache c).uniqueTags g := by
    intro c g set _ i j _ _ h
    rw [invalid] at h
    cases h
  have queue : (clock (machine 0x100 0x400 7)).icache.queue =
      [{ kind := .FILL, set := 0, way := 0, addr := 0x100, done := 0, outstanding := true }] := by decide
  refine ⟨?_, ?_, unique .I _, unique .D _, clean .I, clean .D,
    ⟨by decide, by decide, by decide, by decide, by decide⟩, by decide, by decide,
    ⟨by decide, by decide, by decide⟩, fun r h => ?_, fun r h => ?_, fun r h => ?_⟩
  · unfold Cache.queueOk
    rw [queue]
    refine ⟨by decide, ⟨rfl, by decide, by decide, by decide, ?_, by decide⟩, by decide, by decide⟩
    intro i _
    have := invalid .I 0 i
    unfold lineHits
    rw [show (clock (machine 0x100 0x400 7)).icache = (clock (machine 0x100 0x400 7)).cache .I from rfl, this]
    rfl
  · unfold Cache.queueOk
    rw [show (clock (machine 0x100 0x400 7)).dcache.queue = [] by decide]
    decide
  · rw [show (clock (machine 0x100 0x400 7)).fd.cur = none by decide] at h
    cases h
  · rw [show (clock (machine 0x100 0x400 7)).de.cur = none by decide] at h
    cases h
  · rw [show (clock (machine 0x100 0x400 7)).em.cur = none by decide] at h
    cases h

theorem clock_boundary : (clock (machine 0x100 0x400 7)).Boundary where
  memory := by decide
  zero := by decide
  wires := rfl
  fd := by decide
  de := by decide
  em := by decide
  mw := by decide
  fault := by decide
  icache := by unfold Cache.shaped; decide
  dcache := by unfold Cache.shaped; decide

theorem test_meets_StepKeepsMemoryOk :
    (clock (machine 0x100 0x400 7)).Boundary ∧ (clock (machine 0x100 0x400 7)).MemoryOk ∧
    ∃ t, step (clock (machine 0x100 0x400 7)) = .next t := ⟨clock_boundary, clock_memoryOk, _, rfl⟩

theorem test_meets_NoContention :
    (clock (machine 0x100 0x400 7)).Boundary ∧ (clock (machine 0x100 0x400 7)).MemoryOk := ⟨clock_boundary, clock_memoryOk⟩

theorem test_meets_InvariantsAtReset :
    ∃ s, resetMachine { small with memSize := 8 } [0x13, 0, 0, 0, 0x13, 0, 0, 0] 0 0 0 0 = .next s := ⟨_, rfl⟩

/-- A machine whose invalid x9 holds another number: it steps, faults and is refused as the other does. -/
theorem test_meets_InvalidValuesUnseen :
    let other := fun s : State => { s with regs := s.regs.set 9 { value := 1, valid := false } }
    (machine 0x100 0 0).SameValid (other (machine 0x100 0 0)) ∧ other (machine 0x100 0 0) ≠ machine 0x100 0 0 ∧
    (∃ t, step (machine 0x100 0 0) = .next t) ∧
    (machine 0x102 0 0).SameValid (other (machine 0x102 0 0)) ∧
    step (machine 0x102 0 0) = .fault (.misalignedFetch 0 0x102) :=
  ⟨⟨rfl, by decide⟩, by decide, ⟨_, rfl⟩, ⟨rfl, by decide⟩, rfl⟩

end Sys2Proof.Tests
end

section
/-! PROOFS. The statements of spec/00_scope.md: what one step is at the two levels (R8, R11), what it keeps (R40), when it
stops or is refused (R7, R9, R271 to R278), what a reset leaves (R45, R295), and where the pipeline and the cache agree with
the instruction level (R80, R140). -/

namespace Sys2Proof.Machine

/-! ## Which meaning a step has (R7, R9, R11) -/

/-- R7: an illegal configuration is refused before anything else is looked at. -/
theorem step_illegal {s : State} (hl : s.cfg.legal = false) : step s = .refused .illegalConfiguration := by
  simp [step, hl]

/-- R8: at the cycle level a step is one clock. -/
theorem step_cycle {s : State} (hl : s.cfg.legal = true) (h0 : s.fault = none) (hv : s.level = .cycle) :
    step s = outcomeOf (clock s) := by
  simp [step, hl, h0, hv]

/-- R11: at the instruction level a step is one instruction. -/
theorem step_instruction {s : State} (hl : s.cfg.legal = true) (h0 : s.fault = none) (hv : s.level = .instruction) :
    step s = stepAlone s := by
  simp [step, hl, h0, hv]

theorem outcomeOf_of_none {s : State} (h : s.fault = none) : outcomeOf s = .next s := by simp [outcomeOf, h]

theorem outcomeOf_of_some {s : State} {f : Fault} (h : s.fault = some f) : outcomeOf s = .fault f := by
  simp [outcomeOf, h]

theorem outcomeOf_not_refused (s : State) (e : Refusal) : outcomeOf s ≠ .refused e := by
  unfold outcomeOf
  split <;> simp

theorem stepAlone_of_error {s : State} {f : Fault} (h : fetchAlone s = .error f) : stepAlone s = .fault f := by
  simp [stepAlone, h]

theorem stepAlone_of_ok {s : State} {i : Instr} (h : fetchAlone s = .ok i) : stepAlone s = exec i s := by
  simp [stepAlone, h]

/-! ## The fetch at the instruction level (R64, R71, R120, R271, R278) -/

/-- `Mem[a] .. Mem[a+3]` as a word, the lowest address in bits 7:0 (R62). -/
theorem memRead_four (s : State) (a : Nat) :
    memRead s a 4 = (archByte s (a + 3) ++ archByte s (a + 2) ++ archByte s (a + 1) ++ archByte s a :
      BitVec (8 + 8 + 8 + 8)) :=
  wordLE_four _ _ _ _

/-- Decoding the four bytes at `a` is decoding the word they make (R120, R127). -/
theorem decodeBytes_archBytes_none {s : State} {a : Nat} (h : decodeWord (memRead s a 4) = none) :
    decodeBytes (archBytes s a 4) = .error (.noRow (memRead s a 4)) := by
  simp only [memRead, archBytes] at h ⊢
  simp only [decodeBytes, h]

theorem fetchAlone_misaligned {s : State} (ha : s.pc.toNat % 4 ≠ 0) :
    fetchAlone s = .error (.misalignedFetch s.counters.cycles s.pc) := by
  simp [fetchAlone, ha]

theorem fetchAlone_outOfRange {s : State} (ha : s.pc.toNat % 4 = 0) (hr : s.cfg.memSize < s.pc.toNat + 4) :
    fetchAlone s = .error
      (.outOfRange s.counters.cycles s.pc (lineBase s.cfg.icache s.pc) s.cfg.fillBeat (some .I)) := by
  simp [fetchAlone, ha, hr]

theorem fetchAlone_undecodable {s : State} (ha : s.pc.toNat % 4 = 0) (hr : s.pc.toNat + 4 ≤ s.cfg.memSize)
    (hw : decodeWord (memRead s s.pc.toNat 4) = none) :
    fetchAlone s = .error (.decode s.counters.cycles s.pc (memRead s s.pc.toNat 4)) := by
  simp [fetchAlone, ha, Nat.not_lt.2 hr, decodeBytes_archBytes_none hw]

theorem fetchAlone_decoded {s : State} {i : Instr} {rest : List Byte} (ha : s.pc.toNat % 4 = 0)
    (hr : s.pc.toNat + 4 ≤ s.cfg.memSize) (hi : decodeBytes (archBytes s s.pc.toNat 4) = .ok (i, rest)) :
    fetchAlone s = .ok i := by
  simp [fetchAlone, ha, Nat.not_lt.2 hr, hi]

/-- Settles O27: the three faults, each from the branch of the fetch that raises it. -/
theorem stepFetchFaults : Obligations.StepFetchFaults := by
  intro s hl h0 hv
  rw [step_instruction hl h0 hv]
  refine ⟨fun ha => ?_, fun ha hr => ?_, fun ha hr hw => ?_⟩
  · exact stepAlone_of_error (fetchAlone_misaligned ha)
  · exact stepAlone_of_error (fetchAlone_outOfRange ha hr)
  · rw [← memRead_four] at hw ⊢
    exact stepAlone_of_error (fetchAlone_undecodable ha hr hw)

/-- Settles O26: an aligned fetch inside the store that decodes hands its instruction to `exec`. -/
theorem stepRunsDecoded : Obligations.StepRunsDecoded := by
  intro s i hl h0 hv ha hr hi
  rw [step_instruction hl h0 hv]
  exact stepAlone_of_ok (fetchAlone_decoded ha hr hi)

/-! ## The parameters (R6, R40) -/

theorem exec_parameters {i : Instr} {s t : State} (h : exec i s = .next t) : t.cfg = s.cfg ∧ t.level = s.level := by
  rw [(exec_rest h).1]
  exact ⟨rfl, rfl⟩

theorem beforeAdvance_parameters {s : State} (h : (beforeAdvance s).fault = none) :
    (beforeAdvance s).cfg = s.cfg ∧ (beforeAdvance s).level = s.level := by
  obtain ⟨-, -, -, -, -, hb⟩ := beforeAdvance_next h
  simp [hb]

/-- Settles O31: a clock moves through stages that keep both fields, an instruction writes neither. -/
theorem parametersFixed : Obligations.ParametersFixed := by
  intro s t h
  obtain ⟨-, -, ⟨-, ht, rfl⟩ | ⟨-, i, -, hi⟩⟩ := step_next h
  · obtain ⟨-, hb, hc⟩ := clock_next ht
    simpa [hc] using beforeAdvance_parameters hb
  · exact exec_parameters hi

/-! ## One clock as a row of pieces of work (R72, R220) -/

/-- Work that is abandoned at a fault may be grouped either way. -/
theorem andThen_assoc (s : State) (f g : State → State) :
    (s.andThen f).andThen g = s.andThen fun t => (f t).andThen g := by
  cases h : s.fault with
  | none => simp [andThen_of_none h]
  | some x => simp [andThen_of_some h]

/-- Phases 1 and 2 (R221, R220) as one row: the stages follow the memory units with no bracket between them. -/
theorem beforeAdvance_row (s : State) :
    beforeAdvance s =
      (((((phaseMemory s).andThen stageW).andThen stageM).andThen stageE).andThen stageD).andThen stageF := by
  unfold beforeAdvance
  simp only [andThen_assoc]
  refine congrArg (phaseMemory s).andThen (funext fun t => ?_)
  simp only [phaseStages, andThen_assoc]

/-- Settles O28: the row of R220 is what `clock` does before the latches advance. -/
theorem stepRunsCycle : Obligations.StepRunsCycle := by
  refine ⟨fun s next => ⟨fun h => andThen_of_none h next, fun h => ?_⟩, fun s hl h0 hv => ?_⟩
  · obtain ⟨f, hf⟩ := Option.ne_none_iff_exists'.1 h
    exact andThen_of_some hf next
  · intro memory stages
    have hstages : stages = beforeAdvance s := (beforeAdvance_row s).symm
    rw [step_cycle hl h0 hv, clock_of_none h0, ← hstages]
    refine ⟨fun h => ?_, fun f h => ?_⟩
    · rw [andThen_of_none h]
      exact outcomeOf_of_none ((finish_fault stages).trans h)
    · rw [andThen_of_some h]
      exact outcomeOf_of_some h

/-! ## Halting and refusal (R7, R276) -/

/-- No instruction is refused: every one of the 37 is modelled. -/
theorem exec_not_refused (i : Instr) (s : State) (e : Refusal) : exec i s ≠ .refused e := by
  rw [exec_eq_runAlone]
  unfold runAlone
  dsimp only
  split
  · simp [raiseAlone]
  · simp [raiseAlone]
  · exact access_not_refused _ _ _

theorem stepAlone_not_refused (s : State) (e : Refusal) : stepAlone s ≠ .refused e := by
  cases h : fetchAlone s with
  | error f => simp [stepAlone_of_error h]
  | ok i => simpa [stepAlone_of_ok h] using exec_not_refused i s e

/-- A halted machine answers its fault again (R276). -/
theorem step_halted {s : State} {f : Fault} (hl : s.cfg.legal = true) (h : s.fault = some f) : step s = .fault f := by
  simp [step, hl, h]

/-- R7: a legal configuration is never refused. -/
theorem step_not_refused {s : State} (hl : s.cfg.legal = true) (e : Refusal) : step s ≠ .refused e := by
  cases h0 : s.fault with
  | some f => simp [step_halted hl h0]
  | none =>
    cases hv : s.level with
    | cycle => simpa [step_cycle hl h0 hv] using outcomeOf_not_refused _ e
    | instruction => simpa [step_instruction hl h0 hv] using stepAlone_not_refused s e

/-- Settles O29: a recorded fault stops the clock, and legality alone decides a refusal. -/
theorem haltedAndRefused : Obligations.HaltedAndRefused := by
  refine ⟨fun s f hf => andThen_of_some hf _, fun s f t hf h => ?_, fun s => step_illegal, fun s e h => ?_⟩
  · obtain ⟨-, h0, -⟩ := step_next h
    simp [hf] at h0
  · cases hl : s.cfg.legal with
    | false => rfl
    | true => exact absurd h (step_not_refused hl e)

/-! ## Execute and writeback against the instruction alone (R11, R140) -/

/-- With the wires cleared nothing is bypassed: an operand is read as the instruction alone reads its source (R256, R13). -/
theorem readOperand_cleared (s : State) (r : Option Reg) :
    readOperand { s with wires := Wires.cleared } r = sourceValue s r := by
  cases r with
  | none => rfl
  | some x =>
    by_cases hx : x = 0
    · subst hx
      rfl
    · have hsource : operandSource Wires.cleared (some x) = .registerFile := by
        simp [operandSource, liveReg_eq_some.2 ⟨rfl, hx⟩, Wires.cleared]
      simp only [readOperand, hsource]
      rfl

/-- A record is a load or a store exactly as its instruction accesses memory (R186). -/
theorem recordOf_isLoad (i : Instr) (word pc : Word) :
    (recordOf i word pc).isLoad = (i.access?.isSome && !i.stores) := by cases i <;> rfl

/-- An instruction that accesses no memory stores nothing. -/
theorem stores_eq_false_of_access {i : Instr} (h : i.access? = none) : i.stores = false := by
  cases i <;> cases h <;> rfl

/-- An instruction that accesses no memory, with its sources read, commits its executed record (R140). -/
theorem exec_plain {i : Instr} {s : State} {a b : Word} (hi : i.access? = none)
    (h1 : sourceValue s (recordOf i (encode i) s.pc).rs1 = .ok a)
    (h2 : sourceValue s (recordOf i (encode i) s.pc).rs2 = .ok b) :
    exec i s = .next (commit (execute (boundRecord i s a b)) s) := by
  rw [exec_of_sources h1 h2]
  apply access_plain
  · simp [recordOf_isLoad, hi]
  · simp [recordOf_isStore, stores_eq_false_of_access hi]

/-- The registers after a write depend only on the registers before it. -/
theorem writeDest_regs_congr {s u : State} (h : u.regs = s.regs) (rd : Option Reg) (v : Word) :
    (u.writeDest rd v).regs = (s.writeDest rd v).regs := by
  cases rd with
  | none => exact h
  | some x =>
    simp only [State.writeDest, State.writeReg]
    split <;> simp [h]

/-- W of a record that stands in `MW` writes the registers that committing it writes (R222, R140). -/
theorem stageW_regs_commit (s : State) (r : Record) :
    (stageW { s with mw := { pending := none, cur := some r } }).regs = (commit r s).regs := by
  rw [stageW_regs, commit_regs]
  exact writeDest_regs_congr (s := s) (u := { s with mw := { pending := none, cur := some r } }) rfl r.rd (wbval r)

/-- The record of a load or store: its base register, its width, and its class (R186). -/
theorem recordOf_access {i : Instr} {rs1 : Reg} {imm : BitVec 12} {n : Nat} (h : i.access? = some (rs1, imm, n))
    (word pc : Word) :
    (recordOf i word pc).rs1 = some rs1 ∧ (recordOf i word pc).size = n ∧
      (recordOf i word pc).isLoad = !i.stores ∧ (recordOf i word pc).isStore = i.stores := by
  cases i <;> cases h <;> exact ⟨rfl, rfl, rfl, rfl⟩

/-- Execute on a load's or store's record computes the effective address and the next `pc` only (R185, R197). -/
theorem execute_access {i : Instr} {rs1 : Reg} {imm : BitVec 12} {n : Nat} (h : i.access? = some (rs1, imm, n))
    (word pc a b : Word) :
    execute { recordOf i word pc with v1 := a, v2 := b } =
      { recordOf i word pc with v1 := a, v2 := b, addr := a + imm.signExtend 32, nextPc := pc + 4 } := by
  cases i <;> cases h <;> rfl

/-- Settles O47: with cleared wires both levels read the same operands and run the same execute function. -/
theorem pipelineAgreesAlone : Obligations.PipelineAgreesAlone := by
  refine ⟨fun i s t a b hi h1 h2 h => ?_, fun i rs1 imm n pc a b hi => ?_⟩
  · rw [readOperand_cleared] at h1 h2
    rw [exec_plain hi h1 h2] at h
    cases h
    exact ⟨stageW_regs_commit s _, rfl⟩
  · obtain ⟨hbase, hsize, hload, hstore⟩ := recordOf_access hi (encode i) pc
    exact ⟨hbase, hsize, hload, hstore, execute_access hi (encode i) pc a b⟩

/-! ## A hit and architectural memory (R80, R93, R97) -/

/-- Addresses up to the line end share the line's tag, and their offsets follow each other (R91). -/
theorem tagOf_add {g : Geometry} {a k : Nat} (h : lineOffset g a + k < g.lineSize) : tagOf g (a + k) = tagOf g a := by
  unfold lineOffset at h
  unfold tagOf
  rw [Nat.add_div (by omega), Nat.div_eq_of_lt (show k < g.lineSize by omega),
    Nat.mod_eq_of_lt (show k < g.lineSize by omega), if_neg (by omega)]
  rfl

theorem lineOffset_add {g : Geometry} {a k : Nat} (h : lineOffset g a + k < g.lineSize) :
    lineOffset g (a + k) = lineOffset g a + k := by
  unfold lineOffset at h ⊢
  rw [Nat.add_mod, Nat.mod_eq_of_lt (show k < g.lineSize by omega), Nat.mod_eq_of_lt h]

/-- Where the data cache holds the line of `a`, `Mem` at the line's further bytes is the line's data (R80). -/
theorem archByte_hit {s : State} {a k way : Nat} (hl : s.dcache.lookup s.cfg.dcache a = some way)
    (hk : lineOffset s.cfg.dcache a + k < s.cfg.dcache.lineSize) :
    archByte s (a + k) =
      (s.dcache.line (setIndex s.cfg.dcache a) way).data.getD (lineOffset s.cfg.dcache a + k) 0 := by
  have ht := tagOf_add hk
  have hs : setIndex s.cfg.dcache (a + k) = setIndex s.cfg.dcache a := congrArg (· % s.cfg.dcache.sets) ht
  unfold archByte
  rw [lookup_sameLine ht, hl, hs, lineOffset_add hk]

/-- The bytes of the line from `a` on are the bytes of `Mem` there (R80, R93). -/
theorem archBytes_hit {s : State} {a way : Nat} (hl : s.dcache.lookup s.cfg.dcache a = some way) (n k : Nat)
    (hn : lineOffset s.cfg.dcache a + k + n ≤ s.cfg.dcache.lineSize) :
    archBytes s (a + k) n =
      lineBytes (s.dcache.line (setIndex s.cfg.dcache a) way).data (lineOffset s.cfg.dcache a + k) n := by
  induction n generalizing k with
  | zero => rfl
  | succ n ih =>
    simp only [archBytes, lineBytes]
    rw [archByte_hit hl (by omega), Nat.add_assoc a, ih (k + 1) (by omega), Nat.add_assoc]

/-- Settles O51: the hit takes its bytes from the line, and `Mem` is the line there. -/
theorem hitReadsMem : Obligations.HitReadsMem := by
  intro addr n s way _ hb hl hn
  have hread := cacheSend_readHit (c := .D) (v := 0) hb hl hn
  rw [hread]
  exact congrArg wordLE (archBytes_hit hl n 0 hn).symm

/-! ## Reset (R23, R37, R295, R296) -/

/-- R23: every register but the four seeded ones is invalid after reset. -/
theorem resetRegs_invalid (ra sp fp : Word) {r : Fin 32} (h : r ∉ [(0 : Fin 32), 1, 2, 8]) :
    (resetRegs ra sp fp)[r].valid = false := by
  have hne : r.val ≠ 0 ∧ r.val ≠ 1 ∧ r.val ≠ 2 ∧ r.val ≠ 8 := by
    simp only [List.mem_cons, List.not_mem_nil, or_false, not_or, Fin.ext_iff] at h
    exact h
  obtain ⟨h0, h1, h2, h8⟩ := hne
  simp [resetRegs, Ne.symm h0, Ne.symm h1, Ne.symm h2, Ne.symm h8]

/-- R37: every line is invalid and clean after reset. -/
theorem cacheReset_lines (g : Geometry) {row : List Line} {ln : Line} (hr : row ∈ (Cache.reset g).lines)
    (hl : ln ∈ row) : ln.valid = false ∧ ln.dirty = false := by
  rw [List.eq_of_mem_replicate hr] at hl
  rw [List.eq_of_mem_replicate hl]
  exact ⟨rfl, rfl⟩

/-- R36: the store holds the image after reset. -/
theorem reset_mem (image : List Byte) (a : Nat) : readCell (imageCells image 0) a = image.getD a 0 := by
  simpa using readCell_imageCells image 0 a

/-- What an accepted reset leaves in either cache (R37). -/
theorem resetWith_cache (cfg : Config) (mem : List Host.Cell) (entry ra sp fp : Word) (c : Client) :
    (State.resetWith cfg mem entry ra sp fp).cache c =
      Cache.reset ((State.resetWith cfg mem entry ra sp fp).geometry c) := by
  cases c <;> rfl

/-- A legal configuration has at least one way in the cache of either client (R7). -/
theorem legal_geometry_ways {s : State} (h : s.cfg.legal = true) (c : Client) : 1 ≤ (s.geometry c).ways := by
  cases c with
  | I => exact (legal_ways h).1
  | D => exact (legal_ways h).2

/-- Settles O53: the two refusals in their order, and the state `resetWith` builds. -/
theorem reset : Obligations.Reset := by
  intro cfg image entry ra sp fp
  refine ⟨fun hl => ?_, fun hl hi => ?_, fun hl hi => ?_⟩
  · simp [resetMachine, hl]
  · simp [resetMachine, hl, hi]
  · refine ⟨State.resetWith cfg (imageCells image 0) entry ra sp fp, by simp [resetMachine, hl, hi],
      rfl, rfl, rfl, rfl, rfl, rfl, rfl, rfl, rfl, rfl, rfl, fun a _ => reset_mem image a, rfl, rfl, rfl, rfl,
      fun c => ?_, rfl, rfl, rfl, rfl, rfl, rfl, fun r => resetRegs_invalid ra sp fp⟩
    rw [resetWith_cache]
    exact ⟨reset_shaped (legal_geometry_ways hl c), fun _ hr _ => cacheReset_lines _ hr,
      fun _ => List.eq_of_mem_replicate, rfl, rfl, rfl⟩

end Sys2Proof.Machine
end

section
/-! PROOFS. The statements of spec/10_state.md: the register file (R21, R24), the invariants that hold after reset and that
every step keeps (R31 to R37, R107, R286), what one instruction leaves unchanged (R27), and that an invalid register has no
value (R23). -/

namespace Sys2Proof.Machine

/-! ## What phases 3 and 4 of a cycle leave (R230, R231, R285) -/

/-- A latch after the advance phase: emptied by a flush, kept by its stall flag, clocked otherwise (R231). -/
def Latch.advanced (flush stall : Bool) (l : Latch) : Latch :=
  if flush then Latch.empty else if stall then l else l.clock

theorem finish_fd (s : State) : (finish s).fd = s.fd.advanced s.wires.flush s.wires.stallFD := by
  cases h : s.wires.flush <;> simp [finish, endCycle, advance, count, Latch.advanced, h]

theorem finish_de (s : State) : (finish s).de = s.de.advanced s.wires.flush s.wires.stallDE := by
  cases h : s.wires.flush <;> simp [finish, endCycle, advance, count, Latch.advanced, h]

theorem finish_em (s : State) : (finish s).em = s.em.advanced s.wires.flush s.wires.stallEM := by
  cases h : s.wires.flush <;> simp [finish, endCycle, advance, count, Latch.advanced, h]

/-- The counters after a cycle (R230, R231, R285). -/
theorem finish_counters (s : State) :
    (finish s).counters =
      { cycles := s.counters.cycles + 1
        retired := s.counters.retired
        dataStalls := s.counters.dataStalls + bitNat s.wires.dataHazard
        memStalls := s.counters.memStalls + bitNat s.wires.stallEM
        mispredicts := s.counters.mispredicts + bitNat s.wires.flush
        multi := s.counters.multi +
          bitNat (decide (2 ≤ bitNat s.wires.dataHazard + bitNat s.wires.stallEM + bitNat s.wires.flush))
        created := s.counters.created
        flushed := s.counters.flushed + if s.wires.flush then flushedRecords s else 0 } := by
  cases h : s.wires.flush <;> simp [finish, endCycle, advance, count, h, flushedRecords]

@[simp] theorem advanced_flush (stall : Bool) (l : Latch) : l.advanced true stall = Latch.empty := rfl

@[simp] theorem advanced_stall (l : Latch) : l.advanced false true = l := rfl

@[simp] theorem advanced_clock (l : Latch) : l.advanced false false = l.clock := rfl

/-- Only a stalled latch can have a pending record after the advance phase: the one it had (R231, R234). -/
theorem advanced_pending {flush stall : Bool} {l : Latch} (h : stall = true → l.pending = none) :
    (l.advanced flush stall).pending = none := by
  cases flush <;> cases stall
  · rfl
  · exact h rfl
  · rfl
  · rfl

/-! ## Every step keeps the invariant of a cycle boundary (R21, R32, R35, R37, R230, R233) -/

theorem boundary_arrays {s : State} (h : s.Boundary) : s.Arrays :=
  ⟨h.memory, fun c => by cases c <;> [exact h.icache; exact h.dcache]⟩

/-- What the end of a clock and an instruction executed alone each leave holds after a step (R8, R11). -/
theorem step_keeps {s t : State} {P : State → Prop} (hs : step s = .next t)
    (hcycle : s.cfg.legal = true → (beforeAdvance s).fault = none → P (finish (beforeAdvance s)))
    (halone : ∀ i, exec i s = .next t → P t) : P t := by
  obtain ⟨hl, -, ⟨-, ht, rfl⟩ | ⟨-, i, -, he⟩⟩ := step_next hs
  · obtain ⟨-, hf, hclock⟩ := clock_next ht
    rw [hclock]
    exact hcycle hl hf
  · exact halone i he

/-- A latch that its flag stalls has no pending record before the advance phase (R234). -/
theorem cycle_stalled_pending {s : State} (h : s.Boundary) (hf : (beforeAdvance s).fault = none) :
    ((beforeAdvance s).wires.stallFD = true → (beforeAdvance s).fd.pending = none) ∧
      ((beforeAdvance s).wires.stallDE = true → (beforeAdvance s).de.pending = none) ∧
      ((beforeAdvance s).wires.stallEM = true → (beforeAdvance s).em.pending = none) := by
  cases cycle_outcome h.wires hf with
  | waits _ _ _ _ _ em de fd _ _ => exact ⟨fun _ => fd.trans h.fd, fun _ => de.trans h.de, fun _ => em.trans h.em⟩
  | hazard _ _ wires _ _ _ de fd _ _ =>
    obtain ⟨hEM, -, -, -⟩ := wires
    exact ⟨fun _ => fd.trans h.fd, fun _ => de, fun e => by simp [hEM] at e⟩
  | moves wires _ _ _ _ _ =>
    obtain ⟨hEM, hDE, hFD, -⟩ := wires
    exact ⟨fun e => by simp [hFD] at e, fun e => by simp [hDE] at e, fun e => by simp [hEM] at e⟩

/-- A clock that ends without a fault keeps the invariant of a cycle boundary. -/
theorem finish_boundary {s : State} (hl : s.cfg.legal = true) (h : s.Boundary) (hf : (beforeAdvance s).fault = none) :
    (finish (beforeAdvance s)).Boundary := by
  obtain ⟨hI, hD⟩ := legal_ways hl
  obtain ⟨hcfg, -, -, -, hzero⟩ := beforeAdvance_rest hf
  obtain ⟨hmem, hcache⟩ := arrays_beforeAdvance hI hD hf (boundary_arrays h)
  obtain ⟨hfd, hde, hem⟩ := cycle_stalled_pending h hf
  exact {
    memory := by simpa using hmem
    zero := by rw [finish_regs, hzero]; exact h.zero
    wires := finish_wires _
    fd := by rw [finish_fd]; exact advanced_pending hfd
    de := by rw [finish_de]; exact advanced_pending hde
    em := by rw [finish_em]; exact advanced_pending hem
    mw := by rw [finish_mw]; rfl
    fault := by rw [finish_fault]; exact hf
    icache := by rw [finish_icache, finish_cfg]; exact hcache .I
    dcache := by rw [finish_dcache, finish_cfg]; exact hcache .D }

/-- An instruction executed alone keeps the invariant: it writes no latch, no wire and no x0, and only the data of lines. -/
theorem exec_boundary {i : Instr} {s t : State} (h : s.Boundary) (he : exec i s = .next t) : t.Boundary := by
  obtain ⟨ht, hzero, htags, hmem, -⟩ := exec_rest he
  have hcfg : t.cfg = s.cfg := by rw [ht]
  exact {
    memory := hmem h.memory
    zero := hzero.trans h.zero
    wires := by rw [ht]; exact h.wires
    fd := by rw [ht]; exact h.fd
    de := by rw [ht]; exact h.de
    em := by rw [ht]; exact h.em
    mw := by rw [ht]; exact h.mw
    fault := by rw [ht]; exact h.fault
    icache := by rw [ht]; exact h.icache
    dcache := by rw [hcfg]; exact sameTags_shaped htags h.dcache }

/-- Settles O54: a clock and an instruction executed alone each keep the invariant. -/
theorem stepKeepsBoundary : Obligations.StepKeepsBoundary := fun _ _ h hs =>
  step_keeps hs (fun hl hf => finish_boundary hl h hf) fun _ he => exec_boundary h he

/-! ## Every step keeps the relations between the counters (R31, R285, R286) -/

/-- M hands down as many records as it held. -/
theorem passed_count {held out : Option Record} (h : Passed held out) : slotCount out = slotCount held := by
  obtain ⟨rfl, rfl⟩ | ⟨j, i, rfl, rfl, -⟩ := h <;> rfl

/-- D hands down as many records as it held. -/
theorem issued_count {held out : Option Record} (h : Issued held out) : slotCount out = slotCount held := by
  obtain ⟨rfl, rfl⟩ | ⟨i, a, b, rfl, rfl⟩ := h <;> rfl

/-- F hands down exactly the records it creates. -/
theorem fetched_count {s : State} {out : Option Record} {created : Nat} (h : Fetched s out created) :
    created = s.counters.created + slotCount out := by
  obtain ⟨rfl, rfl⟩ | ⟨w, i, -, rfl, rfl⟩ := h <;> rfl

theorem slotCount_map (f : Record → Record) (r : Option Record) : slotCount (r.map f) = slotCount r := by
  cases r <;> rfl

theorem slotCount_le_one (r : Option Record) : slotCount r ≤ 1 := by
  cases r <;> simp

theorem slotCount_of_ne_none {r : Option Record} (h : r ≠ none) : slotCount r = 1 := by
  obtain ⟨i, rfl⟩ := Option.ne_none_iff_exists'.1 h
  rfl

/-- The records in flight after a cycle. -/
theorem finish_inFlight (s : State) :
    (finish s).inFlight =
      slotCount (s.fd.advanced s.wires.flush s.wires.stallFD).cur +
        slotCount (s.de.advanced s.wires.flush s.wires.stallDE).cur +
        slotCount (s.em.advanced s.wires.flush s.wires.stallEM).cur + slotCount s.mw.pending := by
  unfold State.inFlight
  rw [finish_fd, finish_de, finish_em, finish_mw]
  rfl

/-- `multi` counts a cycle only if it counts a data hazard and a flush in it: a structural stall goes with neither. -/
theorem multi_le {w : Wires} (h : w.stallEM = true → w.dataHazard = false ∧ w.flush = false) :
    bitNat (decide (2 ≤ bitNat w.dataHazard + bitNat w.stallEM + bitNat w.flush)) ≤ bitNat w.dataHazard ∧
      bitNat (decide (2 ≤ bitNat w.dataHazard + bitNat w.stallEM + bitNat w.flush)) ≤ bitNat w.flush := by
  cases hEM : w.stallEM with
  | false => cases w.dataHazard <;> cases w.flush <;> decide
  | true =>
    obtain ⟨hdh, hfl⟩ := h hEM
    simp [hdh, hfl, bitNat]

/-- One cycle's account of its records, by the state it starts from and the one it leaves to the latch advance: `new` is 1
if F creates a record, `gone` is the number of records a flush discards. -/
structure CycleAccount (s b : State) (new gone : Nat) : Prop where
  created : b.counters.created = s.counters.created + new
  one : new ≤ 1
  flying : (finish b).inFlight + gone + slotCount s.mw.cur = s.inFlight + new
  discarded : (if b.wires.flush then flushedRecords b else 0) = gone
  three : gone ≤ 3 * bitNat b.wires.flush
  leaves : bitNat b.wires.flush ≤ slotCount b.mw.pending
  stalls : b.wires.stallEM = true → b.wires.dataHazard = false ∧ b.wires.flush = false

/-- Every cycle's account balances, whichever of the three it is. -/
theorem cycle_account {s : State} (h : s.Boundary) (hf : (beforeAdvance s).fault = none) :
    ∃ new gone, CycleAccount s (beforeAdvance s) new gone := by
  obtain ⟨-, hfd, hde, hem, -⟩ := beforeAdvance_rest hf
  have ho := cycle_outcome h.wires hf
  generalize beforeAdvance s = b at *
  cases ho with
  | waits j cur wires clear mw em de fd pc created =>
    obtain ⟨hEM, hDE, hFD⟩ := wires
    obtain ⟨hdh, hfl⟩ := clear
    refine ⟨0, 0, created, by omega, ?_, by simp [hfl], by omega, by simp [hfl, bitNat], fun _ => ⟨hdh, hfl⟩⟩
    rw [finish_inFlight]
    simp [State.inFlight, hEM, hDE, hFD, hfl, hfd, hde, hem, mw]
  | hazard i cur wires flush mw em de fd pc created =>
    obtain ⟨hEM, hDE, hFD, hdh⟩ := wires
    have hM := passed_count mw
    have hE := slotCount_le_one s.de.cur
    have stalls : b.wires.stallEM = true → b.wires.dataHazard = false ∧ b.wires.flush = false := fun e => by simp [hEM] at e
    cases hfl : b.wires.flush with
    | false =>
      refine ⟨0, 0, created, by omega, ?_, by simp [hfl], by omega, by simp [hfl, bitNat], stalls⟩
      rw [finish_inFlight]
      simp [State.inFlight, hEM, hDE, hFD, hfl, hfd, de, em, hM, cur, slotCount_map]
    | true =>
      refine ⟨0, slotCount s.de.cur + 1, created, by omega, ?_, ?_, ?_, ?_, stalls⟩
      · rw [finish_inFlight]
        simp [State.inFlight, hfl, cur, hM]
        omega
      · simp [flushedRecords, hfl, fd, h.fd, de, em, hdh, hfd, cur, slotCount_map]
      · simp [bitNat, hfl]; omega
      · rw [hM, hfl, slotCount_of_ne_none (flush hfl)]; rfl
  | moves wires flush mw em de fd =>
    obtain ⟨hEM, hDE, hFD, hdh⟩ := wires
    have hM := passed_count mw
    have hD := issued_count de
    have h1 := slotCount_le_one b.fd.pending
    have h2 := slotCount_le_one s.fd.cur
    have h3 := slotCount_le_one s.de.cur
    have stalls : b.wires.stallEM = true → b.wires.dataHazard = false ∧ b.wires.flush = false := fun e => by simp [hEM] at e
    cases hfl : b.wires.flush with
    | false =>
      refine ⟨_, 0, fetched_count fd, h1, ?_, by simp [hfl], by omega, by simp [hfl, bitNat], stalls⟩
      rw [finish_inFlight]
      simp [State.inFlight, hEM, hDE, hFD, hfl, hD, em, hM, slotCount_map]
      omega
    | true =>
      refine ⟨_, slotCount b.fd.pending + slotCount s.fd.cur + slotCount s.de.cur, fetched_count fd, h1, ?_, ?_, ?_, ?_,
        stalls⟩
      · rw [finish_inFlight]
        simp [State.inFlight, hfl, hM]
        omega
      · simp [flushedRecords, hfl, hD, em, hdh, slotCount_map]
      · simp [bitNat, hfl]; omega
      · rw [hM, hfl, slotCount_of_ne_none (flush hfl)]; rfl

/-- A clock that ends without a fault keeps the relations between the counters. -/
theorem finish_counted {s : State} (h : s.Boundary) (hc : s.Counted) (hf : (beforeAdvance s).fault = none) :
    (finish (beforeAdvance s)).Counted := by
  obtain ⟨new, gone, hcreated, hone, hflying, hgone, hthree, hleaves, hstalls⟩ := cycle_account h hf
  obtain ⟨hdata, hflush⟩ := multi_le hstalls
  obtain ⟨howned, hcycles, hmiss, hmultiData, hmultiFlush, hflushed⟩ := hc
  have hmw : (finish (beforeAdvance s)).mw.cur = (beforeAdvance s).mw.pending := by rw [finish_mw]; rfl
  have hcount := finish_counters (beforeAdvance s)
  rw [hcreated, hgone, beforeAdvance_counters hf] at hcount
  constructor <;> simp only [hcount, hmw] <;> omega

/-- An instruction executed alone counts nothing and moves no record. -/
theorem exec_counted {i : Instr} {s t : State} (hc : s.Counted) (he : exec i s = .next t) : t.Counted := by
  obtain ⟨ht, -⟩ := exec_rest he
  obtain ⟨howned, hcycles, hmiss, hmultiData, hmultiFlush, hflushed⟩ := hc
  rw [ht]
  exact ⟨howned, hcycles, hmiss, hmultiData, hmultiFlush, hflushed⟩

/-- Settles O55: a clock balances its account of records, an instruction executed alone has none. -/
theorem stepKeepsCounts : Obligations.StepKeepsCounts := fun _ _ h hc hs =>
  step_keeps hs (fun _ hf => finish_counted h hc hf) fun _ he => exec_counted hc he

/-! ## Every step keeps the invariant of the memory system (R34, R98, R101, R102, R107) -/

/-- The order, what the two clients know of their caches, M's registers and the widths in flight make up `MemoryOk`. -/
theorem memoryOk_of_ordered {s : State} (h : s.Ordered) (fetchIdle : s.fetchPending = false → s.icache.busy = false)
    (memoryIdle : s.mWaiting = false → s.dcache.busy = false) (beat : s.beatOk)
    (fdSized : ∀ r, s.fd.cur = some r → r.sized) (deSized : ∀ r, s.de.cur = some r → r.sized)
    (emSized : ∀ r, s.em.cur = some r → r.sized) : s.MemoryOk where
  icache := h.queue .I
  dcache := h.queue .D
  itags := h.tags .I
  dtags := h.tags .D
  idirty := h.dirty .I
  ddirty := h.dirty .D
  slot := ⟨h.slot .I, h.slot .D, h.free, h.taken, h.counting⟩
  fetchIdle := fetchIdle
  memoryIdle := memoryIdle
  beat := beat
  fdSized := fdSized
  deSized := deSized
  emSized := emSized

/-! ### The registers of the memory stage (R34) -/

/-- The parts of the state that `beatOk` looks at. -/
theorem beatOk_congr {s t : State} (hc : t.cfg = s.cfg) (he : t.em.cur = s.em.cur) (hb : t.mBeat = s.mBeat)
    (hw : t.mWaiting = s.mWaiting) (ha : t.mAcc = s.mAcc) (h : s.beatOk) : t.beatOk := by
  unfold State.beatOk State.beatIdle at *
  rwa [hc, he, hb, hw, ha]

theorem beatIdle_congr {s t : State} (hb : t.mBeat = s.mBeat) (hw : t.mWaiting = s.mWaiting) (ha : t.mAcc = s.mAcc)
    (h : s.beatIdle) : t.beatIdle := by
  unfold State.beatIdle at *
  rwa [hb, hw, ha]

/-- Registers at their reset values fit whatever record M holds. -/
theorem beatOk_of_idle {s : State} (h : s.beatIdle) : s.beatOk := by
  obtain ⟨hb, hw, ha⟩ := h
  unfold State.beatOk
  split
  · exact ⟨hb, hw, ha⟩
  · split
    · refine ⟨fun hc => ?_, ?_, fun _ => ha⟩
      · simp [hb, hw] at hc
      · rw [hb]
        exact Nat.lt_of_lt_of_le Nat.zero_lt_one (Nat.le_max_left _ _)
    · exact ⟨hb, hw, ha⟩

/-! ### The widths of the records in flight (R186) -/

/-- Width and class are all that `sized` looks at. -/
theorem sized_congr {r q : Record} (hl : q.isLoad = r.isLoad) (hs : q.isStore = r.isStore) (hn : q.size = r.size)
    (h : r.sized) : q.sized := by
  unfold Record.sized at *
  rwa [hl, hs, hn]

theorem execute_sized {r : Record} (h : r.sized) : (execute r).sized := sized_congr (by simp) (by simp) (by simp) h

theorem decodeRecord_sized {w pc : Word} {r : Record} (h : decodeRecord w pc = some r) : r.sized := by
  obtain ⟨i, -, rfl⟩ := Option.map_eq_some_iff.1 h
  exact recordOf_sized i w pc

theorem issued_sized {held out : Option Record} (h : Issued held out) (hs : ∀ r, held = some r → r.sized) :
    ∀ r, out = some r → r.sized := by
  intro r hr
  obtain ⟨-, rfl⟩ | ⟨i, a, b, rfl, rfl⟩ := h
  · cases hr
  · cases hr
    exact sized_congr (r := i) rfl rfl rfl (hs i rfl)

theorem fetched_sized {s : State} {out : Option Record} {created : Nat} (h : Fetched s out created) :
    ∀ r, out = some r → r.sized := by
  intro r hr
  obtain ⟨rfl, -⟩ | ⟨w, i, hd, rfl, -⟩ := h
  · cases hr
  · cases hr
    exact decodeRecord_sized hd

theorem executed_sized {held : Option Record} (hs : ∀ r, held = some r → r.sized) :
    ∀ r, held.map execute = some r → r.sized := by
  intro r hr
  obtain ⟨i, hi, rfl⟩ := Option.map_eq_some_iff.1 hr
  exact execute_sized (hs i hi)

/-- What a latch shows after the advance phase was in one of its slots. -/
theorem advanced_cur {flush stall : Bool} {l : Latch} {r : Record} (h : (l.advanced flush stall).cur = some r) :
    l.cur = some r ∨ l.pending = some r := by
  cases flush <;> cases stall
  · exact .inr h
  · exact .inl h
  · cases h
  · cases h

/-- The records a cycle puts into the pending slots have the widths of R186 if those it found have them. -/
theorem cycle_sized {s : State} (h : s.Boundary) (hf : (beforeAdvance s).fault = none)
    (hfd : ∀ r, s.fd.cur = some r → r.sized) (hde : ∀ r, s.de.cur = some r → r.sized) :
    (∀ r, (beforeAdvance s).fd.pending = some r → r.sized) ∧ (∀ r, (beforeAdvance s).de.pending = some r → r.sized) ∧
      ∀ r, (beforeAdvance s).em.pending = some r → r.sized := by
  have empty : ∀ {o : Option Record}, o = none → ∀ r, o = some r → r.sized := fun e r hr => by simp [e] at hr
  cases cycle_outcome h.wires hf with
  | waits _ _ _ _ _ em de fd _ _ => exact ⟨empty (fd.trans h.fd), empty (de.trans h.de), empty (em.trans h.em)⟩
  | hazard _ _ _ _ _ em de fd _ _ => exact ⟨empty (fd.trans h.fd), empty de, by rw [em]; exact executed_sized hde⟩
  | moves _ _ _ em de fd => exact ⟨fetched_sized fd, issued_sized de hfd, by rw [em]; exact executed_sized hde⟩

/-! ### The cycle level -/

/-- Only M sets `stall_EM` (R252). -/
theorem stageE_stallEM (s : State) : (stageE s).wires.stallEM = s.wires.stallEM := by
  cases stageE_outcome s with
  | stalled _ same => rw [same]
  | bubble _ _ wires _ => rw [wires]
  | executes _ _ _ wires _ => rw [wires]

theorem stageD_stallEM {s : State} (hf : (stageD s).fault = none) : (stageD s).wires.stallEM = s.wires.stallEM := by
  cases stageD_outcome hf with
  | stalled _ same => rw [same]
  | bubble _ _ wires _ => rw [wires]
  | hazard _ _ _ _ wires _ => rw [wires]
  | issues _ _ _ _ _ _ _ _ _ wires _ => rw [wires]

/-- What the stages of a cycle leave of the memory system: it is in order, both clients know when their cache is idle, and
M's registers fit the record that waits in M, or are back at their reset values. -/
structure State.MemoryKept (s : State) : Prop where
  ordered : s.Ordered
  fetchIdle : s.fetchPending = false → s.icache.busy = false
  memoryIdle : s.mWaiting = false → s.dcache.busy = false
  waits : s.wires.stallEM = true → s.beatOk
  idle : s.wires.stallEM = false → s.beatIdle

/-- Only the fields it names matter. -/
theorem memoryKept_congr {s t : State} (hcfg : t.cfg = s.cfg) (hstore : t.store = s.store) (hi : t.icache = s.icache)
    (hd : t.dcache = s.dcache) (hf : t.fetchPending = s.fetchPending) (he : t.em.cur = s.em.cur)
    (hb : t.mBeat = s.mBeat) (hw : t.mWaiting = s.mWaiting) (ha : t.mAcc = s.mAcc)
    (hst : t.wires.stallEM = s.wires.stallEM) (h : s.MemoryKept) : t.MemoryKept where
  ordered := ordered_congr hcfg hstore hi hd h.ordered
  fetchIdle := by rw [hf, hi]; exact h.fetchIdle
  memoryIdle := by rw [hw, hd]; exact h.memoryIdle
  waits := by rw [hst]; exact fun hs => beatOk_congr hcfg he hb hw ha (h.waits hs)
  idle := by rw [hst]; exact fun hs => beatIdle_congr hb hw ha (h.idle hs)

/-- The Memory Unit, W and M keep the order and M's registers. -/
theorem stageM_memoryKept {s : State} (hl : s.cfg.legal = true) (h : s.Boundary) (hm : s.MemoryOk)
    (h0 : (phaseMemory s).fault = none) (hM : (stageM (stageW (phaseMemory s))).fault = none) :
    (stageM (stageW (phaseMemory s))).MemoryKept := by
  obtain ⟨hphase, -⟩ := ordered_phaseMemory hl h.fault (boundary_arrays h) (memoryOk_ordered hm)
  obtain ⟨hord, hbusy⟩ := hphase h0
  have harr : (stageW (phaseMemory s)).Arrays :=
    arrays_congr (s := phaseMemory s) (by simp) (by simp) (by simp) (by simp) (arrays_phaseMemory (boundary_arrays h))
  have hordW : (stageW (phaseMemory s)).Ordered :=
    ordered_congr (s := phaseMemory s) (by simp) (by simp) (by simp) (by simp) hord
  obtain ⟨-, hstage⟩ := ordered_stageM (s := stageW (phaseMemory s)) (by simpa using hl) (by simpa using h0) harr hordW
    (by simp [h.wires, Wires.cleared])
    (fun hw => by simpa [State.cache] using hbusy .D (hm.memoryIdle (by simpa using hw)))
    (beatOk_congr (s := s) (by simp) (by simp) (by simp) (by simp) (by simp) hm.beat)
    (by simpa using hm.emSized)
  obtain ⟨hordM, hidle, hbeat⟩ := hstage hM
  exact {
    ordered := hordM
    fetchIdle := fun hp => by simpa [State.cache] using hbusy .I (hm.fetchIdle (by simpa using hp))
    memoryIdle := hidle
    waits := fun hs => by rwa [if_pos hs] at hbeat
    idle := fun hs => by rwa [if_neg (by simp [hs])] at hbeat }

/-- The stages of a cycle keep the memory system. -/
theorem beforeAdvance_memoryKept {s : State} (hl : s.cfg.legal = true) (h : s.Boundary) (hm : s.MemoryOk)
    (hf : (beforeAdvance s).fault = none) : (beforeAdvance s).MemoryKept := by
  obtain ⟨h0, -, h3, -, h5, hb⟩ := beforeAdvance_next hf
  rw [hb] at hf ⊢
  have hkept := stageM_memoryKept hl h hm h0 h3
  have harr : (stageM (stageW (phaseMemory s))).Arrays := by
    refine arrays_stageM (by simpa using (legal_ways hl).2) ?_
    exact arrays_congr (s := phaseMemory s) (by simp) (by simp) (by simp) (by simp)
      (arrays_phaseMemory (boundary_arrays h))
  have hcfg : (stageM (stageW (phaseMemory s))).cfg.legal = true := by simpa using hl
  generalize stageM (stageW (phaseMemory s)) = m at *
  have hkeptD : (stageD (stageE m)).MemoryKept :=
    memoryKept_congr (s := m) (by simp) (by simp) (by simp) (by simp) (by simp) (by simp) (by simp) (by simp) (by simp)
      (by rw [stageD_stallEM h5, stageE_stallEM]) hkept
  have harrD : (stageD (stageE m)).Arrays := arrays_congr (s := m) (by simp) (by simp) (by simp) (by simp) harr
  obtain ⟨-, hstage⟩ := ordered_stageF (by simpa using hcfg) h5 harrD hkeptD.ordered hkeptD.fetchIdle
  obtain ⟨hord, hidle⟩ := hstage hf
  exact {
    ordered := hord
    fetchIdle := hidle
    memoryIdle := by simpa using hkeptD.memoryIdle
    waits := fun hs => beatOk_congr (by simp) (by simp) (by simp) (by simp) (by simp) (hkeptD.waits (by simpa using hs))
    idle := fun hs => beatIdle_congr (by simp) (by simp) (by simp) (hkeptD.idle (by simpa using hs)) }

/-- A clock that ends without a fault keeps the invariant of the memory system. -/
theorem finish_memoryOk {s : State} (hl : s.cfg.legal = true) (h : s.Boundary) (hm : s.MemoryOk)
    (hf : (beforeAdvance s).fault = none) : (finish (beforeAdvance s)).MemoryOk := by
  obtain ⟨hord, hfetch, hmem, hwaits, hidle⟩ := beforeAdvance_memoryKept hl h hm hf
  obtain ⟨hfd, hde, hem⟩ := cycle_sized h hf hm.fdSized hm.deSized
  obtain ⟨-, hfdCur, hdeCur, hemCur, -⟩ := beforeAdvance_rest hf
  obtain ⟨_, _, haccount⟩ := cycle_account h hf
  refine memoryOk_of_ordered (ordered_congr (by simp) (by simp) (by simp) (by simp) hord) (by simpa using hfetch)
    (by simpa using hmem) ?_ (fun r hr => ?_) (fun r hr => ?_) fun r hr => ?_
  · cases hstall : (beforeAdvance s).wires.stallEM with
    | true =>
      have hem : (finish (beforeAdvance s)).em = (beforeAdvance s).em := by
        rw [finish_em, (haccount.stalls hstall).2, hstall, advanced_stall]
      exact beatOk_congr (by simp) (by rw [hem]) (by simp) (by simp) (by simp) (hwaits hstall)
    | false => exact beatOk_of_idle (beatIdle_congr (by simp) (by simp) (by simp) (hidle hstall))
  · rw [finish_fd] at hr
    exact (advanced_cur hr).elim (fun hc => hm.fdSized r (hfdCur ▸ hc)) (hfd r)
  · rw [finish_de] at hr
    exact (advanced_cur hr).elim (fun hc => hm.deSized r (hdeCur ▸ hc)) (hde r)
  · rw [finish_em] at hr
    exact (advanced_cur hr).elim (fun hc => hm.emSized r (hemCur ▸ hc)) (hem r)

/-! ### The instruction level -/

/-- A write to `Mem` leaves the queue and the transactions' lines where they are (R80, R107). -/
theorem queueOk_sameTags {g : Geometry} {fb : Nat} {k k' : Cache} (hk : k.SameTags k') (h : k.queueOk g fb) :
    k'.queueOk g fb := by
  have hbusy : k'.busy = k.busy := by simp only [Cache.busy, hk.req]
  have hfill : ∀ {t : Transaction}, FillServes g k t → FillServes g k' t := fun ht =>
    fillServes_of_same (by rw [hk.req]) (by rw [hk.req]) hk.addr hk.valid rfl rfl rfl rfl ht
  unfold Cache.queueOk at h ⊢
  rw [hk.queue, hbusy]
  match k.queue, h with
  | [], hidle => exact hidle
  | [f], ⟨hb, hf, hu⟩ => exact ⟨hb, hfill hf, hu⟩
  | [w, f], ⟨hb, hf, hw⟩ => exact ⟨hb, hfill hf, hw⟩

/-- An instruction executed alone keeps the invariant: it moves no line and no record. -/
theorem exec_memoryOk {i : Instr} {s t : State} (hm : s.MemoryOk) (he : exec i s = .next t) : t.MemoryOk := by
  obtain ⟨ht, -, htags, -, hdirty⟩ := exec_rest he
  have hcfg : t.cfg = s.cfg := by rw [ht]
  have hicache : t.icache = s.icache := by rw [ht]
  have hbusy : t.dcache.busy = s.dcache.busy := by simp only [Cache.busy, htags.req]
  have hout : t.dcache.beatOut = s.dcache.beatOut := by simp only [Cache.beatOut, htags.queue]
  exact {
    icache := by rw [hicache, hcfg]; exact hm.icache
    dcache := by rw [hcfg]; exact queueOk_sameTags htags hm.dcache
    itags := by rw [hicache, hcfg]; exact hm.itags
    dtags := by rw [hcfg]; exact uniqueTags_of_same htags.addr (fun a b hv => by rwa [← htags.valid]) hm.dtags
    idirty := by rw [hicache]; exact hm.idirty
    ddirty := hdirty hm.ddirty
    slot := ⟨by rw [ht]; exact hm.slot.fetch, by rw [hout, ht]; exact hm.slot.data, by rw [ht]; exact hm.slot.free,
      by rw [ht]; exact hm.slot.taken, by rw [ht]; exact hm.slot.counting⟩
    fetchIdle := by rw [ht]; exact hm.fetchIdle
    memoryIdle := by rw [hbusy, ht]; exact hm.memoryIdle
    beat := by rw [ht]; exact hm.beat
    fdSized := by rw [ht]; exact hm.fdSized
    deSized := by rw [ht]; exact hm.deSized
    emSized := by rw [ht]; exact hm.emSized }

/-- Settles O57: a clock and an instruction executed alone each keep the memory system. -/
theorem stepKeepsMemoryOk : Obligations.StepKeepsMemoryOk := fun _ _ h hm hs =>
  step_keeps hs (fun hl hf => finish_memoryOk hl h hm hf) fun _ he => exec_memoryOk hm he

/-! ## An invalid register has no value that could be observed (R23, R258) -/

/-! ### What of a cycle does not look at the register file -/

/-- The state with another register file. -/
def State.setRegs (s : State) (regs : Vector RegEntry 32) : State := { s with regs := regs }

section
variable (s : State) (regs : Vector RegEntry 32)

@[simp] theorem setRegs_cfg : (s.setRegs regs).cfg = s.cfg := rfl

@[simp] theorem setRegs_level : (s.setRegs regs).level = s.level := rfl

@[simp] theorem setRegs_regs : (s.setRegs regs).regs = regs := rfl

@[simp] theorem setRegs_pc : (s.setRegs regs).pc = s.pc := rfl

@[simp] theorem setRegs_fetchPending : (s.setRegs regs).fetchPending = s.fetchPending := rfl

@[simp] theorem setRegs_fd : (s.setRegs regs).fd = s.fd := rfl

@[simp] theorem setRegs_de : (s.setRegs regs).de = s.de := rfl

@[simp] theorem setRegs_em : (s.setRegs regs).em = s.em := rfl

@[simp] theorem setRegs_mw : (s.setRegs regs).mw = s.mw := rfl

@[simp] theorem setRegs_mBeat : (s.setRegs regs).mBeat = s.mBeat := rfl

@[simp] theorem setRegs_mWaiting : (s.setRegs regs).mWaiting = s.mWaiting := rfl

@[simp] theorem setRegs_mAcc : (s.setRegs regs).mAcc = s.mAcc := rfl

@[simp] theorem setRegs_wires : (s.setRegs regs).wires = s.wires := rfl

@[simp] theorem setRegs_store : (s.setRegs regs).store = s.store := rfl

@[simp] theorem setRegs_icache : (s.setRegs regs).icache = s.icache := rfl

@[simp] theorem setRegs_dcache : (s.setRegs regs).dcache = s.dcache := rfl

@[simp] theorem setRegs_counters : (s.setRegs regs).counters = s.counters := rfl

@[simp] theorem setRegs_fault : (s.setRegs regs).fault = s.fault := rfl

@[simp] theorem setRegs_cache (c : Client) : (s.setRegs regs).cache c = s.cache c := by cases c <;> rfl

@[simp] theorem setRegs_geometry (c : Client) : (s.setRegs regs).geometry c = s.geometry c := by cases c <;> rfl

@[simp] theorem setRegs_raise (f : Fault) : (s.setRegs regs).raise f = (s.raise f).setRegs regs := by
  unfold State.raise
  rw [setRegs_fault]
  split <;> rfl

@[simp] theorem setRegs_withCache (c : Client) (k : Cache) :
    (s.setRegs regs).withCache c k = (s.withCache c k).setRegs regs := by cases c <;> rfl

@[simp] theorem setRegs_withQueue (c : Client) (q : List Transaction) :
    (s.setRegs regs).withQueue c q = (s.withQueue c q).setRegs regs := by cases c <;> rfl

end

/-- A piece of work that gives the same with another register file, and leaves the register file. -/
def IgnoresRegs (f : State → State) : Prop :=
  ∀ (s : State) (regs : Vector RegEntry 32), f (s.setRegs regs) = (f s).setRegs regs

theorem andThen_setRegs {s : State} {regs : Vector RegEntry 32} {next : State → State} (h : IgnoresRegs next) :
    (s.setRegs regs).andThen next = (s.andThen next).setRegs regs := by
  unfold State.andThen
  rw [setRegs_fault]
  split
  · exact h s regs
  · rfl

theorem ignoresRegs_comp {f g : State → State} (hf : IgnoresRegs f) (hg : IgnoresRegs g) :
    IgnoresRegs fun s => g (f s) := fun s regs => by
  show g (f (s.setRegs regs)) = _
  rw [hf, hg]

theorem ignoresRegs_andThen {f g : State → State} (hf : IgnoresRegs f) (hg : IgnoresRegs g) :
    IgnoresRegs fun s => (f s).andThen g := fun s regs => by
  show (f (s.setRegs regs)).andThen g = _
  rw [hf, andThen_setRegs hg]

theorem storeSend_ignoresRegs (kind : Access) (addr : Word) (n : Nat) (v : Word) (c : Client) :
    IgnoresRegs (storeSend kind addr n v c) := by
  intro s regs
  unfold storeSend
  rw [setRegs_store]
  split
  · exact setRegs_raise s regs _
  · rfl

theorem storePerform_ignoresRegs : IgnoresRegs storePerform := by
  intro s regs
  unfold storePerform
  rw [setRegs_store]
  split <;> rfl

theorem storeClock_ignoresRegs : IgnoresRegs storeClock := by
  intro s regs
  unfold storeClock
  dsimp only
  rw [setRegs_store, setRegs_cfg]
  split
  · split
    · split
      · exact setRegs_raise { s with store := { s.store with countdown := s.store.countdown - 1 } } regs _
      · exact storePerform_ignoresRegs { s with store := { s.store with countdown := s.store.countdown - 1 } } regs
    · rfl
  · rfl

theorem performRequest_ignoresRegs (c : Client) (set way : Nat) : IgnoresRegs (performRequest c set way) := by
  intro s regs
  unfold performRequest
  dsimp only
  rw [setRegs_cache, setRegs_geometry]
  split
  · exact setRegs_raise s regs _
  · split <;> exact setRegs_withCache s regs c _

theorem issueBeat_ignoresRegs (c : Client) (t : Transaction) (rest : List Transaction) :
    IgnoresRegs (issueBeat c t rest) := by
  intro s regs
  have hqueue : IgnoresRegs fun s => s.withQueue c ({ t with outstanding := true } :: rest) := fun s regs =>
    setRegs_withQueue s regs c _
  unfold issueBeat
  dsimp only
  rw [setRegs_store, setRegs_cfg, setRegs_cache]
  split
  · exact setRegs_withQueue s regs c _
  · split
    · rw [storeSend_ignoresRegs, andThen_setRegs hqueue]
    · rw [storeSend_ignoresRegs, andThen_setRegs hqueue]

theorem collectBeat_ignoresRegs (c : Client) (t : Transaction) : IgnoresRegs (collectBeat c t) := by
  intro s regs
  unfold collectBeat
  simp only [setRegs_store, setRegs_cfg, setRegs_cache, setRegs_withCache]
  rfl

theorem completeTransaction_ignoresRegs (c : Client) (t : Transaction) : IgnoresRegs (completeTransaction c t) := by
  intro s regs
  unfold completeTransaction
  split
  · rfl
  · simp only [setRegs_cache, setRegs_withCache]
    rw [performRequest_ignoresRegs]

theorem processQueue_ignoresRegs (c : Client) (q : List Transaction) : IgnoresRegs (processQueue c q) := by
  induction q with
  | nil => exact fun s regs => setRegs_withQueue s regs c []
  | cons t rest ih =>
    intro s regs
    unfold processQueue
    dsimp only
    rw [setRegs_store, setRegs_cfg, setRegs_geometry, collectBeat_ignoresRegs c t s regs]
    split
    · split
      · split
        · rw [setRegs_withQueue, completeTransaction_ignoresRegs, andThen_setRegs ih]
        · rw [issueBeat_ignoresRegs]
      · exact setRegs_withQueue s regs c _
    · rw [issueBeat_ignoresRegs]

theorem processCache_ignoresRegs (c : Client) : IgnoresRegs (processCache c) := by
  intro s regs
  unfold processCache
  rw [setRegs_cache, processQueue_ignoresRegs]

theorem cacheMiss_ignoresRegs (c : Client) (addr : Word) : IgnoresRegs (cacheMiss c addr) := by
  intro s regs
  unfold cacheMiss
  simp only [setRegs_cache, setRegs_geometry, setRegs_withCache]

theorem cacheSend_ignoresRegs (c : Client) (kind : Access) (addr : Word) (n : Nat) (v : Word) :
    IgnoresRegs (cacheSend c kind addr n v) := by
  intro s regs
  unfold cacheSend
  simp only [setRegs_cache, setRegs_geometry, setRegs_counters, setRegs_raise, setRegs_withCache]
  split
  · rfl
  · split
    · rw [performRequest_ignoresRegs]
    · rw [cacheMiss_ignoresRegs, processCache_ignoresRegs]

theorem phaseMemory_ignoresRegs : IgnoresRegs phaseMemory :=
  ignoresRegs_andThen (ignoresRegs_andThen storeClock_ignoresRegs (processCache_ignoresRegs .I))
    (processCache_ignoresRegs .D)

theorem sendBeat_ignoresRegs (i : Record) : IgnoresRegs (sendBeat i) := by
  intro s regs
  have hwaiting : IgnoresRegs fun s => { s with mWaiting := true } := fun _ _ => rfl
  unfold sendBeat
  dsimp only
  rw [setRegs_mWaiting, setRegs_cfg, setRegs_mBeat]
  split
  · rfl
  · split
    · rw [cacheSend_ignoresRegs, andThen_setRegs hwaiting]
    · rw [cacheSend_ignoresRegs, andThen_setRegs hwaiting]

theorem consumeBeat_ignoresRegs (i : Record) : IgnoresRegs (consumeBeat i) := by
  intro s regs
  unfold consumeBeat
  dsimp only
  rw [setRegs_dcache, setRegs_cfg, setRegs_mBeat, setRegs_mAcc]
  split
  · split <;> rfl
  · rfl

theorem stageM_ignoresRegs : IgnoresRegs stageM := by
  intro s regs
  unfold stageM
  rw [setRegs_em]
  split
  · rfl
  · split
    · unfold accessMemory
      simp only [setRegs_mBeat, setRegs_mWaiting, setRegs_counters, setRegs_raise]
      split
      · rfl
      · rw [sendBeat_ignoresRegs, andThen_setRegs (consumeBeat_ignoresRegs _)]
    · rfl

theorem stageE_ignoresRegs : IgnoresRegs stageE := by
  intro s regs
  unfold stageE
  rw [setRegs_wires, setRegs_de]
  split
  · rfl
  · split <;> rfl

theorem requestFetch_ignoresRegs : IgnoresRegs requestFetch := by
  intro s regs
  have hpending : IgnoresRegs fun s => { s with fetchPending := true } := fun _ _ => rfl
  unfold requestFetch
  simp only [setRegs_fetchPending, setRegs_pc, setRegs_counters, setRegs_raise]
  split
  · rfl
  · split
    · rfl
    · rw [cacheSend_ignoresRegs, andThen_setRegs hpending]

theorem deliverFetch_ignoresRegs : IgnoresRegs deliverFetch := by
  intro s regs
  unfold deliverFetch
  dsimp only
  rw [setRegs_icache, setRegs_pc]
  split
  · split
    · split
      · exact setRegs_raise { s with fetchPending := false } regs _
      · rfl
    · rfl
  · rfl

theorem stageF_ignoresRegs : IgnoresRegs stageF := by
  intro s regs
  unfold stageF
  rw [setRegs_wires]
  split
  · rfl
  · rw [requestFetch_ignoresRegs, andThen_setRegs deliverFetch_ignoresRegs]

theorem advance_ignoresRegs : IgnoresRegs advance := by
  intro s regs
  unfold advance
  rw [setRegs_wires]
  split <;> rfl

theorem finish_ignoresRegs : IgnoresRegs finish :=
  ignoresRegs_comp (f := fun s => advance (count s)) (g := endCycle)
    (ignoresRegs_comp (f := count) (fun _ _ => rfl) advance_ignoresRegs) fun _ _ => rfl

/-! ### What reads or writes registers sees valid values only -/

/-- Two register files that differ at most in the values of invalid registers. -/
def SameValues (regs regs' : Vector RegEntry 32) : Prop :=
  ∀ r : Fin 32, regs[r].valid = regs'[r].valid ∧ (regs[r].valid = true → regs[r].value = regs'[r].value)

theorem sameValid_iff {s t : State} : s.SameValid t ↔ ∃ regs, t = s.setRegs regs ∧ SameValues s.regs regs := by
  constructor
  · rintro ⟨ht, hr⟩
    exact ⟨t.regs, ht, hr⟩
  · rintro ⟨regs, rfl, hr⟩
    exact ⟨rfl, hr⟩

/-- Writing the same entry into both keeps the two alike. -/
theorem sameValues_set {regs regs' : Vector RegEntry 32} (h : SameValues regs regs') (k : Nat) (hk : k < 32)
    (e : RegEntry) : SameValues (regs.set k e hk) (regs'.set k e hk) := by
  intro r
  by_cases hr : k = r.val
  · simp [hr]
  · simpa [hr] using h r

/-- A readable entry is the same in both. -/
theorem sameValues_regEntry {s : State} {regs : Vector RegEntry 32} (h : SameValues s.regs regs) (r : Reg) :
    ((s.setRegs regs).regEntry r).valid = (s.regEntry r).valid ∧
      ((s.regEntry r).valid = true → ((s.setRegs regs).regEntry r).value = (s.regEntry r).value) := by
  unfold State.regEntry
  split
  · exact ⟨rfl, fun _ => rfl⟩
  · obtain ⟨hvalid, hvalue⟩ := h ⟨r.toNat, r.isLt⟩
    exact ⟨hvalid.symm, fun hv => (hvalue hv).symm⟩

/-- The instruction level reads the same sources (R13, R273). -/
theorem sourceValue_setRegs {s : State} {regs : Vector RegEntry 32} (h : SameValues s.regs regs) (r : Option Reg) :
    sourceValue (s.setRegs regs) r = sourceValue s r := by
  cases r with
  | none => rfl
  | some r =>
    obtain ⟨hvalid, hvalue⟩ := sameValues_regEntry h r
    cases hv : (s.regEntry r).valid with
    | true => simp [sourceValue, hvalid, hv, hvalue hv]
    | false => simp [sourceValue, hvalid, hv]

/-- D reads the same operands (R256, R258). -/
theorem readOperand_setRegs {s : State} {regs : Vector RegEntry 32} (h : SameValues s.regs regs) (r : Option Reg) :
    readOperand (s.setRegs regs) r = readOperand s r := by
  have hsource := sourceValue_setRegs h r
  unfold readOperand
  rw [setRegs_wires]
  split
  · rfl
  · rfl
  · rfl
  · exact hsource

theorem writeReg_setRegs {s : State} {regs : Vector RegEntry 32} (h : SameValues s.regs regs) (r : Reg) (v : Word) :
    (s.writeReg r v).SameValid ((s.setRegs regs).writeReg r v) := by
  unfold State.writeReg
  split
  · exact ⟨rfl, h⟩
  · exact ⟨rfl, sameValues_set h r.toNat r.isLt _⟩

theorem writeDest_setRegs {s : State} {regs : Vector RegEntry 32} (h : SameValues s.regs regs) (rd : Option Reg)
    (v : Word) : (s.writeDest rd v).SameValid ((s.setRegs regs).writeDest rd v) := by
  cases rd with
  | none => exact ⟨rfl, h⟩
  | some r => exact writeReg_setRegs h r v

/-- D's result depends on valid values only, and D writes no register. -/
theorem stageD_setRegs {s : State} {regs : Vector RegEntry 32} (h : SameValues s.regs regs) :
    stageD (s.setRegs regs) = (stageD s).setRegs regs := by
  unfold stageD
  rw [setRegs_wires, setRegs_fd]
  split
  · rfl
  · split
    · rfl
    · split
      · rfl
      · unfold readOperands
        rw [readOperand_setRegs h, readOperand_setRegs h]
        split
        · exact setRegs_raise s regs _
        · exact setRegs_raise s regs _
        · rfl

/-! ### The cycle level -/

/-- A piece of work that takes two machines that differ only in invalid values to two that differ only so. -/
def HidesInvalid (f : State → State) : Prop := ∀ s t : State, s.SameValid t → (f s).SameValid (f t)

theorem hidesInvalid_of_ignoresRegs {f : State → State} (h : IgnoresRegs f) : HidesInvalid f := by
  intro s t hst
  obtain ⟨regs, rfl, hr⟩ := sameValid_iff.1 hst
  have hkeeps : (f s).regs = s.regs := by
    have hself : f s = (f s).setRegs s.regs := h s s.regs
    rw [hself, setRegs_regs]
  exact sameValid_iff.2 ⟨regs, h s regs, by rwa [hkeeps]⟩

theorem sameValid_fault {s t : State} (h : s.SameValid t) : t.fault = s.fault := by
  obtain ⟨ht, -⟩ := h
  rw [ht]

theorem hidesInvalid_andThen {f g : State → State} (hf : HidesInvalid f) (hg : HidesInvalid g) :
    HidesInvalid fun s => (f s).andThen g := by
  intro s t h
  have hst := hf s t h
  show ((f s).andThen g).SameValid ((f t).andThen g)
  unfold State.andThen
  rw [sameValid_fault hst]
  split
  · exact hg _ _ hst
  · exact hst

theorem stageW_hidesInvalid : HidesInvalid stageW := by
  intro s t hst
  obtain ⟨regs, rfl, hr⟩ := sameValid_iff.1 hst
  unfold stageW
  rw [setRegs_mw]
  split
  · exact hst
  · rename_i i _
    obtain ⟨regs', ht, hr'⟩ := sameValid_iff.1 (writeDest_setRegs hr i.rd (wbval i))
    dsimp only
    rw [ht]
    exact sameValid_iff.2 ⟨regs', rfl, hr'⟩

theorem stageD_hidesInvalid : HidesInvalid stageD := by
  intro s t hst
  obtain ⟨regs, rfl, hr⟩ := sameValid_iff.1 hst
  exact sameValid_iff.2 ⟨regs, stageD_setRegs hr, by rwa [stageD_regs]⟩

/-- One clock hides the values of invalid registers: only W and D touch the register file. -/
theorem clock_hidesInvalid : HidesInvalid clock := by
  have hM := hidesInvalid_of_ignoresRegs stageM_ignoresRegs
  have hE := hidesInvalid_of_ignoresRegs stageE_ignoresRegs
  have hF := hidesInvalid_of_ignoresRegs stageF_ignoresRegs
  have hstages : HidesInvalid phaseStages :=
    hidesInvalid_andThen (hidesInvalid_andThen (hidesInvalid_andThen (hidesInvalid_andThen stageW_hidesInvalid hM) hE)
      stageD_hidesInvalid) hF
  have hbefore : HidesInvalid beforeAdvance :=
    hidesInvalid_andThen (hidesInvalid_of_ignoresRegs phaseMemory_ignoresRegs) hstages
  have hcycle : HidesInvalid fun s => (beforeAdvance s).andThen finish :=
    hidesInvalid_andThen hbefore (hidesInvalid_of_ignoresRegs finish_ignoresRegs)
  exact hidesInvalid_andThen (f := id) (fun _ _ h => h) hcycle

/-! ### The instruction level and the step -/

/-- Two outcomes that agree but for the values of invalid registers in the next state. -/
def Alike : Result → Result → Prop
  | .next s, .next t => s.SameValid t
  | .fault f, .fault g => f = g
  | .refused e, .refused d => e = d
  | _, _ => False

theorem alike_next {s : State} {o : Result} (h : Alike (.next s) o) : ∃ t, o = .next t ∧ s.SameValid t := by
  cases o with
  | next t => exact ⟨t, rfl, h⟩
  | fault f => exact h.elim
  | refused e => exact h.elim

theorem alike_fault {f : Fault} {o : Result} (h : Alike (.fault f) o) : o = .fault f := by
  cases o with
  | next t => exact h.elim
  | fault g => exact congrArg _ (Eq.symm h)
  | refused e => exact h.elim

theorem alike_refused {e : Refusal} {o : Result} (h : Alike (.refused e) o) : o = .refused e := by
  cases o with
  | next t => exact h.elim
  | fault f => exact h.elim
  | refused d => exact congrArg _ (Eq.symm h)

theorem archBytes_setRegs (s : State) (regs : Vector RegEntry 32) (a n : Nat) :
    archBytes (s.setRegs regs) a n = archBytes s a n := by
  induction n generalizing a with
  | zero => rfl
  | succ n ih =>
    simp only [archBytes, ih]
    rfl

theorem memRead_setRegs (s : State) (regs : Vector RegEntry 32) (a n : Nat) :
    memRead (s.setRegs regs) a n = memRead s a n := congrArg wordLE (archBytes_setRegs s regs a n)

theorem writeArchByte_ignoresRegs (a : Nat) (b : Byte) : IgnoresRegs fun s => writeArchByte s a b := by
  intro s regs
  unfold writeArchByte
  dsimp only
  rw [setRegs_dcache, setRegs_cfg]
  split <;> rfl

theorem writeArchBytes_ignoresRegs (a : Nat) (bs : List Byte) : IgnoresRegs fun s => writeArchBytes s a bs := by
  induction bs generalizing a with
  | nil => exact fun _ _ => rfl
  | cons b bs ih => exact ignoresRegs_comp (writeArchByte_ignoresRegs a b) (ih (a + 1))

theorem memWrite_ignoresRegs (a n : Nat) (v : Word) : IgnoresRegs fun s => memWrite s a n v :=
  writeArchBytes_ignoresRegs a _

theorem commit_hidesInvalid (r : Record) : HidesInvalid (commit r) := by
  intro s t hst
  obtain ⟨regs, rfl, hr⟩ := sameValid_iff.1 hst
  obtain ⟨regs', ht, hr'⟩ := sameValid_iff.1 (writeDest_setRegs hr r.rd (wbval r))
  unfold commit
  rw [ht]
  exact sameValid_iff.2 ⟨regs', rfl, hr'⟩

theorem access_alike (r : Record) {s t : State} (hst : s.SameValid t) : Alike (access r s) (access r t) := by
  have hwrite := hidesInvalid_of_ignoresRegs (memWrite_ignoresRegs r.addr.toNat r.size r.v2) s t hst
  obtain ⟨regs, rfl, -⟩ := sameValid_iff.1 hst
  unfold access
  rw [setRegs_cfg, memRead_setRegs]
  split
  · split
    · exact rfl
    · split
      · exact rfl
      · split
        · exact commit_hidesInvalid _ _ _ hst
        · exact commit_hidesInvalid _ _ _ hwrite
  · exact commit_hidesInvalid _ _ _ hst

theorem exec_alike (i : Instr) {s t : State} (hst : s.SameValid t) : Alike (exec i s) (exec i t) := by
  have haccess := fun r => access_alike r hst
  obtain ⟨regs, rfl, hr⟩ := sameValid_iff.1 hst
  rw [exec_eq_runAlone, exec_eq_runAlone]
  unfold runAlone
  dsimp only
  rw [setRegs_pc, sourceValue_setRegs hr, sourceValue_setRegs hr]
  split
  · exact rfl
  · exact rfl
  · exact haccess _

theorem fetchAlone_setRegs (s : State) (regs : Vector RegEntry 32) : fetchAlone (s.setRegs regs) = fetchAlone s := by
  unfold fetchAlone
  rw [archBytes_setRegs, memRead_setRegs]
  rfl

theorem stepAlone_alike {s t : State} (hst : s.SameValid t) : Alike (stepAlone s) (stepAlone t) := by
  have hexec := fun i => exec_alike i hst
  obtain ⟨regs, rfl, -⟩ := sameValid_iff.1 hst
  unfold stepAlone
  rw [fetchAlone_setRegs]
  split
  · exact rfl
  · exact hexec _

theorem outcomeOf_alike {s t : State} (hst : s.SameValid t) : Alike (outcomeOf s) (outcomeOf t) := by
  unfold outcomeOf
  rw [sameValid_fault hst]
  split
  · exact rfl
  · exact hst

theorem step_alike {s t : State} (hst : s.SameValid t) : Alike (step s) (step t) := by
  have hcycle := outcomeOf_alike (clock_hidesInvalid s t hst)
  have halone := stepAlone_alike hst
  obtain ⟨regs, rfl, -⟩ := sameValid_iff.1 hst
  unfold step
  rw [setRegs_cfg, setRegs_fault, setRegs_level]
  split
  · split
    · exact rfl
    · split
      · exact hcycle
      · exact halone
  · exact rfl

/-- Settles O60: no function of a step but W, D, the source read and the commit touches the register file, and these read
valid values and write both machines alike. -/
theorem invalidValuesUnseen : Obligations.InvalidValuesUnseen := by
  intro s t hst
  have h := step_alike hst
  refine ⟨fun s' hs => ?_, fun f hs => ?_, fun e hs => ?_⟩ <;> rw [hs] at h
  · exact alike_next h
  · exact alike_fault h
  · exact alike_refused h

/-! ## The register file and its writes (R21, R24, R222, R229) -/

/-- A register write changes the register file only. -/
theorem writeReg_eq (s : State) (r : Reg) (v : Word) : s.writeReg r v = { s with regs := (s.writeReg r v).regs } := by
  unfold State.writeReg
  split <;> rfl

/-- Settles O32: the laws of a register write, by whether it names x0. -/
theorem registerFile : Obligations.RegisterFile := fun s r _ v =>
  ⟨regEntry_zero s, writeReg_zero s v, fun h => writeReg_regEntry_same s h v, fun h => writeReg_regEntry_ne s h v,
    writeReg_eq s r v⟩

theorem writeReg_regs {s : State} {r : Reg} (h : r ≠ 0) (v : Word) :
    (s.writeReg r v).regs = s.regs.set r.toNat { value := v, valid := true } r.isLt := by
  unfold State.writeReg
  rw [if_neg h]

/-- A write to a destination field leaves a register, or the field names it, it is not x0, and it holds the value. -/
theorem writeDest_getElem (s : State) (rd : Option Reg) (v : Word) (r : Reg) :
    (s.writeDest rd v).regs[r.toNat]'r.isLt = s.regs[r.toNat]'r.isLt ∨
      rd = some r ∧ r ≠ 0 ∧ (s.writeDest rd v).regs[r.toNat]'r.isLt = { value := v, valid := true } := by
  cases rd with
  | none => exact .inl rfl
  | some q =>
    show (s.writeReg q v).regs[r.toNat]'r.isLt = _ ∨ some q = some r ∧ r ≠ 0 ∧ (s.writeReg q v).regs[r.toNat]'r.isLt = _
    by_cases hz : q = 0
    · subst hz
      exact .inl rfl
    · by_cases hq : q = r
      · subst hq
        exact .inr ⟨rfl, hz, by simp [writeReg_regs hz]⟩
      · have hn : q.toNat ≠ r.toNat := fun e => hq (BitVec.eq_of_toNat_eq e)
        exact .inl (by simp [writeReg_regs hz, hn])

theorem andThen_regs {s : State} {next : State → State} (h : (next s).regs = s.regs) :
    (s.andThen next).regs = s.regs :=
  andThen_induct (P := fun u => u.regs = s.regs) rfl fun _ => h

/-- Of the stages, W alone writes registers (R229). -/
theorem phaseStages_regs (s : State) : (phaseStages s).regs = (stageW s).regs := by
  unfold phaseStages
  rw [andThen_regs (stageF_regs _), andThen_regs (stageD_regs _), andThen_regs (stageE_regs _),
    andThen_regs (stageM_regs _)]

/-- In a cycle the register file is as it was, where the cycle ends before W, or as W leaves it (R223, R229). -/
theorem clock_regs (s : State) : (clock s).regs = s.regs ∨ (clock s).regs = (stageW (phaseMemory s)).regs := by
  cases h : s.fault with
  | some f => exact .inl (congrArg State.regs (andThen_of_some h _))
  | none =>
    rw [clock_of_none h, andThen_regs (finish_regs _)]
    cases hm : (phaseMemory s).fault with
    | some f => exact .inl (by rw [beforeAdvance, andThen_of_some hm, phaseMemory_regs])
    | none => exact .inr (by rw [beforeAdvance, andThen_of_none hm, phaseStages_regs])

/-- W leaves a register, or it writes the `wbval` of the instruction in `MW` to it (R222). -/
theorem stageW_getElem (s : State) (r : Reg) :
    (stageW s).regs[r.toNat]'r.isLt = s.regs[r.toNat]'r.isLt ∨
      ∃ i, s.mw.cur = some i ∧ i.rd = some r ∧ r ≠ 0 ∧
        (stageW s).regs[r.toNat]'r.isLt = { value := wbval i, valid := true } := by
  have hregs := stageW_regs s
  cases hi : s.mw.cur with
  | none =>
    simp only [hi] at hregs
    exact .inl (by simp only [hregs])
  | some i =>
    simp only [hi] at hregs
    simp only [hregs]
    exact (writeDest_getElem s i.rd (wbval i) r).imp id fun h => ⟨i, rfl, h⟩

/-- Settles O35: a clock leaves the register file, or leaves it as W does. -/
theorem registersChangeInW : Obligations.RegistersChangeInW := by
  intro s r hne
  rcases clock_regs s with h | h
  · exact absurd (by simp only [h]) hne
  · simp only [h] at hne ⊢
    rcases stageW_getElem (phaseMemory s) r with hsame | hwritten
    · exact absurd (hsame.trans (by simp only [phaseMemory_regs])) hne
    · rwa [phaseMemory_mw] at hwritten

/-! ## The frame of one instruction (R27, R161, R182, R196, R198, R199) -/

/-- What is not a store commits, with a load's value in the record, and writes no memory. -/
theorem exec_next_commit {i : Instr} {s t : State} (hi : i.stores = false) (h : exec i s = .next t) :
    ∃ r : Record, r.rd = i.dest ∧ t = commit r s := by
  obtain ⟨a, b, -, -, hacc⟩ := exec_next h
  have hrd : (execute (boundRecord i s a b)).rd = i.dest := by rw [execute_rd, boundRecord_rd, recordOf_rd]
  have hstore : (execute (boundRecord i s a b)).isStore = false := by
    rw [execute_isStore, boundRecord_isStore, recordOf_isStore, hi]
  obtain ⟨-, ht⟩ | ⟨-, -, ht⟩ | ⟨-, hs, -⟩ := access_next hacc
  · exact ⟨_, hrd, ht⟩
  · refine ⟨_, ?_, ht⟩
    exact hrd
  · rw [hstore] at hs
    cases hs

/-- Settles O20: such an instruction commits a record with its destination, and a commit writes that register and `pc`. -/
theorem frameWithoutStore : Obligations.FrameWithoutStore := by
  intro i s t hi h
  obtain ⟨r, hrd, rfl⟩ := exec_next_commit hi h
  have hcommit := commit_eq r s
  refine ⟨hcommit, fun q hq => ?_, ?_, fun a => ?_⟩
  · simp only [commit_regs]
    rcases writeDest_getElem s r.rd (wbval r) q with hsame | ⟨hdest, -, -⟩
    · exact hsame
    · exact absurd (hrd.symm.trans hdest) hq
  · simp only [commit_regs]
    exact writeDest_regs_zero s r.rd (wbval r)
  · rw [hcommit]
    exact archByte_congr rfl rfl rfl a

/-- A store has no destination (R124). -/
theorem dest_eq_none_of_stores {i : Instr} (h : i.stores = true) : i.dest = none := by
  cases i <;> cases h <;> rfl

/-- A source that has a value has the register's (R13). -/
theorem sourceValue_eq_ok {s : State} {r : Reg} {a : Word} (h : sourceValue s (some r) = .ok a) : a = s.x r := by
  by_cases hr : s.readable r
  · rw [sourceValue_of_readable hr] at h
    exact (Except.ok.inj h).symm
  · rw [sourceValue_of_not_readable hr] at h
    cases h

/-- What a store does: its bytes go to `Mem` at the effective address, and the next instruction follows (R185, R199). -/
theorem exec_next_store {i : Instr} {rs1 : Reg} {imm : BitVec 12} {n : Nat} {s t : State} (hi : i.stores = true)
    (ha : i.access? = some (rs1, imm, n)) (h : exec i s = .next t) :
    ∃ v, t = { memWrite s (s.effective rs1 imm).toNat n v with pc := s.pc + 4 } := by
  obtain ⟨a, b, h1, -, hacc⟩ := exec_next h
  obtain ⟨hrs1, hsize, hload, hstore⟩ := recordOf_access ha (encode i) s.pc
  rw [hrs1] at h1
  obtain rfl := sourceValue_eq_ok h1
  have hrec : execute (boundRecord i s (s.x rs1) b) = _ := execute_access ha (encode i) s.pc (s.x rs1) b
  have haddr : (execute (boundRecord i s (s.x rs1) b)).addr = s.effective rs1 imm := by rw [hrec]; rfl
  have hnext : (execute (boundRecord i s (s.x rs1) b)).nextPc = s.pc + 4 := by rw [hrec]
  have hrd : (execute (boundRecord i s (s.x rs1) b)).rd = none := by
    rw [execute_rd, boundRecord_rd, recordOf_rd, dest_eq_none_of_stores hi]
  obtain ⟨hn, -⟩ | ⟨hl, -, -⟩ | ⟨-, -, -, ht⟩ := access_next hacc
  · simp [hload, hstore, hi] at hn
  · simp [hload, hi] at hl
  · rw [commit_none hrd, haddr, hnext, execute_size, boundRecord_size, hsize] at ht
    exact ⟨_, ht⟩

/-- A write to `Mem` changes the lines of the data cache only. -/
theorem sameTags_eq {k k' : Cache} (h : k.SameTags k') : k' = { k with lines := k'.lines } := by
  rw [← h.fifo, ← h.req, ← h.queue]

/-- Settles O21: a store is a write to `Mem` at the effective address, which keeps tags and every byte outside it. -/
theorem frameOfStore : Obligations.FrameOfStore := by
  intro i rs1 imm n s t hi ha h
  obtain ⟨v, rfl⟩ := exec_next_store hi ha h
  have htags := memWrite_sameTags s (s.effective rs1 imm).toNat n v
  refine ⟨?_, fun set way => ⟨htags.addr set way, htags.valid set way⟩, fun a hout => ?_⟩
  · have hdcache := sameTags_eq htags
    dsimp only at hdcache ⊢
    rw [← hdcache, memWrite_eq]
  · rw [← archByte_memWrite_ne s _ n a v hout]
    exact archByte_congr rfl rfl rfl a

/-! ## The invariants after reset (R45, R107, R286, R295) -/

/-- No line of a reset cache is valid or dirty (R37). -/
theorem cacheReset_line (g : Geometry) (set way : Nat) :
    ((Cache.reset g).line set way).valid = false ∧ ((Cache.reset g).line set way).dirty = false := by
  simp only [Cache.line, Cache.reset, List.getD_eq_getElem?_getD, List.getElem?_replicate]
  split
  · simp only [Option.getD_some, List.getElem?_replicate]
    split <;> exact ⟨rfl, rfl⟩
  · exact ⟨rfl, rfl⟩

section
variable (cfg : Config) (mem : List Host.Cell) (entry ra sp fp : Word)

theorem resetWith_boundary (hl : cfg.legal = true) (hm : Memory.wf mem = true) :
    (State.resetWith cfg mem entry ra sp fp).Boundary where
  memory := hm
  zero := rfl
  wires := rfl
  fd := rfl
  de := rfl
  em := rfl
  mw := rfl
  fault := rfl
  icache := reset_shaped (legal_ways hl).1
  dcache := reset_shaped (legal_ways hl).2

theorem resetWith_counted : (State.resetWith cfg mem entry ra sp fp).Counted where
  owned := rfl
  created := Nat.le_refl 0
  mispredicts := Nat.le_refl 0
  multiData := Nat.le_refl 0
  multiFlush := Nat.le_refl 0
  flushed := Nat.le_refl 0

theorem resetWith_fetchClean : (State.resetWith cfg mem entry ra sp fp).FetchClean where
  lines := fun _ hrow _ hln => (cacheReset_lines cfg.icache hrow hln).2
  queue := fun _ h => by cases h
  request := fun h => absurd rfl h

/-- Both queues are empty, the slot is free, and no line is valid. -/
theorem resetWith_ordered : (State.resetWith cfg mem entry ra sp fp).Ordered := by
  refine ⟨fun c => ?_, fun c => ?_, fun c => ?_, fun c => ?_, fun _ => ⟨rfl, rfl⟩, fun h => absurd rfl h, fun h => by cases h⟩
  all_goals rw [resetWith_cache]
  · exact rfl
  · intro set _ i j _ _ hv
    rw [(cacheReset_line _ set i).1] at hv
    cases hv
  · intro set way hd
    rw [(cacheReset_line _ set way).2] at hd
    cases hd
  · exact rfl

theorem resetWith_memoryOk : (State.resetWith cfg mem entry ra sp fp).MemoryOk :=
  memoryOk_of_ordered (resetWith_ordered cfg mem entry ra sp fp) (fun _ => rfl) (fun _ => rfl)
    (beatOk_of_idle ⟨rfl, rfl, rfl⟩) (fun _ h => by cases h) (fun _ h => by cases h) fun _ h => by cases h

end

/-- The configuration of `State.reset` satisfies R7. -/
theorem standard_legal : Config.standard.legal = true := by decide

/-- Settles O59: the state `resetWith` builds under a legal configuration from a canonical memory meets all four. -/
theorem invariantsAtReset : Obligations.InvariantsAtReset := by
  refine ⟨⟨resetWith_boundary _ _ _ _ _ _ standard_legal rfl, resetWith_counted _ _ _ _ _ _,
    resetWith_fetchClean _ _ _ _ _ _, resetWith_memoryOk _ _ _ _ _ _⟩, fun cfg image entry ra sp fp s h => ?_⟩
  unfold resetMachine at h
  split at h
  · split at h
    · cases h
      exact ⟨resetWith_boundary _ _ _ _ _ _ ‹_› (imageCells_wf image 0), resetWith_counted _ _ _ _ _ _,
        resetWith_fetchClean _ _ _ _ _ _, resetWith_memoryOk _ _ _ _ _ _⟩
    · cases h
  · cases h

end Sys2Proof.Machine
end

section
/-! PROOFS. The statements of spec/20_memory.md: byte order in the store and in a line (R62, R93), the store's latency
and its two faults (R68 to R71, R272, R277), loads and stores executed alone (R185, R198, R199) and beat by beat in the
memory stage (R65, R74, R197, R224, R274), and the fetch stage (R73, R228, R239, R271, R275). -/

namespace Sys2Proof.Machine

/-! ## Byte order (R62, R93) -/

/-- Byte `k` of a value is its bits from `8 * k` on (R62). -/
theorem bytesLE_getD (v : Word) {n k : Nat} (h : k < n) : (bytesLE v n).getD k 0 = (v >>> (8 * k)).setWidth 8 := by
  induction n generalizing v k with
  | zero => omega
  | succ n ih =>
    cases k with
    | zero => simp [bytesLE]
    | succ k =>
      rw [bytesLE, List.getD_cons_succ, ih _ (by omega), ← BitVec.shiftRight_add]
      congr 2
      omega

/-- Byte `k` of a list that holds the bytes `f a`, `f (a + 1)`, ... is `f (a + k)`. -/
theorem getD_consecutive {f : Nat → Byte} {bytes : Nat → Nat → List Byte}
    (hcons : ∀ a n, bytes a (n + 1) = f a :: bytes (a + 1) n) (a : Nat) {n k : Nat} (h : k < n) :
    (bytes a n).getD k 0 = f (a + k) := by
  induction n generalizing a k with
  | zero => omega
  | succ n ih =>
    cases k with
    | zero => rw [hcons]; rfl
    | succ k => rw [hcons, List.getD_cons_succ, ih _ (by omega), Nat.add_right_comm, Nat.add_assoc]

theorem readBytes_getD (m : List Host.Cell) (a : Nat) {n k : Nat} (h : k < n) :
    (readBytes m a n).getD k 0 = readCell m (a + k) := getD_consecutive (fun _ _ => rfl) a h

theorem archBytes_getD (s : State) (a : Nat) {n k : Nat} (h : k < n) :
    (archBytes s a n).getD k 0 = archByte s (a + k) := getD_consecutive (fun _ _ => rfl) a h

theorem lineBytes_getD (data : List Byte) (off : Nat) {n k : Nat} (h : k < n) :
    (lineBytes data off n).getD k 0 = data.getD (off + k) 0 :=
  getD_consecutive (f := fun a => data.getD a 0) (fun _ _ => rfl) off h

/-- Bytes written into a line, inside it, stand at their places, and the line's other bytes stay (R93). -/
theorem setLineBytes_getD (data : List Byte) (off k : Nat) (bs : List Byte) (h : off + bs.length ≤ data.length) :
    (setLineBytes data off bs).getD k 0 =
      if off ≤ k ∧ k < off + bs.length then bs.getD (k - off) 0 else data.getD k 0 := by
  induction bs generalizing data off with
  | nil => rw [if_neg (by simp)]; rfl
  | cons b bs ih =>
    simp only [List.length_cons] at h ⊢
    rw [setLineBytes, ih _ _ (by simpa using by omega)]
    rcases lt_trichotomy k off with hk | rfl | hk
    · rw [if_neg (by omega), if_neg (by omega)]
      simp [List.getD_eq_getElem?_getD, hk.ne']
    · rw [if_neg (by omega), if_pos (by omega)]
      simp [List.getD_eq_getElem?_getD, show k < data.length by omega]
    · obtain ⟨j, rfl⟩ : ∃ j, k = off + 1 + j := ⟨k - (off + 1), by omega⟩
      rw [show off + 1 + j - off = j + 1 by omega, List.getD_cons_succ, show off + 1 + j - (off + 1) = j by omega]
      simp only [List.getD_eq_getElem?_getD, List.getElem?_set, show off ≠ off + 1 + j by omega, if_false]
      exact if_congr (by omega) rfl rfl

/-- A byte put below a bit vector weighs 1, and the bits above it 2^8. -/
theorem toNat_append_byte {w : Nat} (x : BitVec w) (b : Byte) : (x ++ b).toNat = b.toNat + x.toNat * 2 ^ 8 := by
  rw [BitVec.toNat_append, ← Nat.shiftLeft_add_eq_or_of_lt b.isLt, Nat.shiftLeft_eq, Nat.add_comm]

theorem wordLE_two_toNat (b0 b1 : Byte) : (wordLE [b0, b1]).toNat = b0.toNat + b1.toNat * 2 ^ 8 := by
  have hsmall : (b1 ++ b0 : BitVec (8 + 8)).toNat < 2 ^ 32 := lt_trans (BitVec.isLt _) (by decide)
  rw [wordLE_two, BitVec.toNat_setWidth, Nat.mod_eq_of_lt hsmall, toNat_append_byte]

theorem wordLE_four_toNat (b0 b1 b2 b3 : Byte) :
    (wordLE [b0, b1, b2, b3]).toNat = b0.toNat + b1.toNat * 2 ^ 8 + b2.toNat * 2 ^ 16 + b3.toNat * 2 ^ 24 := by
  rw [wordLE_four, toNat_append_byte, toNat_append_byte, toNat_append_byte]
  omega

/-- Settles O48: each part is the law of one byte of what is written or read. -/
theorem byteOrder : Obligations.ByteOrder := by
  refine ⟨fun mem a k n v hm hk => ?_, fun mem a b n v hb => ?_, fun mem a => ⟨?_, ?_, ?_⟩, fun data off n k v h => ?_,
    fun data off n k hk => lineBytes_getD data off hk⟩
  · have hback : readBytes (writeBytes mem a (bytesLE v n)) a n = bytesLE v n := by
      simpa using readBytes_writeBytes hm a (bytesLE v n)
    rw [← readBytes_getD _ _ hk, hback, bytesLE_getD v hk]
  · exact readCell_writeBytes_ne mem a b _ (by simpa using hb)
  · rw [show readBytes mem a 1 = [readCell mem a] from rfl, wordLE_one,
      BitVec.toNat_setWidth_of_le (by decide)]
  · exact wordLE_two_toNat _ _
  · exact wordLE_four_toNat _ _ _ _
  · rw [setLineBytes_getD data off k _ (by simpa using h), bytesLE_length]
    split
    · exact bytesLE_getD v (by omega)
    · rfl

/-! ## The clock of the store (R69 to R71, R272, R277) -/

/-- R69: a send to an owned slot. -/
theorem storeSend_owned {s : State} (h0 : s.fault = none) (ho : s.store.owner ≠ none) (kind : Access) (addr : Word)
    (n : Nat) (v : Word) (c : Client) :
    storeSend kind addr n v c s = { s with fault := some (.contention s.counters.cycles .store) } := by
  unfold storeSend
  split
  · exact raise_of_none h0 _
  · contradiction

/-- The store with this much of the countdown left. -/
def State.withCountdown (s : State) (k : Nat) : State := { s with store := { s.store with countdown := k } }

/-- R70: a clock that does not end the countdown only counts. -/
theorem storeClock_counts {s : State} {k : Nat} (hp : s.store.pending = true) (hk : s.store.countdown = k + 2) :
    storeClock s = s.withCountdown (k + 1) := by
  simp [storeClock, State.withCountdown, hp, hk]

/-- R70: the clock that ends the countdown performs an access inside the store. -/
theorem storeClock_performs {s : State} (hp : s.store.pending = true) (hk : s.store.countdown = 1)
    (hr : s.store.addr.toNat + s.store.n ≤ s.cfg.memSize) : storeClock s = storePerform (s.withCountdown 0) := by
  simp [storeClock, State.withCountdown, hp, hk, Nat.not_lt.2 hr]

/-- R71: the clock that ends the countdown of an access beyond the store raises the fault and performs nothing. -/
theorem storeClock_outOfRange {s : State} (hp : s.store.pending = true) (hk : s.store.countdown = 1)
    (hr : s.cfg.memSize < s.store.addr.toNat + s.store.n) :
    storeClock s = (s.withCountdown 0).raise
      (.outOfRange s.counters.cycles (storeFaultPc s) s.store.addr s.store.n s.store.owner) := by
  unfold storeClock
  rw [if_pos hp]
  dsimp only
  rw [if_pos (by rw [hk]), if_pos hr, hk]
  rfl

/-- Clocks before the countdown ends only count (R70). -/
theorem storeClock_iterate {s : State} (hp : s.store.pending = true) {k : Nat} (hk : k < s.store.countdown) :
    storeClock^[k] s = s.withCountdown (s.store.countdown - k) := by
  induction k with
  | zero => rfl
  | succ k ih =>
    obtain ⟨j, hj⟩ : ∃ j, s.store.countdown = k + j + 2 := ⟨s.store.countdown - k - 2, by omega⟩
    rw [Function.iterate_succ_apply', ih (by omega), show s.store.countdown - k = j + 2 by omega,
      show s.store.countdown - (k + 1) = j + 1 by omega]
    exact storeClock_counts (s := s.withCountdown (j + 2)) hp rfl

/-- Settles O25: the last clock raises the fault, with the `pc` of the slot's owner, on a store it leaves. -/
theorem storeOutOfRange : Obligations.StoreOutOfRange := by
  intro s h0 hp hk hr
  rw [storeClock_outOfRange hp hk hr, raise_of_none (by exact h0)]
  refine ⟨rfl, fun ho => ?_, fun r ho hc => ?_⟩
  · simp only [storeFaultPc, ho]
  · simp only [storeFaultPc, ho, hc]

/-- Settles O49: the clocks before the `L`th count down from `L`, and the `L`th performs the access. -/
theorem storeLatency : Obligations.StoreLatency := by
  refine ⟨fun kind addr n v c s h0 ho => storeSend_owned h0 ho kind addr n v c, fun kind addr n v c s h0 ho hl hr => ?_⟩
  have hsend := storeSend_free ho kind addr n v c
  generalize storeSend kind addr n v c s = u at hsend
  have hp : u.store.pending = true := by rw [hsend]
  have hk : u.store.countdown = s.cfg.latency := by rw [hsend]
  refine ⟨fun k hlt => ?_, ?_⟩
  · rw [storeClock_iterate hp (by omega), hsend]
    exact ⟨rfl, rfl, rfl, rfl⟩
  · obtain ⟨l, hL⟩ : ∃ l, s.cfg.latency = l + 1 := ⟨s.cfg.latency - 1, by omega⟩
    have hlast : storeClock^[s.cfg.latency] u = storePerform (u.withCountdown 0) := by
      rw [hL, Function.iterate_succ_apply', storeClock_iterate hp (by omega),
        storeClock_performs (by exact hp) (by simp only [State.withCountdown]; omega) (by rw [hsend]; exact hr)]
      rfl
    rw [hlast, hsend]
    cases kind with
    | R => exact ⟨rfl, h0, rfl, rfl, rfl, fun _ => ⟨rfl, rfl⟩, fun h => by cases h⟩
    | W => exact ⟨rfl, h0, rfl, rfl, rfl, fun h => (by cases h), fun _ => rfl⟩

/-! ## Loads and stores executed alone (R185, R196, R198, R199) -/

/-- The sources of an instruction are its record's, `rs1` first (R124). -/
theorem recordOf_sources (i : Instr) (word pc : Word) :
    i.sources = (recordOf i word pc).rs1.toList ++ (recordOf i word pc).rs2.toList := by cases i <;> rfl

theorem recordOf_pc (i : Instr) (word pc : Word) : (recordOf i word pc).pc = pc := by cases i <;> rfl

/-- The value of a source that may be absent (R13). -/
def State.operand (s : State) (r : Option Reg) : Word := (r.map s.x).getD 0

theorem sourceValue_operand {s : State} {r : Option Reg} (h : ∀ x ∈ r.toList, s.readable x) :
    sourceValue s r = .ok (s.operand r) := by
  cases r with
  | none => rfl
  | some x => exact sourceValue_of_readable (h x (by simp))

/-- The executed record of a load or store whose sources are read: the effective address in it (R185, R197). -/
def accessRecord (i : Instr) (rs1 : Reg) (imm : BitVec 12) (s : State) : Record :=
  { recordOf i (encode i) s.pc with v1 := s.x rs1, v2 := s.operand (recordOf i (encode i) s.pc).rs2,
                                    addr := s.effective rs1 imm, nextPc := s.pc + 4 }

section
variable {i : Instr} {rs1 : Reg} {imm : BitVec 12} {n : Nat} {s : State}

/-- A load or store with readable sources is the access of its executed record. -/
theorem exec_access (hi : i.access? = some (rs1, imm, n)) (hr : ∀ r ∈ i.sources, s.readable r) :
    exec i s = access (accessRecord i rs1 imm s) s := by
  rw [recordOf_sources i (encode i) s.pc] at hr
  have h1 := sourceValue_operand fun x hx => hr x (List.mem_append_left _ hx)
  have h2 := sourceValue_operand fun x hx => hr x (List.mem_append_right _ hx)
  obtain ⟨hbase, -⟩ := recordOf_access hi (encode i) s.pc
  rw [exec_of_sources h1 h2, boundRecord, execute_access hi, hbase]
  rfl

/-- A load that may access memory writes the bytes it reads, extended as R187 says, to its destination (R198). -/
theorem exec_load {rd : Reg} (hi : i.access? = some (rs1, imm, n)) (hl : i.stores = false) (hd : i.dest = some rd)
    (hr : ∀ r ∈ i.sources, s.readable r) (ha : s.accessible (s.effective rs1 imm) n) :
    exec i s = .next (s.wrote rd
      (wbval { accessRecord i rs1 imm s with res := memRead s (s.effective rs1 imm).toNat n }) (s.pc + 4)) := by
  obtain ⟨-, rfl, hload, -⟩ := recordOf_access hi (encode i) s.pc
  have hload : (accessRecord i rs1 imm s).isLoad = true := hload.trans (by rw [hl]; rfl)
  have hrd : (accessRecord i rs1 imm s).rd = some rd := (recordOf_rd i _ _).trans hd
  rw [exec_access hi hr, access_load hload ha, commit_some (by exact hrd)]
  rfl

/-- A store that may access memory writes the low bytes of `x[rs2]` to `Mem` and goes on (R199). -/
theorem exec_store {rs2 : Reg} (hi : i.access? = some (rs1, imm, n)) (hst : i.stores = true)
    (hs : i.sources = [rs1, rs2]) (h1 : s.readable rs1) (h2 : s.readable rs2)
    (ha : s.accessible (s.effective rs1 imm) n) :
    exec i s = .next { memWrite s (s.effective rs1 imm).toNat n (s.x rs2) with pc := s.pc + 4 } := by
  obtain ⟨hbase, rfl, hload, hstore⟩ := recordOf_access hi (encode i) s.pc
  have hload : (accessRecord i rs1 imm s).isLoad = false := hload.trans (by rw [hst]; rfl)
  have hstore : (accessRecord i rs1 imm s).isStore = true := hstore.trans hst
  have hrd : (accessRecord i rs1 imm s).rd = none := (recordOf_rd i _ _).trans (dest_eq_none_of_stores hst)
  have hv : (accessRecord i rs1 imm s).v2 = s.x rs2 := by
    have hsrc := recordOf_sources i (encode i) s.pc
    rw [hs, hbase] at hsrc
    have hrs2 : (recordOf i (encode i) s.pc).rs2 = some rs2 := by simpa [Option.toList_eq_singleton_iff] using hsrc.symm
    simp only [accessRecord, hrs2]
    rfl
  rw [exec_access hi (by simp [hs, h1, h2]), access_store hload hstore ha, commit_none hrd, hv]
  rfl

end

/-- Settles O18: `LW` is a load of four bytes, and `wbval` leaves a word as it is. -/
theorem loadWord : Obligations.LoadWord := by
  intro rd rs1 imm s hr ha
  refine ⟨by simp [Laws.decodeWord_fields], ?_⟩
  rw [exec_load rfl rfl rfl (by simpa [Instr.sources] using hr) ha, ← memRead_four]
  rfl

/-- Byte `k` of what a store wrote, read back through `Mem` (R62, R80, R199). -/
theorem archByte_stored {s : State} (hl : s.cfg.legal = true) (hb : s.Boundary) (a : Nat) {n k : Nat} (hk : k < n)
    (v pc : Word) :
    archByte { memWrite s a n v with pc := pc } (a + k) = v.extractLsb' (8 * k) 8 := by
  have hback : archBytes (memWrite s a n v) a n = bytesLE v n :=
    archBytes_memWrite hb.dcache hb.memory (legal_fits hl .D).line a n v
  have hpc : archByte { memWrite s a n v with pc := pc } (a + k) = archByte (memWrite s a n v) (a + k) :=
    archByte_congr rfl rfl rfl _
  rw [hpc, ← archBytes_getD _ _ hk, hback, bytesLE_getD v hk]
  rfl

/-- What a store that completes leaves, when read through the registers, `pc` and `Mem` (R193 to R195, R199). -/
theorem exec_store_reads {i : Instr} {rs1 rs2 : Reg} {imm : BitVec 12} {n : Nat} {s : State} (hl : s.cfg.legal = true)
    (hb : s.Boundary) (hi : i.access? = some (rs1, imm, n)) (hst : i.stores = true) (hs : i.sources = [rs1, rs2])
    (h1 : s.readable rs1) (h2 : s.readable rs2) (ha : s.accessible (s.effective rs1 imm) n) :
    ∃ t, exec i s = .next t ∧ t.regs = s.regs ∧ t.pc = s.pc + 4 ∧
      ∀ k, k < n → archByte t ((s.effective rs1 imm).toNat + k) = (s.x rs2).extractLsb' (8 * k) 8 :=
  ⟨_, exec_store hi hst hs h1 h2 ha, by rw [memWrite_eq], rfl, fun _ hk => archByte_stored hl hb _ hk _ _⟩

/-! ## The alignment test (R63, R196, R224, R274) -/

/-- R63, R274: the memory stage's alignment test, before the first beat. -/
theorem stageM_misaligned {s : State} {r : Record} (h0 : s.fault = none) (hc : s.em.cur = some r)
    (hm : (r.isLoad || r.isStore) = true) (hb : s.mBeat = 0) (hw : s.mWaiting = false)
    (ha : r.addr.toNat % r.size ≠ 0) :
    stageM s = { s with fault := some (.misalignedAccess s.counters.cycles r.pc r.addr r.size) } := by
  unfold stageM accessMemory
  simp only [hc, hm, if_true]
  rw [if_pos ⟨hb, hw, ha⟩, raise_of_none h0]

/-- Settles O22: the alignment test comes first, in `access` and in the memory stage. -/
theorem misalignedAccess : Obligations.MisalignedAccess := by
  refine ⟨fun i rs1 imm n s hi hr ha => ?_, fun r s h0 hc hm hb hw ha => stageM_misaligned h0 hc hm hb hw ha⟩
  obtain ⟨-, rfl, hload, hstore⟩ := recordOf_access hi (encode i) s.pc
  have hm : ((accessRecord i rs1 imm s).isLoad || (accessRecord i rs1 imm s).isStore) = true := by
    simp [accessRecord, hload, hstore]
  rw [exec_access hi hr, access_misaligned hm ha, show (accessRecord i rs1 imm s).pc = s.pc from recordOf_pc i _ _]
  rfl

/-! ## A beat in the memory stage (R65, R74, R197, R224, R252) -/

/-- The rest of M after a send has left `u`: the beat is outstanding, then consumed if it is complete. -/
def afterSend (i : Record) (u : State) : State :=
  (u.andThen fun s => { s with mWaiting := true }).andThen (consumeBeat i)

theorem afterSend_of_none {u : State} (h : u.fault = none) (i : Record) :
    afterSend i u = consumeBeat i { u with mWaiting := true } := by
  rw [afterSend, andThen_of_none h, andThen_of_none (by exact h)]

section
variable {s : State} {i : Record} {kind : Access} {a v : Word} {n : Nat}

/-- What the beat asks for stands in the data cache's request after M. -/
theorem afterSend_ask (hb : s.dcache.busy = false) :
    Request.SameAsk { active := true, complete := false, kind := kind, addr := a, n := n, value := v, result := 0 }
      (afterSend i (cacheSend .D kind a n v s)).dcache.req := by
  rw [afterSend, sends_dcache]
  exact cacheSend_ask (c := .D) hb

/-- A beat whose send completes in the data cache alone is done in the same cycle. -/
theorem afterSend_done {k : Cache} (h0 : s.fault = none) (hsend : cacheSend .D kind a n v s = s.withCache .D k)
    (hk : k.req.complete = true) :
    s.BeatDone (afterSend i (cacheSend .D kind a n v s)) i
        (if i.isLoad then { i with res := assembled s i k.req.result } else i) (assembled s i k.req.result) ∧
      (afterSend i (cacheSend .D kind a n v s)).dcache = k ∧
      (afterSend i (cacheSend .D kind a n v s)).store = s.store := by
  rw [hsend, afterSend_of_none (by exact h0)]
  exact ⟨consumeBeat_done h0 rfl hk, consumeBeat_memory _ _⟩

/-- A beat that misses in a cache with an empty queue waits, and the cache and the slot are as the send leaves them. -/
theorem afterSend_sent (h0 : s.fault = none) (hb : s.dcache.busy = false)
    (hl : s.dcache.lookup s.cfg.dcache a.toNat = none) (hq : s.dcache.queue = []) :
    s.BeatSent (afterSend i (cacheSend .D kind a n v s)) i ∧
      (afterSend i (cacheSend .D kind a n v s)).dcache = (cacheSend .D kind a n v s).dcache ∧
      (afterSend i (cacheSend .D kind a n v s)).store = (cacheSend .D kind a n v s).store := by
  obtain ⟨hframe, hmem, hincomplete, -⟩ := cacheSend_miss (c := .D) (kind := kind) (n := n) (v := v) h0 hb hl hq
  rw [afterSend_of_none (by rw [hframe]; exact h0)]
  exact ⟨consumeBeat_sent hframe hmem hincomplete, consumeBeat_memory _ _⟩

/-- M with a load whose beat is not yet sent. -/
theorem stageM_loadBeat (hc : s.em.cur = some i) (hl : i.isLoad = true) (hw : s.mWaiting = false)
    (ha : s.mBeat = 0 → i.addr.toNat % i.size = 0) :
    stageM s = afterSend i (cacheSend .D .R (beatAddr s.cfg i s.mBeat) (beatSize s.cfg i) 0 s) := by
  rw [stageM_sends hc (by simp [hl]) hw ha, if_pos hl]
  rfl

/-- M with a store whose beat is not yet sent. -/
theorem stageM_storeBeat (hc : s.em.cur = some i) (hl : i.isLoad = false) (hs : i.isStore = true)
    (hw : s.mWaiting = false) (ha : s.mBeat = 0 → i.addr.toNat % i.size = 0) :
    stageM s = afterSend i
      (cacheSend .D .W (beatAddr s.cfg i s.mBeat) (beatSize s.cfg i) (beatData s.cfg i s.mBeat) s) := by
  rw [stageM_sends hc (by simp [hs]) hw ha, if_neg (by simp [hl])]
  rfl

/-- M with a load or store whose beat was sent before and is complete. -/
theorem stageM_sent_done (h0 : s.fault = none) (hc : s.em.cur = some i) (hm : (i.isLoad || i.isStore) = true)
    (hw : s.mWaiting = true) (hd : s.dcache.req.complete = true) :
    s.BeatDone (stageM s) i (if i.isLoad then { i with res := assembled s i s.dcache.req.result } else i)
        (assembled s i s.dcache.req.result) ∧ (stageM s).dcache = s.dcache := by
  rw [stageM_sent h0 hc hm hw]
  exact ⟨consumeBeat_done h0 rfl hd, (consumeBeat_memory i s).1⟩

/-- M with a load or store whose beat was sent before and is not complete. -/
theorem stageM_sent_waits (h0 : s.fault = none) (hc : s.em.cur = some i) (hm : (i.isLoad || i.isStore) = true)
    (hw : s.mWaiting = true) (hd : s.dcache.req.complete = false) : stageM s = waitMemory i s := by
  rw [stageM_sent h0 hc hm hw, consumeBeat_waits i hd]

end

/-- The mask on a beat's data does not change the bytes the beat stores (R224). -/
theorem bytesLE_beatData (cfg : Config) (i : Record) (k : Nat) :
    bytesLE (beatData cfg i k) (beatSize cfg i) = bytesLE (i.v2 >>> (8 * (k * cfg.portBeat))) (beatSize cfg i) := by
  apply List.ext_getElem (by simp)
  intro j hj hj'
  rw [bytesLE_length] at hj
  rw [← List.getD_eq_getElem _ 0, ← List.getD_eq_getElem _ 0, bytesLE_getD _ hj, bytesLE_getD _ hj]
  ext b hb
  simp only [beatData, BitVec.getElem_setWidth, BitVec.getLsbD_ushiftRight, BitVec.getLsbD_and, BitVec.getLsbD_ofNat,
    Nat.testBit_two_pow_sub_one, Nat.mul_assoc]
  by_cases hin : 8 * j + b < 32
  · simp [hin, show 8 * j + b < 8 * beatSize cfg i by omega]
  · rw [BitVec.getLsbD_of_ge _ _ (by omega)]
    rfl

/-- Settles O41: each part is the law of that beat, with a load's assembled value in it. -/
theorem loadBeatHit : Obligations.LoadBeatHit := by
  refine ⟨fun s i h0 hc hl hw hb ha => ?_, fun s i h0 hc hl hw => ⟨fun hd => ?_, fun hd => ?_⟩⟩
  · intro a n
    have hM := stageM_loadBeat hc hl hw ha
    refine ⟨?_, fun way hway hn => ?_, fun hway hq => ?_⟩
    · have hask : Request.SameAsk _ (stageM s).dcache.req := hM ▸ afterSend_ask hb
      rw [hask]
      exact ⟨rfl, rfl, rfl, rfl⟩
    · have hsend :=
        cacheSend_readHit (c := .D) (addr := beatAddr s.cfg i s.mBeat) (n := beatSize s.cfg i) (v := 0) hb hway hn
      obtain ⟨hdone, hcache, -⟩ := afterSend_done (i := i) h0 hsend rfl
      rw [if_pos hl, assembled, if_pos hl, ← hM] at hdone
      rw [← hM] at hcache
      exact ⟨hdone, by rw [hcache]; rfl⟩
    · rw [hM]
      obtain ⟨hsent, hcache, hstore⟩ := afterSend_sent (i := i) h0 hb hway hq
      exact ⟨hsent, 0, hcache, hstore⟩
  · have hdone := stageM_sent_done h0 hc (by simp [hl]) hw hd
    rwa [if_pos hl, assembled, if_pos hl] at hdone
  · rw [stageM_sent_waits h0 hc (by simp [hl]) hw hd]
    refine ⟨rfl, rfl, fun r hr hne => ?_, fun hr => ?_⟩
    · simp [waitMemory, structuralStall, hl, liveReg_eq_some.2 ⟨hr, hne⟩]
    · rcases hr with hr | hr <;> simp [waitMemory, structuralStall, hl, hr, liveReg]

/-- A cache whose line of `a`, in this way, has been written at the place of `a`, and so is dirty (R93, R95). -/
def Cache.written (g : Geometry) (k : Cache) (a way : Nat) (bs : List Byte) : Cache :=
  k.setLine (setIndex g a) way
    { k.line (setIndex g a) way with
      data := setLineBytes (k.line (setIndex g a) way).data (lineOffset g a) bs, dirty := true }

theorem written_line_same {g : Geometry} {k : Cache} {a way : Nat} (h : k.lookup g a = some way) (bs : List Byte) :
    (k.written g a way bs).line (setIndex g a) way =
      { k.line (setIndex g a) way with
        data := setLineBytes (k.line (setIndex g a) way).data (lineOffset g a) bs, dirty := true } := by
  rw [Cache.written, setLine_line, if_pos ⟨rfl, rfl, lookup_lt h⟩]

theorem written_line_ne (g : Geometry) (k : Cache) (a way : Nat) (bs : List Byte) {set' way' : Nat}
    (h : (set', way') ≠ (setIndex g a, way)) : (k.written g a way bs).line set' way' = k.line set' way' := by
  rw [Cache.written, setLine_line, if_neg fun ⟨hset, hway, _⟩ => h (by rw [hset, hway])]

/-- A store's beat that hits inside its line: it is done, and of the data cache that line and the request change. -/
theorem storeBeat_hit {s : State} {i : Record} {way : Nat} (h0 : s.fault = none) (hc : s.em.cur = some i)
    (hl : i.isLoad = false) (hs : i.isStore = true) (hw : s.mWaiting = false) (hb : s.dcache.busy = false)
    (ha : s.mBeat = 0 → i.addr.toNat % i.size = 0)
    (hway : s.dcache.lookup s.cfg.dcache (beatAddr s.cfg i s.mBeat).toNat = some way)
    (hn : lineOffset s.cfg.dcache (beatAddr s.cfg i s.mBeat).toNat + beatSize s.cfg i ≤ s.cfg.dcache.lineSize) :
    s.BeatDone (stageM s) i i s.mAcc ∧ (stageM s).store = s.store ∧
      ∃ r, (stageM s).dcache =
        { s.dcache.written s.cfg.dcache (beatAddr s.cfg i s.mBeat).toNat way
            (bytesLE (i.v2 >>> (8 * (s.mBeat * s.cfg.portBeat))) (beatSize s.cfg i)) with req := r } := by
  have hsend := cacheSend_writeHit (c := .D) (v := beatData s.cfg i s.mBeat) hb hway hn
  obtain ⟨hdone, hcache, hstore⟩ := afterSend_done (i := i) h0 hsend rfl
  rw [← stageM_storeBeat hc hl hs hw ha] at hdone hcache hstore
  rw [if_neg (by simp [hl]), assembled, if_neg (by simp [hl])] at hdone
  rw [bytesLE_beatData] at hcache
  exact ⟨hdone, hstore, _, hcache⟩

/-- Settles O19: alone, a store is a write to `Mem` read back; in M, each part is the law of that beat. -/
theorem stores : Obligations.Stores := by
  refine ⟨fun rs2 rs1 imm s hl hb h1 h2 => ⟨fun ha => ⟨by simp [Laws.decodeWord_fields], ?_⟩,
      fun ha => ⟨by simp [Laws.decodeWord_fields], ?_⟩, fun ha => ⟨by simp [Laws.decodeWord_fields], ?_⟩⟩,
    fun s i h0 hc hl hs hw hb ha => ?_, fun s i h0 hc hl hs hw => ⟨fun hd => ?_, fun hd => ?_⟩⟩
  · obtain ⟨t, ht, hregs, hpc, hbytes⟩ := exec_store_reads (i := .sb rs2 rs1 imm) hl hb rfl rfl rfl h1 h2 ha
    exact ⟨t, ht, hregs, hpc, hbytes 0 (by decide)⟩
  · obtain ⟨t, ht, hregs, hpc, hbytes⟩ := exec_store_reads (i := .sh rs2 rs1 imm) hl hb rfl rfl rfl h1 h2 ha
    exact ⟨t, ht, hregs, hpc, hbytes 0 (by decide), hbytes 1 (by decide)⟩
  · obtain ⟨t, ht, hregs, hpc, hbytes⟩ := exec_store_reads (i := .sw rs2 rs1 imm) hl hb rfl rfl rfl h1 h2 ha
    exact ⟨t, ht, hregs, hpc, hbytes 0 (by decide), hbytes 1 (by decide), hbytes 2 (by decide), hbytes 3 (by decide)⟩
  · intro a n bytes
    have hM := stageM_storeBeat hc hl hs hw ha
    have hbytes : bytesLE (beatData s.cfg i s.mBeat) n = bytes := bytesLE_beatData s.cfg i s.mBeat
    refine ⟨?_, fun way hway hn => ?_, fun hway hq => ?_⟩
    · have hask : Request.SameAsk _ (stageM s).dcache.req := hM ▸ afterSend_ask hb
      rw [hask]
      exact ⟨rfl, rfl, rfl, rfl, hbytes⟩
    · obtain ⟨hdone, hstore, r, hcache⟩ := storeBeat_hit h0 hc hl hs hw hb ha hway hn
      rw [hcache]
      exact ⟨hstore, written_line_same hway bytes, fun _ _ hne => written_line_ne _ _ _ _ _ hne, rfl, rfl, hdone⟩
    · rw [hM]
      obtain ⟨hsent, hcache, hstore⟩ := afterSend_sent (i := i) h0 hb hway hq
      exact ⟨hsent, _, hbytes, hcache, hstore⟩
  · have hdone := stageM_sent_done h0 hc (by simp [hs]) hw hd
    rwa [if_neg (by simp [hl]), assembled, if_neg (by simp [hl])] at hdone
  · rw [stageM_sent_waits h0 hc (by simp [hs]) hw hd]
    simp [waitMemory, structuralStall, hl]

/-! ## The fetch stage (R73, R228, R239, R271, R275) -/

section
variable {s : State}

theorem stageF_stalled (h : s.wires.stallFD = true) : stageF s = s := by simp [stageF, h]

/-- F with no fetch pending at a misaligned `pc` (R64, R275). -/
theorem stageF_misaligned (h0 : s.fault = none) (hs : s.wires.stallFD = false) (hp : s.fetchPending = false)
    (ha : s.pc.toNat % 4 ≠ 0) : stageF s = { s with fault := some (.misalignedFetch s.counters.cycles s.pc) } := by
  have hraise : requestFetch s = { s with fault := some (.misalignedFetch s.counters.cycles s.pc) } := by
    simp [requestFetch, hp, ha, raise_of_none h0]
  rw [stageF, hs, hraise]
  rfl

/-- F with a fetch pending requests nothing. -/
theorem stageF_pending (h0 : s.fault = none) (hs : s.wires.stallFD = false) (hp : s.fetchPending = true) :
    stageF s = deliverFetch s := by
  simp [stageF, requestFetch, hs, hp, andThen_of_none h0]

/-- F with no fetch pending at an aligned `pc`: a read of four bytes there, delivered if it is complete. -/
theorem stageF_sends (hs : s.wires.stallFD = false) (hp : s.fetchPending = false) (ha : s.pc.toNat % 4 = 0) :
    stageF s =
      ((cacheSend .I .R s.pc 4 0 s).andThen fun s => { s with fetchPending := true }).andThen deliverFetch := by
  simp [stageF, requestFetch, hs, hp, ha]

/-- F after a send without a fault. -/
theorem stageF_sent (hs : s.wires.stallFD = false) (hp : s.fetchPending = false) (ha : s.pc.toNat % 4 = 0)
    (h : (cacheSend .I .R s.pc 4 0 s).fault = none) :
    stageF s = deliverFetch { cacheSend .I .R s.pc 4 0 s with fetchPending := true } := by
  rw [stageF_sends hs hp ha, andThen_of_none h, andThen_of_none (by exact h)]

theorem deliverFetch_incomplete (h : s.icache.req.complete = false) :
    deliverFetch s = { s with fd := { s.fd with pending := none } } := by
  simp [deliverFetch, h]

/-- A word that is no longer wanted is dropped (R239). -/
theorem deliverFetch_stale (h : s.icache.req.complete = true) (ha : s.icache.req.addr ≠ s.pc) :
    deliverFetch s = { s with fetchPending := false, fd := { s.fd with pending := none } } := by
  simp [deliverFetch, h, ha]

theorem deliverFetch_delivers {r : Record} (h : s.icache.req.complete = true) (ha : s.icache.req.addr = s.pc)
    (hd : decodeRecord s.icache.req.result s.pc = some r) :
    deliverFetch s = { s with fetchPending := false, fd := { s.fd with pending := some r }, pc := s.pc + 4,
                              counters := { s.counters with created := s.counters.created + 1 } } := by
  simp [deliverFetch, h, ha, hd]

/-- A word that matches no row (R271). -/
theorem deliverFetch_undecodable (h0 : s.fault = none) (h : s.icache.req.complete = true)
    (ha : s.icache.req.addr = s.pc) (hd : decodeRecord s.icache.req.result s.pc = none) :
    deliverFetch s = { s with fetchPending := false,
                              fault := some (.decode s.counters.cycles s.pc s.icache.req.result) } := by
  simp only [deliverFetch, h, ha, hd, if_true]
  rw [raise_of_none (by exact h0)]

theorem deliverFetch_icache (s : State) : (deliverFetch s).icache = s.icache := by
  unfold deliverFetch
  split
  · dsimp only
    split
    · split
      · exact raise_icache _ _
      · rfl
    · rfl
  · rfl

/-- After the fetch is sent the instruction cache is as the send left it. -/
theorem fetches_icache (s : State) :
    ((s.andThen fun s => { s with fetchPending := true }).andThen deliverFetch).icache = s.icache := by
  have h : (s.andThen fun s => { s with fetchPending := true }).icache = s.icache :=
    andThen_induct (P := fun u => u.icache = s.icache) rfl fun _ => rfl
  exact andThen_induct (P := fun u => u.icache = s.icache) h fun _ => by rw [deliverFetch_icache, h]

/-- The new fetch's request stands in the instruction cache after F (R97, R228). -/
theorem stageF_ask (hs : s.wires.stallFD = false) (hp : s.fetchPending = false) (ha : s.pc.toNat % 4 = 0)
    (hb : s.icache.busy = false) :
    Request.SameAsk { active := true, complete := false, kind := .R, addr := s.pc, n := 4, value := 0, result := 0 }
      (stageF s).icache.req := by
  rw [stageF_sends hs hp ha, fetches_icache]
  exact cacheSend_ask (c := .I) hb

/-- The state in which a fetch of `pc` is outstanding and complete with this word. -/
def State.fetched (s : State) (w : Word) : State :=
  { s with
    fetchPending := true
    icache := { s.icache with
      req := { active := true, complete := true, kind := .R, addr := s.pc, n := 4, value := 0, result := w } } }

/-- A new fetch that hits has its word from the line in the same cycle (R73, R97). -/
theorem stageF_hit {way : Nat} (h0 : s.fault = none) (hs : s.wires.stallFD = false) (hp : s.fetchPending = false)
    (ha : s.pc.toNat % 4 = 0) (hb : s.icache.busy = false) (hway : s.icache.lookup s.cfg.icache s.pc.toNat = some way)
    (hn : lineOffset s.cfg.icache s.pc.toNat + 4 ≤ s.cfg.icache.lineSize) :
    stageF s = deliverFetch (s.fetched (wordLE (lineBytes
      (s.icache.line (setIndex s.cfg.icache s.pc.toNat) way).data (lineOffset s.cfg.icache s.pc.toNat) 4))) := by
  have hsend := cacheSend_readHit (c := .I) (v := 0) hb hway hn
  rw [stageF_sent hs hp ha (by rw [hsend]; exact h0), hsend]
  rfl

end

/-- Settles O42: each part is the law of the stage in that case. -/
theorem fetchStage : Obligations.FetchStage := by
  refine ⟨fun s hs => stageF_stalled hs, fun s h0 hs hp ha => stageF_misaligned h0 hs hp ha,
    fun s h0 hs hp hd => ?_, fun s h0 hs hp hd => ?_,
    fun s h0 hs hp ha hb => ⟨?_, fun way hway hn => ?_, fun hway hq => ?_⟩⟩
  · rw [stageF_pending h0 hs hp, deliverFetch_incomplete hd]
  · rw [stageF_pending h0 hs hp]
    refine ⟨fun hne => deliverFetch_stale hd hne, fun r haddr hr => deliverFetch_delivers hd haddr hr,
      fun haddr hr => ?_⟩
    rw [deliverFetch_undecodable h0 hd haddr hr]
    exact ⟨rfl, rfl, rfl, rfl⟩
  · have hask := stageF_ask hs hp ha hb
    rw [hask]
    exact ⟨rfl, rfl, rfl, rfl⟩
  · intro w
    rw [stageF_hit h0 hs hp ha hb hway hn]
    refine ⟨fun r hr => ?_, fun hr => ?_⟩
    · rw [deliverFetch_delivers (s := s.fetched w) rfl rfl hr]
      exact ⟨rfl, rfl⟩
    · rw [deliverFetch_undecodable (s := s.fetched w) h0 rfl rfl hr]
      exact ⟨rfl, rfl, rfl, rfl⟩
  · obtain ⟨hframe, -, hincomplete, hqueue⟩ := cacheSend_miss (c := .I) (kind := .R) (n := 4) (v := 0) h0 hb hway hq
    rw [stageF_sent hs hp ha (by rw [hframe]; exact h0), deliverFetch_incomplete (by exact hincomplete)]
    refine ⟨?_, hincomplete, hqueue, 0, rfl, rfl⟩
    dsimp only
    rw [hframe]
    rfl

end Sys2Proof.Machine
end

section
/-! PROOFS. The statements of spec/21_cache.md: a hit (R93, R97), a miss and the line transactions it queues (R96, R99 to
R102), the instruction cache is never written (R95), and no unit is sent a request while busy (R98, R277). -/

namespace Sys2Proof.Machine

/-! ## What a step of the line queue does to its cache

Each operation of file 21 on one cache, as a function of that cache, with what it leaves and what it changes. The state
around the cache comes in where an operation is shown to be this function of the cache. -/

/-- The cache after a beat of `t` is collected: a fill's bytes stand in the line at the bytes moved so far (R101). -/
def Cache.collected (k : Cache) (t : Transaction) (bs : List Byte) : Cache :=
  match t.kind with
  | .FILL =>
    k.setLine t.set t.way { k.line t.set t.way with data := setLineBytes (k.line t.set t.way).data t.done bs }
  | .WB => k

/-- The cache after the fill `t` has moved its line (R102). -/
def Cache.filled (k : Cache) (t : Transaction) : Cache :=
  k.setLine t.set t.way { k.line t.set t.way with addr := t.addr, valid := true, dirty := false }

/-- The cache after its request is performed on the line at a set and way (R93). -/
def Cache.served (g : Geometry) (k : Cache) (set way : Nat) : Cache :=
  let off := lineOffset g k.req.addr.toNat
  match k.req.kind with
  | .R => { k with req := { k.req with result := wordLE (lineBytes (k.line set way).data off k.req.n), complete := true } }
  | .W =>
    { k.setLine set way
        { k.line set way with
          data := setLineBytes (k.line set way).data off (bytesLE k.req.value k.req.n), dirty := true } with
      req := { k.req with complete := true } }

section
variable (k : Cache) (t : Transaction) (bs : List Byte) (g : Geometry) (set way : Nat)

theorem collected_fill (h : t.kind = .FILL) :
    k.collected t bs =
      k.setLine t.set t.way { k.line t.set t.way with data := setLineBytes (k.line t.set t.way).data t.done bs } := by
  simp only [Cache.collected, h]

theorem collected_writeBack (h : t.kind = .WB) : k.collected t bs = k := by simp only [Cache.collected, h]

@[simp] theorem collected_fifo : (k.collected t bs).fifo = k.fifo := by unfold Cache.collected; split <;> rfl

@[simp] theorem collected_req : (k.collected t bs).req = k.req := by unfold Cache.collected; split <;> rfl

@[simp] theorem filled_req : (k.filled t).req = k.req := rfl

theorem served_read (h : k.req.kind = .R) :
    k.served g set way =
      { k with req := { k.req with
        result := wordLE (lineBytes (k.line set way).data (lineOffset g k.req.addr.toNat) k.req.n), complete := true } } := by
  simp only [Cache.served, h]

theorem served_write (h : k.req.kind = .W) :
    k.served g set way =
      { k.setLine set way
          { k.line set way with
            data := setLineBytes (k.line set way).data (lineOffset g k.req.addr.toNat) (bytesLE k.req.value k.req.n),
            dirty := true } with
        req := { k.req with complete := true } } := by
  simp only [Cache.served, h]

@[simp] theorem served_fifo : (k.served g set way).fifo = k.fifo := by
  unfold Cache.served
  dsimp only
  split <;> rfl

@[simp] theorem served_queue : (k.served g set way).queue = k.queue := by
  unfold Cache.served
  dsimp only
  split <;> rfl

theorem served_req :
    (k.served g set way).req = { k.req with complete := true, result := (k.served g set way).req.result } := by
  unfold Cache.served
  dsimp only
  split <;> rfl

end

/-- A line is replaced where the arrays have its place, and no other line is. -/
theorem setLine_line_same {k : Cache} {set way : Nat} (hs : set < k.lines.length)
    (hw : way < (k.lines.getD set []).length) (ln : Line) : (k.setLine set way ln).line set way = ln := by
  rw [setLine_line, if_pos ⟨rfl, rfl, hs, hw⟩]

theorem setLine_line_ne (k : Cache) {set way set' way' : Nat} (ln : Line) (h : (set', way') ≠ (set, way)) :
    (k.setLine set way ln).line set' way' = k.line set' way' := by
  rw [setLine_line, if_neg fun ⟨hset, hway, _⟩ => h (by rw [hset, hway])]

theorem collected_line_ne (k : Cache) (t : Transaction) (bs : List Byte) {set way : Nat}
    (h : (set, way) ≠ (t.set, t.way)) : (k.collected t bs).line set way = k.line set way := by
  unfold Cache.collected
  split
  · exact setLine_line_ne k _ h
  · rfl

theorem filled_line_ne (k : Cache) (t : Transaction) {set way : Nat} (h : (set, way) ≠ (t.set, t.way)) :
    (k.filled t).line set way = k.line set way := setLine_line_ne k _ h

theorem served_line_ne (g : Geometry) (k : Cache) {set way set' way' : Nat} (h : (set', way') ≠ (set, way)) :
    (k.served g set way).line set' way' = k.line set' way' := by
  unfold Cache.served
  dsimp only
  split
  · rfl
  · exact setLine_line_ne k _ h

/-- The line a write is served on. -/
theorem served_line_write {g : Geometry} {k : Cache} {set way : Nat} (hk : k.req.kind = .W) (hs : set < k.lines.length)
    (hw : way < (k.lines.getD set []).length) :
    (k.served g set way).line set way =
      { k.line set way with
        data := setLineBytes (k.line set way).data (lineOffset g k.req.addr.toNat) (bytesLE k.req.value k.req.n),
        dirty := true } := by
  rw [served_write _ _ _ _ hk]
  exact setLine_line_same hs hw _

/-! ### A miss (R96, R99) -/

section
variable (g : Geometry) (k : Cache) (addr : Word)

/-- The way that a miss on an address takes: the one the FIFO of its set names (R96). -/
def Cache.victimWay : Nat := k.fifo.getD (setIndex g addr.toNat) 0

/-- The line that a miss on an address replaces. -/
def Cache.victim : Line := k.line (setIndex g addr.toNat) (k.victimWay g addr)

/-- The write-back of the victim, which a miss queues if the victim is valid and dirty. -/
def Cache.victimWriteBack : Transaction :=
  { kind := .WB, set := setIndex g addr.toNat, way := k.victimWay g addr, addr := (k.victim g addr).addr, done := 0,
    outstanding := false }

/-- The fill that a miss queues. -/
def Cache.missFill : Transaction :=
  { kind := .FILL, set := setIndex g addr.toNat, way := k.victimWay g addr, addr := lineBase g addr, done := 0,
    outstanding := false }

/-- The transactions that a miss queues. -/
def Cache.missQueue : List Transaction :=
  (if (k.victim g addr).valid && (k.victim g addr).dirty then [k.victimWriteBack g addr] else []) ++ [k.missFill g addr]

/-- The cache after a miss. -/
def Cache.afterMiss : Cache :=
  { k.setLine (setIndex g addr.toNat) (k.victimWay g addr) { k.victim g addr with valid := false, dirty := false } with
    fifo := k.fifo.set (setIndex g addr.toNat) ((k.victimWay g addr + 1) % g.ways), queue := k.queue ++ k.missQueue g addr }

theorem missQueue_eq :
    k.missQueue g addr =
      (if (k.victim g addr).valid = true ∧ (k.victim g addr).dirty = true then [k.victimWriteBack g addr] else []) ++
        [k.missFill g addr] := by
  simp only [Cache.missQueue, Bool.and_eq_true]

theorem missQueue_dirty (h : (k.victim g addr).valid = true ∧ (k.victim g addr).dirty = true) :
    k.missQueue g addr = [k.victimWriteBack g addr, k.missFill g addr] := by
  rw [missQueue_eq, if_pos h]
  rfl

theorem missQueue_clean (h : ¬((k.victim g addr).valid = true ∧ (k.victim g addr).dirty = true)) :
    k.missQueue g addr = [k.missFill g addr] := by
  rw [missQueue_eq, if_neg h]
  rfl

end

/-- A miss is `Cache.afterMiss` (R99). -/
theorem cacheMiss_afterMiss (c : Client) (addr : Word) (s : State) :
    cacheMiss c addr s = s.withCache c ((s.cache c).afterMiss (s.geometry c) addr) := by
  rw [Cache.afterMiss, Cache.missQueue, ← List.append_assoc]
  rfl

/-- The cache in which a miss has recorded its request and queued its transactions (R97, R99). -/
theorem missed_cache (c : Client) (kind : Access) (addr : Word) (n : Nat) (v : Word) (s : State) :
    (missed c kind addr n v s).cache c =
      ({ s.cache c with
          req := { active := true, complete := false, kind := kind, addr := addr, n := n, value := v, result := 0 } } :
        Cache).afterMiss (s.geometry c) addr := by
  simp only [missed, cacheMiss_afterMiss, withCache_cache, withCache_geometry]

/-! ### The operations are these functions (R93, R101, R102) -/

/-- The store's slot is free again (R101). -/
def State.slotFreed (s : State) : State := { s with store := { s.store with owner := none, complete := false } }

@[simp] theorem slotFreed_cache (s : State) (c : Client) : s.slotFreed.cache c = s.cache c := by cases c <;> rfl

@[simp] theorem slotFreed_geometry (s : State) (c : Client) : s.slotFreed.geometry c = s.geometry c := by cases c <;> rfl

@[simp] theorem slotFreed_cfg (s : State) : s.slotFreed.cfg = s.cfg := rfl

@[simp] theorem slotFreed_fault (s : State) : s.slotFreed.fault = s.fault := rfl

@[simp] theorem slotFreed_store (s : State) :
    s.slotFreed.store = { s.store with owner := none, complete := false } := rfl

/-- Collecting a beat is `Cache.collected` and frees the slot. -/
theorem collectBeat_collected (c : Client) (t : Transaction) (s : State) :
    collectBeat c t s =
      (s.withCache c ((s.cache c).collected t (bytesLE s.store.result s.cfg.fillBeat))).slotFreed := by
  unfold State.slotFreed
  rw [withCache_store]
  rfl

theorem completeTransaction_writeBack {t : Transaction} (h : t.kind = .WB) (c : Client) (s : State) :
    completeTransaction c t s = s := by
  simp only [completeTransaction, h]

/-- A fill that has moved its line performs the waiting request on it. -/
theorem completeTransaction_fill {t : Transaction} (h : t.kind = .FILL) (c : Client) (s : State) :
    completeTransaction c t s = performRequest c t.set t.way (s.withCache c ((s.cache c).filled t)) := by
  simp only [completeTransaction, h]
  rfl

/-- A request inside its line is `Cache.served`. -/
theorem performRequest_served {c : Client} {s : State} (set way : Nat)
    (h : lineOffset (s.geometry c) (s.cache c).req.addr.toNat + (s.cache c).req.n ≤ (s.geometry c).lineSize) :
    performRequest c set way s = s.withCache c ((s.cache c).served (s.geometry c) set way) := by
  unfold performRequest Cache.served
  dsimp only
  rw [if_neg (Nat.not_lt.2 h)]
  cases (s.cache c).req.kind <;> rfl

/-- Performing a request, and so completing a transaction, leaves the queue. -/
theorem performRequest_queue (c : Client) (set way : Nat) (s : State) :
    ((performRequest c set way s).cache c).queue = (s.cache c).queue := by
  unfold performRequest
  dsimp only
  split
  · rw [raise_cache]
  · split
    · rw [withCache_cache]
    · rw [withCache_cache]
      rfl

theorem completeTransaction_queue (c : Client) (t : Transaction) (s : State) :
    ((completeTransaction c t s).cache c).queue = (s.cache c).queue := by
  cases ht : t.kind with
  | WB => rw [completeTransaction_writeBack ht]
  | FILL => rw [completeTransaction_fill ht, performRequest_queue, withCache_cache]; rfl

/-- A send to a busy cache (R98). -/
theorem cacheSend_busy {c : Client} {s : State} (hb : (s.cache c).busy = true) (kind : Access) (addr : Word) (n : Nat)
    (v : Word) : cacheSend c kind addr n v s = s.raise (.contention s.counters.cycles c.memUnit) := by
  simp [cacheSend, hb]

/-- A send that finds its line records its request and performs it there (R97). -/
theorem cacheSend_found {c : Client} {s : State} {addr : Word} {way : Nat} (hb : (s.cache c).busy = false)
    (hl : (s.cache c).lookup (s.geometry c) addr.toNat = some way) (kind : Access) (n : Nat) (v : Word) :
    cacheSend c kind addr n v s =
      performRequest c (setIndex (s.geometry c) addr.toNat) way
        (s.withCache c { s.cache c with
          req := { active := true, complete := false, kind := kind, addr := addr, n := n, value := v, result := 0 } }) := by
  simp only [cacheSend, hb, withCache_geometry, hl, Bool.false_eq_true, if_false]

/-! ### What one unit of queue work is (R100) -/

section
variable {c : Client} {s : State} {t : Transaction} {rest : List Transaction}

/-- The head transaction as it stands once its outstanding beat is collected. -/
def Transaction.advanced (t : Transaction) (fillBeat : Nat) : Transaction :=
  { t with done := t.done + fillBeat, outstanding := false }

theorem processQueue_sends (ho : t.outstanding = false) : processQueue c (t :: rest) s = issueBeat c t rest s := by
  simp [processQueue, ho]

theorem processQueue_waits (ho : t.outstanding = true) (hc : s.store.complete = false) :
    processQueue c (t :: rest) s = s.withQueue c (t :: rest) := by
  simp [processQueue, ho, hc]

theorem processQueue_moves (ho : t.outstanding = true) (hc : s.store.complete = true)
    (hn : t.done + s.cfg.fillBeat ≠ (s.geometry c).lineSize) :
    processQueue c (t :: rest) s = issueBeat c (t.advanced s.cfg.fillBeat) rest (collectBeat c t s) := by
  simp only [processQueue, ho, hc, hn, if_true, if_false]
  rfl

theorem processQueue_moved (ho : t.outstanding = true) (hc : s.store.complete = true)
    (hn : t.done + s.cfg.fillBeat = (s.geometry c).lineSize) :
    processQueue c (t :: rest) s =
      (completeTransaction c (t.advanced s.cfg.fillBeat) ((collectBeat c t s).withQueue c rest)).andThen
        (processQueue c rest) := by
  simp only [processQueue, ho, hc, hn, if_true]
  rw [Transaction.advanced, hn]

end

/-- The beat that goes into a free slot raises no fault, and in its cache only the head is marked (R100). -/
theorem issueBeat_issued {c : Client} {t : Transaction} {rest : List Transaction} {s : State} (h0 : s.fault = none)
    (ho : s.store.owner = none) :
    (issueBeat c t rest s).fault = none ∧ (issueBeat c t rest s).store.mem = s.store.mem ∧
      (issueBeat c t rest s).CarriesBeat c t ((s.cache c).line t.set t.way).data ∧
      (issueBeat c t rest s).cache c = { s.cache c with queue := { t with outstanding := true } :: rest } := by
  obtain ⟨hbeat, hframe, hmem⟩ := issueBeat_free (c := c) (t := t) (rest := rest) h0 ho
  refine ⟨?_, hmem, hbeat, ?_⟩
  · rw [hframe]
    simpa using h0
  · rw [hframe]
    cases c <;> rfl

/-- Whether a beat is sent or has to wait, in its cache only the head's mark can change. -/
theorem issueBeat_cache {c : Client} {t : Transaction} {rest : List Transaction} {s : State} (h0 : s.fault = none) :
    ∃ out, (issueBeat c t rest s).cache c = { s.cache c with queue := { t with outstanding := out } :: rest } := by
  by_cases ho : s.store.owner = none
  · obtain ⟨-, -, -, hcache⟩ := issueBeat_issued (c := c) (t := t) (rest := rest) h0 ho
    exact ⟨true, hcache⟩
  · exact ⟨t.outstanding, by rw [issueBeat_taken ho, withQueue_cache]⟩

/-! ## A hit (R93, R97) -/

/-- All that a request that hits inside its line does: it is served on that line. -/
theorem cacheSend_served {c : Client} {kind : Access} {addr : Word} {n : Nat} {v : Word} {s : State} {way : Nat}
    (hb : (s.cache c).busy = false) (hl : (s.cache c).lookup (s.geometry c) addr.toNat = some way)
    (hn : lineOffset (s.geometry c) addr.toNat + n ≤ (s.geometry c).lineSize) :
    cacheSend c kind addr n v s =
      s.withCache c (({ s.cache c with
        req := { active := true, complete := false, kind := kind, addr := addr, n := n, value := v, result := 0 } } :
        Cache).served (s.geometry c) (setIndex (s.geometry c) addr.toNat) way) := by
  rw [cacheSend_found hb hl, performRequest_served _ _ (by simpa using hn)]
  simp only [withCache_cache, withCache_geometry, withCache_withCache]

/-- Settles O50: the request is served on the line that the lookup found, and on no other. -/
theorem cacheHit : Obligations.CacheHit := by
  intro c kind addr n v s way h0 hb hl hn set off ln t
  have ht : t = _ := cacheSend_served hb hl hn
  obtain ⟨hset, hway⟩ := lookup_lt hl
  clear_value t
  subst ht
  rw [withCache_cache]
  refine ⟨rfl, served_req _ _ _ _, by simpa using h0, by simp, by rw [served_req], by rw [served_req], by simp, by simp,
    fun hk => ?_, fun hk => ⟨?_, fun set' way' hne => served_line_ne _ _ hne⟩⟩
  · subst hk
    exact ⟨rfl, rfl⟩
  · subst hk
    exact served_line_write rfl hset hway

/-! ## A miss (R96, R97, R99) -/

/-- Every row of a shaped cache has the geometry's ways (R37). -/
theorem shaped_row_length {g : Geometry} {k : Cache} (h : k.shaped g) {set : Nat} (hs : set < g.sets) :
    (k.lines.getD set []).length = g.ways := by
  obtain ⟨hsets, hrows, -, -⟩ := h
  rw [List.getD_eq_getElem _ _ (by omega)]
  exact (hrows _ (List.getElem_mem _)).1

/-- The FIFO of a shaped cache names a way of the geometry (R37, R96). -/
theorem shaped_victimWay {g : Geometry} {k : Cache} (h : k.shaped g) (hs : 1 ≤ g.sets) (addr : Word) :
    k.victimWay g addr < g.ways := by
  obtain ⟨-, -, hfifo, hway⟩ := h
  rw [Cache.victimWay, List.getD_eq_getElem _ _ (by rw [hfifo]; exact setIndex_lt hs _)]
  exact hway _ (List.getElem_mem _)

/-- A miss makes its victim invalid and clean (R99). -/
theorem afterMiss_victim {g : Geometry} {k : Cache} (h : k.shaped g) (hs : 1 ≤ g.sets) (addr : Word) :
    (k.afterMiss g addr).line (setIndex g addr.toNat) (k.victimWay g addr) =
      { k.victim g addr with valid := false, dirty := false } := by
  have hset := setIndex_lt hs addr.toNat
  exact setLine_line_same (by rw [h.1]; exact hset)
    (by rw [shaped_row_length h hset]; exact shaped_victimWay h hs addr) _

/-- The victim's data stay (R99). -/
theorem afterMiss_victim_data (g : Geometry) (k : Cache) (addr : Word) :
    ((k.afterMiss g addr).line (setIndex g addr.toNat) (k.victimWay g addr)).data = (k.victim g addr).data := by
  change ((k.setLine _ _ _).line _ _).data = _
  rw [setLine_line]
  split <;> rfl

/-- A miss rotates the FIFO of its set (R96). -/
theorem afterMiss_fifo_same {g : Geometry} {k : Cache} (h : k.shaped g) (hs : 1 ≤ g.sets) (addr : Word) :
    (k.afterMiss g addr).fifo.getD (setIndex g addr.toNat) 0 = (k.victimWay g addr + 1) % g.ways := by
  obtain ⟨-, -, hfifo, -⟩ := h
  have hset : setIndex g addr.toNat < k.fifo.length := by rw [hfifo]; exact setIndex_lt hs _
  simp [Cache.afterMiss, hset]

theorem afterMiss_fifo_ne (g : Geometry) (k : Cache) (addr : Word) {set : Nat} (h : set ≠ setIndex g addr.toNat) :
    (k.afterMiss g addr).fifo.getD set 0 = k.fifo.getD set 0 := by
  simp [Cache.afterMiss, List.getElem?_set_ne h.symm]

/-- Every transaction that a miss queues is about the victim's place and is not yet started. -/
theorem mem_missQueue {g : Geometry} {k : Cache} {addr : Word} {t : Transaction} (h : t ∈ k.missQueue g addr) :
    t.set = setIndex g addr.toNat ∧ t.way = k.victimWay g addr ∧ t.outstanding = false := by
  by_cases hd : (k.victim g addr).valid = true ∧ (k.victim g addr).dirty = true
  · rw [missQueue_dirty _ _ _ hd] at h
    rcases List.mem_pair.1 h with rfl | rfl <;> exact ⟨rfl, rfl, rfl⟩
  · rw [missQueue_clean _ _ _ hd] at h
    rw [List.mem_singleton.1 h]
    exact ⟨rfl, rfl, rfl⟩

section
variable {c : Client} {kind : Access} {addr : Word} {n : Nat} {v : Word} {s : State} {t : Transaction}
  {rest : List Transaction}

/-- A miss behind an empty queue does one unit of work, on the first transaction it queues (R97). -/
theorem cacheSend_first (hb : (s.cache c).busy = false) (hl : (s.cache c).lookup (s.geometry c) addr.toNat = none)
    (hq : (s.cache c).queue = []) (hmiss : (s.cache c).missQueue (s.geometry c) addr = t :: rest) :
    cacheSend c kind addr n v s = issueBeat c t rest (missed c kind addr n v s) := by
  refine cacheSend_issues hb hl ?_ (mem_missQueue (hmiss ▸ List.mem_cons_self)).2.2
  rw [missed_cache, ← hmiss]
  exact congrArg (· ++ _) hq

/-- A miss behind an empty queue that finds the slot owned has to wait for it. -/
theorem cacheSend_miss_taken (hb : (s.cache c).busy = false)
    (hl : (s.cache c).lookup (s.geometry c) addr.toNat = none) (hq : (s.cache c).queue = [])
    (ho : s.store.owner ≠ none) :
    (cacheSend c kind addr n v s).store = s.store ∧
      ((cacheSend c kind addr n v s).cache c).queue = (s.cache c).missQueue (s.geometry c) addr := by
  obtain ⟨t, rest, hmiss⟩ := List.exists_cons_of_ne_nil (show (s.cache c).missQueue (s.geometry c) addr ≠ [] by
    simp [Cache.missQueue])
  have hstore : (missed c kind addr n v s).store = s.store := by rw [missed_eq, withCache_store]
  rw [cacheSend_first hb hl hq hmiss, issueBeat_taken (by rw [hstore]; exact ho), withQueue_store, withQueue_cache, hmiss]
  exact ⟨hstore, rfl⟩

/-- A miss behind an empty queue that finds the slot free sends the first beat of the first transaction. -/
theorem cacheSend_miss_free (h0 : s.fault = none) (hb : (s.cache c).busy = false)
    (hl : (s.cache c).lookup (s.geometry c) addr.toNat = none) (hq : (s.cache c).queue = [])
    (ho : s.store.owner = none) (hmiss : (s.cache c).missQueue (s.geometry c) addr = t :: rest) :
    (cacheSend c kind addr n v s).CarriesBeat c t ((s.cache c).victim (s.geometry c) addr).data ∧
      ((cacheSend c kind addr n v s).cache c).queue = { t with outstanding := true } :: rest := by
  have hcore := missed_eq c kind addr n v s
  have hcache := missed_cache c kind addr n v s
  obtain ⟨hset, hway, -⟩ := mem_missQueue (hmiss ▸ List.mem_cons_self)
  rw [cacheSend_first hb hl hq hmiss]
  obtain ⟨-, -, hbeat, hqueue⟩ := issueBeat_issued (c := c) (t := t) (rest := rest) (s := missed c kind addr n v s)
    (by rw [hcore, withCache_fault]; exact h0) (by rw [hcore, withCache_store]; exact ho)
  rw [hcache, hset, hway] at hbeat
  exact ⟨afterMiss_victim_data _ _ _ ▸ hbeat, by rw [hqueue]⟩

end

/-! ## The head transaction (R100 to R102) -/

/-- Queue work that raises no fault changes its cache and the slot only. -/
theorem processCache_frame {c : Client} {s : State} (h0 : s.fault = none) (hf : (processCache c s).fault = none) :
    processCache c s = { s.withCache c ((processCache c s).cache c) with store := (processCache c s).store } := by
  have hcore := processCache_sameCore c s
  have hother : (processCache c s).cache c.other = s.cache c.other := processQueue_other c _ s
  unfold State.SameCore at hcore
  generalize processCache c s = u at *
  rw [hf, ← h0] at hcore
  rw [hcore] at hother ⊢
  cases c
  · exact congrArg (fun k => { s with store := u.store, icache := u.icache, dcache := k }) hother
  · exact congrArg (fun k => { s with store := u.store, icache := k, dcache := u.dcache }) hother

/-- The slot's content says of the line only what a write-back sends (R100). -/
theorem carriesBeat_congr {u : State} {c : Client} {t t' : Transaction} {data data' : List Byte} (ha : t'.addr = t.addr)
    (hd : t'.done = t.done) (hk : t'.kind = t.kind) (hdata : t.kind = .WB → data' = data) (h : u.CarriesBeat c t data) :
    u.CarriesBeat c t' data' where
  owner := h.owner
  pending := h.pending
  addr := by rw [ha, hd]; exact h.addr
  width := h.width
  fill := by rw [hk]; exact h.fill
  writeBack := by rw [hk, hd]; exact fun hw => hdata hw ▸ h.writeBack hw

/-- Collecting a beat changes at most a line's data. -/
theorem collected_sameTags (k : Cache) (t : Transaction) (bs : List Byte) : k.SameTags (k.collected t bs) := by
  unfold Cache.collected
  split
  · exact sameTags_setLine _ _ _ rfl rfl (setLineBytes_length _ _ _)
  · exact sameTags_refl _

/-- The line a beat of a fill is collected into (R101). -/
theorem collected_line_fill {k : Cache} {t : Transaction} (ht : t.kind = .FILL) (hs : t.set < k.lines.length)
    (hw : t.way < (k.lines.getD t.set []).length) (bs : List Byte) :
    (k.collected t bs).line t.set t.way =
      { k.line t.set t.way with data := setLineBytes (k.line t.set t.way).data t.done bs } := by
  rw [collected_fill _ _ _ ht]
  exact setLine_line_same hs hw _

/-- The cache after the last beat of the fill `t`, alone in the queue, is collected and its line is filled (R101, R102). -/
def Cache.completed (k : Cache) (t : Transaction) (bs : List Byte) : Cache :=
  ({ k.collected t bs with queue := [] } : Cache).filled t

section
variable {k : Cache} {t : Transaction}

@[simp] theorem completed_fifo (bs : List Byte) : (k.completed t bs).fifo = k.fifo := collected_fifo k t bs

@[simp] theorem completed_req (bs : List Byte) : (k.completed t bs).req = k.req := collected_req k t bs

theorem completed_line_ne (bs : List Byte) {set way : Nat} (h : (set, way) ≠ (t.set, t.way)) :
    (k.completed t bs).line set way = k.line set way :=
  (filled_line_ne _ t h).trans (collected_line_ne k t bs h)

theorem completed_rows (bs : List Byte) : (k.completed t bs).lines.length = k.lines.length :=
  (setLine_lines_length _ _ _ _).trans (collected_sameTags k t bs).rows

theorem completed_row_length (bs : List Byte) (set : Nat) :
    ((k.completed t bs).lines.getD set []).length = (k.lines.getD set []).length :=
  (setLine_row_length _ _ _ _ _).trans ((collected_sameTags k t bs).ways set)

/-- The line that a completed fill leaves (R102). -/
theorem completed_line_same (ht : t.kind = .FILL) (hs : t.set < k.lines.length)
    (hw : t.way < (k.lines.getD t.set []).length) (bs : List Byte) :
    (k.completed t bs).line t.set t.way =
      { data := setLineBytes (k.line t.set t.way).data t.done bs, addr := t.addr, valid := true, dirty := false } := by
  have htags := collected_sameTags k t bs
  refine (setLine_line_same (htags.rows.symm ▸ hs) ((htags.ways t.set).symm ▸ hw) _).trans ?_
  change ({ (k.collected t bs).line t.set t.way with addr := t.addr, valid := true, dirty := false } : Line) = _
  rw [collected_line_fill ht hs hw]

end

section
variable {c : Client} {s : State} {t : Transaction} {rest : List Transaction}

/-- The head waits while the slot is owned. -/
theorem processCache_taken (hq : (s.cache c).queue = t :: rest) (ho : t.outstanding = false)
    (hown : s.store.owner ≠ none) : processCache c s = s := by
  rw [processCache, hq, processQueue_sends ho, issueBeat_taken hown, withQueue_self hq]

/-- The head waits while its beat counts down. -/
theorem processCache_waits (hq : (s.cache c).queue = t :: rest) (ho : t.outstanding = true)
    (hc : s.store.complete = false) : processCache c s = s := by
  rw [processCache, hq, processQueue_waits ho hc, withQueue_self hq]

/-- The head sends its next beat into the free slot. -/
theorem processCache_sends (h0 : s.fault = none) (hq : (s.cache c).queue = t :: rest) (ho : t.outstanding = false)
    (hown : s.store.owner = none) :
    (processCache c s).fault = none ∧ (processCache c s).store.mem = s.store.mem ∧
      (processCache c s).CarriesBeat c t ((s.cache c).line t.set t.way).data ∧
      (processCache c s).cache c = { s.cache c with queue := { t with outstanding := true } :: rest } := by
  rw [processCache, hq, processQueue_sends ho]
  exact issueBeat_issued h0 hown

/-- A beat that does not end the line is collected, and the next one goes into the slot it has left. -/
theorem processCache_moves (h0 : s.fault = none) (hq : (s.cache c).queue = t :: rest) (ho : t.outstanding = true)
    (hc : s.store.complete = true) (hn : t.done + s.cfg.fillBeat ≠ (s.geometry c).lineSize) :
    (processCache c s).fault = none ∧ (processCache c s).store.mem = s.store.mem ∧
      (processCache c s).CarriesBeat c { t with done := t.done + s.cfg.fillBeat } ((s.cache c).line t.set t.way).data ∧
      (processCache c s).cache c =
        { (s.cache c).collected t (bytesLE s.store.result s.cfg.fillBeat) with
          queue := { t with done := t.done + s.cfg.fillBeat, outstanding := true } :: rest } := by
  have hcollect := collectBeat_collected c t s
  rw [processCache, hq, processQueue_moves ho hc hn]
  obtain ⟨hf, hmem, hbeat, hcache⟩ := issueBeat_issued (c := c) (t := t.advanced s.cfg.fillBeat) (rest := rest)
    (s := collectBeat c t s) (by simpa [hcollect] using h0) (by simp [hcollect])
  have hk : (collectBeat c t s).cache c = (s.cache c).collected t (bytesLE s.store.result s.cfg.fillBeat) := by
    rw [hcollect, slotFreed_cache, withCache_cache]
  rw [hk] at hbeat hcache
  refine ⟨hf, by rw [hmem, hcollect]; simp,
    carriesBeat_congr (t := t.advanced s.cfg.fillBeat) rfl rfl rfl (fun hw => ?_) hbeat, hcache⟩
  exact congrArg (fun k => (k.line t.set t.way).data) (collected_writeBack (s.cache c) t _ hw).symm

/-- A fill that has moved its line is completed, and the waiting request is served on it (R102). -/
theorem processCache_filled (h0 : s.fault = none) (hq : (s.cache c).queue = [t]) (ho : t.outstanding = true)
    (hc : s.store.complete = true) (hn : t.done + s.cfg.fillBeat = (s.geometry c).lineSize) (ht : t.kind = .FILL)
    (hin : lineOffset (s.geometry c) (s.cache c).req.addr.toNat + (s.cache c).req.n ≤ (s.geometry c).lineSize) :
    processCache c s =
      (s.withCache c (((s.cache c).completed t (bytesLE s.store.result s.cfg.fillBeat)).served (s.geometry c)
        t.set t.way)).slotFreed := by
  set k := (s.cache c).completed t (bytesLE s.store.result s.cfg.fillBeat) with hk
  have hfill : ((collectBeat c t s).withQueue c []).withCache c
      ((((collectBeat c t s).withQueue c []).cache c).filled (t.advanced s.cfg.fillBeat)) =
        (s.withCache c k).slotFreed := by
    rw [collectBeat_collected]
    cases c <;> rfl
  have hserve : performRequest c t.set t.way (s.withCache c k).slotFreed =
      (s.withCache c (k.served (s.geometry c) t.set t.way)).slotFreed := by
    rw [performRequest_served _ _ (by simpa [hk] using hin)]
    cases c <;> rfl
  rw [processCache, hq, processQueue_moved ho hc hn, completeTransaction_fill (by exact ht), hfill]
  change (performRequest c t.set t.way _).andThen _ = _
  rw [hserve, andThen_of_none (by simpa using h0), processQueue]
  exact withQueue_self (by rw [slotFreed_cache, withCache_cache, served_queue]; rfl)

/-- A write-back that has moved its line retires, and the fill behind it sends its first beat (R102). -/
theorem processCache_retires {f : Transaction} (h0 : s.fault = none) (hq : (s.cache c).queue = [t, f])
    (ho : t.outstanding = true) (hc : s.store.complete = true)
    (hn : t.done + s.cfg.fillBeat = (s.geometry c).lineSize) (ht : t.kind = .WB) (hf : f.outstanding = false) :
    (processCache c s).fault = none ∧ (processCache c s).store.mem = s.store.mem ∧
      (processCache c s).CarriesBeat c f ((s.cache c).line f.set f.way).data ∧
      (processCache c s).cache c = { s.cache c with queue := [{ f with outstanding := true }] } := by
  have hcollect : collectBeat c t s = s.slotFreed := by
    rw [collectBeat_collected, collected_writeBack _ _ _ ht, withCache_self]
  have h0' : (s.slotFreed.withQueue c [f]).fault = none := by simpa using h0
  obtain ⟨hfault, hmem, hbeat, hcache⟩ := issueBeat_issued (c := c) (t := f) (rest := []) h0' (by simp)
  rw [processCache, hq, processQueue_moved ho hc hn, completeTransaction_writeBack (by exact ht), hcollect,
    andThen_of_none h0', processQueue_sends hf]
  rw [withQueue_cache, slotFreed_cache] at hbeat hcache
  exact ⟨hfault, by simp [hmem], hbeat, hcache⟩

end

/-- Settles O52: the miss is `Cache.afterMiss`, its first unit of work is a beat sent or waited for, and each case of the
head transaction is the law of that case. -/
theorem cacheMiss_effects : Obligations.CacheMiss := by
  refine ⟨fun c addr s hl hk => ?_, fun c kind addr n v s h0 hb hl => ⟨⟨0, cacheSend_missed hb hl⟩, fun hq => ?_⟩,
    fun c s t rest h0 hk hset hway hq => ?_⟩
  · have hsets := (legal_fits hl c).sets
    dsimp only
    rw [cacheMiss_afterMiss, withCache_cache]
    have hvictim := afterMiss_victim hk hsets addr
    refine ⟨rfl, afterMiss_fifo_same hk hsets addr, fun set' hne => afterMiss_fifo_ne _ _ _ hne,
      (congrArg Line.valid hvictim :), (congrArg Line.data hvictim :), (congrArg Line.addr hvictim :),
      fun set' way' hne => setLine_line_ne _ _ hne, rfl, ?_⟩
    rw [List.append_assoc]
    exact congrArg ((s.cache c).queue ++ ·) (missQueue_eq _ _ addr)
  · obtain ⟨hframe, hmem, hincomplete, -⟩ := cacheSend_miss (kind := kind) (n := n) (v := v) h0 hb hl hq
    have hask := cacheSend_ask (kind := kind) (addr := addr) (n := n) (v := v) hb
    refine ⟨hframe, hmem, hask.trans (by rw [hincomplete]), fun ho => ?_, fun ho => ?_⟩
    · obtain ⟨hstore, hqueue⟩ := cacheSend_miss_taken (kind := kind) (n := n) (v := v) hb hl hq ho
      refine ⟨hstore, hqueue.trans ?_⟩
      split
      · exact missQueue_dirty _ _ _ ‹_›
      · exact missQueue_clean _ _ _ ‹_›
    · split
      · exact cacheSend_miss_free h0 hb hl hq ho (missQueue_dirty _ _ _ ‹_›)
      · exact cacheSend_miss_free h0 hb hl hq ho (missQueue_clean _ _ _ ‹_›)
  · have hs : t.set < (s.cache c).lines.length := by rw [hk.1]; exact hset
    have hw : t.way < ((s.cache c).lines.getD t.set []).length := by rw [shaped_row_length hk hset]; exact hway
    refine ⟨processCache_frame h0, processCache_taken hq, processCache_sends h0 hq, processCache_waits hq,
      fun ho hc hn => ?_, fun ho hc hn ht hr hin => ?_, fun f ho hc hn ht hr hf => ?_⟩
    · obtain ⟨hf, hmem, hbeat, hcache⟩ := processCache_moves h0 hq ho hc hn
      rw [hcache]
      refine ⟨hf, hmem, hbeat, rfl, collected_req _ _ _, collected_fifo _ _ _, ?_, fun _ _ => collected_line_ne _ _ _⟩
      cases ht : t.kind with
      | FILL => exact collected_line_fill ht hs hw _
      | WB => exact congrArg (fun k => k.line t.set t.way) (collected_writeBack (s.cache c) t _ ht)
    · subst hr
      rw [processCache_filled h0 hq ho hc hn ht hin, slotFreed_cache, withCache_cache]
      have hline := completed_line_same ht hs hw (bytesLE s.store.result s.cfg.fillBeat)
      refine ⟨by simpa using h0, by simp, by rw [served_queue]; rfl, by simp, ?_, fun hr => ?_, fun hr => ?_,
        fun _ _ hne => (served_line_ne _ _ hne).trans (completed_line_ne _ hne)⟩
      · exact (served_req _ _ _ _).trans (by rw [completed_req])
      · rw [served_read _ _ _ _ (by rw [completed_req]; exact hr), completed_req]
        exact ⟨by rw [hline], hline⟩
      · rw [served_line_write (by rw [completed_req]; exact hr) (by rw [completed_rows]; exact hs)
          (by rw [completed_row_length]; exact hw), completed_req, hline]
    · subst hr
      exact processCache_retires h0 hq ho hc hn ht hf

/-! ## The instruction cache is never written (R95)

The invariant is about one cache that takes only reads: its lines are clean, its queue holds fills only, and the request
that a queued fill will serve is a read. -/

/-- Every line is clean. -/
def LinesClean (lines : List (List Line)) : Prop := ∀ row ∈ lines, ∀ ln ∈ row, ln.dirty = false

/-- The invariant of a cache that is only read, with the queue `q`. -/
structure Cache.OnlyRead (k : Cache) (q : List Transaction) : Prop where
  lines : LinesClean k.lines
  queue : ∀ t ∈ q, t.kind = .FILL
  request : q ≠ [] → k.req.kind = .R

theorem fetchClean_iff (s : State) : s.FetchClean ↔ s.icache.OnlyRead s.icache.queue :=
  ⟨fun ⟨hl, hq, hr⟩ => ⟨hl, hq, hr⟩, fun ⟨hl, hq, hr⟩ => ⟨hl, hq, hr⟩⟩

theorem linesClean_row {lines : List (List Line)} (h : LinesClean lines) (set : Nat) :
    ∀ ln ∈ lines.getD set [], ln.dirty = false := by
  intro ln hln
  by_cases hs : set < lines.length
  · rw [List.getD_eq_getElem _ _ hs] at hln
    exact h _ (List.getElem_mem hs) ln hln
  · rw [List.getD_eq_default _ _ (Nat.le_of_not_lt hs)] at hln
    cases hln

theorem linesClean_line {k : Cache} (h : LinesClean k.lines) (set way : Nat) : (k.line set way).dirty = false := by
  by_cases hw : way < (k.lines.getD set []).length
  · rw [← row_getElem k hw]
    exact linesClean_row h set _ (List.getElem_mem hw)
  · rw [line_absent k (Nat.le_of_not_lt hw)]
    rfl

theorem linesClean_setLine {k : Cache} (h : LinesClean k.lines) (set way : Nat) {ln : Line} (hd : ln.dirty = false) :
    LinesClean (k.setLine set way ln).lines := by
  intro row hrow l hl
  rcases List.mem_or_eq_of_mem_set hrow with hrow | rfl
  · exact h row hrow l hl
  · rcases List.mem_or_eq_of_mem_set hl with hl | rfl
    · exact linesClean_row h set l hl
    · exact hd

theorem linesClean_collected {k : Cache} (h : LinesClean k.lines) (t : Transaction) (bs : List Byte) :
    LinesClean (k.collected t bs).lines := by
  unfold Cache.collected
  split
  · exact linesClean_setLine h _ _ (linesClean_line h _ _)
  · exact h

section
variable {c : Client} {s : State} {q : List Transaction}

/-- A read is performed, or found to cross a line end, without a change of any line or of the request's kind (R93). -/
theorem performRequest_onlyRead (hr : (s.cache c).req.kind = .R) (h : (s.cache c).OnlyRead q) (set way : Nat) :
    ((performRequest c set way s).cache c).OnlyRead q := by
  unfold performRequest
  dsimp only
  split
  · rw [raise_cache]
    exact h
  · simp only [hr, withCache_cache]
    exact ⟨h.lines, h.queue, fun _ => rfl⟩

/-- A fill makes its line clean and serves a read (R102). -/
theorem completeTransaction_onlyRead {t : Transaction} (hr : (s.cache c).req.kind = .R) (h : (s.cache c).OnlyRead q) :
    ((completeTransaction c t s).cache c).OnlyRead q := by
  cases ht : t.kind with
  | WB => rwa [completeTransaction_writeBack ht]
  | FILL =>
    rw [completeTransaction_fill ht]
    refine performRequest_onlyRead (by simpa using hr) ⟨?_, h.queue, fun _ => by simpa using hr⟩ _ _
    rw [withCache_cache]
    exact linesClean_setLine h.lines _ _ rfl

/-- Sending a beat of the head fill, or waiting for the slot (R100). -/
theorem issueBeat_onlyRead {t : Transaction} {rest : List Transaction} (h0 : s.fault = none)
    (h : (s.cache c).OnlyRead (t :: rest)) :
    ((issueBeat c t rest s).cache c).OnlyRead ((issueBeat c t rest s).cache c).queue := by
  obtain ⟨out, hcache⟩ := issueBeat_cache (c := c) (t := t) (rest := rest) h0
  obtain ⟨ht, hrest⟩ := List.forall_mem_cons.1 h.queue
  rw [hcache]
  exact ⟨h.lines, List.forall_mem_cons.2 ⟨ht, hrest⟩, fun _ => h.request (by simp)⟩

/-- Collecting a beat leaves every line clean and the request as it is (R101). -/
theorem collectBeat_onlyRead {t : Transaction} (h : (s.cache c).OnlyRead q) :
    ((collectBeat c t s).cache c).OnlyRead q := by
  rw [collectBeat_collected, slotFreed_cache, withCache_cache]
  exact ⟨linesClean_collected h.lines t _, h.queue, by simpa using h.request⟩

end

/-- The queue work of a cache that is only read (R100 to R102). -/
theorem processQueue_onlyRead (c : Client) (q : List Transaction) {s : State} (h0 : s.fault = none)
    (h : (s.cache c).OnlyRead q) :
    ((processQueue c q s).cache c).OnlyRead ((processQueue c q s).cache c).queue := by
  induction q generalizing s with
  | nil =>
    rw [processQueue, withQueue_cache]
    exact ⟨h.lines, h.queue, h.request⟩
  | cons t rest ih =>
    obtain ⟨ht, hrest⟩ := List.forall_mem_cons.1 h.queue
    cases ho : t.outstanding with
    | false =>
      rw [processQueue_sends ho]
      exact issueBeat_onlyRead h0 h
    | true =>
      cases hc : s.store.complete with
      | false =>
        rw [processQueue_waits ho hc, withQueue_cache]
        exact ⟨h.lines, h.queue, h.request⟩
      | true =>
        have hcollect : ((collectBeat c t s).cache c).OnlyRead (t :: rest) := collectBeat_onlyRead h
        have hread : ((collectBeat c t s).cache c).req.kind = .R := hcollect.request (by simp)
        by_cases hn : t.done + s.cfg.fillBeat = (s.geometry c).lineSize
        · have hwork := completeTransaction_onlyRead (c := c) (s := (collectBeat c t s).withQueue c rest) (q := rest)
            (t := t.advanced s.cfg.fillBeat) (by simpa using hread)
            ⟨by simpa using hcollect.lines, hrest, fun _ => by simpa using hread⟩
          rw [processQueue_moved ho hc hn]
          refine andThen_induct (P := fun u => (u.cache c).OnlyRead (u.cache c).queue) ?_ fun hf => ih hf hwork
          rw [completeTransaction_queue, withQueue_cache]
          exact hwork
        · rw [processQueue_moves ho hc hn]
          refine issueBeat_onlyRead (by simpa [collectBeat_collected] using h0)
            ⟨hcollect.lines, List.forall_mem_cons.2 ⟨ht, hrest⟩, fun _ => hread⟩

/-- A miss of a cache that is only read finds a clean victim, so it queues a fill and no write-back (R99). -/
theorem missed_onlyRead {c : Client} {addr : Word} {n : Nat} {v : Word} {s : State}
    (h : (s.cache c).OnlyRead (s.cache c).queue) :
    ((missed c .R addr n v s).cache c).OnlyRead ((missed c .R addr n v s).cache c).queue := by
  rw [missed_cache]
  refine ⟨linesClean_setLine h.lines _ _ rfl, fun t ht => ?_, fun _ => rfl⟩
  rw [Cache.afterMiss, missQueue_clean _ _ _ fun ⟨_, hd⟩ => Bool.false_ne_true ((linesClean_line h.lines _ _).symm.trans hd)]
    at ht
  rcases List.mem_append.1 ht with ht | ht
  · exact h.queue t ht
  · rw [List.mem_singleton.1 ht]
    rfl

/-- A read sent to a cache that is only read (R97, R98). -/
theorem cacheSend_onlyRead {c : Client} {addr : Word} {n : Nat} {v : Word} {s : State} (h0 : s.fault = none)
    (h : (s.cache c).OnlyRead (s.cache c).queue) :
    ((cacheSend c .R addr n v s).cache c).OnlyRead ((cacheSend c .R addr n v s).cache c).queue := by
  cases hb : (s.cache c).busy with
  | true =>
    rw [cacheSend_busy hb, raise_cache]
    exact h
  | false =>
    cases hl : (s.cache c).lookup (s.geometry c) addr.toNat with
    | none =>
      rw [cacheSend_missed hb hl]
      exact processQueue_onlyRead c _ (by rw [missed_eq]; simpa using h0) (missed_onlyRead h)
    | some way =>
      rw [cacheSend_found hb hl, performRequest_queue]
      refine performRequest_onlyRead ?_ ?_ _ _
      · rw [withCache_cache]
      · rw [withCache_cache]
        exact ⟨h.lines, h.queue, fun _ => rfl⟩

/-! ### The cycle level and the instruction level -/

/-- The Memory Unit's clock: the store and the data cache leave the instruction cache alone (R221). -/
theorem phaseMemory_fetchClean {s : State} (h : s.FetchClean) (hf : (phaseMemory s).fault = none) :
    (phaseMemory s).FetchClean := by
  obtain ⟨hstore, -, hphase⟩ := phaseMemory_next hf
  have hother : (processCache .D (processCache .I (storeClock s))).icache = (processCache .I (storeClock s)).icache :=
    processQueue_other .D _ _
  have hclock : (storeClock s).icache = s.icache := storeClock_cache s .I
  rw [fetchClean_iff, hphase, hother]
  refine processQueue_onlyRead .I _ hstore ?_
  rw [show (storeClock s).cache .I = s.icache from hclock]
  exact (fetchClean_iff s).1 h

/-- F is the only stage that asks the instruction cache, and it asks for reads (R228, R229). -/
theorem stageF_fetchClean {s : State} (h0 : s.fault = none) (h : s.FetchClean) : (stageF s).FetchClean := by
  cases hs : s.wires.stallFD with
  | true => rwa [stageF_stalled hs]
  | false =>
    cases hp : s.fetchPending with
    | true =>
      rw [stageF_pending h0 hs hp, fetchClean_iff, deliverFetch_icache]
      exact (fetchClean_iff s).1 h
    | false =>
      by_cases ha : s.pc.toNat % 4 = 0
      · rw [fetchClean_iff, stageF_sends hs hp ha, fetches_icache]
        exact cacheSend_onlyRead (c := .I) h0 ((fetchClean_iff s).1 h)
      · rw [stageF_misaligned h0 hs hp ha]
        exact ⟨h.lines, h.queue, h.request⟩

/-- A clock that ends without a fault keeps the instruction cache clean. -/
theorem finish_fetchClean {s : State} (h : s.FetchClean) (hf : (beforeAdvance s).fault = none) :
    (finish (beforeAdvance s)).FetchClean := by
  obtain ⟨h0, -, -, -, h5, hb⟩ := beforeAdvance_next hf
  rw [fetchClean_iff, finish_icache, hb, ← fetchClean_iff]
  refine stageF_fetchClean h5 ?_
  rw [fetchClean_iff, stageD_icache, stageE_icache, stageM_icache, stageW_icache, ← fetchClean_iff]
  exact phaseMemory_fetchClean h h0

/-- An instruction executed alone leaves the instruction cache as it is. -/
theorem exec_fetchClean {i : Instr} {s t : State} (h : s.FetchClean) (he : exec i s = .next t) : t.FetchClean := by
  rw [(exec_rest he).1]
  exact ⟨h.lines, h.queue, h.request⟩

/-- Settles O56: only the Memory Unit and F touch the instruction cache, and they move lines in and read. -/
theorem stepKeepsFetchClean : Obligations.StepKeepsFetchClean := fun _ _ h hs =>
  step_keeps hs (fun _ hf => finish_fetchClean h hf) fun _ he => exec_fetchClean h he

/-! ## No unit is sent a request while busy (R98, R277) -/

/-- No `ContentionFault` is recorded. -/
def State.NoContention (s : State) : Prop := ∀ cycle busyUnit, s.fault ≠ some (.contention cycle busyUnit)

theorem andThen_noContention {s : State} {next : State → State} (hs : s.NoContention)
    (hn : s.fault = none → (next s).NoContention) : (s.andThen next).NoContention :=
  andThen_induct hs hn

/-- D's only fault is that of an invalid register (R273). -/
theorem stageD_noContention {s : State} (h0 : s.fault = none) : (stageD s).NoContention := by
  have hraise : ∀ pc r, (s.raise (.invalidRegister s.counters.cycles pc r)).NoContention := fun pc r _ _ he => by
    rw [raise_of_none h0] at he
    cases he
  unfold stageD
  split
  · exact noContention_of_none h0
  · split
    · exact noContention_of_none h0
    · split
      · exact noContention_of_none h0
      · unfold readOperands
        split
        · exact hraise _ _
        · exact hraise _ _
        · exact noContention_of_none h0

/-- M sends a beat only to an idle data cache, and inside a line. -/
theorem stageM_noContention {s : State} (hl : s.cfg.legal = true) (h : s.Boundary) (hm : s.MemoryOk)
    (h0 : (phaseMemory s).fault = none) : (stageM (stageW (phaseMemory s))).NoContention := by
  obtain ⟨hphase, -⟩ := ordered_phaseMemory hl h.fault (boundary_arrays h) (memoryOk_ordered hm)
  obtain ⟨hord, hbusy⟩ := hphase h0
  have harr : (stageW (phaseMemory s)).Arrays :=
    arrays_congr (s := phaseMemory s) (by simp) (by simp) (by simp) (by simp) (arrays_phaseMemory (boundary_arrays h))
  have hordW : (stageW (phaseMemory s)).Ordered :=
    ordered_congr (s := phaseMemory s) (by simp) (by simp) (by simp) (by simp) hord
  have hidle : (stageW (phaseMemory s)).mWaiting = false → (stageW (phaseMemory s)).dcache.busy = false := fun hw => by
    simpa [State.cache] using hbusy .D (hm.memoryIdle (by simpa using hw))
  exact (ordered_stageM (by simpa using hl) (by simpa using h0) harr hordW (by simp [h.wires, Wires.cleared]) hidle
    (beatOk_congr (s := s) (by simp) (by simp) (by simp) (by simp) (by simp) hm.beat) (by simpa using hm.emSized)).1

/-- F sends a fetch only to an idle instruction cache, and inside a line. -/
theorem stageF_noContention {s : State} (hl : s.cfg.legal = true) (h : s.Boundary) (hm : s.MemoryOk)
    (h0 : (phaseMemory s).fault = none) (hM : (stageM (stageW (phaseMemory s))).fault = none)
    (hD : (stageD (stageE (stageM (stageW (phaseMemory s))))).fault = none) :
    (stageF (stageD (stageE (stageM (stageW (phaseMemory s)))))).NoContention := by
  have hkept := stageM_memoryKept hl h hm h0 hM
  have harr : (stageM (stageW (phaseMemory s))).Arrays :=
    arrays_stageM (by simpa using (legal_ways hl).2) <|
      arrays_congr (s := phaseMemory s) (by simp) (by simp) (by simp) (by simp) (arrays_phaseMemory (boundary_arrays h))
  exact (ordered_stageF (by simpa using hl) hD (arrays_congr (by simp) (by simp) (by simp) (by simp) harr)
    (ordered_congr (by simp) (by simp) (by simp) (by simp) hkept.ordered) (by simpa using hkept.fetchIdle)).1

/-- No unit of a cycle raises a `ContentionFault`: the row of R220 unit by unit, each run only if none before it faulted. -/
theorem beforeAdvance_noContention {s : State} (hl : s.cfg.legal = true) (h : s.Boundary) (hm : s.MemoryOk) :
    (beforeAdvance s).NoContention := by
  have hphase := (ordered_phaseMemory hl h.fault (boundary_arrays h) (memoryOk_ordered hm)).2
  rw [beforeAdvance_row]
  refine andThen_noContention (andThen_noContention (andThen_noContention (andThen_noContention
    (andThen_noContention hphase fun h0 => ?_) fun hW => ?_) fun hM => ?_) fun hE => ?_) fun hD => ?_
  · exact noContention_of_none (by simpa using h0)
  · obtain ⟨h0, eW⟩ := andThen_next hW
    rw [eW]
    exact stageM_noContention hl h hm h0
  · exact noContention_of_none (by simpa using hM)
  · exact stageD_noContention hE
  · obtain ⟨hE, eD⟩ := andThen_next hD
    obtain ⟨hM, eE⟩ := andThen_next hE
    obtain ⟨hW, eM⟩ := andThen_next hM
    obtain ⟨h0, eW⟩ := andThen_next hW
    rw [eD, eE, eM, eW] at hD ⊢
    rw [eM, eW] at hM
    exact stageF_noContention hl h hm h0 hM hD

/-- At the instruction level no unit is busy: the faults of a fetch are those of R271, R272 and R275. -/
theorem fetchAlone_noContention (s : State) (cycle : Nat) (busyUnit : MemUnit) :
    fetchAlone s ≠ .error (.contention cycle busyUnit) := by
  unfold fetchAlone
  split
  · simp
  · split
    · simp
    · split <;> simp

/-- The faults of an access executed alone are those of R272 and R274. -/
theorem access_noContention (r : Record) (s : State) (cycle : Nat) (busyUnit : MemUnit) :
    access r s ≠ .fault (.contention cycle busyUnit) := by
  unfold access
  split
  · split
    · simp [raiseAlone]
    · split
      · simp [raiseAlone]
      · split <;> simp
  · simp

/-- The faults of an instruction executed alone are those of its sources and its access (R272 to R274). -/
theorem exec_noContention (i : Instr) (s : State) (cycle : Nat) (busyUnit : MemUnit) :
    exec i s ≠ .fault (.contention cycle busyUnit) := by
  rw [exec_eq_runAlone]
  unfold runAlone
  dsimp only
  split
  · simp [raiseAlone]
  · simp [raiseAlone]
  · exact access_noContention _ _ _ _

/-- Settles O58: no unit of a cycle raises it, and an instruction executed alone has no unit that could be busy. -/
theorem noContention : Obligations.NoContention := by
  intro s cycle busyUnit h hm hs
  obtain ⟨hl, ⟨-, hf⟩ | ⟨-, hf | ⟨i, -, he⟩⟩⟩ := step_fault h.fault hs
  · exact beforeAdvance_noContention hl h hm cycle busyUnit hf
  · exact fetchAlone_noContention s cycle busyUnit hf
  · exact exec_noContention i s cycle busyUnit he

end Sys2Proof.Machine
end

section
/-! PROOFS. The statements of spec/30_encoding.md: decoding and encoding are inverse to each other (R121 to R126), the
rows of the table exclude each other (R121), the illegal words (R127), and the record a word decodes to (R121, R123,
R124, R186). -/

namespace Sys2Proof.Machine

open Laws

/-! ## The word of an instruction decodes to it (R121 to R126) -/

/-- Settles O1, constructor by constructor: the fields of the encoded word select the row, and they are the operands;
the offset of a branch or JAL comes back whole because it is even. -/
theorem decodeEncode : Obligations.DecodeEncode := by
  intro i hwf
  rw [decodeWord_fields]
  cases i
  case jal rd offset =>
    have heven : offset.getLsbD 0 = false := by simpa [Instr.wellFormed] using hwf
    simp [encode, immJField_encodeJ _ _ _ heven]
  case' beq rs1 rs2 offset | bne rs1 rs2 offset | blt rs1 rs2 offset | bge rs1 rs2 offset | bltu rs1 rs2 offset |
      bgeu rs1 rs2 offset =>
    have heven : offset.getLsbD 0 = false := by simpa [Instr.wellFormed] using hwf
    simp only [encode, immBField_encodeB _ _ _ _ _ heven]
  all_goals simp [encode]

/-! ## A word is the encoding of what it decodes to (R121 to R126) -/

/-! A row of the table fixes the bits its mask looks at; with the fields its `build` reads they are the whole word. -/

section
variable {w q : Word} {opcode funct7 : BitVec 7} {funct3 : BitVec 3}

theorem encodeU_of_selects (hq : q &&& 0x7F#32 = q) (hop : opcodeField q = opcode) (h : w &&& 0x7F#32 = q) :
    encodeU (immUField w) (rdField w) opcode = w := by
  rw [← hop, ← (selects_opcode w q hq).1 h, encodeU_fields]

theorem encodeJ_of_selects (hq : q &&& 0x7F#32 = q) (hop : opcodeField q = opcode) (h : w &&& 0x7F#32 = q) :
    encodeJ (immJField w) (rdField w) opcode = w := by
  rw [← hop, ← (selects_opcode w q hq).1 h, encodeJ_fields]

theorem encodeI_of_selects (hq : q &&& 0x707F#32 = q) (hop : opcodeField q = opcode) (hf3 : funct3Field q = funct3)
    (h : w &&& 0x707F#32 = q) : encodeI (immIField w) (rs1Field w) funct3 (rdField w) opcode = w := by
  obtain ⟨hwop, hwf3⟩ := (selects_funct3 w q hq).1 h
  rw [← hop, ← hf3, ← hwop, ← hwf3, encodeI_fields]

theorem encodeS_of_selects (hq : q &&& 0x707F#32 = q) (hop : opcodeField q = opcode) (hf3 : funct3Field q = funct3)
    (h : w &&& 0x707F#32 = q) : encodeS (immSField w) (rs2Field w) (rs1Field w) funct3 opcode = w := by
  obtain ⟨hwop, hwf3⟩ := (selects_funct3 w q hq).1 h
  rw [← hop, ← hf3, ← hwop, ← hwf3, encodeS_fields]

theorem encodeB_of_selects (hq : q &&& 0x707F#32 = q) (hop : opcodeField q = opcode) (hf3 : funct3Field q = funct3)
    (h : w &&& 0x707F#32 = q) : encodeB (immBField w) (rs2Field w) (rs1Field w) funct3 opcode = w := by
  obtain ⟨hwop, hwf3⟩ := (selects_funct3 w q hq).1 h
  rw [← hop, ← hf3, ← hwop, ← hwf3, encodeB_fields]

theorem encodeR_of_selects (hq : q &&& 0xFE00707F#32 = q) (hop : opcodeField q = opcode) (hf3 : funct3Field q = funct3)
    (hf7 : funct7Field q = funct7) (h : w &&& 0xFE00707F#32 = q) :
    encodeR funct7 (rs2Field w) (rs1Field w) funct3 (rdField w) opcode = w := by
  obtain ⟨hwop, hwf3, hwf7⟩ := (selects_funct7 w q hq).1 h
  rw [← hop, ← hf3, ← hf7, ← hwop, ← hwf3, ← hwf7, encodeR_fields]

end

/-- The row builds from each word it selects a well-formed instruction whose encoding is that word. -/
def RowFaithful (row : OpcodeRow) : Prop :=
  ∀ w, w &&& row.mask = row.pattern → encode (row.build w) = w ∧ (row.build w).wellFormed = true

theorem rowsUpperJump_faithful : ∀ row ∈ rowsUpperJump, RowFaithful row := by
  intro row hrow
  fin_cases hrow <;> intro w h
  · exact ⟨encodeU_of_selects (by decide) (by decide) h, rfl⟩
  · exact ⟨encodeU_of_selects (by decide) (by decide) h, rfl⟩
  · exact ⟨encodeJ_of_selects (by decide) (by decide) h, congrArg not (immJField_even w)⟩
  · exact ⟨encodeI_of_selects (by decide) (by decide) (by decide) h, rfl⟩

theorem rowsBranch_faithful : ∀ row ∈ rowsBranch, RowFaithful row := by
  intro row hrow
  fin_cases hrow <;> intro w h
  all_goals exact ⟨encodeB_of_selects (by decide) (by decide) (by decide) h, congrArg not (immBField_even w)⟩

theorem rowsLoad_faithful : ∀ row ∈ rowsLoad, RowFaithful row := by
  intro row hrow
  fin_cases hrow <;> intro w h
  all_goals exact ⟨encodeI_of_selects (by decide) (by decide) (by decide) h, rfl⟩

theorem rowsStore_faithful : ∀ row ∈ rowsStore, RowFaithful row := by
  intro row hrow
  fin_cases hrow <;> intro w h
  all_goals exact ⟨encodeS_of_selects (by decide) (by decide) (by decide) h, rfl⟩

theorem rowsImmediate_faithful : ∀ row ∈ rowsImmediate, RowFaithful row := by
  intro row hrow
  fin_cases hrow <;> intro w h
  iterate 6 exact ⟨encodeI_of_selects (by decide) (by decide) (by decide) h, rfl⟩
  iterate 3 exact ⟨encodeR_of_selects (by decide) (by decide) (by decide) (by decide) h, rfl⟩

theorem rowsRegister_faithful : ∀ row ∈ rowsRegister, RowFaithful row := by
  intro row hrow
  fin_cases hrow <;> intro w h
  all_goals exact ⟨encodeR_of_selects (by decide) (by decide) (by decide) (by decide) h, rfl⟩

theorem opcodeTable_faithful : ∀ row ∈ opcodeTable, RowFaithful row := by
  simp only [opcodeTable, List.forall_mem_append]
  exact ⟨⟨⟨⟨⟨rowsUpperJump_faithful, rowsBranch_faithful⟩, rowsLoad_faithful⟩, rowsStore_faithful⟩,
    rowsImmediate_faithful⟩, rowsRegister_faithful⟩

/-- Settles O2: the row that decodes the word is faithful. -/
theorem encodeDecode : Obligations.EncodeDecode := by
  intro w i h
  obtain ⟨row, hrow, hsel, rfl⟩ := decodeWord_row h
  exact opcodeTable_faithful row hrow w hsel

/-! ## Two rows never select the same word (R121) -/

/-- What one word fixes under two masks agrees where both masks look. -/
theorem patterns_agree {w : Word} {a b : OpcodeRow} (ha : rowSelects w a = true) (hb : rowSelects w b = true) :
    a.pattern &&& b.mask = b.pattern &&& a.mask := by
  have ha : w &&& a.mask = a.pattern := by simpa [rowSelects] using ha
  have hb : w &&& b.mask = b.pattern := by simpa [rowSelects] using hb
  rw [← ha, ← hb, BitVec.and_assoc, BitVec.and_assoc, BitVec.and_comm a.mask]

/-- Every two rows differ in a bit that both their masks look at. -/
theorem opcodeTable_pairwise : opcodeTable.Pairwise fun a b => a.pattern &&& b.mask ≠ b.pattern &&& a.mask := by decide

/-- Settles O3. -/
theorem rowsDisjoint : Obligations.RowsDisjoint := by
  intro w j k hj hk hsj hsk
  have hdiff := List.pairwise_iff_getElem.1 opcodeTable_pairwise
  rcases Nat.lt_trichotomy j k with hlt | heq | hgt
  · exact absurd (patterns_agree hsj hsk) (hdiff j k hj hk hlt)
  · exact heq
  · exact absurd (patterns_agree hsk hsj) (hdiff k j hk hj hgt)

/-! ## The illegal words (R127), opcode by opcode -/

theorem bitVec3_cases : ∀ f : BitVec 3,
    f = 0 ∨ f = 1 ∨ f = 2 ∨ f = 3 ∨ f = 4 ∨ f = 5 ∨ f = 6 ∨ f = 7 := by decide

section
variable {w : Word}

theorem decodeWord_upper_ne_none (h : opcodeField w ∈ [0x37#7, 0x17#7, 0x6F#7]) : decodeWord w ≠ none := by
  simp only [List.mem_cons, List.not_mem_nil, or_false] at h
  rcases h with h | h | h <;> simp [decodeWord_fields, h]

theorem decodeWord_jalr_eq_none_iff (h : opcodeField w = 0x67#7) : decodeWord w = none ↔ funct3Field w ≠ 0b000#3 := by
  simp [decodeWord_fields, h]

theorem decodeWord_branch_eq_none_iff (h : opcodeField w = 0x63#7) :
    decodeWord w = none ↔ funct3Field w ∈ [0b010#3, 0b011#3] := by
  rcases bitVec3_cases (funct3Field w) with hf | hf | hf | hf | hf | hf | hf | hf <;> simp [decodeWord_fields, h, hf]

theorem decodeWord_load_eq_none_iff (h : opcodeField w = 0x03#7) :
    decodeWord w = none ↔ funct3Field w ∈ [0b011#3, 0b110#3, 0b111#3] := by
  rcases bitVec3_cases (funct3Field w) with hf | hf | hf | hf | hf | hf | hf | hf <;> simp [decodeWord_fields, h, hf]

theorem decodeWord_store_eq_none_iff (h : opcodeField w = 0x23#7) :
    decodeWord w = none ↔ funct3Field w ∈ [0b011#3, 0b100#3, 0b101#3, 0b110#3, 0b111#3] := by
  rcases bitVec3_cases (funct3Field w) with hf | hf | hf | hf | hf | hf | hf | hf <;> simp [decodeWord_fields, h, hf]

theorem decodeWord_immediate_eq_none_iff (h : opcodeField w = 0x13#7) :
    decodeWord w = none ↔ (funct3Field w = 0b001#3 ∧ funct7Field w ≠ 0b0000000#7) ∨
      (funct3Field w = 0b101#3 ∧ funct7Field w ∉ [0b0000000#7, 0b0100000#7]) := by
  rcases bitVec3_cases (funct3Field w) with hf | hf | hf | hf | hf | hf | hf | hf <;>
    simp [decodeWord_fields, h, hf, ite_eq_iff]

theorem decodeWord_register_eq_none_iff (h : opcodeField w = 0x33#7) :
    decodeWord w = none ↔ funct7Field w ≠ 0b0000000#7 ∧
      ¬(funct7Field w = 0b0100000#7 ∧ funct3Field w ∈ [0b000#3, 0b101#3]) := by
  rcases bitVec3_cases (funct3Field w) with hf | hf | hf | hf | hf | hf | hf | hf <;>
    simp [decodeWord_fields, h, hf, ite_eq_iff]

theorem decodeWord_eq_none_of_unused
    (h : opcodeField w ∉ [0x37#7, 0x17#7, 0x6F#7, 0x67#7, 0x63#7, 0x03#7, 0x23#7, 0x13#7, 0x33#7]) :
    decodeWord w = none := by
  simp only [List.mem_cons, List.not_mem_nil, or_false, not_or] at h
  simp [decodeWord_fields, h]

end

/-- Settles O4: the nine opcodes in use one by one, each with its own funct3 and funct7; every other opcode is
illegal. -/
theorem illegalWords : Obligations.IllegalWords := by
  intro w
  by_cases hused : opcodeField w ∈ [0x37#7, 0x17#7, 0x6F#7, 0x67#7, 0x63#7, 0x03#7, 0x23#7, 0x13#7, 0x33#7]
  · simp only [List.mem_cons, List.not_mem_nil, or_false] at hused
    rcases hused with h | h | h | h | h | h | h | h | h
    iterate 3 simp [decodeWord_upper_ne_none, h, Encoding.low_bits h rfl]
    · simp [decodeWord_jalr_eq_none_iff h, h, Encoding.low_bits h rfl]
    · simp [decodeWord_branch_eq_none_iff h, h, Encoding.low_bits h rfl]
    · simp [decodeWord_load_eq_none_iff h, h, Encoding.low_bits h rfl]
    · simp [decodeWord_store_eq_none_iff h, h, Encoding.low_bits h rfl]
    · simp [decodeWord_immediate_eq_none_iff h, h, Encoding.low_bits h rfl]
    · simp [decodeWord_register_eq_none_iff h, h, Encoding.low_bits h rfl]
  · exact iff_of_true (decodeWord_eq_none_of_unused hused) (.inr (.inl hused))

/-! ## The record of a decoded word (R121, R123, R124, R186) -/

/-- The fields of a new record that no format and no class sets (R121). -/
theorem recordOf_fresh (i : Instr) (word pc : Word) :
    (recordOf i word pc).pc = pc ∧ (recordOf i word pc).word = word ∧ (recordOf i word pc).v1 = 0 ∧
      (recordOf i word pc).v2 = 0 ∧ (recordOf i word pc).res = 0 ∧ (recordOf i word pc).addr = 0 ∧
      (recordOf i word pc).nextPc = pc + 4 := by
  cases i <;> exact ⟨rfl, rfl, rfl, rfl, rfl, rfl, rfl⟩

/-- The table of R186: only loads and stores have a width. -/
theorem recordOf_memoryClass (i : Instr) (word pc : Word) :
    (recordOf i word pc).isLoad = decide ((recordOf i word pc).op ∈ [.lb, .lh, .lw, .lbu, .lhu]) ∧
      (recordOf i word pc).isStore = decide ((recordOf i word pc).op ∈ [.sb, .sh, .sw]) ∧
      (recordOf i word pc).loadSigned = decide ((recordOf i word pc).op ∈ [.lb, .lh, .lw]) ∧
      (recordOf i word pc).size =
        (if (recordOf i word pc).op ∈ [.lb, .lbu, .sb] then 1 else if (recordOf i word pc).op ∈ [.lh, .lhu, .sh] then 2
          else if (recordOf i word pc).op ∈ [.lw, .sw] then 4 else 0) := by
  cases i <;> exact ⟨rfl, rfl, rfl, rfl⟩

/-- The records that words decode to, by their format: the major opcodes of the format, and the operands from the fields
of the word. -/
inductive WordRecord (w pc : Word) : Record → Prop
  | upper (op : Op) : opcodeField w = 0x37#7 ∨ opcodeField w = 0x17#7 →
      WordRecord w pc (recordU op (rdField w) (immUField w) w pc)
  | jump (op : Op) : opcodeField w = 0x6F#7 → WordRecord w pc (recordJ op (rdField w) (immJField w) w pc)
  | branch (op : Op) : opcodeField w = 0x63#7 →
      WordRecord w pc (recordB op (rs1Field w) (rs2Field w) (immBField w) w pc)
  | load (op : Op) (size : Nat) (signed : Bool) : opcodeField w = 0x03#7 → op ∉ [.slli, .srli, .srai] →
      WordRecord w pc (recordLoad op size signed (rdField w) (rs1Field w) (immIField w) w pc)
  | store (op : Op) (size : Nat) : opcodeField w = 0x23#7 →
      WordRecord w pc (recordStore op size (rs2Field w) (rs1Field w) (immSField w) w pc)
  | immediate (op : Op) : opcodeField w = 0x67#7 ∨ opcodeField w = 0x13#7 → op ∉ [.slli, .srli, .srai] →
      WordRecord w pc (recordI op (rdField w) (rs1Field w) ((immIField w).signExtend 32) w pc)
  | shift (op : Op) : opcodeField w = 0x13#7 → op ∈ [.slli, .srli, .srai] →
      WordRecord w pc (recordI op (rdField w) (rs1Field w) ((rs2Field w).setWidth 32) w pc)
  | register (op : Op) : opcodeField w = 0x33#7 →
      WordRecord w pc (recordR op (rdField w) (rs1Field w) (rs2Field w) w pc)

/-- Every row looks at the whole major opcode. -/
theorem opcodeField_of_row {w : Word} {row : OpcodeRow} (hrow : row ∈ opcodeTable) (h : w &&& row.mask = row.pattern) :
    opcodeField w = opcodeField row.pattern := by
  have hmask : ∀ row ∈ opcodeTable, opcodeField row.mask = BitVec.allOnes 7 := by decide
  calc opcodeField w
    _ = opcodeField w &&& opcodeField row.mask := by rw [hmask row hrow, BitVec.and_allOnes]
    _ = opcodeField (w &&& row.mask) := BitVec.extractLsb'_and.symm
    _ = opcodeField row.pattern := by rw [h]

/-- What the row builds from a word of its opcode has the record of its format. -/
def RowRecords (row : OpcodeRow) : Prop :=
  ∀ w pc, opcodeField w = opcodeField row.pattern → WordRecord w pc (recordOf (row.build w) w pc)

theorem rowsUpperJump_records : ∀ row ∈ rowsUpperJump, RowRecords row := by
  intro row hrow
  fin_cases hrow <;> intro w pc h
  · exact .upper _ (.inl h)
  · exact .upper _ (.inr h)
  · exact .jump _ h
  · exact .immediate _ (.inl h) (by decide)

theorem rowsBranch_records : ∀ row ∈ rowsBranch, RowRecords row := by
  intro row hrow
  fin_cases hrow <;> exact fun w pc h => .branch _ h

theorem rowsLoad_records : ∀ row ∈ rowsLoad, RowRecords row := by
  intro row hrow
  fin_cases hrow <;> exact fun w pc h => .load _ _ _ h (by decide)

theorem rowsStore_records : ∀ row ∈ rowsStore, RowRecords row := by
  intro row hrow
  fin_cases hrow <;> exact fun w pc h => .store _ _ h

theorem rowsImmediate_records : ∀ row ∈ rowsImmediate, RowRecords row := by
  intro row hrow
  fin_cases hrow <;> intro w pc h
  iterate 6 exact .immediate _ (.inr h) (by decide)
  iterate 3 exact .shift _ h (by decide)

theorem rowsRegister_records : ∀ row ∈ rowsRegister, RowRecords row := by
  intro row hrow
  fin_cases hrow <;> exact fun w pc h => .register _ h

theorem opcodeTable_records : ∀ row ∈ opcodeTable, RowRecords row := by
  simp only [opcodeTable, List.forall_mem_append]
  exact ⟨⟨⟨⟨⟨rowsUpperJump_records, rowsBranch_records⟩, rowsLoad_records⟩, rowsStore_records⟩,
    rowsImmediate_records⟩, rowsRegister_records⟩

theorem wordRecord_of_decodeWord {w : Word} {i : Instr} (pc : Word) (h : decodeWord w = some i) :
    WordRecord w pc (recordOf i w pc) := by
  obtain ⟨row, hrow, hsel, rfl⟩ := decodeWord_row h
  exact opcodeTable_records row hrow w pc (opcodeField_of_row hrow hsel)

/-- Settles O6, format by format; what holds of the record of every instruction comes from `recordOf_fresh` and
`recordOf_memoryClass`. -/
theorem recordFields : Obligations.RecordFields := by
  intro w pc r hdec
  obtain ⟨i, hi, hr⟩ := Option.map_eq_some_iff.1 hdec
  have hword := wordRecord_of_decodeWord pc hi
  have hfresh := recordOf_fresh i w pc
  have hclass := recordOf_memoryClass i w pc
  rw [hr] at hword hfresh hclass
  clear hdec hi hr
  refine ⟨hfresh, ?_, ?_, hclass⟩
  · cases hword with
    | upper op h => exact (if_pos h).symm
    | jump op h | branch op h | load op size signed h hop | store op size h | shift op h hop | register op h =>
      simp [recordJ, recordB, recordLoad, recordStore, recordI, recordR, recordBase, h]
    | immediate op h hop =>
      rcases h with h | h <;> simp [recordI, recordBase, h]
  · cases hword with
    | load op size signed h hop | immediate op h hop => exact ⟨rfl, rfl, rfl, (if_neg hop).symm⟩
    | shift op h hop => exact ⟨rfl, rfl, rfl, (if_pos hop).symm⟩
    | upper op h | jump op h | branch op h | store op size h | register op h => exact ⟨rfl, rfl, rfl, rfl⟩

end Sys2Proof.Machine
end

section
/-! PROOFS. The statements of spec/40_integer_computational.md: what each register-immediate, register-register and
upper-immediate instruction does executed alone (R142 to R163), the fault of an invalid source (R273), and worked words of
the spec with the instructions they stand for. -/

namespace Sys2Proof.Machine

/-! ## Worked words (R127, R142 to R195) -/

theorem decodeWord_of_encode {i : Instr} {w : Word} (hwf : i.wellFormed = true) (h : encode i = w) :
    decodeWord w = some i := h ▸ decodeEncode i hwf

/-- Settles O5: each legal word is the encoding of its instruction; each illegal one meets a case of R127. -/
theorem sampleWords : Obligations.SampleWords := by
  refine ⟨?addi, ?srai, ?sub, ?lui, ?jal, ?jalr, ?beq, ?lh, ?sw, ?zeros, ?ones, ?ecall, ?ebreak, ?fence, ?slli⟩
  case addi | srai | sub | lui | jal | jalr | beq | lh | sw => exact decodeWord_of_encode (by decide) (by decide)
  all_goals exact (illegalWords _).2 (by decide)

/-! ## An instruction that computes a result (R140) -/

/-- The record of an instruction with the values of its sources in it. -/
def operandRecord (i : Instr) (s : State) : Record :=
  boundRecord i s (s.operand (recordOf i (encode i) s.pc).rs1) (s.operand (recordOf i (encode i) s.pc).rs2)

section
variable {i : Instr} {s : State}

/-- With readable sources an instruction is the access of its executed record. -/
theorem exec_readable (hr : ∀ r ∈ i.sources, s.readable r) : exec i s = access (execute (operandRecord i s)) s := by
  rw [recordOf_sources i (encode i) s.pc] at hr
  exact exec_of_sources (sourceValue_operand fun x hx => hr x (List.mem_append_left _ hx))
    (sourceValue_operand fun x hx => hr x (List.mem_append_right _ hx))

/-- An instruction whose execute function only computes the result `v` decodes from its word, and with readable sources it
writes `v` to its destination and goes on at `pc + 4`. -/
theorem decodes_and_writes {rd : Reg} {v : Word} (hwf : i.wellFormed = true) (hi : i.access? = none)
    (hd : i.dest = some rd) (hr : ∀ r ∈ i.sources, s.readable r)
    (hv : execute (operandRecord i s) = (operandRecord i s).withResult v) :
    decodeWord (encode i) = some i ∧ exec i s = .next (s.wrote rd v (s.pc + 4)) := by
  refine ⟨decodeEncode i hwf, ?_⟩
  have hload : ((operandRecord i s).withResult v).isLoad = false :=
    (recordOf_isLoad i _ _).trans (by rw [hi]; rfl)
  have hstore : ((operandRecord i s).withResult v).isStore = false :=
    (recordOf_isStore i _ _).trans (stores_eq_false_of_access hi)
  have hrd : ((operandRecord i s).withResult v).rd = some rd := (recordOf_rd i _ _).trans hd
  have hnext : ((operandRecord i s).withResult v).nextPc = s.pc + 4 := congrArg (· + 4) (recordOf_pc i _ _)
  rw [exec_readable hr, hv, access_plain hload hstore, commit_some hrd, wbval_of_not_load hload, hnext]
  rfl

end

/-! ## Results said in integers and naturals (R12, R141) -/

/-- The comparison of R143 and R154. -/
theorem truthWord_signedLess (a b : Word) : truthWord (signedLess a b) = if a.toInt < b.toInt then 1 else 0 := by
  simp [truthWord, signedLess]

/-- The comparison of R144 and R155. -/
theorem truthWord_unsignedLess (a b : Word) : truthWord (unsignedLess a b) = if a.toNat < b.toNat then 1 else 0 := by
  simp [truthWord, unsignedLess]

/-- A left shift multiplies modulo 2^32 (R148, R153). -/
theorem shiftLeft_eq_mul (x : Word) (n : Nat) : x <<< n = BitVec.ofNat 32 (x.toNat * 2 ^ n) := by
  apply BitVec.eq_of_toNat_eq
  rw [BitVec.toNat_shiftLeft, BitVec.toNat_ofNat, Nat.shiftLeft_eq]

/-- A logical right shift divides the unsigned value (R149, R157). -/
theorem shiftRight_eq_div (x : Word) (n : Nat) : x >>> n = BitVec.ofNat 32 (x.toNat / 2 ^ n) := by
  apply BitVec.eq_of_toNat_eq
  rw [BitVec.toNat_ushiftRight, BitVec.toNat_ofNat, Nat.shiftRight_eq_div_pow,
    Nat.mod_eq_of_lt ((Nat.div_le_self _ _).trans_lt x.isLt)]

/-- An arithmetic right shift divides the signed value, rounding down (R150, R158). -/
theorem sshiftRight_eq_fdiv (x : Word) (n : Nat) : x.sshiftRight n = BitVec.ofInt 32 (Int.fdiv x.toInt (2 ^ n)) := by
  rw [BitVec.sshiftRight, Int.shiftRight_eq_div_pow, Int.fdiv_eq_ediv_of_nonneg _ (by positivity)]
  norm_cast

/-- The shift amount of a register is its value modulo 32 (R141). -/
theorem shiftAmount_eq_mod (v : Word) : shiftAmount v = v.toNat % 32 := by
  simp [shiftAmount]

/-- The zero-extended shift amount of an immediate shift (R123). -/
theorem shamt_toNat (shamt : BitVec 5) : (shamt.setWidth 32).toNat = shamt.toNat :=
  BitVec.toNat_setWidth_of_le (by decide)

/-- The U immediate: twelve zero bits below the twenty encoded ones (R123). -/
theorem upper_eq_mul (imm20 : BitVec 20) :
    (imm20 ++ 0#12 : BitVec (20 + 12)) = BitVec.ofNat 32 (imm20.toNat * 4096) := by
  apply BitVec.eq_of_toNat_eq
  have hlt : imm20.toNat * 4096 < 2 ^ 32 := by omega
  rw [BitVec.toNat_append, BitVec.toNat_ofNat, BitVec.toNat_ofNat, Nat.mod_eq_of_lt hlt, Nat.shiftLeft_eq,
    Nat.zero_mod, Nat.or_zero]

/-! ## Register-immediate instructions (R142 to R150) -/

/-- Settles O7: the four execute functions compute these results by definition. -/
theorem immediateArithmetic : Obligations.ImmediateArithmetic := by
  intro rd rs1 imm s h1
  have hr : ∀ r ∈ [rs1], s.readable r := List.forall_mem_singleton.2 h1
  exact ⟨decodes_and_writes (i := .addi rd rs1 imm) rfl rfl rfl hr rfl,
    decodes_and_writes (i := .xori rd rs1 imm) rfl rfl rfl hr rfl,
    decodes_and_writes (i := .ori rd rs1 imm) rfl rfl rfl hr rfl,
    decodes_and_writes (i := .andi rd rs1 imm) rfl rfl rfl hr rfl⟩

/-- Settles O8; sign extension keeps the signed value of the immediate. -/
theorem immediateCompare : Obligations.ImmediateCompare := by
  intro rd rs1 imm s h1
  have hr : ∀ r ∈ [rs1], s.readable r := List.forall_mem_singleton.2 h1
  have himm : (imm.signExtend 32).toInt = imm.toInt := BitVec.toInt_signExtend_of_le (by decide)
  rw [← himm, ← truthWord_signedLess, ← truthWord_unsignedLess]
  exact ⟨decodes_and_writes (i := .slti rd rs1 imm) rfl rfl rfl hr rfl,
    decodes_and_writes (i := .sltiu rd rs1 imm) rfl rfl rfl hr rfl⟩

/-- Settles O9: the model's shifts, said in arithmetic. -/
theorem immediateShift : Obligations.ImmediateShift := by
  intro rd rs1 shamt s h1
  have hr : ∀ r ∈ [rs1], s.readable r := List.forall_mem_singleton.2 h1
  rw [← shamt_toNat, ← shiftLeft_eq_mul, ← shiftRight_eq_div, ← sshiftRight_eq_fdiv]
  exact ⟨decodes_and_writes (i := .slli rd rs1 shamt) rfl rfl rfl hr rfl,
    decodes_and_writes (i := .srli rd rs1 shamt) rfl rfl rfl hr rfl,
    decodes_and_writes (i := .srai rd rs1 shamt) rfl rfl rfl hr rfl⟩

/-! ## Register-register instructions (R151 to R160) -/

theorem readable_pair {s : State} {rs1 rs2 : Reg} (h1 : s.readable rs1) (h2 : s.readable rs2) :
    ∀ r ∈ [rs1, rs2], s.readable r := List.forall_mem_cons.2 ⟨h1, List.forall_mem_singleton.2 h2⟩

/-- Settles O10: the five execute functions compute these results by definition. -/
theorem registerArithmetic : Obligations.RegisterArithmetic := by
  intro rd rs1 rs2 s h1 h2
  have hr := readable_pair h1 h2
  exact ⟨decodes_and_writes (i := .add rd rs1 rs2) rfl rfl rfl hr rfl,
    decodes_and_writes (i := .sub rd rs1 rs2) rfl rfl rfl hr rfl,
    decodes_and_writes (i := .xor rd rs1 rs2) rfl rfl rfl hr rfl,
    decodes_and_writes (i := .or rd rs1 rs2) rfl rfl rfl hr rfl,
    decodes_and_writes (i := .and rd rs1 rs2) rfl rfl rfl hr rfl⟩

/-- Settles O11. -/
theorem registerCompare : Obligations.RegisterCompare := by
  intro rd rs1 rs2 s h1 h2
  have hr := readable_pair h1 h2
  rw [← truthWord_signedLess, ← truthWord_unsignedLess]
  exact ⟨decodes_and_writes (i := .slt rd rs1 rs2) rfl rfl rfl hr rfl,
    decodes_and_writes (i := .sltu rd rs1 rs2) rfl rfl rfl hr rfl⟩

/-- Settles O12: the model's shifts by `shiftAmount`, said in arithmetic. -/
theorem registerShift : Obligations.RegisterShift := by
  intro rd rs1 rs2 s h1 h2
  have hr := readable_pair h1 h2
  rw [← shiftAmount_eq_mod, ← shiftLeft_eq_mul, ← shiftRight_eq_div, ← sshiftRight_eq_fdiv]
  exact ⟨decodes_and_writes (i := .sll rd rs1 rs2) rfl rfl rfl hr rfl,
    decodes_and_writes (i := .srl rd rs1 rs2) rfl rfl rfl hr rfl,
    decodes_and_writes (i := .sra rd rs1 rs2) rfl rfl rfl hr rfl⟩

/-! ## Upper-immediate instructions (R162, R163) -/

/-- Settles O13: no source has to be readable. -/
theorem upperImmediate : Obligations.UpperImmediate := by
  intro rd imm20 s
  have hr : ∀ r ∈ [], s.readable r := List.forall_mem_nil _
  rw [← upper_eq_mul]
  exact ⟨decodes_and_writes (i := .lui rd imm20) rfl rfl rfl hr rfl,
    decodes_and_writes (i := .auipc rd imm20) rfl rfl rfl hr rfl⟩

/-! ## Invalid sources (R226, R258, R273) -/

/-- The register has no value (R23): the test of `sourceValue`. -/
def State.invalid (s : State) (r : Reg) : Bool := !(s.regEntry r).valid

theorem invalid_eq_true_iff (s : State) (r : Reg) : s.invalid r = true ↔ ¬ s.readable r := by
  simp [State.invalid, State.readable]

theorem invalid_eq_false_iff (s : State) (r : Reg) : s.invalid r = false ↔ s.readable r := by
  simp [State.invalid, State.readable]

theorem find_invalid_eq_none_iff {s : State} {rs : List Reg} :
    rs.find? s.invalid = none ↔ ∀ r ∈ rs, s.readable r := by
  simp [invalid_eq_false_iff]

/-- A source is reported exactly when it is named and invalid. -/
theorem sourceValue_eq_error_iff {s : State} {o : Option Reg} {r : Reg} :
    sourceValue s o = .error r ↔ o.toList.find? s.invalid = some r := by
  cases o with
  | none => simp
  | some q =>
    by_cases hq : s.readable q
    · simp [sourceValue_of_readable hq, (invalid_eq_false_iff s q).2 hq]
    · simp [sourceValue_of_not_readable hq, (invalid_eq_true_iff s q).2 hq]

/-- The first invalid source, `rs1` before `rs2`, is the one the instruction faults for (R226, R273). -/
theorem exec_invalid {i : Instr} {s : State} {r : Reg} (h : i.sources.find? s.invalid = some r) :
    exec i s = .fault (.invalidRegister s.counters.cycles s.pc r) := by
  rw [recordOf_sources i (encode i) s.pc, List.find?_append, Option.or_eq_some_iff] at h
  rw [exec_eq_runAlone]
  unfold runAlone
  dsimp only
  rcases h with h1 | ⟨h1, h2⟩
  · rw [sourceValue_eq_error_iff.2 h1]
    rfl
  · rw [sourceValue_operand (find_invalid_eq_none_iff.1 h1), sourceValue_eq_error_iff.2 h2]
    rfl

/-- The faults of an access executed alone are those of R272 and R274. -/
theorem access_fault {r : Record} {s : State} {f : Fault} (h : access r s = .fault f) :
    f = .misalignedAccess s.counters.cycles r.pc r.addr r.size ∨
      f = .outOfRange s.counters.cycles r.pc (lineBase s.cfg.dcache r.addr) s.cfg.fillBeat (some .D) := by
  unfold access at h
  split at h
  · split at h
    · exact .inl (by cases h; rfl)
    · split at h
      · exact .inr (by cases h; rfl)
      · split at h <;> cases h
  · cases h

/-- An `InvalidRegisterFault` is raised exactly for the first invalid source. -/
theorem exec_invalidRegister_iff (i : Instr) (s : State) (r : Reg) :
    exec i s = .fault (.invalidRegister s.counters.cycles s.pc r) ↔ i.sources.find? s.invalid = some r := by
  refine ⟨fun h => ?_, exec_invalid⟩
  cases hfind : i.sources.find? s.invalid with
  | none =>
    rw [exec_readable (find_invalid_eq_none_iff.1 hfind)] at h
    rcases access_fault h with hf | hf <;> cases hf
  | some q =>
    rw [exec_invalid hfind] at h
    cases h
    rfl

/-- Settles O24: the search for the first invalid source, said by the sources before it. -/
theorem invalidSource : Obligations.InvalidSource := by
  intro i s r
  rw [exec_invalidRegister_iff, List.find?_eq_some_iff_append]
  simp only [invalid_eq_true_iff, Bool.not_eq_true', invalid_eq_false_iff]
  exact ⟨fun ⟨hr, before, after, hsrc, hread⟩ => ⟨before, after, hsrc, hread, hr⟩,
    fun ⟨before, after, hsrc, hread, hr⟩ => ⟨hr, before, after, hsrc, hread⟩⟩

end Sys2Proof.Machine
end

section
/-! PROOFS. The statements of spec/41_control_transfer.md: what each jump and branch does executed alone (R172 to R182). -/

namespace Sys2Proof.Machine

/-! ## An instruction that goes to a target (R140, R172, R182) -/

section
variable {i : Instr} {s : State}

/-- With readable sources an instruction that accesses no memory commits its executed record. -/
theorem exec_commit (hi : i.access? = none) (hr : ∀ r ∈ i.sources, s.readable r) :
    exec i s = .next (commit (execute (operandRecord i s)) s) := by
  rw [recordOf_sources i (encode i) s.pc] at hr
  exact exec_plain hi (sourceValue_operand fun x hx => hr x (List.mem_append_left _ hx))
    (sourceValue_operand fun x hx => hr x (List.mem_append_right _ hx))

/-- A jump writes the link `pc + 4` to its destination and goes to its target (R173, R174). -/
theorem exec_jump {rd : Reg} {target : Word} (hi : i.access? = none) (hd : i.dest = some rd)
    (hr : ∀ r ∈ i.sources, s.readable r)
    (hv : execute (operandRecord i s) = (operandRecord i s).withJump target) :
    exec i s = .next (s.wrote rd (s.pc + 4) target) := by
  have hload : ((operandRecord i s).withJump target).isLoad = false :=
    (recordOf_isLoad i _ _).trans (by rw [hi]; rfl)
  have hrd : ((operandRecord i s).withJump target).rd = some rd := (recordOf_rd i _ _).trans hd
  have hlink : ((operandRecord i s).withJump target).res = s.pc + 4 := congrArg (· + 4) (recordOf_pc i _ _)
  rw [exec_commit hi hr, hv, commit_some hrd, wbval_of_not_load hload, hlink]
  rfl

/-- A branch taken exactly where `p` holds changes `pc` only (R172, R182); its word carries an even offset (R123). -/
theorem decodes_and_branches {offset : BitVec 13} {taken : Bool} {p : Prop} [Decidable p]
    (hwf : i.wellFormed = !offset.getLsbD 0) (hi : i.access? = none) (hd : i.dest = none)
    (himm : (operandRecord i s).imm = offset.signExtend 32) (hr : ∀ r ∈ i.sources, s.readable r)
    (hv : execute (operandRecord i s) = (operandRecord i s).withBranch taken) (htaken : taken = true ↔ p) :
    (offset.getLsbD 0 = false → decodeWord (encode i) = some i) ∧
      exec i s = .next { s with pc := if p then s.pc + offset.signExtend 32 else s.pc + 4 } := by
  refine ⟨fun heven => decodeEncode i (by rw [hwf, heven]; rfl), ?_⟩
  have hrd : ((operandRecord i s).withBranch taken).rd = none := (recordOf_rd i _ _).trans hd
  have hpc : (operandRecord i s).pc = s.pc := recordOf_pc i _ _
  have hnext : ((operandRecord i s).withBranch taken).nextPc =
      if p then s.pc + offset.signExtend 32 else s.pc + 4 := by
    simp only [Record.withBranch, himm, hpc, htaken]
  rw [exec_commit hi hr, hv, commit_none hrd, hnext]

end

/-! ## Targets and conditions said in integers and naturals (R12, R174, R177 to R180) -/

/-- The mask of JALR clears bit 0 and keeps the others (R174). -/
theorem clearBit0_eq_mul (x : Word) : x &&& 0xFFFFFFFE#32 = BitVec.ofNat 32 (x.toNat / 2 * 2) := by
  have hshift : x &&& 0xFFFFFFFE#32 = x >>> 1 <<< 1 := (BitVec.shiftLeft_ushiftRight (n := 1)).symm
  have hhalf : (x >>> 1).toNat = x.toNat / 2 := by rw [BitVec.toNat_ushiftRight, Nat.shiftRight_one]
  rw [hshift, shiftLeft_eq_mul, hhalf, pow_one]

theorem signedLess_iff (a b : Word) : signedLess a b = true ↔ a.toInt < b.toInt := decide_eq_true_iff

theorem unsignedLess_iff (a b : Word) : unsignedLess a b = true ↔ a.toNat < b.toNat := decide_eq_true_iff

theorem not_signedLess_iff (a b : Word) : (!signedLess a b) = true ↔ a.toInt ≥ b.toInt := by
  rw [Bool.not_eq_true', ← Bool.not_eq_true, signedLess_iff, Int.not_lt]

theorem not_unsignedLess_iff (a b : Word) : (!unsignedLess a b) = true ↔ a.toNat ≥ b.toNat := by
  rw [Bool.not_eq_true', ← Bool.not_eq_true, unsignedLess_iff, Nat.not_lt]

/-! ## Jumps (R173, R174) -/

/-- Settles O14: JAL has no source to be read; the mask of JALR is said in arithmetic. -/
theorem jumps : Obligations.Jumps := by
  refine ⟨fun rd offset s => ⟨fun heven => ?word, ?exec⟩, fun rd rs1 imm s h1 => ⟨?wordR, ?execR⟩⟩
  case word => exact decodeEncode (.jal rd offset) (congrArg Bool.not heven)
  case exec => exact exec_jump (i := .jal rd offset) rfl rfl (List.forall_mem_nil _) rfl
  case wordR => exact decodeEncode (.jalr rd rs1 imm) rfl
  case execR =>
    rw [← clearBit0_eq_mul]
    exact exec_jump (i := .jalr rd rs1 imm) rfl rfl (List.forall_mem_singleton.2 h1) rfl

/-! ## Branches (R175 to R180) -/

/-- Settles O15: the conditions are the equality tests of words. -/
theorem branchesEqual : Obligations.BranchesEqual := by
  intro rs1 rs2 offset s h1 h2
  have hr := readable_pair h1 h2
  exact ⟨decodes_and_branches (i := .beq rs1 rs2 offset) rfl rfl rfl rfl hr rfl beq_iff_eq,
    decodes_and_branches (i := .bne rs1 rs2 offset) rfl rfl rfl rfl hr rfl bne_iff_ne⟩

/-- Settles O16: BGE and BGEU are taken where the comparison of BLT and BLTU fails. -/
theorem branchesOrdered : Obligations.BranchesOrdered := by
  intro rs1 rs2 offset s h1 h2
  have hr := readable_pair h1 h2
  exact ⟨decodes_and_branches (i := .blt rs1 rs2 offset) rfl rfl rfl rfl hr rfl (signedLess_iff _ _),
    decodes_and_branches (i := .bge rs1 rs2 offset) rfl rfl rfl rfl hr rfl (not_signedLess_iff _ _),
    decodes_and_branches (i := .bltu rs1 rs2 offset) rfl rfl rfl rfl hr rfl (unsignedLess_iff _ _),
    decodes_and_branches (i := .bgeu rs1 rs2 offset) rfl rfl rfl rfl hr rfl (not_unsignedLess_iff _ _)⟩

end Sys2Proof.Machine
end

section
/-! PROOFS. The statements of spec/42_load_store.md: the writeback value (R187), the loads of one and two bytes executed
alone (R188, R189, R191, R192, R198), and the fault of an access beyond the store (R196, R199, R272). -/

namespace Sys2Proof.Machine

/-! ## The writeback value (R187) -/

section
variable {r : Record}

theorem wbval_signedByte (hl : r.isLoad = true) (hs : r.loadSigned = true) (hn : r.size = 1) :
    wbval r = (r.res.setWidth 8).signExtend 32 := by
  simp [wbval, hl, hs, hn]

theorem wbval_signedHalf (hl : r.isLoad = true) (hs : r.loadSigned = true) (hn : r.size = 2) :
    wbval r = (r.res.setWidth 16).signExtend 32 := by
  simp [wbval, hl, hs, hn]

theorem wbval_eq_res (h : ¬(r.isLoad = true ∧ r.loadSigned = true ∧ (r.size = 1 ∨ r.size = 2))) : wbval r = r.res := by
  simp only [wbval, Bool.and_eq_true, beq_iff_eq]
  rw [if_neg fun ⟨⟨hl, hs⟩, hn⟩ => h ⟨hl, hs, .inl hn⟩, if_neg fun ⟨⟨hl, hs⟩, hn⟩ => h ⟨hl, hs, .inr hn⟩]

end

/-- Settles O34: sign extension keeps the signed value of the low byte or half-word. -/
theorem writebackValue : Obligations.WritebackValue := by
  refine fun r => ⟨fun ⟨hl, hs, hn⟩ => ?byte, fun ⟨hl, hs, hn⟩ => ?half, wbval_eq_res⟩
  case byte =>
    rw [wbval_signedByte hl hs hn, BitVec.setWidth_eq_extractLsb' (by decide)]
    rfl
  case half =>
    rw [wbval_signedHalf hl hs hn, BitVec.setWidth_eq_extractLsb' (by decide)]
    rfl

/-! ## Loads of one and two bytes (R188, R189, R191, R192, R198) -/

/-- The byte `Mem[a]` as a word (R13). -/
theorem memRead_one (s : State) (a : Nat) : memRead s a 1 = (archByte s a).setWidth 32 := wordLE_one _

/-- The two bytes from `a` on as a word, the lower address in the low half (R62). -/
theorem memRead_two (s : State) (a : Nat) :
    memRead s a 2 = (archByte s (a + 1) ++ archByte s a : BitVec (8 + 8)).setWidth 32 := wordLE_two _ _

/-- A load decodes from its word, and executed alone it writes the writeback value of what it reads (R187, R198). -/
theorem decodes_and_loads {i : Instr} {rd rs1 : Reg} {imm : BitVec 12} {n : Nat} {v : Word} {s : State}
    (hwf : i.wellFormed = true) (hi : i.access? = some (rs1, imm, n)) (hl : i.stores = false) (hd : i.dest = some rd)
    (hr : ∀ r ∈ i.sources, s.readable r) (ha : s.accessible (s.effective rs1 imm) n)
    (hv : wbval { accessRecord i rs1 imm s with res := memRead s (s.effective rs1 imm).toNat n } = v) :
    decodeWord (encode i) = some i ∧ exec i s = .next (s.wrote rd v (s.pc + 4)) :=
  ⟨decodeEncode i hwf, by rw [exec_load hi hl hd hr ha, hv]⟩

/-- Settles O17: `wbval` extends the sign of what LB and LH read, and leaves what LBU and LHU read zero-extended. -/
theorem loadNarrow : Obligations.LoadNarrow := by
  intro rd rs1 imm s h1
  have hr : ∀ r ∈ [rs1], s.readable r := List.forall_mem_singleton.2 h1
  refine ⟨fun ha => ⟨?lb, ?lbu⟩, fun ha => ⟨?lh, ?lhu⟩⟩
  case lb =>
    refine decodes_and_loads (i := .lb rd rs1 imm) rfl rfl rfl rfl hr ha ?_
    rw [wbval_signedByte rfl rfl rfl, memRead_one, BitVec.setWidth_setWidth_of_le _ (by decide), BitVec.setWidth_eq]
  case lbu =>
    refine decodes_and_loads (i := .lbu rd rs1 imm) rfl rfl rfl rfl hr ha ?_
    rw [wbval_eq_res fun ⟨_, hs, _⟩ => Bool.false_ne_true hs, memRead_one]
  case lh =>
    refine decodes_and_loads (i := .lh rd rs1 imm) rfl rfl rfl rfl hr ha ?_
    rw [wbval_signedHalf rfl rfl rfl, memRead_two, BitVec.setWidth_setWidth_of_le _ (by decide), BitVec.setWidth_eq]
  case lhu =>
    refine decodes_and_loads (i := .lhu rd rs1 imm) rfl rfl rfl rfl hr ha ?_
    rw [wbval_eq_res fun ⟨_, hs, _⟩ => Bool.false_ne_true hs, memRead_two]

/-! ## An access beyond the store (R196, R199, R272) -/

/-- The record of a load or store is of a memory class (R186). -/
theorem accessRecord_memory {i : Instr} {rs1 : Reg} {imm : BitVec 12} {n : Nat} (hi : i.access? = some (rs1, imm, n))
    (s : State) : ((accessRecord i rs1 imm s).isLoad || (accessRecord i rs1 imm s).isStore) = true := by
  obtain ⟨-, -, hload, hstore⟩ := recordOf_access hi (encode i) s.pc
  simp [accessRecord, hload, hstore]

/-- Settles O23: past the alignment test, `access` tests the range and reports the base of the line. -/
theorem outOfRangeAccess : Obligations.OutOfRangeAccess := by
  intro i rs1 imm n s hi hr ha hrange
  obtain ⟨-, rfl, -⟩ := recordOf_access hi (encode i) s.pc
  have hpc : (accessRecord i rs1 imm s).pc = s.pc := recordOf_pc i _ _
  rw [exec_access hi hr, access_outOfRange (accessRecord_memory hi s) ha hrange, hpc]
  rfl

end Sys2Proof.Machine
end

section
/-! PROOFS. The statements of spec/50_pipeline.md: what W, M, E and D each do (R222 to R226), and what one cycle leaves: its
stall combinations (R235), its latches (R231, R234), its flush (R232, R253) and its counters (R285). -/

namespace Sys2Proof.Machine

/-! ## Destinations and sources (R124, R251) -/

theorem liveReg_eq_none {r : Option Reg} (h : r = none ∨ r = some 0) : liveReg r = none := by
  rcases h with rfl | rfl <;> rfl

/-- R251: a data hazard is a source other than x0 that stands in a mask. -/
theorem hasDataHazard_iff {w : Wires} {i : Record} :
    hasDataHazard w i = true ↔
      ∃ r, r ≠ 0 ∧ (i.rs1 = some r ∨ i.rs2 = some r) ∧ (r ∈ w.maskE ∨ r ∈ w.maskM) := by
  simp only [hasDataHazard, sourceRegs, List.any_eq_true, List.mem_append, Option.mem_toList, liveReg_eq_some,
    Bool.or_eq_true, List.contains_iff_mem]
  refine exists_congr fun r => ?_
  rw [← or_and_right, and_comm (b := r ≠ 0), and_assoc]

/-! ## Writeback (R222) -/

/-- A bubble in W does nothing. -/
theorem stageW_bubble {s : State} (h : s.mw.cur = none) : stageW s = s := by simp [stageW, h]

section
variable {s : State} {i : Record}

theorem stageW_counters (h : s.mw.cur = some i) :
    (stageW s).counters = { s.counters with retired := s.counters.retired + 1 } := by
  rw [stageW_eq, h]
  rfl

theorem stageW_regs_dest {r : Reg} (h : s.mw.cur = some i) (hd : i.rd = some r) (hr : r ≠ 0) :
    (stageW s).regs = s.regs.set r.toNat { value := wbval i, valid := true } r.isLt := by
  rw [stageW_regs, h]
  simp only [hd, State.writeDest, writeReg_regs hr]

theorem stageW_regs_noDest (h : s.mw.cur = some i) (hd : i.rd = none ∨ i.rd = some 0) : (stageW s).regs = s.regs := by
  rw [stageW_regs, h]
  rcases hd with hd | hd <;> simp only [hd, State.writeDest, writeReg_zero]

end

/-- Settles O33: the laws of W, by whether it holds a record and whether that has a destination. -/
theorem writeback : Obligations.Writeback :=
  ⟨fun _ h => stageW_bubble h, fun s _ h => ⟨stageW_counters h, by rw [stageW_eq s],
    fun _ hd hr => stageW_regs_dest h hd hr, stageW_regs_noDest h⟩⟩

/-! ## Decode (R226, R251, R256 to R258) -/

/-- R257: the class says which bypass records supplied the two operands. -/
theorem classify_iff (a b : OperandSource) :
    (classify a b = .both ↔ (a = .bypE ∧ b = .bypM) ∨ (a = .bypM ∧ b = .bypE)) ∧
      (classify a b = .none ↔ a ∉ [.bypE, .bypM] ∧ b ∉ [.bypE, .bypM]) ∧
      (classify a b = .exe ↔ (a = .bypE ∨ b = .bypE) ∧ a ≠ .bypM ∧ b ≠ .bypM) ∧
      (classify a b = .mem ↔ (a = .bypM ∨ b = .bypM) ∧ a ≠ .bypE ∧ b ≠ .bypE) := by
  cases a <;> cases b <;> decide

section
variable {s : State} {i : Record}

theorem stageD_reads (hst : s.wires.stallEM = false) (hi : s.fd.cur = some i)
    (hz : hasDataHazard s.wires i = false) : stageD s = readOperands i s := by
  simp [stageD, hst, hi, hz]

theorem stageD_hazard (hst : s.wires.stallEM = false) (hi : s.fd.cur = some i)
    (hz : hasDataHazard s.wires i = true) :
    stageD s = { s with wires := { s.wires with dataHazard := true, stallFD := true },
                        de := { s.de with pending := none } } := by
  simp [stageD, hst, hi, hz]

theorem readOperands_first_invalid {x : Reg} (h1 : readOperand s i.rs1 = .error x) :
    readOperands i s = s.raise (.invalidRegister s.counters.cycles i.pc x) := by
  simp [readOperands, h1]

theorem readOperands_second_invalid {a : Word} {x : Reg} (h1 : readOperand s i.rs1 = .ok a)
    (h2 : readOperand s i.rs2 = .error x) :
    readOperands i s = s.raise (.invalidRegister s.counters.cycles i.pc x) := by
  simp [readOperands, h1, h2]

theorem readOperands_ok {a b : Word} (h1 : readOperand s i.rs1 = .ok a) (h2 : readOperand s i.rs2 = .ok b) :
    readOperands i s =
      { s with
        wires := { s.wires with bypClass := classify (operandSource s.wires i.rs1) (operandSource s.wires i.rs2) }
        de := { s.de with pending := some { i with v1 := a, v2 := b } } } := by
  simp [readOperands, h1, h2]

/-- Reading the operands touches no wire but the class, whether it succeeds or faults. -/
theorem readOperands_wires (i : Record) (s : State) :
    (readOperands i s).wires = { s.wires with bypClass := (readOperands i s).wires.bypClass } := by
  unfold readOperands
  split
  · rw [raise_wires]
  · rw [raise_wires]
  · rfl

end

/-- Settles O37: the three outcomes of the operand read, and what the class of the third says. -/
theorem decodeReadsOperands : Obligations.DecodeReadsOperands := by
  intro s i h0 hst hi hz
  rw [stageD_reads hst hi hz]
  refine ⟨fun x h1 => ?_, fun a x h1 h2 => ?_, fun a b h1 h2 => ?_⟩
  · rw [readOperands_first_invalid h1, raise_of_none h0]
  · rw [readOperands_second_invalid h1 h2, raise_of_none h0]
  · rw [readOperands_ok h1 h2]
    exact ⟨rfl, h0, rfl, classify_iff _ _⟩

/-- Settles O38: the hazard test is R251's condition, and without it D only reads operands. -/
theorem dataHazard : Obligations.DataHazard := by
  refine fun s i hst hi => ⟨fun h => stageD_hazard hst hi (hasDataHazard_iff.2 h), fun h => ?_⟩
  have hz : hasDataHazard s.wires i = false := by
    rw [← Bool.not_eq_true, hasDataHazard_iff]
    rintro ⟨r, hr, hsrc, hE | hM⟩
    · exact (h r hr hsrc).1 hE
    · exact (h r hr hsrc).2 hM
  rw [stageD_reads hst hi hz, readOperands_wires]
  exact ⟨rfl, rfl⟩

/-! ## Execute (R225, R254, R259) -/

section
variable {s : State} {i : Record}

theorem stageE_stalled (h : s.wires.stallEM = true) : stageE s = s := by simp [stageE, h]

theorem stageE_bubble (hst : s.wires.stallEM = false) (hi : s.de.cur = none) :
    stageE s = { s with em := { s.em with pending := none } } := by
  simp [stageE, hst, hi]

theorem stageE_pending (hst : s.wires.stallEM = false) (hi : s.de.cur = some i) :
    (stageE s).em.pending = some (execute i) := by
  simp [stageE, hst, hi]

/-- A load in E announces that its value is not there yet (R254). -/
theorem stageE_wires_load {r : Reg} (hst : s.wires.stallEM = false) (hi : s.de.cur = some i) (hd : i.rd = some r)
    (hr : r ≠ 0) (hl : i.isLoad = true) : (stageE s).wires = { s.wires with maskE := [r] } := by
  simp [stageE, hst, hi, liveReg_eq_some.2 ⟨hd, hr⟩, hl]

/-- Any other result is there for D to take (R254). -/
theorem stageE_wires_result {r : Reg} (hst : s.wires.stallEM = false) (hi : s.de.cur = some i) (hd : i.rd = some r)
    (hr : r ≠ 0) (hl : i.isLoad = false) :
    (stageE s).wires = { s.wires with bypE := { tag := some r, value := (execute i).res } } := by
  simp [stageE, hst, hi, liveReg_eq_some.2 ⟨hd, hr⟩, hl]

theorem stageE_wires_noDest (hst : s.wires.stallEM = false) (hi : s.de.cur = some i)
    (hd : i.rd = none ∨ i.rd = some 0) : (stageE s).wires = s.wires := by
  simp [stageE, hst, hi, liveReg_eq_none hd]

end

/-- Settles O39: the laws of E, by what it holds. -/
theorem executeStage : Obligations.ExecuteStage :=
  ⟨fun _ => stageE_stalled, fun _ => stageE_bubble, fun s _ hst hi =>
    ⟨stageE_pending hst hi, stageE_em_cur s, by rw [stageE_eq s], fun _ => stageE_wires_load hst hi,
      fun _ => stageE_wires_result hst hi, stageE_wires_noDest hst hi⟩⟩

/-! ## Memory (R224, R253, R255) -/

theorem stageM_bubble {s : State} (h : s.em.cur = none) : stageM s = { s with mw := { s.mw with pending := none } } := by
  simp [stageM, h]

/-- What is neither load nor store leaves M at once. -/
theorem stageM_passes {s : State} {i : Record} (hi : s.em.cur = some i) (hl : i.isLoad = false)
    (hs : i.isStore = false) : stageM s = leaveMemory i s := by
  simp [stageM, hi, hl, hs]

/-- Settles O40: such an instruction leaves M, which sets the flush wires and `byp_M` only. -/
theorem memoryStagePasses : Obligations.MemoryStagePasses := by
  refine ⟨fun s => stageM_bubble, fun s i hi hl hs hw => ?_⟩
  rw [stageM_passes hi hl hs]
  have hrest := leaveMemory_rest i s
  rw [hw] at hrest
  refine ⟨rfl, ?flush, fun hne => ?target, fun r hd hr => ?offer, fun hd => ?none, ?_, ?_, ?_, ?_⟩
  case flush => rw [leaveMemory_flush, hw, ← needsFlush_iff]; rfl
  case target => rw [leaveMemory_flushTarget, if_pos ((needsFlush_iff i).2 hne)]
  case offer => rw [leaveMemory_bypM, liveReg_eq_some.2 ⟨hd, hr⟩, wbval_of_not_load hl]
  case none => rw [leaveMemory_bypM, liveReg_eq_none hd, hw]; rfl
  all_goals rw [hrest]; rfl

/-! ## The stall combinations of a cycle (R235) -/

/-- Settles O43: a cycle waits, has a data hazard, or moves. -/
theorem stallCombinations : Obligations.StallCombinations := by
  intro s hw hf
  have hcycle := cycle_outcome hw hf
  generalize beforeAdvance s = b at hcycle
  cases hcycle with
  | waits _ _ wires clear =>
    obtain ⟨hEM, hDE, hFD⟩ := wires
    obtain ⟨hdh, hfl⟩ := clear
    simp [hEM, hDE, hFD, hdh, hfl]
  | hazard _ _ wires | moves wires =>
    obtain ⟨hEM, hDE, hFD, hdh⟩ := wires
    simp [hEM, hDE, hFD, hdh]

/-! ## The latches in a cycle (R231, R234) -/

/-- All four latches show the same records in both states. -/
def State.SameShown (s t : State) : Prop :=
  t.fd.cur = s.fd.cur ∧ t.de.cur = s.de.cur ∧ t.em.cur = s.em.cur ∧ t.mw.cur = s.mw.cur

theorem sameShown_andThen {s t : State} {next : State → State} (h : s.SameShown t) (hn : t.SameShown (next t)) :
    s.SameShown (t.andThen next) := by
  refine andThen_induct h fun _ => ?_
  obtain ⟨hfd, hde, hem, hmw⟩ := h
  obtain ⟨hfd', hde', hem', hmw'⟩ := hn
  exact ⟨hfd'.trans hfd, hde'.trans hde, hem'.trans hem, hmw'.trans hmw⟩

/-- No phase of a cycle before the latch advance changes what a latch shows, be it cut short or not (R234). -/
theorem beforeAdvance_sameShown (s : State) : s.SameShown (beforeAdvance s) := by
  rw [beforeAdvance_row]
  have hmem : s.SameShown (phaseMemory s) := by simp [State.SameShown]
  have hW (t : State) : t.SameShown (stageW t) := by simp [State.SameShown]
  have hM (t : State) : t.SameShown (stageM t) := by simp [State.SameShown]
  have hE (t : State) : t.SameShown (stageE t) := by simp [State.SameShown]
  have hD (t : State) : t.SameShown (stageD t) := by simp [State.SameShown]
  have hF (t : State) : t.SameShown (stageF t) := by simp [State.SameShown]
  have hthroughM := sameShown_andThen (sameShown_andThen hmem (hW _)) (hM _)
  have hthroughD := sameShown_andThen (sameShown_andThen hthroughM (hE _)) (hD _)
  exact sameShown_andThen hthroughD (hF _)

/-- A clock does nothing, stops before the latch advance, or finishes its cycle. -/
theorem clock_induct {P : State → Prop} {s : State} (halted : P s) (cut : P (beforeAdvance s))
    (done : P (finish (beforeAdvance s))) : P (clock s) :=
  andThen_induct halted fun _ => andThen_induct cut fun _ => done

/-- A cycle that is not cut short finishes. -/
theorem clock_eq_finish {s : State} (h0 : s.fault = none) (hf : (beforeAdvance s).fault = none) :
    clock s = finish (beforeAdvance s) := by
  rw [clock_of_none h0, andThen_of_none hf]

/-- Settles O44: before the latch advance every latch is as it was, and then its stall wire decides. -/
theorem latchDiscipline : Obligations.LatchDiscipline := by
  intro s
  obtain ⟨hfd, hde, hem, -⟩ := beforeAdvance_sameShown s
  refine ⟨beforeAdvance_sameShown s, fun hfl => ⟨fun hst => ?em, fun hst => ?de, fun hst => ?fd⟩, fun h0 hf => ?_⟩
  case em =>
    exact clock_induct (P := fun t => t.em.cur = s.em.cur) rfl hem (by rw [finish_em, hfl, hst]; exact hem)
  case de =>
    exact clock_induct (P := fun t => t.de.cur = s.de.cur) rfl hde (by rw [finish_de, hfl, hst]; exact hde)
  case fd =>
    exact clock_induct (P := fun t => t.fd.cur = s.fd.cur) rfl hfd (by rw [finish_fd, hfl, hst]; exact hfd)
  rw [clock_eq_finish h0 hf, finish_mw, finish_em, finish_de, finish_fd]
  refine ⟨rfl, fun hfl => ⟨fun hst => ?_, fun hst => ?_, fun hst => ?_⟩⟩ <;> rw [hfl, hst] <;> rfl

/-! ## Flushes (R231, R232, R253) -/

/-- E leaves the flush wires to M. -/
theorem stageE_flush (s : State) :
    (stageE s).wires.flush = s.wires.flush ∧ (stageE s).wires.flushTarget = s.wires.flushTarget := by
  cases stageE_outcome s with
  | stalled _ same => rw [same]; exact ⟨rfl, rfl⟩
  | bubble _ _ wires | executes _ _ _ wires => rw [wires]; exact ⟨rfl, rfl⟩

/-- D leaves the flush wires to M. -/
theorem stageD_flush {s : State} (h : (stageD s).fault = none) :
    (stageD s).wires.flush = s.wires.flush ∧ (stageD s).wires.flushTarget = s.wires.flushTarget := by
  cases stageD_outcome h with
  | stalled _ same => rw [same]; exact ⟨rfl, rfl⟩
  | bubble _ _ wires | hazard _ _ _ _ wires | issues _ _ _ _ _ _ _ _ _ wires => rw [wires]; exact ⟨rfl, rfl⟩

/-- What leaves M in a cycle that began with cleared wires, and what the flush wires then say. -/
inductive LeaveOutcome (s b : State) : Prop where
  /-- M was empty, or its instruction waits -/
  | stays (mw : b.mw.pending = none) (flush : b.wires.flush = false)
  /-- the instruction in M, with a load's value in it, leaves M -/
  | leaves (j i : Record) (cur : s.em.cur = some j) (pc : i.pc = j.pc) (next : i.nextPc = j.nextPc) (rd : i.rd = j.rd)
      (mw : b.mw.pending = some i) (flush : b.wires.flush = needsFlush i)
      (target : needsFlush i = true → b.wires.flushTarget = i.nextPc)

theorem leave_outcome {s : State} (hw : s.wires = Wires.cleared) (hf : (beforeAdvance s).fault = none) :
    LeaveOutcome s (beforeAdvance s) := by
  obtain ⟨-, -, hM, -, hD, hb⟩ := beforeAdvance_next hf
  obtain ⟨hflE, htaE⟩ := stageE_flush (stageM (stageW (phaseMemory s)))
  obtain ⟨hflD, htaD⟩ := stageD_flush hD
  have hmw : (beforeAdvance s).mw.pending = (stageM (stageW (phaseMemory s))).mw.pending := by simp [hb]
  have hfl : (beforeAdvance s).wires.flush = (stageM (stageW (phaseMemory s))).wires.flush := by
    rw [hb, stageF_wires, hflD, hflE]
  have hta : (beforeAdvance s).wires.flushTarget = (stageM (stageW (phaseMemory s))).wires.flushTarget := by
    rw [hb, stageF_wires, htaD, htaE]
  have hww : (stageW (phaseMemory s)).wires = Wires.cleared := by simp [hw]
  have hcur : (stageW (phaseMemory s)).em.cur = s.em.cur := by simp
  cases stageM_outcome hM with
  | bubble _ wires mw => exact .stays (hmw.trans mw) (by rw [hfl, wires, hww]; rfl)
  | waits j _ wires mw => exact .stays (hmw.trans mw) (by rw [hfl, wires, hww]; rfl)
  | leaves j i cur pc next rd wires mw =>
    refine .leaves j i (hcur ▸ cur) pc next rd (hmw.trans mw) ?_ fun hne => ?_
    · rw [hfl, wires, leaveMemory_flush, hww]
      rfl
    · rw [hta, wires, leaveMemory_flushTarget, if_pos hne]

theorem finish_pc_of_flush {s : State} (h : s.wires.flush = true) : (finish s).pc = s.wires.flushTarget := by
  simp [finish, endCycle, advance, count, h]

/-- Settles O45: M alone sets the flush wires, for the instruction that leaves it. -/
theorem flush : Obligations.Flush := by
  intro s h0 hf hw
  rw [clock_eq_finish h0 hf]
  cases leave_outcome hw hf with
  | stays mw flush => simp [mw, flush]
  | leaves j i cur pc next rd mw flush target =>
    refine ⟨?_, fun hfl => ⟨i, j, cur, pc, next, rd, ?_, ?_, ?_, ?_, ?_⟩⟩
    · rw [flush, needsFlush_iff, mw]
      simp
    · rw [finish_mw]; exact mw
    · rw [finish_pc_of_flush hfl]; exact target (flush ▸ hfl)
    · rw [finish_fd, hfl]; rfl
    · rw [finish_de, hfl]; rfl
    · rw [finish_em, hfl]; rfl

/-! ## The counters of a cycle (R285) -/

theorem slotCount_eq_ite (r : Option Record) : slotCount r = if r = none then 0 else 1 := by
  cases r <;> rfl

/-- Two of the three events can only be a data hazard and a flush: a structural stall goes with neither (R235). -/
theorem multi_eq {w : Wires} (h : w.stallEM = true → w.dataHazard = false ∧ w.flush = false) :
    bitNat (decide (2 ≤ bitNat w.dataHazard + bitNat w.stallEM + bitNat w.flush)) =
      if w.dataHazard = true ∧ w.flush = true then 1 else 0 := by
  cases hEM : w.stallEM with
  | false => cases w.dataHazard <;> cases w.flush <;> rfl
  | true =>
    obtain ⟨hdh, hfl⟩ := h hEM
    simp [hdh, hfl, bitNat]

/-- F creates a record exactly where it runs and delivers one (R228). -/
theorem cycle_created {s b : State} (h : CycleOutcome s b) :
    b.counters.created = s.counters.created + if b.wires.stallFD = true then 0 else slotCount b.fd.pending := by
  cases h with
  | waits _ _ wires _ _ _ _ _ _ created =>
    obtain ⟨-, -, hFD⟩ := wires
    rw [if_pos hFD, created]
    rfl
  | hazard _ _ wires _ _ _ _ _ _ created =>
    obtain ⟨-, -, hFD, -⟩ := wires
    rw [if_pos hFD, created]
    rfl
  | moves wires _ _ _ _ fd =>
    obtain ⟨-, -, hFD, -⟩ := wires
    rw [if_neg (by simp [hFD]), fetched_count fd]

/-- A structural stall comes with neither a data hazard nor a flush (R235). -/
theorem cycle_stallEM {s b : State} (h : CycleOutcome s b) (hst : b.wires.stallEM = true) :
    b.wires.dataHazard = false ∧ b.wires.flush = false := by
  cases h with
  | waits _ _ _ clear => exact clear
  | hazard _ _ wires | moves wires =>
    obtain ⟨hEM, -⟩ := wires
    simp [hEM] at hst

/-- Settles O46: W and F count in the stages, every other counter at the end of the cycle. -/
theorem counterIncrements : Obligations.CounterIncrements := by
  intro s h0 hf hw b one
  have hcycle := cycle_outcome hw hf
  have hone (r : Option Record) : slotCount r = one r := slotCount_eq_ite r
  have hfd : b.fd.cur = s.fd.cur := (beforeAdvance_sameShown s).1
  rw [clock_eq_finish h0 hf, finish_counters, beforeAdvance_counters hf]
  refine ⟨rfl, ?retired, rfl, rfl, rfl, ?multi, ?created, ?flushed⟩
  case retired => exact congrArg (s.counters.retired + ·) (hone _)
  case multi => exact congrArg (s.counters.multi + ·) (multi_eq (cycle_stallEM hcycle))
  case created => rw [← hone]; exact cycle_created hcycle
  case flushed =>
    simp only [← hone, ← hfd]
    rfl

end Sys2Proof.Machine
end

section
/-! PROOFS. The statement of spec/51_hazard_forwarding.md on where D takes an operand from (R256). -/

namespace Sys2Proof.Machine

/-! ## The selection of an operand (R256) -/

theorem regEntry_of_ne_zero (s : State) {x : Reg} (hx : x ≠ 0) : s.regEntry x = s.regs[x.toNat]'x.isLt := by
  rw [State.regEntry, if_neg hx]

theorem operandSource_of_absent_or_zero {w : Wires} {r : Option Reg} (h : r = none ∨ r = some 0) :
    operandSource w r = .zero := by
  rw [operandSource, liveReg_eq_none h]

theorem operandSource_of_ne_zero {w : Wires} {x : Reg} (hx : x ≠ 0) :
    operandSource w (some x) =
      if w.bypE.tag = some x then .bypE else if w.bypM.tag = some x then .bypM else .registerFile := by
  rw [operandSource, liveReg_eq_some.2 ⟨rfl, hx⟩]

section
variable {s : State} {r : Option Reg} {x : Reg}

theorem readOperand_zero (h : operandSource s.wires r = .zero) : readOperand s r = .ok 0 := by
  simp only [readOperand, h]

theorem readOperand_bypE (h : operandSource s.wires r = .bypE) : readOperand s r = .ok s.wires.bypE.value := by
  simp only [readOperand, h]

theorem readOperand_bypM (h : operandSource s.wires r = .bypM) : readOperand s r = .ok s.wires.bypM.value := by
  simp only [readOperand, h]

theorem readOperand_registerFile (h : operandSource s.wires (some x) = .registerFile) :
    readOperand s (some x) = if (s.regEntry x).valid then .ok (s.regEntry x).value else .error x := by
  simp only [readOperand, h]

end

/-- Settles O36: an absent register and x0 select no source; any other register selects the first of the two bypasses whose
tag names it, and the register file where neither does. -/
theorem operandSelection : Obligations.OperandSelection := by
  rintro s (_ | x)
  case none => exact readOperand_zero (operandSource_of_absent_or_zero (.inl rfl))
  case some =>
    by_cases hx : x = 0
    · subst hx
      exact readOperand_zero (operandSource_of_absent_or_zero (.inr rfl))
    have hsource := operandSource_of_ne_zero (w := s.wires) hx
    by_cases hE : s.wires.bypE.tag = some x
    · rw [readOperand_bypE (hsource.trans (if_pos hE))]
      simp only [hx, hE, if_true, if_false]
    rw [if_neg hE] at hsource
    by_cases hM : s.wires.bypM.tag = some x
    · rw [readOperand_bypM (hsource.trans (if_pos hM))]
      simp only [hx, hE, hM, if_true, if_false]
    · rw [readOperand_registerFile (hsource.trans (if_neg hM)), regEntry_of_ne_zero s hx]
      simp only [hx, hE, hM, if_false]

end Sys2Proof.Machine
end

section
/-! PROOFS. The statement of spec/60_exceptions.md on the cycle a fault records (R270). -/

namespace Sys2Proof.Machine

/-- Each of the three faults of a fetch (R271, R272, R275) is stamped with the current cycle. -/
theorem fetchAlone_fault_cycle {s : State} {f : Fault} (h : fetchAlone s = .error f) : f.cycle = s.counters.cycles := by
  unfold fetchAlone at h
  split at h
  case isTrue =>
    cases h
    rfl
  case isFalse =>
    split at h
    case isTrue =>
      cases h
      rfl
    case isFalse =>
      split at h <;> cases h
      rfl

/-- An instruction executed alone faults for its first invalid source or, with its sources read, in its access; either
fault is stamped with the current cycle. -/
theorem exec_fault_cycle {i : Instr} {s : State} {f : Fault} (h : exec i s = .fault f) :
    f.cycle = s.counters.cycles := by
  cases hfind : i.sources.find? s.invalid with
  | none =>
    rw [exec_readable (find_invalid_eq_none_iff.1 hfind)] at h
    rcases access_fault h with rfl | rfl <;> rfl
  | some r =>
    rw [exec_invalid hfind] at h
    cases h
    rfl

/-- Settles O30: at the cycle level every function of a cycle stamps the fault it records with that cycle; at the
instruction level the fetch and the instruction do. -/
theorem faultCycle : Obligations.FaultCycle := by
  intro s f h0 h
  obtain ⟨-, ⟨-, hf⟩ | ⟨-, hf | ⟨i, -, he⟩⟩⟩ := step_fault h0 h
  · obtain ⟨-, hstamp⟩ := beforeAdvance_faultNow s
    exact (hstamp f hf).resolve_left (by simp [h0])
  · exact fetchAlone_fault_cycle hf
  · exact exec_fault_cycle he

end Sys2Proof.Machine
end
